-- ==== Sys2Proof/Word.lean ====
section
/-! DEFINITION. The word types of the part: bytes, host half-words, Exchange Memory words, stream indices,
samples and mark sets. -/

namespace Sys2Proof

/-- A byte of Exchange Memory or of a link frame. -/
abbrev Byte := BitVec 8

/-- A host half-word (R196). -/
abbrev Half := BitVec 16

/-- An Exchange Memory word of 32 bits (R197). -/
abbrev Word := BitVec 32

/-- A stream index: 32 bits, sums and differences modulo 2^32 (00 section 6.2, R5). -/
abbrev Index := BitVec 32

/-- A mark set: bit k stands for pair position k of 0..587 (R2). -/
abbrev MarkSet := BitVec 588

/-- One left and one right 16-bit signed sample (R1). -/
structure Pair where
  left : BitVec 16
  right : BitVec 16
  deriving DecidableEq, Repr

/-- The pair with both samples 0 (R103). -/
def Pair.silent : Pair := { left := 0, right := 0 }

end Sys2Proof
end

