-- ==== Sys2Proof/Syntax.lean ====
section
/-! DEFINITION. The commands of the part: one constructor of `Instr` per row of spec/opcode_table.json, with the
operands the row's event carries. A command that software places in an attention cell names only the cell's owner:
its arguments are read from the cell in the event (R203). -/

namespace Sys2Proof

/-- The two lanes (R4). -/
inductive LaneId
  | a
  | b
  deriving DecidableEq, Repr

/-- The two read transports (00 section 1.1). -/
inductive TransportId
  | t0
  | t1
  deriving DecidableEq, Repr

/-- Lane A is served by T0 and lane B by T1; the wiring is fixed (R4). -/
def TransportId.lane : TransportId → LaneId
  | .t0 => .a
  | .t1 => .b

/-- The four attention cells (10 section 10.5). -/
inductive CellId
  | laneA
  | laneB
  | mech
  | settings
  deriving DecidableEq, Repr

/-- The mark part of a BLOCK frame: the OVERMARKED indication, or a run list (first position, length) (R2, R124). -/
inductive MarkReport
  | overmarked
  | runs (list : List (BitVec 10 × BitVec 10))
  deriving DecidableEq, Repr

/-- The reasons of SEEK_FAIL (R124). -/
inductive SeekReason
  | noFocus
  | outOfRange
  deriving DecidableEq, Repr

/-- One constructor per row of spec/opcode_table.json, in the table's order. -/
inductive Instr
  /-- HOST_XM_READ (R197): a host read at an even host offset of the window or the home area. -/
  | hostXmRead (offset : Nat)
  /-- HOST_XM_WRITE_LOW (R198): a host write of the low half of an XM word. -/
  | hostXmWriteLow (offset : Nat) (value : Half)
  /-- HOST_XM_WRITE_HIGH (R198): a host write of the high half of an XM word. -/
  | hostXmWriteHigh (offset : Nat) (value : Half)
  /-- ENABLE_WRITE (R200). -/
  | enableWrite (value : Half)
  /-- PAGE_WRITE (R200). -/
  | pageWrite (value : Half)
  /-- CONTROL_RESET (R201): a CONTROL write with RESET 1. -/
  | controlReset (value : Half)
  /-- REGISTER_WRITE_IGNORED (R200): a write to IDENT, STATE, NEWS, an unused offset, or CONTROL with RESET 0. -/
  | registerWriteIgnored (offset : Nat) (value : Half)
  /-- RESET_N_ASSERT (R201). -/
  | resetNAssert
  /-- RESET_N_RELEASE (R201). -/
  | resetNRelease
  /-- XM_INITIALISATION_DONE (R201, R202). -/
  | xmInitialisationDone
  /-- ATTENTION_EMPTY (R203): the owner takes an attention event and finds 0. -/
  | attentionEmpty (cell : CellId)
  /-- UNKNOWN_COMMAND (R204): the owner takes an attention event with a code that is none of its cell's. -/
  | unknownCommand (cell : CellId)
  /-- START (R164), taken from the lane's cell. -/
  | start (lane : LaneId)
  /-- STOP (R165). -/
  | stop (lane : LaneId)
  /-- PAUSE (R166). -/
  | pause (lane : LaneId)
  /-- GO (R166). -/
  | go (lane : LaneId)
  /-- SKIP (R167). -/
  | skip (lane : LaneId)
  /-- EJECT (R178), taken from the MECH cell. -/
  | eject
  /-- INSERT (R178). -/
  | insert
  /-- RESCAN (R178). -/
  | rescan
  /-- REVIVE (R130). -/
  | revive
  /-- APPLY (R208, R209), taken from the SETTINGS cell. -/
  | apply
  /-- BLOCK (R124, R138): label, marks and 588 pairs. -/
  | block (transport : TransportId) (label : BitVec 24) (marks : MarkReport) (pairs : List Pair)
  /-- SEEK_DONE (R136). -/
  | seekDone (transport : TransportId) (address : BitVec 24)
  /-- SEEK_FAIL (R137). -/
  | seekFail (transport : TransportId) (reason : SeekReason)
  /-- STATUS (R140): spindle SPINNING, disc PRESENT. -/
  | status (transport : TransportId) (spinning : Bool) (present : Bool)
  /-- TOC_ENTRY (R131). -/
  | tocEntry (transport : TransportId) (track : Byte) (address : BitVec 24)
  /-- TOC_END (R132). -/
  | tocEnd (transport : TransportId) (count : Byte) (leadOut : BitVec 24)
  /-- FRAME_CHECK_ERROR (R123): the bytes the link delivered, up to and including the check byte of the dropped frame. -/
  | frameCheckError (transport : TransportId) (bytes : List Byte)
  /-- FRAME_KIND_INVALID (R210): the bytes the link delivered, the last being a kind byte that is no up-frame kind. -/
  | frameKindInvalid (transport : TransportId) (bytes : List Byte)
  /-- LINK_IDLE_IN_FRAME (R210): the bytes the link delivered before it stayed idle for 16 bit times. -/
  | linkIdleInFrame (transport : TransportId) (bytes : List Byte)
  /-- STARTUP_WINDOW_EXPIRY (R129). -/
  | startupWindowExpiry (transport : TransportId)
  /-- TOC_LIMIT_EXPIRY (R133). -/
  | tocLimitExpiry (transport : TransportId)
  /-- SEEK_TIMER_EXPIRY (R135). -/
  | seekTimerExpiry (transport : TransportId)
  /-- STALL (R138): expiry of the cadence timer. -/
  | stall (transport : TransportId)
  /-- SPINDLE_STOP_LIMIT_EXPIRY (R142). -/
  | spindleStopLimitExpiry (transport : TransportId)
  /-- CHECK_COMPLETION (R69). -/
  | checkCompletion
  /-- PLAYOUT_ADVANCE (R105). -/
  | playoutAdvance (lane : LaneId)
  /-- BLOCK_END_NOT_PLAYING (R105, R113). -/
  | blockEndNotPlaying (lane : LaneId)
  /-- FALL_END (R113, R165). -/
  | fallEnd (lane : LaneId)
  /-- WAIT_TIMER_EXPIRY (R177, R181): of the request at this place of the loader queue, 0 the oldest. -/
  | waitTimerExpiry (place : Nat)
  /-- STAGE_END_TAKE (R185): whether a disc was taken. -/
  | stageEndTake (taken : Bool)
  /-- STAGE_END_CARRY (R185). -/
  | stageEndCarry
  /-- STAGE_END_PLACE (R185). -/
  | stageEndPlace
  /-- STAGE_END_SENSE (R191): PRESENT or ABSENT. -/
  | stageEndSense (present : Bool)
  /-- MOVE_LIMIT_EXPIRY (R187). -/
  | moveLimitExpiry
  /-- SETTLE_TIMER_EXPIRY (R186). -/
  | settleTimerExpiry
  /-- RECOVERY_TIMER_EXPIRY (R193). -/
  | recoveryTimerExpiry
  /-- MECHANISM_STOP (R189): the new values of the lines, not both good. -/
  | mechanismStop (flapClosed : Bool) (supplyGood : Bool)
  /-- MECHANISM_RETURN (R190): both lines show their good values. -/
  | mechanismReturn
  /-- AUDIO_PORT_FRAME (R103, R111). -/
  | audioPortFrame (lane : LaneId)
  /-- MECHANISM_LINE_CHANGE (R189): the new values of the lines. -/
  | mechanismLineChange (flapClosed : Bool) (supplyGood : Bool)
  /-- HOST_REGISTER_READ (R197, R200): a host read of a register or an unused offset. -/
  | hostRegisterRead (offset : Nat)
  deriving DecidableEq, Repr

end Sys2Proof
end

