-- ==== Sys2Proof/Decode.lean ====
section
/-! DEFINITION. spec/opcode_table.json gives no row any bits, so no word spells a command. (The frames of the
transport links have byte encodings of their own: Machine/Link.lean.) -/

namespace Sys2Proof

/-- The command a word spells by the table's bits: none, since no row of the table gives bits. -/
def decodeTableWord (_nbits _w : Nat) : Option Instr := none

end Sys2Proof
end

