-- ==== Sys2Proof/Config.lean ====
section
/-! DEFINITION. What the part fixes: sizes, limits and default settings. The spec leaves no value of an effect
undefined, so there is no free value here. -/

namespace Sys2Proof.Config

/-- Pairs of a block (R1). -/
def pairsPerBlock : Nat := 588

/-- Cells of the shock store (01 section 1.5). -/
def storeCells : Nat := 3072

/-- One past the last disc address, the end address of a full disc (R1, R132). -/
def discEnd : Nat := 360000

/-- Spans of a Continuity Map (R16). -/
def maxSpans : Nat := 32

/-- Cue entries of a lane (R149). -/
def cueEntries : Nat := 24

/-- Segments of a lane (R157). -/
def maxSegments : Nat := 4

/-- Blocks of a hold queue (R41). -/
def holdPlaces : Nat := 4

/-- In-order arrivals that make a good event (R62). -/
def goodRun : Nat := 75

/-- First positions after the last delivered one that a chained repair reaches (R94). -/
def chainReach : Nat := 8

/-- Shared unmarked pairs a candidate needs (R68). -/
def sharedPairs : Nat := 294

/-- The pair at which a planned fall begins (R112). -/
def fallPair : Nat := 460

/-- The gain level of FULL (R104). -/
def fullGain : Nat := 128

/-- Startup window in ms (R126). -/
def startupWindow : Nat := 3000

/-- TOC limit in ms (R126). -/
def tocLimit : Nat := 5000

/-- Spindle stop limit in ms (R126). -/
def spindleStopLimit : Nat := 2000

/-- Move limit in ms (R176). -/
def moveLimit : Nat := 6000

/-- Settle time in ms (R176). -/
def settleTime : Nat := 300

/-- Largest value of a 16-bit counter. -/
def max16 : Nat := 65535

/-- Largest value of a 32-bit counter. -/
def max32 : Nat := 4294967295

/-- The part code read at IDENT (R200). -/
def partCode : Half := 0x2620

/-- The 31 default values of the settings block in index order (10 section 10.8). -/
def defaultSettings : List Nat :=
  [1536, 2, 38, 38, 6, 45, 768, 384, 150, 3, 8, 150, 75] ++
  [1536, 2, 38, 38, 6, 45, 768, 384, 150, 3, 8, 150, 75] ++
  [800, 60, 4, 300, 10]

end Sys2Proof.Config
end

