-- ==== Sys2Proof/Machine/State.lean ====
section
/-! DEFINITION. The state of the part as plain data, the reasons a step can stop, and the state after reset.
Each block of the part has a structure of its own; `State` holds two lanes, two transport link controllers, the
Splice Unit, the shock store, the loader controller, the Host Port, Exchange Memory and the settings. -/

namespace Sys2Proof.Machine

/-! ### Stops -/

/-- Reasons for a fault. The spec stops the part nowhere, so there is none: nothing raises one. -/
inductive Fault
  deriving DecidableEq, Repr

/-- Reasons for a refusal. -/
inductive Refusal
  /-- Raised by an arm of `exec` whose command has no meaning yet; no arm raises it. Safe: it stops. -/
  | notModelled (mnemonic : String)
  deriving DecidableEq, Repr

/-! ### Named values -/

/-- Condition of a span (R16, R17). -/
inductive Condition
  | good
  | weak
  | settled
  | hole
  | lost
  deriving DecidableEq, Repr

/-- Class of a copy as it is judged at its write (R3); `none` for a block that delivers no copy. -/
inductive CopyClass
  | clean
  | short
  | long
  | none
  deriving DecidableEq, Repr

/-- Lane state (R151). -/
inductive LaneState
  | idle
  | binding
  | priming
  | playing
  | underrun
  | paused
  | held
  | starved
  | stopping
  deriving DecidableEq, Repr

/-- Walk mode (R151). -/
inductive WalkMode
  | once
  | cycle
  deriving DecidableEq, Repr

/-- Outcome of a cue (R170). -/
inductive CueOutcome
  | completed
  | completedWithLoss
  | cutByHost
  | discAbsent
  | discChanged
  | discBusy
  | badCue
  | loaderFailed
  deriving DecidableEq, Repr

/-- Play-out mark of a lane (R151, R168). -/
inductive PlayOutMark
  | discChanged
  | discAbsent
  deriving DecidableEq, Repr

/-- Run state of the run context (R41). -/
inductive RunState
  | none
  | seeking
  /-- OPEN. -/
  | opened
  | ended
  deriving DecidableEq, Repr

/-- Run kind (R41). -/
inductive RunKind
  | fill
  | repair
  deriving DecidableEq, Repr

/-- Check state of a run (R41). -/
inductive CheckState
  | none
  | waiting
  | awaiting
  | matched
  | noAnchor
  deriving DecidableEq, Repr

/-- Work mode of a repair scheduler (R78). -/
inductive WorkMode
  | none
  | fill
  | repair
  | rest
  deriving DecidableEq, Repr

/-- Rest reason of a repair scheduler (R78). -/
inductive RestReason
  | windowFull
  | cueEnd
  | mapFull
  | quiet
  | heldByLane
  | mechanism
  deriving DecidableEq, Repr

/-- Read speed (R125). -/
inductive Speed
  | x1
  | x2
  | x4
  deriving DecidableEq, Repr

/-- Form of a block in play (R104). -/
inductive BlockForm
  | copy
  | silentLost
  | silentFault
  deriving DecidableEq, Repr

/-- Gain state of a playout unit (R104). -/
inductive GainState
  | full
  | falling
  | silent
  | rising
  deriving DecidableEq, Repr

/-- Cause of a loss (R118). -/
inductive LossCause
  | lost
  | gap
  | storeFault
  deriving DecidableEq, Repr

/-- Cause of an underrun (R104, R115). -/
inductive UnderrunCause
  | transport
  | mechanism
  | read
  deriving DecidableEq, Repr

/-- State of a transport link controller (R127). -/
inductive TlcState
  | offline
  | starting
  | empty
  | toc
  | ready
  | seeking
  | reading
  | mechHeld
  deriving DecidableEq, Repr

/-- Spindle field (R126). -/
inductive Spindle
  | unknown
  | stopped
  | spinning
  deriving DecidableEq, Repr

/-- Disc field (R126). -/
inductive Disc
  | unknown
  | absent
  | present
  deriving DecidableEq, Repr

/-- Occupancy of a location (R173). -/
inductive Occupancy
  | unknown
  | no
  | yes
  deriving DecidableEq, Repr

/-- Loader state (R176). -/
inductive LoaderState
  | idle
  | homing
  | moving
  | settling
  | stopped
  | recovering
  | faulted
  deriving DecidableEq, Repr

/-- Stage of the loader mechanism (09 opening, R185, R191). -/
inductive Stage
  | take
  | carry
  | place
  | sense
  deriving DecidableEq, Repr

/-- Outcome of a loader request (R186). -/
inductive LoaderOutcome
  | done
  | noDisc
  | noRoom
  | discBusy
  | jammed
  | interrupted
  | withdrawn
  deriving DecidableEq, Repr

/-- How a homing began (R191). -/
inductive HomingKind
  | afterReset
  | atReturn
  | rescan
  deriving DecidableEq, Repr

/-- A location by its location number: SLOT1..SLOT6 are 0..5, T0 6, T1 7, ARM 8, FRONT 9 (R173). -/
abbrev Loc := Fin 10

/-! ### Settings -/

/-- The applied settings of a lane (10 section 10.8), each as the 32-bit number APPLY read (R212). -/
structure LaneSettings where
  share : Nat
  readSpeed : Nat
  startLead : Nat
  restartLead : Nat
  guard : Nat
  repairMargin : Nat
  repairStartLead : Nat
  fillFloor : Nat
  refillGap : Nat
  maxAttempts : Nat
  interpLimit : Nat
  keepLimit : Nat
  absorbLimit : Nat
  deriving DecidableEq, Repr

/-- The applied settings of the part. -/
structure Settings where
  laneA : LaneSettings
  laneB : LaneSettings
  seekLimit : Nat
  cadenceLimit : Nat
  violationLimit : Nat
  loaderLead : Nat
  loaderWaitLimit : Nat
  deriving DecidableEq, Repr

/-- Lane settings from 13 values in index order. -/
def LaneSettings.ofList (v : List Nat) : LaneSettings :=
  { share := v.getD 0 0, readSpeed := v.getD 1 0, startLead := v.getD 2 0, restartLead := v.getD 3 0,
    guard := v.getD 4 0, repairMargin := v.getD 5 0, repairStartLead := v.getD 6 0, fillFloor := v.getD 7 0,
    refillGap := v.getD 8 0, maxAttempts := v.getD 9 0, interpLimit := v.getD 10 0, keepLimit := v.getD 11 0,
    absorbLimit := v.getD 12 0 }

/-- Settings from the 31 values of a settings block in index order. -/
def Settings.ofList (v : List Nat) : Settings :=
  { laneA := .ofList v, laneB := .ofList (v.drop 13), seekLimit := v.getD 26 0, cadenceLimit := v.getD 27 0,
    violationLimit := v.getD 28 0, loaderLead := v.getD 29 0, loaderWaitLimit := v.getD 30 0 }

/-! ### Host Port, pins and attention -/

/-- The Host Port: its registers, its two holding registers and the value it drives for the last host read. -/
structure HostPort where
  page : BitVec 3
  enable : BitVec 4
  /-- Word number and high half, when valid (R197). -/
  readHold : Option (Nat × Half)
  /-- Word number and low half, when valid (R198). -/
  writeHold : Option (Nat × Half)
  /-- What the last host read returned. -/
  data : Half
  deriving DecidableEq, Repr

/-- The input pins and the state of the reset (R200, R201). -/
structure Pins where
  /-- RESET_N is asserted. -/
  resetN : Bool
  /-- The Host Port's reset flag of a CONTROL reset: set and cleared within one event (R201). -/
  resetFlag : Bool
  /-- XM_READY. -/
  xmReady : Bool
  /-- FLAP_N shows the flap closed. -/
  flapClosed : Bool
  /-- MECH_PWR shows the supply good. -/
  supplyGood : Bool
  deriving DecidableEq, Repr

/-- Attention pending of the four cells (R203). -/
structure Attention where
  laneA : Bool
  laneB : Bool
  mech : Bool
  settings : Bool
  deriving DecidableEq, Repr

/-! ### Lanes -/

/-- The copy of a segment that spans, runs and requests keep: cue index, base index, first and end address, disc
(R41, R16). -/
structure SegRef where
  cue : Nat
  base : Index
  first : Nat
  stop : Nat
  disc : Option Nat
  deriving DecidableEq, Repr

/-- The repair part of a span (R16). -/
structure RepairPart where
  attempts : Nat
  active : Bool
  aborts : Nat
  deriving DecidableEq, Repr

/-- A span record of the Continuity Map (R16). -/
structure Span where
  first : Index
  count : Nat
  seg : SegRef
  cond : Condition
  repair : Option RepairPart
  deriving DecidableEq, Repr

/-- The result counts of a taken cue (R151, R170). -/
structure CueCounts where
  played : Nat
  muted : Nat
  interpolated : Nat
  skips : Nat
  repaired : Nat
  slips : Nat
  gapless : Bool
  deriving DecidableEq, Repr

/-- A taken cue: entry index, host fields as read at the take, and its counts (R151). -/
structure TakenCue where
  entry : Nat
  slot : Nat
  track : Nat
  start : Nat
  stop : Nat
  holdAfter : Bool
  counts : CueCounts
  deriving DecidableEq, Repr

/-- A segment of the segment list (R157). -/
structure Segment where
  cue : TakenCue
  base : Index
  first : Nat
  stop : Nat
  disc : Option Nat
  deriving DecidableEq, Repr

/-- A disc's table of contents: track starts in track order, lead-out, fingerprint (R132). -/
structure Toc where
  starts : List Nat
  leadOut : Nat
  fingerprint : Word
  deriving DecidableEq, Repr

/-- The disc identity of a lane (R151), with the table it was established from (R154). -/
structure Identity where
  toc : Toc
  home : Option Nat
  deriving DecidableEq, Repr

/-- A lane's outstanding BIND: tag, slot, and whether its place is MOVING (else QUEUED) (R151). -/
structure Bind where
  tag : Byte
  slot : Nat
  moving : Bool
  deriving DecidableEq, Repr

/-- The lane context of a lane sequencer (R151). -/
structure Sequencer where
  state : LaneState
  mode : WalkMode
  position : Nat
  /-- The current cue, named by the base index of its segment. -/
  current : Option Index
  pendingCue : Option TakenCue
  segments : List Segment
  identity : Option Identity
  lanePasses : Nat
  entryPasses : List Nat
  bind : Option Bind
  bindTag : Byte
  reRequest : Bool
  mark : Option PlayOutMark
  unplayed : Nat
  reading : Bool
  /-- Refresh count of the lane status record. -/
  refresh : BitVec 16
  /-- Address of the last played position, 0 before any (R5). -/
  lastAddress : Nat
  deriving DecidableEq, Repr

/-- A block as it arrived: label, marks or OVERMARKED, pairs (R41). -/
structure Arrival where
  label : BitVec 24
  marks : MarkReport
  pairs : List Pair
  deriving DecidableEq, Repr

/-- The run context of block intake (R41). -/
structure RunContext where
  state : RunState
  kind : RunKind
  target : Index
  targetAddress : Nat
  seekPosition : Index
  anchored : Bool
  seg : Option SegRef
  /-- The segment of the target as the seek was sent: the target's disc address is read through it (log 32). -/
  targetSeg : Option SegRef
  /-- The label error e. -/
  err : Int
  check : CheckState
  held : List Arrival
  /-- How many held blocks arrived before the checked block (R48). -/
  heldBefore : Nat
  inOrder : Nat
  deriving DecidableEq, Repr

/-- The lane counters of the lane status record (R164). -/
structure LaneCounters where
  skips : Nat
  strays : Nat
  overruns : Nat
  noMatches : Nat
  unanchored : Nat
  slips : Nat
  repaired : Nat
  muted : Nat
  storeFaults : Nat
  interpolated : Nat
  deriving DecidableEq, Repr

/-- The repair target: first and last position, and the segment of the span (R78). -/
structure RepairTarget where
  first : Index
  last : Index
  seg : SegRef
  deriving DecidableEq, Repr

/-- The attempt in flight: number, speed, steady (R78). -/
structure Attempt where
  number : Nat
  speed : Speed
  steady : Bool
  deriving DecidableEq, Repr

/-- The state of a repair scheduler (R78). -/
structure Scheduler where
  mode : WorkMode
  rest : Option RestReason
  target : Option RepairTarget
  attempt : Option Attempt
  runSpeed : Speed
  runSteady : Bool
  quiet : Bool
  mapFullHold : Bool
  refillWait : Bool
  /-- Position of the run's latest intake result that carried one (R94, R99). -/
  runPosition : Option Index
  deriving DecidableEq, Repr

/-- How a marked run of a block in play is concealed (R108, R109). -/
inductive Conceal
  | mute
  | interpolate (left right : Option Pair)
  deriving DecidableEq, Repr

/-- One run of the concealment plan: first pair, length, treatment. -/
structure ConcealedRun where
  first : Nat
  length : Nat
  how : Conceal
  deriving DecidableEq, Repr

/-- The block in play (R104). -/
structure PlayBlock where
  position : Index
  form : BlockForm
  pairs : List Pair
  marks : MarkSet
  plan : List ConcealedRun
  /-- Next pair to send, 0..588. -/
  next : Nat
  plannedFall : Bool
  /-- A fall of R113 has been made in the block (R117). -/
  fell : Bool
  deriving DecidableEq, Repr

/-- The pace of a fall: one step per pair, or a shortened fall from level `g` over `r` pairs at its `j`-th (R111). -/
inductive FallPace
  | step
  | short (g r j : Nat)
  deriving DecidableEq, Repr

/-- The edge pair (R104). -/
structure EdgePair where
  position : Index
  pair : Pair
  usable : Bool
  deriving DecidableEq, Repr

/-- A loss episode being built (R104, R118). -/
structure Episode where
  first : Index
  address : Nat
  blocks : Nat
  muted : Nat
  cause : LossCause
  deriving DecidableEq, Repr

/-- The loss note of the lane status record (R119). -/
structure LossNote where
  first : Index
  address : Nat
  blocks : Nat
  muted : Nat
  cause : LossCause
  overwritten : Nat
  deriving DecidableEq, Repr

/-- The state of a playout unit (R104). -/
structure Playout where
  block : Option PlayBlock
  gain : GainState
  level : Nat
  fall : FallPace
  holdPoint : Option Index
  edge : EdgePair
  cause : Option UnderrunCause
  episode : Option Episode
  note : LossNote
  /-- The frame last sent on the serial audio port (R103). -/
  out : Pair
  deriving DecidableEq, Repr

/-- What one event has marked on a lane; clear between events (the model's own). -/
structure LaneMarks where
  /-- The event changed the lane state or passed through another (R171). -/
  stateChanged : Bool
  /-- The event contains a playout advance or a taken SKIP (R171). -/
  refresh : Bool
  /-- A scheduling point of the repair scheduler is due in the event (R80). -/
  schedule : Bool
  /-- LOSS is to be set once the status record holds the loss note (R119). -/
  loss : Bool
  /-- The slots and tags of the lane's BINDs that a faulted loader is to answer JAMMED (R177). -/
  jammed : List (Nat × Byte)
  deriving DecidableEq, Repr

/-- A lane: its map, sequencer, intake, scheduler, playout unit and counters. -/
structure Lane where
  p : Index
  f : Index
  spans : List Span
  /-- Guard in force at the map (R22). -/
  guard : Nat
  /-- Made-good count of the activation (R33). -/
  madeGood : Nat
  seq : Sequencer
  run : RunContext
  rsc : Scheduler
  plu : Playout
  count : LaneCounters
  marks : LaneMarks
  deriving DecidableEq, Repr

/-! ### Shock store -/

/-- An assigned cell of the shock store (R10): cell number, the position it is assigned to, its tag, mark set, pairs
and check word. -/
structure StoreCell where
  number : Nat
  position : Index
  tagIndex : Index
  tagAddress : Nat
  marks : MarkSet
  pairs : List Pair
  check : BitVec 16
  deriving DecidableEq, Repr

/-! ### Transport link controllers -/

/-- A seek as sent: address, speed, steady (R126). -/
structure Seek where
  address : Nat
  speed : Speed
  steady : Bool
  deriving DecidableEq, Repr

/-- A down-frame (R125). -/
inductive DownFrame
  | seek (s : Seek)
  | halt
  | spin (on : Bool)
  | readToc
  | reset
  deriving DecidableEq, Repr

/-- The receiving side of a link: hunting for a delimiter, or in a frame with the bytes after it (R210). -/
inductive Receiver
  | hunting
  | inFrame (bytes : List Byte)
  deriving DecidableEq, Repr

/-- The TOC assembly: entries (track, start) with tracks rising, and the invalid mark (R126, R131). -/
structure Assembly where
  entries : List (Nat × Nat)
  invalid : Bool
  deriving DecidableEq, Repr

/-- The timers of a transport link controller, each with the limit in ms it started with (R126). -/
structure TlcTimers where
  startup : Option Nat
  toc : Option Nat
  seek : Option Nat
  cadence : Option Nat
  spindleStop : Option Nat
  deriving DecidableEq, Repr

/-- The counters of the transport record (R147). -/
structure TlcCounters where
  checkErrors : Nat
  strays : Nat
  seeks : Nat
  halts : Nat
  seekTimeouts : Nat
  seekFailures : Nat
  stalls : Nat
  tocTimeouts : Nat
  invalidTocs : Nat
  badEvents : Nat
  faults : Nat
  offlines : Nat
  deriving DecidableEq, Repr

/-- A transport link controller (R126). -/
structure Tlc where
  state : TlcState
  spindle : Spindle
  disc : Disc
  seek : Option Seek
  loaderHold : Bool
  stopPending : Bool
  mechStopped : Bool
  assembly : Assembly
  timers : TlcTimers
  violation : Nat
  count : TlcCounters
  lastFailure : Option SeekReason
  fingerprint : Word
  refresh : BitVec 16
  receiver : Receiver
  /-- Down-frames sent in the last event, in order (R122). -/
  sent : List DownFrame
  deriving DecidableEq, Repr

/-! ### Splice Unit -/

/-- A check request (R66): the checked block and the run segment. -/
structure CheckRequest where
  block : Arrival
  seg : SegRef
  deriving DecidableEq, Repr

/-- A reading of R67 that answered COPY, for candidate e: mark set and pairs. -/
structure Reading where
  err : Int
  marks : MarkSet
  pairs : List Pair
  deriving DecidableEq, Repr

/-- The running check (R73): its lane, request, the comparable candidates' readings in the order of R69, the
candidate reached, and the discarded mark. -/
structure RunningCheck where
  lane : LaneId
  request : CheckRequest
  readings : List Reading
  reached : Int
  discarded : Bool
  deriving DecidableEq, Repr

/-- The Splice Unit: BUSY with a running check, or IDLE, and the two pending places (R73). -/
structure Splice where
  running : Option RunningCheck
  pendingA : Option CheckRequest
  pendingB : Option CheckRequest
  deriving DecidableEq, Repr

/-! ### Loader -/

/-- A request of the loader queue (R177). -/
inductive LoaderRequest
  | bind (lane : LaneId) (slot : Nat) (tag : Byte)
  | eject (location : Nat)
  | insert (slot : Nat)
  | rescan
  deriving DecidableEq, Repr

/-- A waiting request: its wait timer with the limit in s it started with, its due mark, and whether the homing in
progress serves it (R177, R181, R190). -/
structure Waiting where
  request : LoaderRequest
  timer : Option Nat
  due : Bool
  served : Bool
  deriving DecidableEq, Repr

/-- A leg: the disc goes from one location into another (R182). -/
structure Leg where
  source : Loc
  dest : Loc
  deriving DecidableEq, Repr

/-- The current request: its legs still to do (the first is in progress) and the number of the leg in progress. -/
structure Current where
  request : LoaderRequest
  legs : List Leg
  leg : Nat
  deriving DecidableEq, Repr

/-- A homing in progress: how it began, the location being sensed, and the destination of its put-away leg (R191). -/
structure Homing where
  kind : HomingKind
  sensing : Loc
  putAway : Option Loc
  deriving DecidableEq, Repr

/-- A slot table entry; its TOC facts and TOC record are the one `toc` (R173, R174). -/
structure SlotEntry where
  occupancy : Occupancy
  toc : Option Toc
  home : Option Nat
  deriving DecidableEq, Repr

/-- The last outcome of the loader record: the request's kind and argument, and the outcome (R186). -/
structure LastOutcome where
  request : LoaderRequest
  outcome : LoaderOutcome
  deriving DecidableEq, Repr

/-- The loader's counters (R194). -/
structure LoaderCounters where
  moves : Nat
  forced : Nat
  jams : Nat
  interruptions : Nat
  withdrawals : Nat
  homings : Nat
  deriving DecidableEq, Repr

/-- A command to the loader mechanism: a stage with the locations it acts on, or a halt of the stage in progress. -/
inductive StageCommand
  | take (source : Loc)
  | carry (dest : Loc)
  | place (dest : Loc)
  | sense (location : Loc)
  | halt
  deriving DecidableEq, Repr

/-- The loader controller (R176). -/
structure Loader where
  state : LoaderState
  current : Option Current
  stage : Option Stage
  homing : Option Homing
  queue : List Waiting
  moveLimit : Option Nat
  settleTimer : Option Nat
  recoveryTimer : Option Nat
  stopped0 : Bool
  stopped1 : Bool
  /-- The mechanism field is STOPPED. -/
  mechStopped : Bool
  faultMark : Bool
  /-- The settle time that runs is that of a homing at the mechanism's return (R192). -/
  toRecovery : Bool
  slots : Vector SlotEntry 10
  last : Option LastOutcome
  count : LoaderCounters
  refresh : BitVec 16
  /-- Stage commands given in the last event, in order. -/
  commands : List StageCommand
  deriving DecidableEq, Repr

/-! ### Overlapping accesses (R199) -/

/-- A point within an event of the part: how many words of the cue tables, the settings block and the lanes' news words
it has read, and how many words it has written to XM since the last of them. -/
structure Moment where
  reads : Nat
  writes : Nat
  deriving DecidableEq, Repr

/-- A word that the last event of the part has written and that has not landed for the host yet: its byte address, what
the host still finds there, for a news word the bits that the part's write sets, and the moment of its landing. -/
structure Unlanded where
  address : Nat
  old : Word
  sets : Option Word
  moment : Moment
  deriving DecidableEq, Repr

/-- A host commit (R198): its byte address, the word it commits, and whether it commits the whole word or its high half
alone, the low half of `word` being 0 then. -/
structure Commit where
  address : Nat
  word : Word
  whole : Bool
  deriving DecidableEq, Repr

/-- A host access that stands in the queue directly behind an event: the moment of the event at which it falls, and what it
commits, `none` for a read and for a commit that the event does not see. -/
structure Access where
  moment : Moment
  commit : Option Commit
  deriving DecidableEq, Repr

/-- How host accesses fall among the words of an event of the part (R199; the model's own, log 7). -/
structure Overlap where
  /-- For each next host access that stands directly behind an event: the moment of the event at which it falls. With the
  list at its end an access falls after the event. -/
  schedule : List Moment
  /-- The accesses behind the last event that fall within it and have not been taken yet, in their order. -/
  within : List Access
  /-- The words of the last event that have not landed, in the order they were written. -/
  unlanded : List Unlanded
  /-- The moment the last event has reached. -/
  now : Moment
  deriving DecidableEq, Repr

/-! ### The whole -/

/-- The state of the part and the queue of commands. -/
structure State where
  host : HostPort
  pins : Pins
  attention : Attention
  /-- Exchange Memory: byte address and byte, addresses rising, no zero byte listed (an unlisted byte is 0). -/
  xm : List Host.Cell
  /-- The schedule of overlapping accesses, and what of it is under way (log 7). -/
  overlap : Overlap
  applied : Settings
  generation : BitVec 16
  laneA : Lane
  laneB : Lane
  /-- The assigned cells of the shock store, cell numbers rising. -/
  store : List StoreCell
  tlc0 : Tlc
  tlc1 : Tlc
  splice : Splice
  loader : Loader
  /-- The commands that wait, first in first out. -/
  pending : List Instr
  deriving DecidableEq, Repr

/-! ### Reset values -/

/-- The defaults of 10 section 10.8. -/
def Settings.default : Settings := .ofList Config.defaultSettings

/-- A lane's reset values (R15, R40, R44, R102, R121, R172). -/
def Lane.reset : Lane where
  p := 0
  f := 0
  spans := []
  guard := 6
  madeGood := 0
  seq :=
    { state := .idle, mode := .once, position := 0, current := none, pendingCue := none, segments := [],
      identity := none, lanePasses := 0, entryPasses := List.replicate Config.cueEntries 0, bind := none, bindTag := 0,
      reRequest := false, mark := none, unplayed := 0, reading := false, refresh := 0, lastAddress := 0 }
  run :=
    { state := .none, kind := .fill, target := 0, targetAddress := 0, seekPosition := 0, anchored := false, seg := none,
      targetSeg := none, err := 0, check := .none, held := [], heldBefore := 0, inOrder := 0 }
  rsc :=
    { mode := .none, rest := none, target := none, attempt := none, runSpeed := .x1, runSteady := false, quiet := false,
      mapFullHold := false, refillWait := false, runPosition := none }
  plu :=
    { block := none, gain := .silent, level := 0, fall := .step, holdPoint := none,
      edge := { position := 0, pair := .silent, usable := false }, cause := none, episode := none,
      note := { first := 0, address := 0, blocks := 0, muted := 0, cause := .lost, overwritten := 0 }, out := .silent }
  count :=
    { skips := 0, strays := 0, overruns := 0, noMatches := 0, unanchored := 0, slips := 0, repaired := 0, muted := 0,
      storeFaults := 0, interpolated := 0 }
  marks := { stateChanged := false, refresh := false, schedule := false, loss := false, jammed := [] }

/-- A transport link controller's reset values (R148); the startup window starts at the release of reset (R128). -/
def Tlc.reset : Tlc where
  state := .starting
  spindle := .unknown
  disc := .unknown
  seek := none
  loaderHold := false
  stopPending := false
  mechStopped := false
  assembly := { entries := [], invalid := false }
  timers := { startup := none, toc := none, seek := none, cadence := none, spindleStop := none }
  violation := 0
  count :=
    { checkErrors := 0, strays := 0, seeks := 0, halts := 0, seekTimeouts := 0, seekFailures := 0, stalls := 0,
      tocTimeouts := 0, invalidTocs := 0, badEvents := 0, faults := 0, offlines := 0 }
  lastFailure := none
  fingerprint := 0
  refresh := 0
  receiver := .hunting
  sent := []

/-- An UNKNOWN slot table entry (R175). -/
def SlotEntry.unknown : SlotEntry := { occupancy := .unknown, toc := none, home := none }

/-- The loader controller's reset values (R195); the release of reset judges the lines (log 6). -/
def Loader.reset : Loader where
  state := .idle
  current := none
  stage := none
  homing := none
  queue := []
  moveLimit := none
  settleTimer := none
  recoveryTimer := none
  stopped0 := false
  stopped1 := false
  mechStopped := false
  faultMark := false
  toRecovery := false
  slots := Vector.replicate 10 .unknown
  last := none
  count := { moves := 0, forced := 0, jams := 0, interruptions := 0, withdrawals := 0, homings := 0 }
  refresh := 0
  commands := []

/-- The beginning of an event. -/
def Moment.start : Moment := { reads := 0, writes := 0 }

/-- Every access and every event whole (log 7). -/
def Overlap.whole : Overlap := { schedule := [], within := [], unlanded := [], now := .start }

/-- The state in which the reset has been entered and the initialisation runs (R201): every block at its reset
values, XM_READY 0, RESET_N released. The lines' values are inputs: closed and good here (log 3). -/
def State.reset : State where
  host := { page := 0, enable := 0, readHold := none, writeHold := none, data := 0 }
  pins := { resetN := false, resetFlag := false, xmReady := false, flapClosed := true, supplyGood := true }
  attention := { laneA := false, laneB := false, mech := false, settings := false }
  xm := []
  overlap := .whole
  applied := .default
  generation := 0
  laneA := .reset
  laneB := .reset
  store := []
  tlc0 := .reset
  tlc1 := .reset
  splice := { running := none, pendingA := none, pendingB := none }
  loader := .reset
  pending := []

end Sys2Proof.Machine
end

