-- ==== Sys2Proof/Machine/Ops.lean ====
section
/-! DEFINITION. The named operations over Exchange Memory, stream indices, counters and the parts of the state.
Exchange Memory is a list of (byte address, byte) with addresses rising and no zero byte; every change of it goes
through `Memory.write`. -/

namespace Sys2Proof.Machine

/-! ### Exchange Memory -/

/-- Exchange Memory: the bytes that are not 0, addresses rising (R202: all other words 0). -/
abbrev Memory := List Host.Cell

namespace Memory

/-- Bytes of Exchange Memory (10 opening: 32 KiB). -/
def size : Nat := 0x8000

/-- What an unlisted address reads as (R202). -/
def unlisted : Byte := 0

/-- The byte at an address. -/
def byte : Memory → Nat → Byte
  | [], _ => unlisted
  | (k, v) :: rest, a => if k = a then v else byte rest a

/-- The entries of consecutive bytes from `base` on: those that differ from an unlisted byte. -/
def listing : Nat → List Byte → Memory
  | _, [] => []
  | base, b :: rest => if b = unlisted then listing (base + 1) rest else (base, b) :: listing (base + 1) rest

/-- Memory with consecutive bytes written from `base` on. -/
def write (m : Memory) (base : Nat) (bytes : List Byte) : Memory :=
  m.filter (fun c => decide (c.1 < base)) ++
    (listing base bytes ++ m.filter (fun c => decide (base + bytes.length ≤ c.1)))

/-- The canonical form from an address on: addresses rise, lie in Exchange Memory, and no byte is 0. -/
def wfFrom : Nat → Memory → Bool
  | _, [] => true
  | low, (a, v) :: rest => decide (low ≤ a) && decide (a < size) && decide (v ≠ unlisted) && wfFrom (a + 1) rest

/-- The canonical form of Exchange Memory. -/
def wf (m : Memory) : Bool := wfFrom 0 m

/-- The 32-bit word at a byte address, little-endian (R197). -/
def word (m : Memory) (a : Nat) : Word :=
  byte m (a + 3) ++ byte m (a + 2) ++ byte m (a + 1) ++ byte m a

end Memory

/-- The two bytes of a half-word, least significant first. -/
def halfBytes (h : Half) : List Byte := [h.extractLsb' 0 8, h.extractLsb' 8 8]

/-- The four bytes of a word, least significant first (11 opening). -/
def wordBytes (w : Word) : List Byte :=
  [w.extractLsb' 0 8, w.extractLsb' 8 8, w.extractLsb' 16 8, w.extractLsb' 24 8]

/-- The word at a byte address of Exchange Memory. -/
def State.word (s : State) (a : Nat) : Word := Memory.word s.xm a

/-! ### Accesses that fall within an event (R199, log 7) -/

/-- A moment of an event before another. -/
def Moment.before (a b : Moment) : Bool := decide (a.reads < b.reads) || (a.reads == b.reads && decide (a.writes < b.writes))

/-- The later of two moments. -/
def Moment.latest (a b : Moment) : Moment := if a.before b then b else a

/-- The moment after one word more is written. -/
def Moment.wrote (m : Moment) : Moment := { m with writes := m.writes + 1 }

/-- The moment after so many words more are read. -/
def Moment.read (m : Moment) (n : Nat) : Moment := if n = 0 then m else { reads := m.reads + n, writes := 0 }

/-- One word written by the part, over what it held, kept as not landed while a host access is to fall within the event. -/
def Overlap.wrote (o : Overlap) (a : Nat) (old : Word) (sets : Option Word) : Overlap :=
  { o with
    now := o.now.wrote
    unlanded := if o.within.isEmpty then o.unlanded
      else o.unlanded ++ [{ address := a, old := old, sets := sets, moment := o.now.wrote }] }

/-- Consecutive words written by the part from a byte address on, over what a memory holds. -/
def Overlap.wroteWords (m : Memory) : Overlap → Nat → List Word → Overlap
  | o, _, [] => o
  | o, a, _ :: rest => (o.wrote a (Memory.word m a) none).wroteWords m (a + 4) rest

/-- What a commit leaves over a word. -/
def Commit.over (c : Commit) (w : Word) : Word :=
  if c.whole then c.word else c.word.extractLsb' 16 16 ++ w.extractLsb' 0 16

/-- The host commits to an address that the event finds when it has read `i` words more: those that have fallen then, and
fell after every write of the event that a test names. -/
def Overlap.fallen (o : Overlap) (i a : Nat) (p : Unlanded → Bool) : List Commit :=
  o.within.filterMap fun x =>
    if decide (x.moment.reads ≤ o.now.reads + i) && o.unlanded.all (fun u => !(p u && x.moment.before u.moment)) then
      x.commit.filter fun c => c.address == a
    else none

/-- The word at an address as the event of the part reads it after `i` reads more: as the host commits leave it that fall
before that read, each over what the part had written there (R199, log 7). -/
def State.seenWord (s : State) (i a : Nat) : Word :=
  (s.overlap.fallen i a fun u => u.address == a).foldl (fun w c => c.over w) (s.word a)

/-- The state after so many words read by the event. -/
def State.countReads (s : State) (n : Nat) : State :=
  { s with overlap := { s.overlap with now := s.overlap.now.read n } }

/-- The state with one word written by the host: nothing of it is to land. -/
def State.putWord (s : State) (a : Nat) (w : Word) : State := { s with xm := Memory.write s.xm a (wordBytes w) }

/-- The state with consecutive words written by the part from a byte address on; they land by rising address. R207 puts the
fields of a record between its two refresh counts and says nothing of their order: that they land by rising address is the
model's choice (log 64). -/
def State.setWords (s : State) (a : Nat) (ws : List Word) : State :=
  { s with xm := Memory.write s.xm a (ws.flatMap wordBytes), overlap := s.overlap.wroteWords s.xm a ws }

/-- The state with one word written by the part. -/
def State.setWord (s : State) (a : Nat) (w : Word) : State := s.setWords a [w]

/-- A word of four byte-sized fields, byte 0 first. -/
def packBytes (b0 b1 b2 b3 : Nat) : Word :=
  BitVec.ofNat 8 b3 ++ BitVec.ofNat 8 b2 ++ BitVec.ofNat 8 b1 ++ BitVec.ofNat 8 b0

/-- A word of two half-word fields, low half first. -/
def packHalves (low high : Nat) : Word := BitVec.ofNat 16 high ++ BitVec.ofNat 16 low

/-- Byte k of a word as a number. -/
def byteOf (w : Word) (k : Nat) : Nat := (w.extractLsb' (8 * k) 8).toNat

/-! ### Stream indices and counters -/

/-- `a` is before `b`: the difference read as a signed number is negative (00 section 6.2). -/
def before (a b : Index) : Bool := (a - b).msb

/-- The difference `a − b` of stream indices as a number (00 section 6.2). -/
def ahead (a b : Index) : Nat := (a - b).toNat

/-- The index `k` positions after `a`. -/
def plus (a : Index) (k : Nat) : Index := a + BitVec.ofNat 32 k

/-- The larger in stream order of two indices. -/
def later (a b : Index) : Index := if before a b then b else a

/-- A counter raised by `k` that stops at its largest value (R212). -/
def addUpTo (limit n k : Nat) : Nat := min limit (n + k)

/-- A 16-bit counter raised by 1 (R212). -/
def bump (n : Nat) : Nat := addUpTo Config.max16 n 1

/-! ### Lanes and transports -/

/-- The lane of a name. -/
def State.lane (s : State) : LaneId → Lane
  | .a => s.laneA
  | .b => s.laneB

/-- The state with a lane replaced. -/
def State.setLane (s : State) : LaneId → Lane → State
  | .a, x => { s with laneA := x }
  | .b, x => { s with laneB := x }

/-- The state with a lane changed. -/
def State.updLane (s : State) (l : LaneId) (g : Lane → Lane) : State := s.setLane l (g (s.lane l))

/-- The transport link controller that serves a lane (R4). -/
def State.tlc (s : State) : LaneId → Tlc
  | .a => s.tlc0
  | .b => s.tlc1

/-- The state with the transport link controller of a lane replaced. -/
def State.setTlc (s : State) : LaneId → Tlc → State
  | .a, x => { s with tlc0 := x }
  | .b, x => { s with tlc1 := x }

/-- The state with the transport link controller of a lane changed. -/
def State.updTlc (s : State) (l : LaneId) (g : Tlc → Tlc) : State := s.setTlc l (g (s.tlc l))

/-- The state with the loader controller changed. -/
def State.updLoader (s : State) (g : Loader → Loader) : State := { s with loader := g s.loader }

/-- The applied settings of a lane. -/
def State.settings (s : State) : LaneId → LaneSettings
  | .a => s.applied.laneA
  | .b => s.applied.laneB

/-- The applied share N of a lane. -/
def State.share (s : State) (l : LaneId) : Nat := (s.settings l).share

/-- A lane is enabled when its applied share is not 0 (R4). -/
def State.enabled (s : State) (l : LaneId) : Bool := s.share l != 0

/-- The other lane. -/
def LaneId.other : LaneId → LaneId
  | .a => .b
  | .b => .a

/-- The location of the transport of a lane: T0 is 6 and T1 is 7 (R173). -/
def trayOf : LaneId → Loc
  | .a => 6
  | .b => 7

/-- The location ARM. -/
def armLoc : Loc := 8

/-- The location FRONT. -/
def frontLoc : Loc := 9

/-- The location of magazine slot k in 1..6. -/
def slotLoc (k : Nat) : Loc := ⟨(k - 1) % 6, by omega⟩

/-- The slot table entry of a location. -/
def State.slot (s : State) (n : Loc) : SlotEntry := s.loader.slots[n]

/-- The part has been released from reset: the initialisation has ended and RESET_N is not asserted (R201). -/
def State.released (s : State) : Bool := s.pins.xmReady && !s.pins.resetN

/-- Both mechanism lines show their good values (R189). -/
def State.linesGood (s : State) : Bool := s.pins.flapClosed && s.pins.supplyGood

/-! ### Leads -/

/-- The buffered lead f − p (R21). -/
def Lane.bufferedLead (x : Lane) : Nat := ahead x.f x.p

/-- A condition that holds a copy, which is playable (R17). -/
def Condition.playable : Condition → Bool
  | .good => true
  | .weak => true
  | .settled => true
  | .hole => false
  | .lost => false

/-- The count of the leading playable positions of a span list. -/
def leadOf : List Span → Nat
  | [] => 0
  | x :: rest => if x.cond.playable then x.count + leadOf rest else 0

/-- The secure lead (R21). -/
def Lane.secureLead (x : Lane) : Nat := leadOf x.spans

/-! ### Segments -/

/-- The end index b + (a1 − a0) of a segment copy (R82). -/
def SegRef.endIndex (r : SegRef) : Index := plus r.base (r.stop - r.first)

/-- The disc address of position s through a segment copy: a0 + (s − b) (R16). -/
def SegRef.addressOf (r : SegRef) (s : Index) : Nat := r.first + ahead s r.base

/-- A segment copy holds position s: b ≤ s < b + (a1 − a0) (R157). -/
def SegRef.holds (r : SegRef) (s : Index) : Bool := decide (ahead s r.base < r.stop - r.first)

/-- The copy of a segment. -/
def Segment.ref (g : Segment) : SegRef :=
  { cue := g.cue.entry, base := g.base, first := g.first, stop := g.stop, disc := g.disc }

/-- The segment of the list that holds position s. -/
def Lane.segmentAt (x : Lane) (s : Index) : Option Segment := x.seq.segments.find? (fun g => g.ref.holds s)

/-- The last segment of the list. -/
def Lane.lastSegment (x : Lane) : Option Segment := x.seq.segments.getLast?

/-- `b` is a contiguous next segment of `a` (R49). -/
def SegRef.contiguous (a b : SegRef) : Bool :=
  b.first == a.stop && b.base == a.endIndex && b.disc == a.disc

/-- The list holds a contiguous next segment of a segment copy (R49). -/
def nextContiguous (segs : List Segment) (r : SegRef) : Option SegRef :=
  (segs.find? (fun g => r.contiguous g.ref)).map Segment.ref

end Sys2Proof.Machine
end

