-- ==== Sys2Proof/Machine/Crc.lean ====
section
/-! DEFINITION. The three check computations of the part, bitwise from the most significant bit of each byte, with no
reflection (R211). -/

namespace Sys2Proof.Machine

/-- One bit of a CRC register of `w` bits, the byte being already added at its top. -/
def crcBit (w poly c : Nat) : Nat :=
  if c.testBit (w - 1) then ((c <<< 1) % 2 ^ w) ^^^ poly else c <<< 1

/-- `n` bits of a CRC register. -/
def crcBits (w poly : Nat) : Nat → Nat → Nat
  | 0, c => c
  | n + 1, c =>
    match crcBit w poly c with
    | 0 => crcBits w poly n 0
    | k + 1 => crcBits w poly n (k + 1)

/-- A CRC register after a list of bytes. The split on 0 makes the register a numeral before the next byte, so that
Lean's kernel can run it. -/
def crc (w poly : Nat) : List Byte → Nat → Nat
  | [], c => c
  | b :: rest, c =>
    match crcBits w poly 8 (c ^^^ (b.toNat <<< (w - 8))) with
    | 0 => crc w poly rest 0
    | k + 1 => crc w poly rest (k + 1)

/-- The check byte of a link frame: x^8 + x^2 + x + 1, initial 0, over the kind and the payload (R123, R211). -/
def frameCheck (kindAndPayload : List Byte) : Byte := BitVec.ofNat 8 (crc 8 0x07 kindAndPayload 0)

/-- Bytes of a number of `n` bytes, least significant first. -/
def leBytes : Nat → Nat → List Byte
  | 0, _ => []
  | n + 1, v => BitVec.ofNat 8 v :: leBytes n (v / 256)

/-- The disc fingerprint: CRC-32 0x04C11DB7 over track count, starts and lead-out, inverted (R132, R211). -/
def fingerprintOf (starts : List Nat) (leadOut : Nat) : Word :=
  ~~~ BitVec.ofNat 32 (crc 32 0x04C11DB7
    (leBytes 1 starts.length ++ starts.flatMap (leBytes 4) ++ leBytes 4 leadOut) 0xFFFFFFFF)

/-- The bytes of a pair: left low, left high, right low, right high (R210, R211). -/
def pairBytes (q : Pair) : List Byte := halfBytes q.left ++ halfBytes q.right

/-- The mark set as 74 bytes: position k is bit k mod 8 of byte k ÷ 8 (R211). -/
def markBytes (m : MarkSet) : List Byte := (List.range 74).map (fun k => m.extractLsb' (8 * k) 8)

/-- The cell check word: CRC-16 0x1021, initial all ones, over stream index, disc address, mark set and pairs
(R10, R211). -/
def cellCheck (tagIndex : Index) (tagAddress : Nat) (marks : MarkSet) (pairs : List Pair) : BitVec 16 :=
  BitVec.ofNat 16 (crc 16 0x1021
    (wordBytes tagIndex ++ leBytes 4 tagAddress ++ markBytes marks ++ pairs.flatMap pairBytes) 0xFFFF)

end Sys2Proof.Machine
end

