-- ==== Sys2Proof/WellFormed.lean ====
section
/-! DEFINITION. Which terms of `Instr` are commands the outside of the part can give: host offsets that fall in the
area the row names, register writes with the bit the row names, frames within their kind's limits (R124, R210) and
line values that fit the row (R189). -/

namespace Sys2Proof

/-- An even host offset of the 8 KiB host space (R196). -/
def hostOffsetOk (o : Nat) : Bool := o % 2 == 0 && o < 0x2000

/-- A host offset of the window or of the home area (R196). -/
def xmOffset (o : Nat) : Bool := o < 0x1F00

/-- The low half of an XM word: XM offset 4n (R197). The window and the home area begin at multiples of 4. -/
def lowHalf (o : Nat) : Bool := o % 4 == 0

/-- Offsets at which a write has no effect beyond R197: IDENT, STATE, NEWS, unused, CONTROL with RESET 0 (R200). -/
def ignoredWrite (o : Nat) (v : Half) : Bool :=
  o == 0x1F00 || o == 0x1F02 || o == 0x1F04 || (o == 0x1F0A && !v.getLsbD 0) || 0x1F0C ≤ o

/-- A BLOCK payload that the link's layout admits: at most 8 runs, 588 pairs (R123, R210). -/
def blockOk (marks : MarkReport) (pairs : List Pair) : Bool :=
  (match marks with
   | .overmarked => true
   | .runs l => l.length ≤ 8) && pairs.length == Config.pairsPerBlock

/-- Which commands can be given. -/
def WellFormed : Instr → Bool
  | .hostXmRead o => hostOffsetOk o && xmOffset o
  | .hostXmWriteLow o _ => hostOffsetOk o && xmOffset o && lowHalf o
  | .hostXmWriteHigh o _ => hostOffsetOk o && xmOffset o && !lowHalf o
  | .enableWrite _ => true
  | .pageWrite _ => true
  | .controlReset v => v.getLsbD 0
  | .registerWriteIgnored o v => hostOffsetOk o && ignoredWrite o v
  | .resetNAssert => true
  | .resetNRelease => true
  | .xmInitialisationDone => true
  | .attentionEmpty _ => true
  | .unknownCommand _ => true
  | .start _ => true
  | .stop _ => true
  | .pause _ => true
  | .go _ => true
  | .skip _ => true
  | .eject => true
  | .insert => true
  | .rescan => true
  | .revive => true
  | .apply => true
  | .block _ _ marks pairs => blockOk marks pairs
  | .seekDone _ _ => true
  | .seekFail _ _ => true
  | .status _ _ _ => true
  | .tocEntry _ _ _ => true
  | .tocEnd _ _ _ => true
  | .frameCheckError _ bytes => 0 < bytes.length
  | .frameKindInvalid _ bytes => 0 < bytes.length
  | .linkIdleInFrame _ bytes => 0 < bytes.length
  | .startupWindowExpiry _ => true
  | .tocLimitExpiry _ => true
  | .seekTimerExpiry _ => true
  | .stall _ => true
  | .spindleStopLimitExpiry _ => true
  | .checkCompletion => true
  | .playoutAdvance _ => true
  | .blockEndNotPlaying _ => true
  | .fallEnd _ => true
  | .waitTimerExpiry place => place < 4
  | .stageEndTake _ => true
  | .stageEndCarry => true
  | .stageEndPlace => true
  | .stageEndSense _ => true
  | .moveLimitExpiry => true
  | .settleTimerExpiry => true
  | .recoveryTimerExpiry => true
  | .mechanismStop flap power => !(flap && power)
  | .mechanismReturn => true
  | .audioPortFrame _ => true
  | .mechanismLineChange _ _ => true
  | .hostRegisterRead o => hostOffsetOk o && !xmOffset o

end Sys2Proof
end

