-- ==== Sys2Proof/Machine/Operands.lean ====
section
/-! DEFINITION. The operand forms: host offsets, attention words, mark runs and mark sets, cue entries. -/

namespace Sys2Proof.Machine

/-! ### Host offsets (R196) -/

/-- Where a host access goes. -/
inductive HostTarget
  /-- The half at an XM byte offset. -/
  | xm (offset : Nat)
  | register (offset : Nat)
  | unused
  deriving DecidableEq, Repr

/-- Decoding of an even host offset with the PAGE in force (R196). -/
def hostTarget (page : BitVec 3) (o : Nat) : HostTarget :=
  if o < 0x1000 then .xm (page.toNat * 4096 + o)
  else if o < 0x1F00 then .xm (o - 0x1000)
  else if o < 0x1F0C then .register o
  else .unused

/-! ### Attention cells (10 section 10.5, 11 section 11.2) -/

/-- XM offset of an attention cell. -/
def cellOffset : CellId → Nat
  | .laneA => 0x00
  | .laneB => 0x04
  | .mech => 0x08
  | .settings => 0x0C

/-- XM offset of a cell's answer word. -/
def answerOffset (c : CellId) : Nat := 0x10 + cellOffset c

/-- The attention cell of a lane. -/
def laneCell : LaneId → CellId
  | .a => .laneA
  | .b => .laneB

/-- The command codes of 11 section 11.2. -/
def codeStart : Nat := 0x01
/-- STOP. -/
def codeStop : Nat := 0x02
/-- PAUSE. -/
def codePause : Nat := 0x03
/-- GO. -/
def codeGo : Nat := 0x04
/-- SKIP. -/
def codeSkip : Nat := 0x05
/-- EJECT. -/
def codeEject : Nat := 0x11
/-- INSERT. -/
def codeInsert : Nat := 0x12
/-- RESCAN. -/
def codeRescan : Nat := 0x13
/-- REVIVE. -/
def codeRevive : Nat := 0x14
/-- APPLY. -/
def codeApply : Nat := 0x21

/-- The command codes of a cell (11 section 11.2). -/
def cellCodes : CellId → List Nat
  | .laneA => [codeStart, codeStop, codePause, codeGo, codeSkip]
  | .laneB => [codeStart, codeStop, codePause, codeGo, codeSkip]
  | .mech => [codeEject, codeInsert, codeRescan, codeRevive]
  | .settings => [codeApply]

/-- Attention pending of a cell (R203). -/
def State.attentionOf (s : State) : CellId → Bool
  | .laneA => s.attention.laneA
  | .laneB => s.attention.laneB
  | .mech => s.attention.mech
  | .settings => s.attention.settings

/-- The state with attention pending of a cell set or cleared. -/
def State.setAttention (s : State) (c : CellId) (on : Bool) : State :=
  match c with
  | .laneA => { s with attention := { s.attention with laneA := on } }
  | .laneB => { s with attention := { s.attention with laneB := on } }
  | .mech => { s with attention := { s.attention with mech := on } }
  | .settings => { s with attention := { s.attention with settings := on } }

/-- The value an attention cell holds. -/
def State.cellWord (s : State) (c : CellId) : Word := s.word (cellOffset c)

/-! ### Mark sets (R2, R3) -/

/-- The positions of one run: clipped at 587; a run of length 0 or with its first position above 587 adds nothing
(R2). -/
def runMarks (first length : Nat) : MarkSet := BitVec.ofNat 588 ((2 ^ length - 1) <<< first)

/-- The mark set of a run list: the union of its runs (R2). -/
def marksOfRuns (l : List (BitVec 10 × BitVec 10)) : MarkSet :=
  l.foldr (fun r m => runMarks r.1.toNat r.2.toNat ||| m) 0

/-- The mark set of a BLOCK frame, none when it carries OVERMARKED (R2). -/
def MarkReport.marks : MarkReport → Option MarkSet
  | .overmarked => none
  | .runs l => some (marksOfRuns l)

/-- The positions that begin at least `n + 1` consecutive marked positions. -/
def runsLonger (m : MarkSet) : Nat → MarkSet
  | 0 => m
  | n + 1 => m &&& (runsLonger m n >>> 1)

/-- The mark set has a long run, longer than `limit` (R3). -/
def hasLongRun (limit : Nat) (m : MarkSet) : Bool := runsLonger m limit != 0

/-- The class of a copy, judged with an InterpLimit (R3). -/
def copyClass (limit : Nat) : Option MarkSet → CopyClass
  | none => .none
  | some m => if m = 0 then .clean else if hasLongRun limit m then .long else .short

/-- The number of marked positions. -/
def countMarks (m : MarkSet) : Nat := (List.range 588).foldr (fun k n => if m.getLsbD k then n + 1 else n) 0

/-- The maximal runs of the positions `k, k + 1, …` (`n` of them), the run open at `k` having begun at `since`. -/
def runsFrom (m : MarkSet) : Nat → Nat → Option Nat → List (Nat × Nat)
  | 0, k, some since => [(since, k - since)]
  | 0, _, none => []
  | n + 1, k, some since =>
    if m.getLsbD k then runsFrom m n (k + 1) (some since) else (since, k - since) :: runsFrom m n (k + 1) none
  | n + 1, k, none => if m.getLsbD k then runsFrom m n (k + 1) (some k) else runsFrom m n (k + 1) none

/-- The maximal runs of a mark set as (first, length), in order (R3). -/
def markRuns (m : MarkSet) : List (Nat × Nat) := if m = 0 then [] else runsFrom m 588 0 none

/-- The pair at a position of a list of pairs. -/
def pairAt (pairs : List Pair) (k : Nat) : Pair := pairs.getD k .silent

/-- The merge of an arriving copy with the stored one (R55): the marks both have, and the arriving pair where only
the stored copy is marked. -/
def mergePairs (stored arriving : List Pair) (storedMarks arrivingMarks : MarkSet) : List Pair :=
  (List.range 588).map fun k =>
    if storedMarks.getLsbD k && !arrivingMarks.getLsbD k then pairAt arriving k else pairAt stored k

/-! ### Cue entries (R149, 11 section 11.3) -/

/-- XM offset of entry k of a lane's cue table. -/
def cueOffset (l : LaneId) (k : Nat) : Nat :=
  (match l with
   | .a => 0x1000
   | .b => 0x1400) + 32 * k

/-- The entry is ARMED, its state byte holding 1, as the event reads it after `i` reads more (R149, R150, R155, R199). -/
def State.armed (s : State) (l : LaneId) (k : Nat) (i : Nat := 0) : Bool :=
  byteOf (s.seenWord i (cueOffset l k)) 0 == 1

/-- No counts yet (R151). -/
def CueCounts.zero : CueCounts :=
  { played := 0, muted := 0, interpolated := 0, skips := 0, repaired := 0, slips := 0, gapless := false }

/-- The taken cue of an entry, from its host fields, each word as the take reads it (R151, R152, R199). The words are read in
the order 0x04, 0x08, 0x0C, between which a host commit may fall: the model's choice (log 61). Of the flags byte bit 0 alone
is looked at; bits 1 to 7, which R212 and the layout give no meaning, are ignored, the model's choice (log 63). -/
def State.readCue (s : State) (l : LaneId) (k : Nat) : TakenCue :=
  let w := s.seenWord 0 (cueOffset l k + 4)
  { entry := k, slot := byteOf w 0, track := byteOf w 1, start := (s.seenWord 1 (cueOffset l k + 8)).toNat,
    stop := (s.seenWord 2 (cueOffset l k + 12)).toNat, holdAfter := w.getLsbD 16, counts := .zero }

/-! ### Speeds -/

/-- The speed of a ReadSpeed setting 1, 2 or 4 (10 section 10.8). -/
def speedOf (n : Nat) : Speed := if n = 4 then .x4 else if n = 2 then .x2 else .x1

end Sys2Proof.Machine
end

