-- ==== Sys2Proof/Machine/Link.lean ====
section
/-! DEFINITION. The frames of a transport link as bytes, and the receiving side of a transport link controller
(R122 to R125, R210). -/

namespace Sys2Proof.Machine

/-- The delimiter byte (R210). -/
def delimiter : Byte := 0xA5

/-- An up-frame (R124). -/
inductive UpFrame
  | block (label : BitVec 24) (marks : MarkReport) (pairs : List Pair)
  | seekDone (address : BitVec 24)
  | seekFail (reason : SeekReason)
  | status (spinning present : Bool)
  | tocEntry (track : Byte) (address : BitVec 24)
  | tocEnd (count : Byte) (leadOut : BitVec 24)
  deriving DecidableEq, Repr

/-! ### Sending -/

/-- The code of a read speed: 0 for 1×, 1 for 2×, 2 for 4× (11 section 11.5). -/
def Speed.code : Speed → Nat
  | .x1 => 0
  | .x2 => 1
  | .x4 => 2

/-- The kind byte of a down-frame (R210). -/
def DownFrame.kind : DownFrame → Byte
  | .seek _ => 0x81
  | .halt => 0x82
  | .spin _ => 0x83
  | .readToc => 0x84
  | .reset => 0x85

/-- The payload of a down-frame, least significant byte first (R210). R210 names bits 0 to 2 of the last byte of a SEEK only:
bits 3 to 7 are sent as 0 (log 57). -/
def DownFrame.payload : DownFrame → List Byte
  | .seek k => leBytes 3 k.address ++ [BitVec.ofNat 8 (k.speed.code + if k.steady then 4 else 0)]
  | .halt => []
  | .spin on => [if on then 1 else 0]
  | .readToc => []
  | .reset => []

/-- A down-frame as sent: delimiter, kind, payload, check byte (R123, R210). -/
def DownFrame.bytes (d : DownFrame) : List Byte :=
  delimiter :: (d.kind :: d.payload) ++ [frameCheck (d.kind :: d.payload)]

/-! ### Up-frames as bytes -/

/-- Three bytes, least significant first. -/
def bytes24 (v : BitVec 24) : List Byte := [v.extractLsb' 0 8, v.extractLsb' 8 8, v.extractLsb' 16 8]

/-- Two bytes of a 10-bit run field; the upper 6 bits are sent 0 and ignored when received (R210). -/
def runField (v : BitVec 10) : List Byte := halfBytes (v.setWidth 16)

/-- The kind byte of an up-frame (R210). -/
def UpFrame.kind : UpFrame → Byte
  | .block _ _ _ => 0x01
  | .seekDone _ => 0x02
  | .seekFail _ => 0x03
  | .status _ _ => 0x04
  | .tocEntry _ _ => 0x05
  | .tocEnd _ _ => 0x06

/-- The run count byte and the runs of a BLOCK payload (R210). -/
def markPayload : MarkReport → List Byte
  | .overmarked => [0xFF]
  | .runs l => BitVec.ofNat 8 l.length :: l.flatMap (fun r => runField r.1 ++ runField r.2)

/-- The payload of an up-frame (R210). -/
def UpFrame.payload : UpFrame → List Byte
  | .block label marks pairs => bytes24 label ++ markPayload marks ++ pairs.flatMap pairBytes
  | .seekDone address => bytes24 address
  | .seekFail .noFocus => [1]
  | .seekFail .outOfRange => [2]
  | .status spinning present => [(if spinning then 1 else 0) ||| (if present then 2 else 0)]
  | .tocEntry track address => track :: bytes24 address
  | .tocEnd count leadOut => count :: bytes24 leadOut

/-- An up-frame as the bytes after its delimiter: kind, payload, check byte (R123, R210). -/
def UpFrame.bytes (u : UpFrame) : List Byte :=
  (u.kind :: u.payload) ++ [frameCheck (u.kind :: u.payload)]

/-! ### Receiving -/

/-- 24 bits of three bytes, least significant first. -/
def join24 (b0 b1 b2 : Byte) : BitVec 24 := b2 ++ b1 ++ b0

/-- The pairs of a run of bytes (R210). -/
def pairsOfBytes : List Byte → List Pair
  | b0 :: b1 :: b2 :: b3 :: rest => { left := b1 ++ b0, right := b3 ++ b2 } :: pairsOfBytes rest
  | _ => []

/-- The first n runs of a run of bytes, and the bytes after them; a run field's upper 6 bits are ignored (R210). -/
def runsOfBytes : Nat → List Byte → List (BitVec 10 × BitVec 10) × List Byte
  | n + 1, b0 :: b1 :: b2 :: b3 :: rest =>
    let r := runsOfBytes n rest
    (((b1 ++ b0).setWidth 10, (b3 ++ b2).setWidth 10) :: r.1, r.2)
  | _, rest => ([], rest)

/-- The runs of a BLOCK whose run count byte is `c`: 0xFF for OVERMARKED, else at most 8; a count of 9..254 is
collected as of 0 runs (R210). -/
def runCount (c : Byte) : Nat := if c.toNat ≤ 8 then c.toNat else 0

/-- How many bytes after the kind byte, the check byte included, a frame has, as far as the bytes collected so far
fix it (R210). None for a kind that is no up-frame kind. -/
def frameLength (kind : Byte) (rest : List Byte) : Option Nat :=
  if kind = 0x01 then
    some (match rest with
      | _ :: _ :: _ :: c :: _ => 4 + 4 * runCount c + 4 * Config.pairsPerBlock + 1
      | _ => 4 + 4 * Config.pairsPerBlock + 1)
  else if kind = 0x02 then some 4
  else if kind = 0x03 then some 2
  else if kind = 0x04 then some 2
  else if kind = 0x05 then some 5
  else if kind = 0x06 then some 5
  else none

/-- The up-frame of a kind and a payload, none when it is malformed (R123, R210). Bits 2 to 7 of a STATUS byte, which R210
does not name, are not looked at (log 57). -/
def parsePayload (kind : Byte) (payload : List Byte) : Option UpFrame :=
  if kind = 0x01 then
    match payload with
    | b0 :: b1 :: b2 :: c :: rest =>
      if c = 0xFF then
        if rest.length = 4 * Config.pairsPerBlock then
          some (.block (join24 b0 b1 b2) .overmarked (pairsOfBytes rest))
        else none
      else if c.toNat ≤ 8 then
        let r := runsOfBytes c.toNat rest
        if r.1.length = c.toNat ∧ r.2.length = 4 * Config.pairsPerBlock then
          some (.block (join24 b0 b1 b2) (.runs r.1) (pairsOfBytes r.2))
        else none
      else none
    | _ => none
  else if kind = 0x02 then
    match payload with
    | [b0, b1, b2] => some (.seekDone (join24 b0 b1 b2))
    | _ => none
  else if kind = 0x03 then
    match payload with
    | [b] => if b = 1 then some (.seekFail .noFocus) else if b = 2 then some (.seekFail .outOfRange) else none
    | _ => none
  else if kind = 0x04 then
    match payload with
    | [b] => some (.status (b.getLsbD 0) (b.getLsbD 1))
    | _ => none
  else if kind = 0x05 then
    match payload with
    | [t, b0, b1, b2] => some (.tocEntry t (join24 b0 b1 b2))
    | _ => none
  else if kind = 0x06 then
    match payload with
    | [c, b0, b1, b2] => some (.tocEnd c (join24 b0 b1 b2))
    | _ => none
  else none

/-- The bytes after a delimiter judged as one whole frame: its check byte and its form (R123). -/
def parseFrame (bytes : List Byte) : Option UpFrame :=
  match bytes with
  | [] => none
  | kind :: rest =>
    match rest.getLast? with
    | none => none
    | some check =>
      if check = frameCheck (kind :: rest.dropLast) then parsePayload kind rest.dropLast else none

/-- What the receiver finds at a byte. -/
inductive RxEvent
  | nothing
  /-- A whole frame, taken or dropped (R123). -/
  | frame (result : Option UpFrame)
  /-- A kind byte that is no up-frame kind (R210). -/
  | badKind
  deriving DecidableEq, Repr

/-- The receiver at one byte (R210). -/
def Receiver.feed (r : Receiver) (b : Byte) : Receiver × RxEvent :=
  match r with
  | .hunting => if b = delimiter then (.inFrame [], .nothing) else (.hunting, .nothing)
  | .inFrame got =>
    match got ++ [b] with
    | [] => (.hunting, .nothing)
    | kind :: rest =>
      match frameLength kind rest with
      | none => (.hunting, .badKind)
      | some n =>
        if rest.length < n then (.inFrame (kind :: rest), .nothing)
        else (.hunting, .frame (parseFrame (kind :: rest)))

/-- The receiver after a run of bytes, with the event of the last of them; an event before the last byte ends the
run, so that one run of bytes is one event. -/
def Receiver.feedAll : Receiver → List Byte → Receiver × RxEvent
  | r, [] => (r, .nothing)
  | r, [b] => r.feed b
  | r, b :: rest =>
    match r.feed b with
    | (r', .nothing) => r'.feedAll rest
    | other => other

end Sys2Proof.Machine
end

