-- ==== Sys2Proof/Machine/Flags.lean ====
section
/-! DEFINITION. News words, NEWS and ATTN_N, and the STATE register (R200, R205, R206). -/

namespace Sys2Proof.Machine

/-- The four news words (10 section 10.6). -/
inductive NewsWord
  | laneA
  | laneB
  | mech
  | part
  deriving DecidableEq, Repr

/-- XM offset of a news word (11 section 11.1). -/
def NewsWord.offset : NewsWord → Nat
  | .laneA => 0x20
  | .laneB => 0x24
  | .mech => 0x28
  | .part => 0x2C

/-- The news word of a lane. -/
def newsOf : LaneId → NewsWord
  | .a => .laneA
  | .b => .laneB

/-- CUE_DONE of a lane's news word (11 section 11.2). -/
def cueDoneBit : Word := 0x01
/-- STATE of a lane's news word. -/
def stateBit : Word := 0x02
/-- LOSS of a lane's news word. -/
def lossBit : Word := 0x04
/-- DISC of a lane's news word. -/
def discBit : Word := 0x08
/-- ANSWER of a lane's news word and of MECH. -/
def answerBit : Word := 0x10
/-- LOADER_DONE of MECH. -/
def loaderDoneBit : Word := 0x01
/-- SLOTS_CHANGED of MECH. -/
def slotsChangedBit : Word := 0x02
/-- MECH_STOPPED of MECH. -/
def mechStoppedBit : Word := 0x04
/-- TRANSPORT_DOWN of MECH. -/
def transportDownBit : Word := 0x08
/-- ANSWER of PART. -/
def partAnswerBit : Word := 0x01
/-- STORE_FAULT of PART. -/
def storeFaultBit : Word := 0x02

/-- The value of a news word. -/
def State.news (s : State) (w : NewsWord) : Word := s.word w.offset

/-- A part set of news bits: a bit already set stays set (R205). -/
def State.setNews (s : State) (w : NewsWord) (bits : Word) : State :=
  { s with
    xm := Memory.write s.xm w.offset (wordBytes (s.news w ||| bits))
    overlap := s.overlap.wrote w.offset (s.news w) (some bits) }

/-- The sticky bits of a news word whose condition holds (R205). A host clear that falls (R199) within the event that begins or
ends the condition meets it as it stands after the whole event: the model's choice (log 69). -/
def State.sticky (s : State) : NewsWord → Word
  | .mech =>
    (if s.loader.mechStopped then mechStoppedBit else 0) |||
      (if s.tlc0.state = .offline || s.tlc1.state = .offline then transportDownBit else 0)
  | .laneA => 0
  | .laneB => 0
  | .part => 0

/-- A news word after a host commit into it: the bits written as 1 are cleared, but for sticky bits whose condition holds
(R205). -/
def State.clearedNews (s : State) (w : NewsWord) (held ones : Word) : Word := held &&& ~~~ (ones &&& ~~~ s.sticky w)

/-- A bit per news word that is not 0 (R200). -/
def summaryOf (f : NewsWord → Word) : BitVec 4 :=
  (if f .laneA = 0 then 0 else 1) ||| (if f .laneB = 0 then 0 else 2) |||
    (if f .mech = 0 then 0 else 4) ||| (if f .part = 0 then 0 else 8)

/-- NEWS (R200, R206). -/
def State.newsSummary (s : State) : BitVec 4 := summaryOf s.news

/-- LOSS of a lane's news word as the event reads it: a host clear that falls before the read is found (R119, R199, R205,
log 7). -/
def State.seenLoss (s : State) (l : LaneId) : Bool :=
  s.news (newsOf l) &&& lossBit != 0 &&
    !(s.overlap.fallen 0 (newsOf l).offset fun u =>
      u.address == (newsOf l).offset && u.sets.any (fun b => b &&& lossBit != 0)).any fun c => c.word &&& lossBit != 0

/-- ATTN_N is asserted exactly when NEWS AND ENABLE is not 0 (R206). -/
def State.attnAsserted (s : State) : Bool := s.newsSummary &&& s.host.enable != 0

/-- The STATE register: XM_READY, FLAP, MECH_PWR as the lines stand (R200). -/
def State.stateRegister (s : State) : Half :=
  (if s.pins.xmReady then 1 else 0) ||| (if s.pins.flapClosed then 2 else 0) ||| (if s.pins.supplyGood then 4 else 0)

end Sys2Proof.Machine
end

