-- ==== Sys2Proof/Machine/Map.lean ====
section
/-! DEFINITION. The Continuity Map: span lists in the form of R18, and each claim on them (R16 to R40). -/

namespace Sys2Proof.Machine

/-! ### Conditions -/

/-- HOLE and WEAK carry a repair part (R17, R19). -/
def Condition.wantsRepair : Condition → Bool
  | .hole => true
  | .weak => true
  | .good => false
  | .settled => false
  | .lost => false

/-- What repair given up makes of a condition: HOLE LOST and WEAK SETTLED (R22, R30, R35). -/
def Condition.givenUp : Condition → Condition
  | .hole => .lost
  | .weak => .settled
  | .good => .good
  | .settled => .settled
  | .lost => .lost

/-- The condition an append gives, before the guard rule (R23). -/
def appendedCondition : CopyClass → Condition
  | .clean => .good
  | .short => .good
  | .long => .weak
  | .none => .hole

/-- The table of R26: old condition and class of the copy. A GOOD position whose merged copy is long-marked, as it can be
after an APPLY lowers InterpLimit, stays GOOD (log 37). -/
def absorbedCondition : Condition → CopyClass → Condition
  | _, .clean => .good
  | _, .short => .good
  | .hole, .long => .weak
  | .weak, .long => .weak
  | .settled, .long => .settled
  | .lost, .long => .settled
  | .good, .long => .good
  | old, .none => old

/-- A repair part of a span created by an append or an ahead hole (R19). -/
def freshRepair : RepairPart := { attempts := 0, active := false, aborts := 0 }

/-- The repair part of a span that takes a condition, from the part it had (R19). -/
def repairOf (c : Condition) (old : Option RepairPart) : Option RepairPart :=
  if c.wantsRepair then some (old.getD freshRepair) else none

/-! ### The form of R18 -/

/-- The last position of a span. -/
def Span.last (x : Span) : Index := plus x.first (x.count - 1)

/-- Position s lies in the span. -/
def Span.contains (x : Span) (s : Index) : Bool := decide (ahead s x.first < x.count)

/-- The span is active. -/
def Span.active (x : Span) : Bool :=
  match x.repair with
  | some r => r.active
  | none => false

/-- Two adjacent spans are joined when segment and condition agree (R18). -/
def Span.joins (x y : Span) : Bool := x.seg == y.seg && x.cond == y.cond

/-- The repair part of a joined span (R19). -/
def joinRepair : Option RepairPart → Option RepairPart → Option RepairPart
  | some a, some b =>
    some { attempts := min a.attempts b.attempts, active := a.active || b.active, aborts := max a.aborts b.aborts }
  | some a, none => some a
  | none, b => b

/-- A span put before a list in the form of R18. -/
def pushSpan (x : Span) : List Span → List Span
  | [] => if x.count = 0 then [] else [x]
  | y :: rest =>
    if x.count = 0 then y :: rest
    else if x.joins y then
      { y with first := x.first, count := x.count + y.count, repair := joinRepair x.repair y.repair } :: rest
    else x :: y :: rest

/-- The form of R18: empty spans removed, neighbours joined. -/
def normalize (l : List Span) : List Span := l.foldr pushSpan []

/-- Position s is within guard (R22). -/
def Lane.inGuard (x : Lane) (s : Index) : Bool := decide (ahead s x.p < x.guard)

/-- The guard rule for a condition a claim would give position s (R22). -/
def Lane.guarded (x : Lane) (s : Index) (c : Condition) : Condition := if x.inGuard s then c.givenUp else c

/-- The span that holds position s. -/
def Lane.spanAt (x : Lane) (s : Index) : Option Span := x.spans.find? (fun y => y.contains s)

/-- The condition of position s, none outside the window. -/
def Lane.conditionAt (x : Lane) (s : Index) : Option Condition := (x.spanAt s).map Span.cond

/-- The active span (R33). -/
def Lane.activeSpan (x : Lane) : Option Span := x.spans.find? Span.active

/-! ### The repair target (R33, R34) -/

/-- Position s lies in a repair target: at its last position or behind it, no further than its first. -/
def RepairTarget.contains (t : RepairTarget) (s : Index) : Bool := decide (ahead t.last s ≤ ahead t.last t.first)

/-- A span has a position within a repair target: its first one, or the target's first one. -/
def RepairTarget.overlaps (t : RepairTarget) (x : Span) : Bool := t.contains x.first || x.contains t.first

/-- The target widened to the extent of a span (R34): its last position the later of the two, its first the one further
behind that. -/
def RepairTarget.widen (t : RepairTarget) (x : Span) : RepairTarget :=
  let last := later t.last x.last
  { t with first := if ahead last t.first < ahead last x.first then x.first else t.first, last := last }

/-- The lane with its span list replaced, the repair target widened to the active span (R34; a span that was made active and
lies in the target in part only, log 58). -/
def Lane.withSpans (x : Lane) (l : List Span) : Lane :=
  let x := { x with spans := l }
  match x.rsc.target, x.activeSpan with
  | some t, some a => { x with rsc := { x.rsc with target := some (t.widen a) } }
  | _, _ => x

/-! ### Claims of block intake (R23 to R27) -/

/-- A position put at the end of a span list: the last span grows when segment and condition agree (R23). -/
def growSpans (l : List Span) (n : Span) : List Span :=
  match l.getLast? with
  | some y => if y.joins n then l.dropLast ++ [{ y with count := y.count + n.count }] else l ++ [n]
  | none => [n]

/-- The append claim (R23): none is FULL (R20, R24). -/
def Lane.append (x : Lane) (seg : SegRef) (copy : CopyClass) : Option Lane :=
  let c := x.guarded x.f (appendedCondition copy)
  let l := growSpans x.spans { first := x.f, count := 1, seg := seg, cond := c, repair := repairOf c none }
  if Config.maxSpans < l.length then none else some { x.withSpans l with f := plus x.f 1 }

/-- The ahead-hole claim at s (R25): none is FULL. -/
def Lane.aheadHole (x : Lane) (seg : SegRef) (s : Index) (copy : CopyClass) : Option Lane :=
  let k := ahead s x.f
  let lost := min k (x.guard - x.bufferedLead)
  let c := x.guarded s (appendedCondition copy)
  let l := normalize (x.spans ++
    [{ first := x.f, count := lost, seg := seg, cond := .lost, repair := none },
     { first := plus x.f lost, count := k - lost, seg := seg, cond := .hole, repair := some freshRepair },
     { first := s, count := 1, seg := seg, cond := c, repair := repairOf c none }])
  if Config.maxSpans < l.length then none else some { x.withSpans l with f := plus s 1 }

/-- The answers to a claim (R20, R27). -/
inductive ClaimAnswer
  | done
  | full
  | below
  deriving DecidableEq, Repr

/-- The span with its active flag given. -/
def Span.setActive (x : Span) (on : Bool) : Span := { x with repair := x.repair.map (fun r => { r with active := on }) }

/-- The nearest span, of a list whose nearest comes first, that lies in the target with a repair part takes the
active flag (R34). A span that lies in the target only in part counts as lying in it, and the target is then widened to it
like to a joined one: the model's choice (log 58). -/
def activateNearest (t : RepairTarget) : List Span → List Span
  | [] => []
  | y :: rest =>
    if y.count ≠ 0 && y.repair.isSome && t.overlaps y then y.setActive true :: rest else y :: activateNearest t rest

/-- The spans around a position changed to condition c at offset k of span y: those before it and those from it on
(R34: the piece after it takes the active flag). -/
def cutSpan (y : Span) (k : Nat) (c : Condition) : Span × List Span :=
  let still := y.setActive false
  ({ still with count := k },
   [{ still with first := plus y.first k, count := 1, cond := c, repair := repairOf c still.repair },
    { y with first := plus y.first (k + 1), count := y.count - (k + 1) }])

/-- The span list with position s changed to condition c; the first list is what was walked over, nearest first. -/
def changeAt (t : Option RepairTarget) (s : Index) (c : Condition) : List Span → List Span → List Span
  | walked, [] => walked.reverse
  | walked, y :: rest =>
    if y.contains s then
      let k := ahead s y.first
      let pieces := cutSpan y k c
      let front := pieces.1 :: walked
      let front :=
        match t with
        | some t => if y.active && y.count = k + 1 then activateNearest t front else front
        | none => front
      front.reverse ++ (pieces.2 ++ rest)
    else changeAt t s c (y :: walked) rest

/-- The absorption claim at s (R26, R27): the answer, and the map after it. `taken` says that the playout advance into
p has been taken. -/
def Lane.absorb (x : Lane) (s : Index) (copy : CopyClass) (taken : Bool) : ClaimAnswer × Lane :=
  match x.conditionAt s with
  | none => (.below, x)
  | some old =>
    if s = x.p ∧ old = .lost ∧ taken then (.below, x)
    else
      let raw := absorbedCondition old copy
      let c := if raw = .weak then x.guarded s raw else raw
      if c = old then (.done, x)
      else
        let l := normalize (changeAt x.rsc.target s c [] x.spans)
        if Config.maxSpans < l.length then (.full, x)
        else
          let inTarget :=
            match x.rsc.target with
            | some t => t.contains s
            | none => false
          (.done, { x.withSpans l with madeGood := if c = .good && inTarget then x.madeGood + 1 else x.madeGood })

/-! ### The playout advance (R29 to R31) -/

/-- A span with repair given up. -/
def Span.giveUp (x : Span) : Span := { x with cond := x.cond.givenUp, repair := none }

/-- Guard conversion of one span, whose first position lies `o` positions after p, cut at the guard boundary (R30). -/
def guardCut (guard o : Nat) (x : Span) : List Span :=
  if !x.cond.wantsRepair then [x]
  else if o + x.count ≤ guard then [x.giveUp]
  else if o < guard then
    [{ x.giveUp with count := guard - o },
     { x with first := plus x.first (guard - o), count := x.count - (guard - o) }]
  else [x]

/-- Guard conversion of one span without a cut (R31). -/
def guardWhole (guard o : Nat) (x : Span) : Span := if x.cond.wantsRepair && o < guard then x.giveUp else x

/-- Guard conversion measured from p (R30, R31). -/
def Lane.convertGuard (x : Lane) : Lane :=
  let cut := normalize (x.spans.flatMap (fun y => guardCut x.guard (ahead y.first x.p) y))
  if Config.maxSpans < cut.length then
    x.withSpans (normalize (x.spans.map (fun y => guardWhole x.guard (ahead y.first x.p) y)))
  else x.withSpans cut

/-- The span list without its first k positions (R29, R39). -/
def dropPositions : Nat → List Span → List Span
  | _, [] => []
  | k, y :: rest =>
    if y.count ≤ k then dropPositions (k - y.count) rest
    else { y with first := plus y.first k, count := y.count - k } :: rest

/-- The map moved on by k positions, with the applied Guard and its guard conversion (R29, R30, R39). -/
def Lane.moveOn (x : Lane) (k : Nat) (guard : Nat) : Lane :=
  Lane.convertGuard { x with p := plus x.p k, guard := guard, spans := dropPositions k x.spans }

/-- The advance claim with the applied Guard; it is not made when p = f (R29, R30). -/
def Lane.advanceMap (x : Lane) (guard : Nat) : Lane := if x.p = x.f then x else x.moveOn 1 guard

/-! ### Claims of the repair scheduler (R33 to R36) -/

/-- The activation claim on the span that begins at a position (R33): none is REFUSED. -/
def Lane.activate (x : Lane) (first : Index) : Option Lane :=
  if x.activeSpan.isSome then none
  else if x.spans.any (fun y => y.first == first && y.repair.isSome) then
    some { x with
      spans := x.spans.map (fun y => if y.first = first then y.setActive true else y)
      madeGood := 0 }
  else none

/-- One span at the end claim: an attempt counted, and repair given up at MaxAttempts (R35). -/
def endSpan (t : RepairTarget) (maxAttempts : Nat) (x : Span) : Span :=
  match x.repair with
  | none => x
  | some r =>
    if t.overlaps x then
      if maxAttempts ≤ r.attempts + 1 then x.giveUp
      else { x with repair := some { r with attempts := r.attempts + 1, active := false } }
    else { x with repair := some { r with active := false } }

/-- The end claim (R35). -/
def Lane.endClaim (x : Lane) (t : RepairTarget) (maxAttempts : Nat) : Lane :=
  { x with spans := normalize (x.spans.map (endSpan t maxAttempts)) }

/-- One span at the abort claim (R36). -/
def abortSpan (t : RepairTarget) (x : Span) : Span :=
  match x.repair with
  | none => x
  | some r =>
    { x with repair := some { r with aborts := if t.overlaps x then min 255 (r.aborts + 1) else r.aborts,
                                     active := false } }

/-- The abort claim (R36). -/
def Lane.abortClaim (x : Lane) (t : RepairTarget) : Lane :=
  { x with spans := normalize (x.spans.map (abortSpan t)) }

/-! ### Claims of settings and of the lane sequencer (R37 to R39) -/

/-- The conversion of a lowered MaxAttempts (R37). -/
def Lane.limitAttempts (x : Lane) (maxAttempts : Nat) : Lane :=
  x.withSpans (normalize (x.spans.map fun y =>
    match y.repair with
    | none => y
    | some r => if maxAttempts ≤ r.attempts then y.giveUp else y))

/-- The map cleared with f set to p (R38). -/
def Lane.clearMap (x : Lane) : Lane := { x with spans := [], f := x.p }

/-- The map cut to f (R39). -/
def Lane.cutToFill (x : Lane) : Lane := { x with p := x.f, spans := [] }

/-- The map cut to base b with the applied Guard (R39); a base outside [p, f], which no segment of a run has, cuts to f
(log 47). -/
def Lane.cutTo (x : Lane) (b : Index) (guard : Nat) : Lane :=
  if ahead b x.p ≤ x.bufferedLead then x.moveOn (ahead b x.p) guard else x.cutToFill

end Sys2Proof.Machine
end

