-- ==== Sys2Proof/Machine/Store.lean ====
section
/-! DEFINITION. The shock store: which cell a position uses, its writes, its checked reads and its releases (R8 to
R15). -/

namespace Sys2Proof.Machine

/-- The first cell of a lane's share (R8). -/
def State.firstCell (s : State) : LaneId → Nat
  | .a => 0
  | .b => s.share .a

/-- The number of the cell of position i of a lane (R9). -/
def State.cellNumber (s : State) (l : LaneId) (i : Index) : Nat := s.firstCell l + i.toNat % s.share l

/-- The assigned cell of a number. -/
def findCell (cells : List StoreCell) (n : Nat) : Option StoreCell := cells.find? (fun c => c.number == n)

/-- A cell put into a list of assigned cells whose numbers rise. -/
def putCell (c : StoreCell) : List StoreCell → List StoreCell
  | [] => [c]
  | d :: rest =>
    if c.number < d.number then c :: d :: rest
    else if c.number = d.number then c :: rest
    else d :: putCell c rest

/-- The cell is in a lane's share (R8). -/
def State.inShare (s : State) (l : LaneId) (c : StoreCell) : Bool :=
  decide (s.firstCell l ≤ c.number) && decide (c.number < s.firstCell l + s.share l)

/-- The position of a lane has its cell assigned to it (R7, R10). -/
def State.holdsCopy (s : State) (l : LaneId) (i : Index) : Bool :=
  match findCell s.store (s.cellNumber l i) with
  | some c => c.position == i
  | none => false

/-- The cell of a position can take a first write: it is not assigned to another position (R9). -/
def State.canAssign (s : State) (l : LaneId) (i : Index) : Bool :=
  match findCell s.store (s.cellNumber l i) with
  | none => true
  | some c => c.position == i

/-- A cell filled whole with its check word (R10). -/
def freshCell (n : Nat) (i : Index) (address : Nat) (marks : MarkSet) (pairs : List Pair) : StoreCell :=
  { number := n, position := i, tagIndex := i, tagAddress := address, marks := marks, pairs := pairs,
    check := cellCheck i address marks pairs }

/-- The first write of a copy (R10). -/
def State.firstWrite (s : State) (l : LaneId) (i : Index) (address : Nat) (marks : MarkSet) (pairs : List Pair) :
    State :=
  { s with store := putCell (freshCell (s.cellNumber l i) i address marks pairs) s.store }

/-- A later write of a copy: the tag is unchanged (R11). -/
def State.rewrite (s : State) (c : StoreCell) (marks : MarkSet) (pairs : List Pair) : State :=
  { s with store := putCell { c with marks := marks, pairs := pairs,
                                     check := cellCheck c.tagIndex c.tagAddress marks pairs } s.store }

/-- The answer of a read (R13). -/
inductive ReadAnswer
  | unassigned
  | copy (cell : StoreCell)
  | storeFault
  deriving DecidableEq, Repr

/-- A read of position i, whose disc address through its segment is given; an anchor's is its tag's own (R13). -/
def State.readCell (s : State) (l : LaneId) (i : Index) (address : Option Nat) : ReadAnswer :=
  match findCell s.store (s.cellNumber l i) with
  | none => .unassigned
  | some c =>
    if c.position ≠ i then .unassigned
    else if c.tagIndex = i ∧ c.tagAddress = address.getD c.tagAddress ∧
        c.check = cellCheck c.tagIndex c.tagAddress c.marks c.pairs then .copy c
    else .storeFault

/-- The disc address of a position through the segment of its span; none for an anchor (R13, R16). -/
def Lane.addressIn (x : Lane) (i : Index) : Option Nat := (x.spanAt i).map (fun y => y.seg.addressOf i)

/-- The state with the store fault counter of a lane raised by 1. -/
def State.countStoreFault (s : State) (l : LaneId) : State :=
  s.updLane l fun x => { x with count := { x.count with storeFaults := bump x.count.storeFaults } }

/-- A STORE_FAULT answer counted, with its news (R13); that the bit lands at the read, before what the event does next, is the
model's choice (log 68). -/
def State.noteStoreFault (s : State) (l : LaneId) : State := (s.countStoreFault l).setNews .part storeFaultBit

/-- The state with the cells of a lane released for which a test holds (R12). -/
def State.release (s : State) (l : LaneId) (test : StoreCell → Bool) : State :=
  { s with store := s.store.filter (fun c => !(s.inShare l c && test c)) }

/-- Every cell of the lane's share released (R12: STOP, and SKIP to f). -/
def State.releaseAll (s : State) (l : LaneId) : State := s.release l (fun _ => true)

/-- The cells of positions below an index released (R12: SKIP to a base). -/
def State.releaseBelow (s : State) (l : LaneId) (i : Index) : State := s.release l (fun c => before c.position i)

/-- The cell of position p − 3 released at the advance that set p (R12). -/
def State.releasePassed (s : State) (l : LaneId) : State :=
  s.release l (fun c => c.position == (s.lane l).p - 3)

end Sys2Proof.Machine
end

