-- ==== Sys2Proof/Machine/Run.lean ====
section
/-! DEFINITION. Marks of an event on a lane, and the ends of a read run (R43, R44, R75). -/

namespace Sys2Proof.Machine

/-- The lane with a scheduling point of its repair scheduler due in this event (R80). -/
def Lane.due (x : Lane) : Lane := { x with marks := { x.marks with schedule := true } }

/-- The state with a scheduling point of a lane due. -/
def State.due (s : State) (l : LaneId) : State := s.updLane l Lane.due

/-- The lane with its status record to be refreshed in this event (R171). -/
def Lane.refreshDue (x : Lane) : Lane := { x with marks := { x.marks with refresh := true } }

/-- The state with a lane in a lane state; a change is a scheduling point and refreshes the record with STATE news
(R80, R171). -/
def State.setLaneState (s : State) (l : LaneId) (t : LaneState) : State :=
  s.updLane l fun x =>
    if x.seq.state = t then x
    else { x with seq := { x.seq with state := t },
                  marks := { x.marks with stateChanged := true, schedule := true } }

/-- A lane's check requests withdrawn: its pending place emptied, its running check marked discarded (R75). -/
def State.withdrawCheck (s : State) (l : LaneId) : State :=
  let u := s.splice
  let u := match l with
    | .a => { u with pendingA := none }
    | .b => { u with pendingB := none }
  let u := match u.running with
    | some c => if c.lane = l then { u with running := some { c with discarded := true } } else u
    | none => u
  { s with splice := u }

/-- A run is in progress: SEEKING or OPEN (R43). -/
def RunContext.inProgress (r : RunContext) : Bool := r.state == .seeking || r.state == .opened

/-- The run context at the end of a run (R43). -/
def RunContext.finish (r : RunContext) : RunContext :=
  { r with state := .ended, held := [], heldBefore := 0, inOrder := 0 }

/-- A run in progress ended (R43, R75). -/
def State.endRun (s : State) (l : LaneId) : State :=
  if (s.lane l).run.inProgress then
    (s.updLane l fun x => { x with run := x.run.finish }).withdrawCheck l
  else s

/-- The run context at a STOP, a START and in a disabled lane (R44). -/
def RunContext.clear (r : RunContext) : RunContext :=
  { r with state := .none, err := 0, check := .none, held := [], heldBefore := 0, inOrder := 0 }

end Sys2Proof.Machine
end

