-- ==== Sys2Proof/Machine/Tlc.lean ====
section
/-! DEFINITION. The transport link controllers: what each sends, its timers, its supervision and its answers to the
loader controller and the repair scheduler (R126 to R148). -/

namespace Sys2Proof.Machine

/-! ### One controller -/

/-- No timer runs. -/
def TlcTimers.none : TlcTimers :=
  { startup := Option.none, toc := Option.none, seek := Option.none, cadence := Option.none,
    spindleStop := Option.none }

/-- An empty TOC assembly. -/
def Assembly.empty : Assembly := { entries := [], invalid := false }

/-- A down-frame sent. -/
def Tlc.send (t : Tlc) (d : DownFrame) : Tlc := { t with sent := t.sent ++ [d] }

/-- SEEKING or READING. -/
def TlcState.busy : TlcState → Bool
  | .seeking => true
  | .reading => true
  | .offline => false
  | .starting => false
  | .empty => false
  | .toc => false
  | .ready => false
  | .mechHeld => false

/-- READY, SEEKING or READING: the transport can be used (R79). -/
def TlcState.usable : TlcState → Bool
  | .ready => true
  | .seeking => true
  | .reading => true
  | .offline => false
  | .starting => false
  | .empty => false
  | .toc => false
  | .mechHeld => false

/-- A HALT sent and counted (R139). -/
def Tlc.sendHalt (t : Tlc) : Tlc := { t.send .halt with count := { t.count with halts := bump t.count.halts } }

/-- HALT sent when the transport is SEEKING or READING. -/
def Tlc.haltIfBusy (t : Tlc) : Tlc := if t.state.busy then t.sendHalt else t

/-- A stray frame counted (R147). -/
def Tlc.stray (t : Tlc) : Tlc := { t with count := { t.count with strays := bump t.count.strays } }

/-- A dropped frame counted (R123). -/
def Tlc.checkError (t : Tlc) : Tlc := { t with count := { t.count with checkErrors := bump t.count.checkErrors } }

/-- A RESET sent: STARTING (R128). -/
def Tlc.sendReset (t : Tlc) : Tlc :=
  { t.haltIfBusy.send .reset with
    state := .starting
    spindle := .unknown
    disc := .unknown
    seek := none
    loaderHold := false
    stopPending := false
    assembly := .empty
    timers := { TlcTimers.none with startup := some Config.startupWindow }
    violation := 0 }

/-- READ_TOC sent and TOC entered (R131). -/
def Tlc.enterToc (t : Tlc) : Tlc :=
  { t.send .readToc with
    state := .toc
    assembly := .empty
    timers := { TlcTimers.none with toc := some Config.tocLimit } }

/-- A SEEK of the repair scheduler (R134). -/
def Tlc.takeSeek (t : Tlc) (k : Seek) (limit : Nat) : Tlc :=
  if t.state.usable then
    { t.send (.seek k) with
      state := .seeking
      seek := some k
      timers := { TlcTimers.none with seek := some limit }
      count := { t.count with seeks := bump t.count.seeks } }
  else t

/-- A HALT of the repair scheduler or the loader controller (R139). -/
def Tlc.takeHalt (t : Tlc) : Tlc :=
  if t.state.busy then { t.sendHalt with state := .ready, seek := none, timers := .none } else t

/-- A good event (R141). -/
def Tlc.good (t : Tlc) : Tlc := { t with violation := t.violation - 1 }

/-- A bad event with the applied ViolationLimit: whether the transport faults, and the controller after it (R141). -/
def Tlc.bad (t : Tlc) (limit : Nat) : Bool × Tlc :=
  let t := { t with count := { t.count with badEvents := bump t.count.badEvents } }
  if limit ≤ t.violation + 1 then
    (true, { t.sendReset with count := { t.haltIfBusy.count with faults := bump t.count.faults } })
  else (false, { t with violation := t.violation + 1 })

/-- A lowered ViolationLimit (R141). -/
def Tlc.limitViolation (t : Tlc) (limit : Nat) : Tlc :=
  if limit ≤ t.violation then { t with violation := limit - 1 } else t

/-- Disc ABSENT found: EMPTY (R128, R131, R140). -/
def Tlc.toEmpty (t : Tlc) : Tlc :=
  { t with state := .empty, seek := none, assembly := .empty, timers := .none }

/-- A disc PRESENT with its spindle STOPPED under a transport in use (R140). -/
def Tlc.respin (t : Tlc) : Tlc :=
  { t.haltIfBusy.send (.spin true) with
    state := .starting
    seek := none
    timers := { TlcTimers.none with startup := some Config.startupWindow } }

/-- The outcomes of a spindle stop (R143). -/
inductive SpindleOutcome
  | done
  | failed
  | noTransport
  | held
  deriving DecidableEq, Repr

/-- A spindle stop of the loader controller, with the answer it gives at once, if any (R142, R143). -/
def Tlc.spindleStop (t : Tlc) : Tlc × Option SpindleOutcome :=
  match t.state with
  | .offline => (t, some .noTransport)
  | .mechHeld => (t, some .held)
  | .starting | .empty | .toc | .ready | .seeking | .reading =>
    ({ t.haltIfBusy.send (.spin false) with
        state := .empty
        seek := none
        assembly := .empty
        loaderHold := true
        stopPending := true
        timers := { TlcTimers.none with spindleStop := some Config.spindleStopLimit } }, none)

/-- A spin-up of the loader controller (R144). -/
def Tlc.spinUp (t : Tlc) : Tlc :=
  if t.state = .empty then
    { t.send (.spin true) with
      state := .starting
      loaderHold := false
      stopPending := false
      timers := { TlcTimers.none with startup := some Config.startupWindow } }
  else t

/-- A mechanism stop of the loader controller (R145). -/
def Tlc.mechanismStop (t : Tlc) : Tlc :=
  let t := { t with mechStopped := true }
  if t.state = .offline ∨ t.state = .mechHeld then t
  else
    { t.haltIfBusy with
      state := .mechHeld
      seek := none
      loaderHold := false
      stopPending := false
      assembly := .empty
      timers := .none }

/-- The release of a mechanism stop (R146). -/
def Tlc.mechanismRelease (t : Tlc) : Tlc :=
  let t := { t with mechStopped := false }
  if t.state = .mechHeld then t.sendReset else t

/-! ### TOC assembly (R131, R132) -/

/-- An entry put into an assembly whose tracks rise, replacing an entry of the same track. -/
def putEntry (track start : Nat) : List (Nat × Nat) → List (Nat × Nat)
  | [] => [(track, start)]
  | (k, v) :: rest =>
    if track < k then (track, start) :: (k, v) :: rest
    else if track = k then (track, start) :: rest
    else (k, v) :: putEntry track start rest

/-- A TOC_ENTRY taken into the assembly (R131). -/
def Assembly.take (a : Assembly) (track start : Nat) : Assembly :=
  if 1 ≤ track ∧ track ≤ 99 then { a with entries := putEntry track start a.entries }
  else { a with invalid := true }

/-- A list of numbers rises strictly. -/
def rising : List Nat → Bool
  | a :: b :: rest => decide (a < b) && rising (b :: rest)
  | _ => true

/-- The judgement of R132: the table when the assembly is valid. -/
def Assembly.judge (a : Assembly) (count leadOut : Nat) : Option Toc :=
  let starts := a.entries.map Prod.snd
  if !a.invalid && decide (1 ≤ count) && decide (count ≤ 99) &&
      a.entries.map Prod.fst == (List.range count).map (· + 1) &&
      rising starts && decide (starts.getLastD 0 < leadOut) && decide (leadOut ≤ Config.discEnd) then
    some { starts := starts, leadOut := leadOut, fingerprint := fingerprintOf starts leadOut }
  else none

/-! ### The controllers in the part -/

/-- A run ends when the controller goes from one state to another (R43). -/
def endsRun (old new : TlcState) : Bool := (old == .reading && new != .reading) || !new.usable

/-- The controller of a lane replaced: a change of state ends a run where R43 says so and is a scheduling point
(R127), the READY that follows the scheduler's own HALT too (log 48). -/
def State.putTlc (s : State) (l : LaneId) (t : Tlc) : State :=
  let old := (s.tlc l).state
  let s := s.setTlc l t
  let s := if endsRun old t.state then s.endRun l else s
  if old = t.state then s else s.due l

/-- The controller of a lane changed. -/
def State.changeTlc (s : State) (l : LaneId) (g : Tlc → Tlc) : State := s.putTlc l (g (s.tlc l))

/-- A bad event on the transport of a lane: whether it faults, and the state after it (R141). -/
def State.badEvent (s : State) (l : LaneId) : Bool × State :=
  let r := (s.tlc l).bad s.applied.violationLimit
  (r.1, s.putTlc l r.2)

/-- A good event on the transport of a lane (R141). -/
def State.goodEvent (s : State) (l : LaneId) : State := s.changeTlc l Tlc.good

/-- A HALT to the transport of a lane: the run ends with it (R139, R43). -/
def State.halt (s : State) (l : LaneId) : State :=
  if (s.tlc l).state.busy then (s.endRun l).changeTlc l Tlc.takeHalt else s

end Sys2Proof.Machine
end

