-- ==== Sys2Proof/Machine/Repair.lean ====
section
/-! DEFINITION. The repair scheduler: its plans, its work decision, the attempts and the effect of an intake result
(R64, R65, R78 to R102). -/

namespace Sys2Proof.Machine

/-! ### Plans of runs (R64, R65) -/

/-- Position i is a usable preroll position: playable in the window, or an anchor (R65, R7). -/
def State.usablePreroll (s : State) (l : LaneId) (i : Index) : Bool :=
  let x := s.lane l
  match x.conditionAt i with
  | some c => c.playable
  | none => (i == x.p - 1 || i == x.p - 2) && s.holdsCopy l i

/-- The anchored test of target t in a segment (R65). -/
def State.anchoredTest (s : State) (l : LaneId) (g : SegRef) (t : Index) : Bool :=
  !before (t - 2) g.base && !before (t - 1) g.base && s.usablePreroll l (t - 2) && s.usablePreroll l (t - 1)

/-- A SEEK sent with the plan of its run (R42, R64, R134). -/
def State.sendSeek (s : State) (l : LaneId) (kind : RunKind) (g : SegRef) (t : Index) (speed : Speed)
    (steady : Bool) : State :=
  let anchored := s.anchoredTest l g t
  let start := if anchored then t - 2 else t
  let s := (s.endRun l).changeTlc l fun u =>
    u.takeSeek { address := g.addressOf start, speed := speed, steady := steady } s.applied.seekLimit
  s.updLane l fun x => { x with
    run := { state := .seeking, kind := kind, target := t, targetAddress := g.addressOf t, seekPosition := start,
             anchored := anchored, seg := some g, targetSeg := some g, err := 0, check := if anchored then .waiting else .none,
             held := [], heldBefore := 0, inOrder := 0 }
    rsc := { x.rsc with runSpeed := speed, runSteady := steady, runPosition := none } }

/-! ### Attempts -/

/-- The scheduler without an attempt. -/
def Scheduler.dropAttempt (r : Scheduler) : Scheduler := { r with mode := .none, target := none, attempt := none }

/-- An attempt in flight aborted by the abort claim (R36, R95 to R98). -/
def Lane.abortAttempt (x : Lane) : Lane :=
  match x.rsc.mode, x.rsc.target with
  | .repair, some t =>
    let x := x.abortClaim t
    { x with rsc := x.rsc.dropAttempt }
  | _, _ => x

/-- The counts of the cue of a segment changed. -/
def Lane.updCue (x : Lane) (base : Index) (g : CueCounts → CueCounts) : Lane :=
  { x with seq := { x.seq with segments := x.seq.segments.map fun q =>
      if q.base = base then { q with cue := { q.cue with counts := g q.cue.counts } } else q } }

/-- An attempt that has ended: the end claim and what it counts; the cue that counts it is that of the target's segment
(R35, R93; log 38). -/
def Lane.endAttempt (x : Lane) (maxAttempts : Nat) : Lane :=
  match x.rsc.target with
  | none => x
  | some t =>
    let x := x.endClaim t maxAttempts
    let n := x.madeGood
    let x := x.updCue t.seg.base fun c => { c with repaired := addUpTo Config.max16 c.repaired n }
    { x with rsc := x.rsc.dropAttempt,
             count := { x.count with repaired := addUpTo Config.max16 x.count.repaired n } }

/-- The speed of an attempt over a span with so many attempts (R91). -/
def attemptSpeed (readSpeed attempts : Nat) : Speed := if attempts = 0 then speedOf readSpeed else .x1

/-- The steady flag of an attempt over a span with so many attempts (R91). -/
def attemptSteady (attempts : Nat) : Bool := decide (2 ≤ attempts)

/-- The attempts of a span with a repair part. -/
def Span.attempts (y : Span) : Nat :=
  match y.repair with
  | some r => r.attempts
  | none => 0

/-- A span is eligible for repair (R89). -/
def Lane.eligible (x : Lane) (margin : Nat) (y : Span) : Bool :=
  y.cond.wantsRepair && !y.active && decide (x.guard + margin ≤ ahead y.first x.p)

/-- The activation of a span, with its target and attempt recorded (R90, R33): none when the map refuses. -/
def Lane.startAttempt (x : Lane) (readSpeed : Nat) (y : Span) : Option Lane :=
  (x.activate y.first).map fun x => { x with rsc := { x.rsc with
    mode := .repair
    rest := none
    target := some { first := y.first, last := y.last, seg := y.seg }
    attempt := some { number := y.attempts + 1, speed := attemptSpeed readSpeed y.attempts,
                      steady := attemptSteady y.attempts } } }

/-! ### The fill decision (R82 to R86) -/

/-- The fill is at cue end (R82). -/
def Lane.atCueEnd (x : Lane) : Bool :=
  match x.lastSegment with
  | none => true
  | some g => !before x.f g.ref.endIndex

/-- f is at or beyond the end of the last segment of the list (R82, first test). -/
def Lane.pastLastSegment (x : Lane) : Bool :=
  match x.lastSegment with
  | none => false
  | some g => !before x.f g.ref.endIndex

/-- The rest reason of the fill decision, none for FILL (R82). -/
def Lane.fillRest (x : Lane) (share : Nat) : Option RestReason :=
  if x.seq.state = .held ∧ x.pastLastSegment then some .heldByLane
  else if x.atCueEnd then some .cueEnd
  else if x.rsc.mapFullHold then some .mapFull
  else if x.bufferedLead = share - 2 ∨ x.rsc.refillWait then some .windowFull
  else none

/-- The refill wait brought up to date: only by a fill decision, not at every scheduling point (R82, R84; log 56). -/
def Lane.updateRefill (x : Lane) (c : LaneSettings) : Lane :=
  if x.bufferedLead ≤ c.share - 2 - c.refillGap then { x with rsc := { x.rsc with refillWait := false } } else x

/-- The fill's run can go on, the event not calling for a re-seek (R83). -/
def State.fillGoesOn (s : State) (l : LaneId) : Bool :=
  let x := s.lane l
  x.rsc.mode == .fill && x.run.kind == .fill && x.run.inProgress && (s.tlc l).state.busy &&
    (match x.run.seg with
     | none => false
     | some g => g.holds x.f || (x.f == g.endIndex && (nextContiguous x.seq.segments g).isSome))

/-- The fill decision carried out (R82, R83, R84). The refill wait is brought up to date here alone: a scheduling point in
REPAIR, NONE or REST(QUIET), which takes no fill decision, leaves it as it is (log 56). -/
def State.fillDecision (s : State) (l : LaneId) (reseek : Bool) : State :=
  let s := s.updLane l fun x => x.updateRefill (s.settings l)
  match (s.lane l).fillRest (s.share l) with
  | some r =>
    (s.halt l).updLane l fun x => { x with rsc := { x.rsc with
      mode := .rest, rest := some r, refillWait := x.rsc.refillWait || r == .windowFull } }
  | none =>
    let t := (s.lane l).f
    let s' := s.updLane l fun x => { x with rsc := { x.rsc with mode := .fill, rest := none } }
    if s.fillGoesOn l && !reseek then s'
    else
      match (s.lane l).segmentAt t with
      | some g => s'.sendSeek l .fill g.ref t (speedOf (s.settings l).readSpeed) false
      | none => s'

/-! ### Starting and chaining repairs (R90, R94) -/

/-- The start condition of R90, but for the eligible span. -/
def State.startCondition (s : State) (l : LaneId) : Bool :=
  let x := s.lane l
  let c := s.settings l
  decide (c.fillFloor ≤ x.bufferedLead) &&
    (decide (c.repairStartLead ≤ x.bufferedLead) || x.bufferedLead == c.share - 2 || x.atCueEnd)

/-- A repair started with a seek on the earliest eligible span: none when none starts (R90). -/
def State.startRepair (s : State) (l : LaneId) : Option State :=
  let x := s.lane l
  let c := s.settings l
  if s.startCondition l then
    match x.spans.find? (x.eligible c.repairMargin) with
    | none => none
    | some y =>
      (x.startAttempt c.readSpeed y).map fun x' =>
        (s.setLane l x').sendSeek l .repair y.seg y.first (attemptSpeed c.readSpeed y.attempts)
          (attemptSteady y.attempts)
  else none

/-- A span can be chained after position c on the run (R94). -/
def State.chainable (s : State) (l : LaneId) (c : Index) (y : Span) : Bool :=
  let x := s.lane l
  let v := s.settings l
  x.eligible v.repairMargin y && decide (1 ≤ ahead y.first c) && decide (ahead y.first c ≤ Config.chainReach) &&
    (match x.run.seg with
     | none => false
     | some g => y.seg == g || nextContiguous x.seq.segments g == some y.seg) &&
    attemptSpeed v.readSpeed y.attempts == x.rsc.runSpeed && attemptSteady y.attempts == x.rsc.runSteady

/-- A chained repair: none when none follows (R94). -/
def State.chainRepair (s : State) (l : LaneId) (c : Option Index) : Option State :=
  let x := s.lane l
  let v := s.settings l
  match c with
  | none => none
  | some c =>
    if x.run.state = .opened ∧ x.run.kind = .repair ∧ v.fillFloor ≤ x.bufferedLead then
      match x.spans.find? (s.chainable l c) with
      | none => none
      | some y => (x.startAttempt v.readSpeed y).map fun x' => s.setLane l x'
    else none

/-! ### A scheduling point (R79 to R81) -/

/-- What the event of a scheduling point brings: a re-seek called for, no repair start (R85), an attempt ended in it
with the position c of R94. -/
structure Point where
  reseek : Bool
  noStart : Bool
  ended : Bool
  reached : Option Index
  deriving DecidableEq, Repr

/-- A scheduling point that brings nothing of its own. -/
def Point.plain : Point := { reseek := false, noStart := false, ended := false, reached := none }

/-- The run's target sought again for the attempt in flight, at the disc address it was sought at (R88, log 32). -/
def State.reseekRepair (s : State) (l : LaneId) : State :=
  let x := s.lane l
  match x.rsc.attempt, x.run.targetSeg with
  | some a, some g => s.sendSeek l .repair g x.run.target a.speed a.steady
  | _, _ => s

/-- The work decision with no attempt in flight: chain, start, fill (R81, R94). -/
def State.nextWork (s : State) (l : LaneId) (q : Point) : State :=
  match (if q.ended then s.chainRepair l q.reached else none) with
  | some t => t
  | none =>
    match (if q.noStart then none else s.startRepair l) with
    | some t => t
    | none => s.fillDecision l q.reseek

/-- The work decision (R81, R95). -/
def State.workDecision (s : State) (l : LaneId) (q : Point) : State :=
  let x := s.lane l
  if x.rsc.mode = .repair then
    if x.bufferedLead < (s.settings l).fillFloor then
      (s.updLane l fun x =>
        let x := x.abortAttempt
        { x with rsc := { x.rsc with refillWait := false } }).fillDecision l q.reseek
    else if q.reseek then s.reseekRepair l
    else s
  else s.nextWork l q

/-- The scheduler in a mode in which it sends nothing, an attempt in flight aborted (R79, R96, R97). -/
def State.standDown (s : State) (l : LaneId) (mode : WorkMode) (rest : Option RestReason) : State :=
  s.updLane l fun x =>
    let x := x.abortAttempt
    { x with rsc := { x.rsc with mode := mode, rest := rest } }

/-- An attempt whose active span has gone is overtaken: no claim, nothing counted (R99). -/
def State.overtake (s : State) (l : LaneId) (q : Point) : State × Point :=
  let x := s.lane l
  if x.rsc.mode = .repair ∧ x.activeSpan = none then
    (s.updLane l fun x => { x with rsc := x.rsc.dropAttempt },
     { q with ended := true, reached := x.rsc.runPosition })
  else (s, q)

/-- A scheduling point of the repair scheduler (R79, R80, R81). -/
def State.schedule (s : State) (l : LaneId) (q : Point) : State :=
  let s := s.updLane l fun x => { x with marks := { x.marks with schedule := false } }
  let (s, q) := s.overtake l q
  let x := s.lane l
  if !s.enabled l || !x.seq.reading then (s.standDown l .none none).halt l
  else
    match (s.tlc l).state with
    | .offline | .starting | .empty | .toc => s.standDown l .none none
    | .mechHeld => s.standDown l .rest (some .mechanism)
    | .ready | .seeking | .reading =>
      if x.rsc.quiet then s.standDown l .rest (some .quiet) else s.workDecision l q

/-! ### Intake results (R63, R87, R92) -/

/-- The intake classes (R45); I6 carries its sub-class. -/
inductive IntakeClass
  | i0
  | i1
  | i2
  | i3
  | i4
  | i5
  | i6of0
  | i6of1
  | i6of3
  | i7
  deriving DecidableEq, Repr

/-- The outcomes of an intake result (R63). -/
inductive IntakeOutcome
  | done
  | full
  | below
  | window
  | storeRefused
  | segmentEnd
  | outside
  | tooFar
  | segment
  | abandoned
  deriving DecidableEq, Repr

/-- The cause of an abandoned run (R43, R47, R48). -/
inductive AbandonCause
  | overrun
  | noMatch
  deriving DecidableEq, Repr

/-- Where an I4 arrival was: below p, or behind the absorb limit of a FILL run (R58). -/
inductive PassedSide
  | belowPlayout
  | behindLimit
  deriving DecidableEq, Repr

/-- An intake result (R63), with the side of an I4 arrival (R58). The last two fields are the model's own: whether it is of
the OPEN run, and whether the position is a preroll position of the run (R87). -/
structure IntakeResult where
  cls : IntakeClass
  outcome : IntakeOutcome
  position : Option Index
  /-- None where no copy was judged; a merged copy's class where one was formed (log 41). -/
  copy : Option CopyClass
  secureLead : Nat
  bufferedLead : Nat
  spanCount : Nat
  /-- SEGMENT_FILLED was reported (R61). -/
  segmentFilled : Bool
  cause : Option AbandonCause
  passed : Option PassedSide
  ofRun : Bool
  preroll : Bool
  deriving DecidableEq, Repr

/-- An intake result of a FILL run calls for a re-seek (R87, R88). -/
def IntakeResult.reseeks (r : IntakeResult) : Bool :=
  match r.outcome with
  | .abandoned | .segmentEnd | .outside => true
  | .done | .full | .below | .window | .storeRefused | .tooFar | .segment =>
    r.cls == .i2 || (r.cls == .i4 && !r.preroll)

/-- An append refused by the map (R85). -/
def IntakeResult.mapFull (r : IntakeResult) : Bool := (r.cls == .i0 || r.cls == .i6of0) && r.outcome == .full

/-- An intake result of a REPAIR run ends the attempt (R92). -/
def Lane.resultEnds (x : Lane) (t : RepairTarget) (r : IntakeResult) : Bool :=
  let reaches := match r.position with
    | some i => !before i t.last
    | none => false
  (reaches && r.outcome != .window &&
      (r.cls == .i0 || r.cls == .i1 || r.cls == .i3 || r.cls == .i6of0 || r.cls == .i6of1 || r.cls == .i6of3)) ||
    r.cls == .i2 || (r.cls == .i5 && r.outcome == .outside) ||
    !x.spans.any (fun y => y.repair.isSome && t.overlaps y)

/-- The position c of R94 after a result that ended an attempt: an I2 or an OUTSIDE result gives none. -/
def IntakeResult.reached (r : IntakeResult) : Option Index :=
  if r.cls = .i2 ∨ r.cls = .i5 then none else r.position

/-- The scheduling point of an intake result: its effect on the work in flight, then the decision (R87, R92, R93). -/
def State.takeResult (s : State) (l : LaneId) (r : IntakeResult) : State :=
  if r.ofRun then
    let s := s.updLane l fun x =>
      match r.position with
      | some i => { x with rsc := { x.rsc with runPosition := some i } }
      | none => x
    let x := s.lane l
    match x.run.kind, x.rsc.mode, x.rsc.target with
    | .repair, .repair, some t =>
      if r.outcome = .abandoned then s.schedule l { Point.plain with reseek := true }
      else if x.resultEnds t r then
        (s.updLane l fun x => x.endAttempt (s.settings l).maxAttempts).schedule l
          { Point.plain with ended := true, reached := r.reached }
      else s.schedule l .plain
    | _, _, _ =>
      let s := if r.mapFull then s.updLane l fun x => { x with rsc := { x.rsc with mapFullHold := true } } else s
      s.schedule l { Point.plain with reseek := r.reseeks, noStart := r.mapFull }
  else s.schedule l .plain

end Sys2Proof.Machine
end

