-- ==== Sys2Proof/Machine/Records.lean ====
section
/-! DEFINITION. The records the part writes into Exchange Memory: their layouts and encodings (11 sections 11.1 to
11.5, R207, R212). -/

namespace Sys2Proof.Machine

/-! ### Encodings -/

/-- A flag as a byte. -/
def codeFlag (b : Bool) : Nat := if b then 1 else 0

/-- Lane state codes (11 section 11.4). -/
def LaneState.code : LaneState → Nat
  | .idle => 0
  | .binding => 1
  | .priming => 2
  | .playing => 3
  | .underrun => 4
  | .paused => 5
  | .held => 6
  | .starved => 7
  | .stopping => 8

/-- Underrun cause codes. -/
def codeCause : Option UnderrunCause → Nat
  | none => 0
  | some .transport => 1
  | some .mechanism => 2
  | some .read => 3

/-- Walk modes: 0 ONCE, 1 CYCLE (11 section 11.2). -/
def WalkMode.code : WalkMode → Nat
  | .once => 0
  | .cycle => 1

/-- Work mode codes. -/
def WorkMode.code : WorkMode → Nat
  | .none => 0
  | .fill => 1
  | .repair => 2
  | .rest => 3

/-- Rest reason codes; none outside REST (R101). -/
def codeRest (r : Scheduler) : Nat :=
  match r.mode, r.rest with
  | .rest, some .windowFull => 1
  | .rest, some .cueEnd => 2
  | .rest, some .mapFull => 3
  | .rest, some .quiet => 4
  | .rest, some .heldByLane => 5
  | .rest, some .mechanism => 6
  | _, _ => 0

/-- Check state codes. -/
def CheckState.code : CheckState → Nat
  | .none => 0
  | .waiting => 1
  | .awaiting => 2
  | .matched => 3
  | .noAnchor => 4

/-- Condition codes. -/
def Condition.code : Condition → Nat
  | .good => 1
  | .weak => 2
  | .settled => 3
  | .hole => 4
  | .lost => 5

/-- Loss cause codes. -/
def LossCause.code : LossCause → Nat
  | .lost => 0
  | .gap => 1
  | .storeFault => 2

/-- Cue outcome codes (11 section 11.3). -/
def CueOutcome.code : CueOutcome → Nat
  | .completed => 1
  | .completedWithLoss => 2
  | .cutByHost => 3
  | .discAbsent => 4
  | .discChanged => 5
  | .discBusy => 6
  | .badCue => 7
  | .loaderFailed => 8

/-- Transport state codes (11 section 11.5). -/
def TlcState.code : TlcState → Nat
  | .offline => 0
  | .starting => 1
  | .empty => 2
  | .toc => 3
  | .ready => 4
  | .seeking => 5
  | .reading => 6
  | .mechHeld => 7

/-- Spindle codes. -/
def Spindle.code : Spindle → Nat
  | .unknown => 0
  | .stopped => 1
  | .spinning => 2

/-- Disc codes. -/
def Disc.code : Disc → Nat
  | .unknown => 0
  | .absent => 1
  | .present => 2

/-- Seek failure codes. -/
def codeFailure : Option SeekReason → Nat
  | none => 0
  | some .noFocus => 1
  | some .outOfRange => 2

/-- Loader state codes. -/
def LoaderState.code : LoaderState → Nat
  | .idle => 0
  | .homing => 1
  | .moving => 2
  | .settling => 3
  | .stopped => 4
  | .recovering => 5
  | .faulted => 6

/-- Stage codes. -/
def codeStage : Option Stage → Nat
  | none => 0
  | some .take => 1
  | some .carry => 2
  | some .place => 3
  | some .sense => 4

/-- Loader outcome codes. -/
def LoaderOutcome.code : LoaderOutcome → Nat
  | .done => 1
  | .noDisc => 2
  | .noRoom => 3
  | .discBusy => 4
  | .jammed => 5
  | .interrupted => 6
  | .withdrawn => 7

/-- Occupancy codes. -/
def Occupancy.code : Occupancy → Nat
  | .unknown => 0
  | .no => 1
  | .yes => 2

/-- Request kind codes. -/
def LoaderRequest.kind : LoaderRequest → Nat
  | .bind _ _ _ => 1
  | .eject _ => 2
  | .insert _ => 3
  | .rescan => 4

/-- A request's argument: a slot for BIND and INSERT, a location number for EJECT, and 0 for RESCAN, which has none
(log 46). -/
def LoaderRequest.argument : LoaderRequest → Nat
  | .bind _ slot _ => slot
  | .eject location => location
  | .insert slot => slot
  | .rescan => 0

/-- A request's lane byte in the loader record: 0 A, 1 B for a BIND (11 section 11.5). For an EJECT, an INSERT and a RESCAN,
whose lane byte the spec does not give, it is 0, which also reads as A: the model's choice (log 46). -/
def LoaderRequest.laneByte : LoaderRequest → Nat
  | .bind .b _ _ => 1
  | .bind .a _ _ => 0
  | .eject _ => 0
  | .insert _ => 0
  | .rescan => 0

/-- A request's tag byte in the loader record: a BIND's tag (R194). For an EJECT, an INSERT and a RESCAN, whose tag byte the
spec does not give, it is 0, the model's choice (log 46). -/
def LoaderRequest.tagByte : LoaderRequest → Nat
  | .bind _ _ tag => tag.toNat
  | .eject _ => 0
  | .insert _ => 0
  | .rescan => 0

/-- A word of a number. -/
def wordOf (n : Nat) : Word := BitVec.ofNat 32 n

/-- A list of words brought to a length with zero words: in a lane status, transport, loader or TOC record a word with no
named byte is written as 0 (log 51). -/
def padWords (n : Nat) (l : List Word) : List Word := (l ++ List.replicate n 0).take n

/-! ### Lane status record (11 section 11.4) -/

/-- XM offset of a lane status record. -/
def statusOffset : LaneId → Nat
  | .a => 0x400
  | .b => 0x800

/-- The playout address (R5). -/
def Lane.playoutAddress (x : Lane) : Nat :=
  if x.p = x.f then x.seq.lastAddress else (x.addressIn x.p).getD x.seq.lastAddress

/-- The current cue's index, the walk position when there is no current cue (R171). -/
def Lane.currentIndex (x : Lane) : Nat :=
  match x.seq.current with
  | none => x.seq.position
  | some b =>
    match x.seq.segments.find? (fun g => g.base == b) with
    | some g => g.cue.entry
    | none => x.seq.position

/-- The four words of a segment; the home slot byte of a disc without a home slot is 0 (log 52). -/
def segmentWords (g : Segment) : List Word :=
  [packBytes g.cue.entry (g.disc.getD 0) 0 0, g.base, wordOf g.first, wordOf g.stop]

/-- The four words of a span in the map view (R40). -/
def spanWords (x : Span) : List Word :=
  let r := x.repair.getD { attempts := 0, active := false, aborts := 0 }
  [x.first, wordOf (x.seg.addressOf x.first),
   packBytes (x.count % 256) (x.count / 256) x.cond.code (codeFlag r.active), packBytes r.attempts r.aborts 0 0]

/-- The words of a lane status record. -/
def Lane.statusWords (x : Lane) : List Word :=
  let active := x.activeSpan
  padWords 64
    ([packHalves x.seq.refresh.toNat 0,
      packBytes x.seq.state.code (codeCause x.plu.cause) x.seq.mode.code x.currentIndex,
      packHalves x.seq.lanePasses (x.rsc.mode.code + 256 * codeRest x.rsc),
      x.p, x.f, wordOf x.playoutAddress,
      packHalves x.secureLead x.bufferedLead,
      (match active with
       | some y => y.first
       | none => 0),
      packBytes (BitVec.ofInt 8 x.run.err).toNat (codeFlag x.run.anchored) x.run.check.code (codeFlag active.isSome),
      packHalves x.count.skips x.count.strays, packHalves x.count.overruns x.count.noMatches,
      packHalves x.count.unanchored x.count.slips, packHalves x.count.repaired x.count.muted,
      packHalves x.count.storeFaults (x.seq.segments.length + 256 * x.spans.length),
      wordOf x.count.interpolated, 0] ++
      padWords 16 (x.seq.segments.flatMap segmentWords) ++
      [x.plu.note.first, wordOf x.plu.note.address, packHalves x.plu.note.blocks x.plu.note.overwritten,
       wordOf x.plu.note.muted, packBytes x.plu.note.cause.code 0 0 0]) ++
    padWords 191 (padWords 128 (x.spans.flatMap spanWords)) ++ [packHalves x.seq.refresh.toNat 0]

/-- The lane status record written, its refresh count raised (R171, R207); its fields land by rising address, the model's
choice (log 64). -/
def State.writeStatus (s : State) (l : LaneId) : State :=
  let s := s.updLane l fun x => { x with seq := { x.seq with refresh := x.seq.refresh + 1 } }
  s.setWords (statusOffset l) (s.lane l).statusWords

/-! ### Transport record (11 section 11.5) -/

/-- XM offset of the transport record of a lane's transport. -/
def transportOffset : LaneId → Nat
  | .a => 0x100
  | .b => 0x140

/-- The fields of a transport record between its two refresh counts. -/
def Tlc.fieldWords (t : Tlc) : List Word :=
  let k := t.seek.getD { address := 0, speed := .x1, steady := false }
  padWords 14
    [packBytes t.state.code t.spindle.code t.disc.code (codeFlag t.loaderHold), wordOf k.address,
     packBytes k.speed.code (codeFlag k.steady) (codeFailure t.lastFailure) t.violation, t.fingerprint,
     packHalves t.count.checkErrors t.count.strays, packHalves t.count.seeks t.count.halts,
     packHalves t.count.seekTimeouts t.count.seekFailures, packHalves t.count.stalls t.count.tocTimeouts,
     packHalves t.count.invalidTocs t.count.badEvents, packHalves t.count.faults t.count.offlines]

/-- The words of a transport record. -/
def Tlc.recordWords (t : Tlc) : List Word :=
  [packHalves t.refresh.toNat 0] ++ t.fieldWords ++ [packHalves t.refresh.toNat 0]

/-- The transport record of a lane's transport written, its refresh count raised (R147, R207); its fields land by rising
address, the model's choice (log 64). -/
def State.writeTransport (s : State) (l : LaneId) : State :=
  let s := s.updTlc l fun t => { t with refresh := t.refresh + 1 }
  s.setWords (transportOffset l) (s.tlc l).recordWords

/-! ### Loader record (11 section 11.5) -/

/-- XM offset of the loader record. -/
def loaderOffset : Nat := 0x180

/-- The word of a waiting request: its kind with the due mark, argument, lane, tag. -/
def waitingWord (w : Waiting) : Word :=
  packBytes (w.request.kind + 128 * codeFlag w.due) w.request.argument w.request.laneByte w.request.tagByte

/-- The fields of the loader record between its two refresh counts (R194). -/
def State.loaderFields (s : State) : List Word :=
  let d := s.loader
  padWords 30
    ([packBytes d.state.code (codeFlag d.faultMark) (codeFlag d.mechStopped)
        (codeFlag s.pins.flapClosed + 2 * codeFlag s.pins.supplyGood),
      (match d.current with
       | none => 0
       | some c => packBytes c.request.kind c.request.argument c.request.laneByte c.request.tagByte),
      packBytes (match d.current with
        | none => 0
        | some c => c.leg) (codeStage d.stage) d.queue.length 0] ++
     padWords 4 (d.queue.map waitingWord) ++
     [(match d.last with
       | none => 0
       | some o => packBytes o.request.kind o.request.argument o.outcome.code 0),
      packHalves d.count.moves d.count.forced, packHalves d.count.jams d.count.interruptions,
      packHalves d.count.withdrawals d.count.homings])

/-- The words of the loader record. -/
def State.loaderWords (s : State) : List Word :=
  [packHalves s.loader.refresh.toNat 0] ++ s.loaderFields ++ [packHalves s.loader.refresh.toNat 0]

/-- The loader record written, its refresh count raised (R194, R207); its fields land by rising address, the model's choice
(log 64). -/
def State.writeLoader (s : State) : State :=
  let s := s.updLoader fun d => { d with refresh := d.refresh + 1 }
  s.setWords loaderOffset s.loaderWords

/-! ### Slot table and TOC records (R173, R174) -/

/-- XM offset of the slot table entry of a location. -/
def slotOffset (n : Loc) : Nat := 0x200 + 32 * n.val

/-- XM offset of the TOC record of a location. -/
def tocOffset (n : Loc) : Nat := 0x2000 + 512 * n.val

/-- The three words of a slot table entry; without TOC facts their fields are 0 (log 46). The five words after them, with
no named byte, are not written (log 51). -/
def slotWords (e : SlotEntry) : List Word :=
  match e.toc with
  | none => [packBytes e.occupancy.code 0 (e.home.getD 0) 0, 0, 0]
  | some t => [packBytes e.occupancy.code 1 (e.home.getD 0) t.starts.length, t.fingerprint, wordOf t.leadOut]

/-- The 128 words of a TOC record; an empty record is all 0. -/
def tocWords : Option Toc → List Word
  | none => padWords 128 []
  | some t => padWords 128 ([wordOf t.starts.length, wordOf t.leadOut, t.fingerprint] ++ t.starts.map wordOf)

/-- The TOC record of a location written from its entry (R174). -/
def State.writeToc (s : State) (n : Loc) (e : SlotEntry) : State := s.setWords (tocOffset n) (tocWords e.toc)

/-- A location's slot table entry and TOC record replaced, in the table and in XM, with SLOTS_CHANGED (R132, R174, R175).
That the TOC record lands first, then the entry, then the bit is the model's choice (log 54), and that the words of each land
by rising address (log 64). -/
def State.writeSlot (s : State) (n : Loc) (e : SlotEntry) : State :=
  let s := s.updLoader fun d => { d with slots := d.slots.set n.val e }
  ((s.writeToc n e).setWords (slotOffset n) (slotWords e)).setNews .mech slotsChangedBit

/-! ### Cue entries (R150, 11 section 11.3) -/

/-- The result part of an entry written: the words 0x10 to 0x1C first and the first word last (R150, R199). That the result
words land by rising address is the model's choice (log 64). -/
def State.writeResult (s : State) (l : LaneId) (c : TakenCue) (passes : Nat) (o : CueOutcome) (state : Nat) : State :=
  let a := cueOffset l c.entry
  let s := s.setWords (a + 0x10)
    [packHalves passes c.counts.played, packHalves c.counts.muted c.counts.skips, wordOf c.counts.interpolated,
     packHalves c.counts.repaired c.counts.slips]
  s.setWord a (packBytes state o.code (codeFlag c.counts.gapless) 0)

end Sys2Proof.Machine
end

