-- ==== Sys2Proof/Machine/Queue.lean ====
section
/-! DEFINITION. The loader queue: arrivals, withdrawals and the recording of outcomes (R177, R186, R188). -/

namespace Sys2Proof.Machine

/-- An outcome written into the loader record as the last outcome, then LOADER_DONE set (R186, step 3; R188). The record
is written here for each outcome, and at the event's end for what else has changed (log 23). -/
def State.recordOutcome (s : State) (r : LoaderRequest) (o : LoaderOutcome) : State :=
  (s.updLoader fun d => { d with last := some { request := r, outcome := o } }).writeLoader.setNews .mech loaderDoneBit

/-- A request at the end of the queue, its wait timer started (R177). -/
def State.enqueue (s : State) (r : LoaderRequest) : State :=
  s.updLoader fun d => { d with
    queue := d.queue ++ [{ request := r, timer := some s.applied.loaderWaitLimit, due := false, served := false }] }

/-- A request is a BIND of a lane. -/
def LoaderRequest.ofLane (r : LoaderRequest) (l : LaneId) : Bool :=
  match r with
  | .bind k _ _ => k == l
  | .eject _ | .insert _ | .rescan => false

/-- The waiting BINDs of a lane (R177). -/
def Loader.binds (d : Loader) (l : LaneId) : Nat := (d.queue.filter (fun w => w.request.ofLane l)).length

/-- A BIND that arrives: queued, or in FAULTED answered JAMMED in the same event, once the walk that sends it has ended
(R177, R187; log 8). A lane has at most one BIND waiting, so none waits when its next one arrives (log 47). -/
def State.postBind (s : State) (l : LaneId) (slot : Nat) (tag : Byte) : State :=
  if s.loader.state = .faulted then
    s.updLane l fun x => { x with marks := { x.marks with jammed := x.marks.jammed ++ [(slot, tag)] } }
  else if s.loader.binds l = 0 then s.enqueue (.bind l slot tag) else s

/-- A request is the BIND of a lane with a tag. -/
def LoaderRequest.isBind (r : LoaderRequest) (l : LaneId) (tag : Byte) : Bool :=
  match r with
  | .bind k _ t => k == l && t == tag
  | .eject _ => false
  | .insert _ => false
  | .rescan => false

/-- A BIND withdrawn by its lane (R188). -/
def State.withdrawBind (s : State) (l : LaneId) (tag : Byte) : State :=
  match s.loader.queue.find? (fun w => w.request.isBind l tag) with
  | none => s
  | some w =>
    (s.updLoader fun d => { d with
      queue := d.queue.filter (fun v => !v.request.isBind l tag)
      count := { d.count with withdrawals := bump d.count.withdrawals } }).recordOutcome w.request .withdrawn

end Sys2Proof.Machine
end

