-- ==== Sys2Proof/Machine/Playout.lean ====
section
/-! DEFINITION. The playout unit without its dealings with the lane sequencer: concealment, gain, frames, falls, loss
episodes (R103 to R121). -/

namespace Sys2Proof.Machine

/-! ### Concealment (R108, R109) -/

/-- The interpolated value of one channel: the whole expression truncated toward zero (R108, log 17). -/
def interpolateSample (left right : BitVec 16) (d D : Nat) : BitVec 16 :=
  BitVec.ofInt 16 ((left.toInt * (D : Int) + (right.toInt - left.toInt) * (d : Int)).tdiv (D : Int))

/-- The interpolated pair at distance d after the left neighbour in a gap of D (R108). -/
def interpolatePair (left right : Option Pair) (d D : Nat) : Pair :=
  match left, right with
  | some a, some b => { left := interpolateSample a.left b.left d D, right := interpolateSample a.right b.right d D }
  | some a, none => a
  | none, some b => b
  | none, none => .silent

/-- The treatment of a run of a mark set: muted when long, else interpolated between its neighbours (R108, R109). -/
def concealRun (limit : Nat) (pairs : List Pair) (edge next : Option Pair) (r : Nat × Nat) : ConcealedRun :=
  { first := r.1
    length := r.2
    how :=
      if limit < r.2 then .mute
      else .interpolate (if r.1 = 0 then edge else some (pairAt pairs (r.1 - 1)))
        (if r.1 + r.2 = Config.pairsPerBlock then next else some (pairAt pairs (r.1 + r.2))) }

/-- The concealment plan of a copy (R108, R109). -/
def concealPlan (limit : Nat) (pairs : List Pair) (marks : MarkSet) (edge next : Option Pair) : List ConcealedRun :=
  (markRuns marks).map (concealRun limit pairs edge next)

/-- A mark set has a short run that ends at pair 587, so that the position after it is read (R108). -/
def needsNext (limit : Nat) (marks : MarkSet) : Bool :=
  (markRuns marks).any (fun r => r.1 + r.2 == Config.pairsPerBlock && decide (r.2 ≤ limit))

/-- The run is gap-muted. -/
def ConcealedRun.muted (r : ConcealedRun) : Bool :=
  match r.how with
  | .mute => true
  | .interpolate _ _ => false

/-- Pairs of the muted runs of a plan (R109). -/
def mutedPairs (plan : List ConcealedRun) : Nat :=
  plan.foldr (fun r n => if r.muted then r.length + n else n) 0

/-- Pairs of the interpolated runs of a plan (R108). -/
def interpolatedPairs (plan : List ConcealedRun) : Nat :=
  plan.foldr (fun r n => if r.muted then n else r.length + n) 0

/-- The run of a plan that covers a pair. -/
def runAt (plan : List ConcealedRun) (k : Nat) : Option ConcealedRun :=
  plan.find? (fun r => decide (r.first ≤ k) && decide (k < r.first + r.length))

/-- A sample at a gain level: multiplied, divided by 128, truncated toward zero (R111). -/
def scaleSample (v : BitVec 16) (level : Nat) : BitVec 16 :=
  BitVec.ofInt 16 ((v.toInt * (level : Int)).tdiv (Config.fullGain : Int))

/-- A pair at a gain level; at full level it is sent unchanged (R111). -/
def scalePair (q : Pair) (level : Nat) : Pair :=
  if level = Config.fullGain then q
  else { left := scaleSample q.left level, right := scaleSample q.right level }

/-- The pair a block sends at a place and a gain level (R108 to R111). -/
def PlayBlock.pairAt (b : PlayBlock) (k level : Nat) : Pair :=
  match b.form with
  | .silentLost => .silent
  | .silentFault => .silent
  | .copy =>
    match runAt b.plan k with
    | none => scalePair (Machine.pairAt b.pairs k) level
    | some r =>
      match r.how with
      | .mute => .silent
      | .interpolate left right => scalePair (interpolatePair left right (k - r.first + 1) (r.length + 1)) level

/-! ### Gain (R111 to R113) -/

/-- The gain at SILENT. -/
def Playout.silence (u : Playout) : Playout := { u with gain := .silent, level := 0, fall := .step }

/-- The block dropped, the gain SILENT. -/
def Playout.drop (u : Playout) : Playout := { u.silence with block := none }

/-- A planned fall begins at pair 460, when the gain is not falling already (R112). -/
def Playout.beginPlanned (u : Playout) (b : PlayBlock) : Playout :=
  if b.next = Config.fallPair ∧ b.plannedFall ∧ (u.gain = .full ∨ u.gain = .rising) then
    { u with gain := .falling, fall := .step }
  else u

/-- The level at which a falling unit sends its next pair (R111). -/
def Playout.sendLevel (u : Playout) : Nat :=
  match u.gain, u.fall with
  | .falling, .short g r j => g * (r - (j + 1)) / r
  | _, _ => u.level

/-- The gain after a pair has been sent (R111). -/
def Playout.ramp (u : Playout) : Playout :=
  match u.gain with
  | .full => u
  | .silent => u
  | .rising =>
    if Config.fullGain ≤ u.level + 1 then { u with gain := .full, level := Config.fullGain }
    else { u with level := u.level + 1 }
  | .falling =>
    match u.fall with
    | .step => if u.level ≤ 1 then u.silence else { u with level := u.level - 1 }
    | .short g r j =>
      if r ≤ j + 1 then u.silence
      else { u with level := g * (r - (j + 1)) / r, fall := .short g r (j + 1) }

/-- One pair of the block in play sent (R103, R111, R112). -/
def Playout.sendPair (u : Playout) (b : PlayBlock) : Playout :=
  let u := u.beginPlanned b
  { u.ramp with out := b.pairAt b.next u.sendLevel, block := some { b with next := b.next + 1 } }

/-- One frame of the port (R103, R113): a block at its end waits for the event of its end (log 13). -/
def Lane.frame (x : Lane) : Lane :=
  match x.plu.block with
  | none => { x with plu := { x.plu with out := .silent } }
  | some b =>
    if x.seq.state = .playing then
      if b.next < Config.pairsPerBlock then { x with plu := x.plu.sendPair b } else x
    else if x.plu.gain = .falling ∧ b.next < Config.pairsPerBlock then { x with plu := x.plu.sendPair b }
    else { x with plu := { x.plu with out := .silent } }

/-- The fall of R113 when the lane leaves PLAYING or a SKIP cuts the block in play. A fall that takes no pairs is not
counted as a fall of the block (R117, log 42). -/
def Playout.beginFall (u : Playout) : Playout :=
  match u.block with
  | none => u
  | some b =>
    if b.form = .copy ∧ 0 < u.level ∧ b.next < Config.pairsPerBlock then
      let u := { u with block := some { b with fell := true } }
      if u.gain = .falling then u
      else
        let r := Config.pairsPerBlock - b.next
        { u with gain := .falling, fall := if u.level ≤ r then .step else .short u.level r 0 }
    else u.silence

/-- The pairs a running fall still takes (R113). -/
def Playout.fallLeft (u : Playout) : Nat :=
  if u.gain = .falling then
    match u.fall with
    | .step => u.level
    | .short _ r j => r - j
  else 0

/-- The look-ahead: a fall is planned (R112). -/
def Lane.plansFall (x : Lane) : Bool :=
  let n := plus x.p 1
  n == x.f || x.conditionAt n == some .lost || x.plu.holdPoint == some n

/-! ### Loss episodes (R118, R119) -/

/-- The note of an episode over the one before it, which counts as overwritten where LOSS is set (R119). -/
def LossNote.next (n : LossNote) (e : Episode) (set : Bool) : LossNote :=
  { first := e.first, address := e.address, blocks := e.blocks, muted := e.muted, cause := e.cause,
    overwritten := if set then bump n.overwritten else n.overwritten }

/-- The open episode ended: LOSS read, the note made, LOSS to be set once the status record holds it (R119). Where among the
words that one event reads LOSS is read is the model's choice, at a STOP alone R165's order (log 67). -/
def State.endEpisode (s : State) (l : LaneId) : State :=
  match (s.lane l).plu.episode with
  | none => s
  | some e =>
    let set := (s.lane l).marks.loss || s.seenLoss l
    (s.countReads 1).updLane l fun x => { x with
      plu := { x.plu with episode := none, note := x.plu.note.next e set }
      marks := { x.marks with loss := true } }

/-- The episode at a take-up of a block with muted pairs (R118). -/
def Episode.grow (e : Option Episode) (first : Index) (address muted : Nat) (cause : LossCause) : Episode :=
  match e with
  | none => { first := first, address := address, blocks := 1, muted := muted, cause := cause }
  | some e => { e with blocks := bump e.blocks, muted := addUpTo Config.max32 e.muted muted }

end Sys2Proof.Machine
end

