-- ==== Sys2Proof/Machine/Sequencer.lean ====
section
/-! DEFINITION. The lane sequencer: taking cues, the walk, segments and prefetch, disc identity, retires (R149 to
R162, R168 to R170). -/

namespace Sys2Proof.Machine

/-! ### Small changes of a lane -/

/-- The lane with its sequencer context changed. -/
def State.updSeq (s : State) (l : LaneId) (g : Sequencer → Sequencer) : State :=
  s.updLane l fun x => { x with seq := g x.seq }

/-- Reading closed: a scheduling point (R80). -/
def State.closeReading (s : State) (l : LaneId) : State := (s.updSeq l fun q => { q with reading := false }).due l

/-- Reading opened: a scheduling point (R80). -/
def State.openReading (s : State) (l : LaneId) : State := (s.updSeq l fun q => { q with reading := true }).due l

/-- The lane has a taken cue (R151). -/
def Sequencer.hasCue (q : Sequencer) : Bool := q.pendingCue.isSome || !q.segments.isEmpty

/-! ### Retires (R150, R170) -/

/-- The normal outcome of a cue (R170). -/
def normalOutcome (c : TakenCue) : CueOutcome := if c.counts.muted = 0 then .completed else .completedWithLoss

/-- The outcome of a play-out mark (R169). -/
def PlayOutMark.outcome : PlayOutMark → CueOutcome
  | .discChanged => .discChanged
  | .discAbsent => .discAbsent

/-- A cue retired: the entry's pass counted, at a STOP too, its result written when it is ARMED, the unplayed run raised
(R150, R155, R165, R170, R172; log 44). That CUE_DONE lands after the words of the entry is the model's choice (log 68). -/
def State.retire (s : State) (l : LaneId) (c : TakenCue) (o : CueOutcome) : State :=
  let armed := s.armed l c.entry
  let s := (s.countReads 1).updSeq l fun q => { q with
    entryPasses := q.entryPasses.set c.entry (bump (q.entryPasses.getD c.entry 0))
    unplayed := if c.counts.played = 0 then min 24 (q.unplayed + 1) else q.unplayed }
  if armed then
    let q := (s.lane l).seq
    (s.writeResult l c (q.entryPasses.getD c.entry 0) o
      (match q.mode with
       | .once => 0
       | .cycle => 1)).setNews (newsOf l) cueDoneBit
  else s

/-- A list of cues retired in order with one outcome. -/
def State.retireAll (s : State) (l : LaneId) (o : CueOutcome) : List TakenCue → State
  | [] => s
  | c :: rest => (s.retire l c o).retireAll l o rest

/-- A list of cues retired in order with their normal outcomes; that the order is that of the stream (R160, R161) is the
model's choice (log 68). -/
def State.retireNormal (s : State) (l : LaneId) : List TakenCue → State
  | [] => s
  | c :: rest => (s.retire l c (normalOutcome c)).retireNormal l rest

/-- The taken cues of a lane in stream order (R151). -/
def Sequencer.cues (q : Sequencer) : List TakenCue := q.segments.map Segment.cue ++ q.pendingCue.toList

/-! ### Taking a cue (R152, R153, R154) -/

/-- The structural checks of a taken cue (R152). -/
def State.structural (s : State) (l : LaneId) (c : TakenCue) : Bool :=
  decide (c.slot ≤ 6) && decide (c.track ≤ 99) &&
    (c.track != 0 || (decide (c.start < c.stop) && decide (c.stop ≤ Config.discEnd))) &&
    (c.slot != 0 || (s.slot (trayOf l)).occupancy != .no)

/-- The TOC checks, with the addresses they resolve (R154). -/
def resolve (t : Toc) (c : TakenCue) : Option (Nat × Nat) :=
  if c.track = 0 then if c.stop ≤ t.leadOut then some (c.start, c.stop) else none
  else if c.track ≤ t.starts.length then
    some (t.starts.getD (c.track - 1) 0, t.starts.getD c.track t.leadOut)
  else none

/-- A table with no track, for a tray whose table is not known. -/
def Toc.empty : Toc := { starts := [], leadOut := 0, fingerprint := 0 }

/-- The identity of the disc in the lane's tray: its TOC record and home slot (R154). -/
def State.trayIdentity (s : State) (l : LaneId) : Identity :=
  let e := s.slot (trayOf l)
  { toc := e.toc.getD .empty, home := e.home }

/-- The identity established when there is none (R154). -/
def State.establish (s : State) (l : LaneId) : State :=
  match (s.lane l).seq.identity with
  | some _ => s
  | none => s.updSeq l fun q => { q with identity := some (s.trayIdentity l) }

/-- A pending cue judged against the identity: true for BAD_CUE; else its segment is appended and reading opened, or
the cue waits (R154). -/
def State.prime (s : State) (l : LaneId) : State × Bool :=
  let x := s.lane l
  match x.seq.identity, x.seq.pendingCue with
  | some d, some c =>
    match resolve d.toc c with
    | none => (s, true)
    | some (a0, a1) =>
      ((s.updSeq l fun q => { q with
        segments := [{ cue := c, base := x.f, first := a0, stop := a1, disc := d.home }]
        current := some x.f
        pendingCue := none }).openReading l, false)
  | _, _ => (s, false)

/-- PRIMING entered, the identity established when the transport can be used (R154): true for BAD_CUE. -/
def State.enterPriming (s : State) (l : LaneId) : State × Bool :=
  let s := s.setLaneState l .priming
  (if (s.tlc l).state.usable then s.establish l else s).prime l

/-- A BIND sent for a slot with a new tag (R151, R153). -/
def State.sendBind (s : State) (l : LaneId) (slot : Nat) : State :=
  let tag := (s.lane l).seq.bindTag + 1
  (s.updSeq l fun q => { q with bindTag := tag, bind := some { tag := tag, slot := slot, moving := false } }).postBind
    l slot tag

/-- The disc of a pending cue found (R153): true for BAD_CUE. -/
def State.findDisc (s : State) (l : LaneId) (c : TakenCue) : State × Bool :=
  let e := s.slot (trayOf l)
  if c.slot = 0 then
    match e.occupancy with
    | .yes => s.enterPriming l
    | .unknown => (s.setLaneState l .binding, false)
    | .no => (s, true)
  else if e.occupancy = .yes ∧ e.home = some c.slot then
    (s.updSeq l fun q => { q with
      identity := match q.identity with
        | some d => if d.home = some c.slot then some d else none
        | none => none }).enterPriming l
  else ((s.setLaneState l .binding).sendBind l c.slot, false)

/-! ### The walk (R155, R156) -/

/-- What a walk step finds. -/
inductive WalkStep
  | endOfWalk
  | starved
  /-- An armed entry; whether the walk wrapped to it. -/
  | entry (k : Nat) (wrapped : Bool)
  deriving DecidableEq, Repr

/-- The walk step from the walk position (R155). -/
def State.walkStep (s : State) (l : LaneId) : WalkStep :=
  let q := (s.lane l).seq
  let j := q.position + 1
  if 24 ≤ q.unplayed then .starved
  else
    match q.mode with
    | .once => if Config.cueEntries ≤ j then .endOfWalk else if s.armed l j then .entry j false else .starved
    | .cycle =>
      if j < Config.cueEntries ∧ s.armed l j then .entry j false
      else if s.armed l 0 (if j < Config.cueEntries then 1 else 0) then .entry 0 true
      else .starved

/-- How many entries' state words the walk step reads (R155). -/
def State.stepReads (s : State) (l : LaneId) : Nat :=
  let q := (s.lane l).seq
  let j := q.position + 1
  if 24 ≤ q.unplayed then 0
  else
    match q.mode with
    | .once => if Config.cueEntries ≤ j then 0 else 1
    | .cycle => if j < Config.cueEntries ∧ s.armed l j = false then 2 else 1

/-- The state once the walk step has read. -/
def State.stepRead (s : State) (l : LaneId) : State := s.countReads (s.stepReads l)

/-- How many words of an entry hold its host fields (R149). -/
def hostFieldWords : Nat := 3

/-- The walk position set to an entry, the pass counted when the walk wrapped (R152, R155). -/
def State.moveWalk (s : State) (l : LaneId) (k : Nat) (wrapped : Bool) : State :=
  s.updSeq l fun q => { q with position := k, lanePasses := if wrapped then bump q.lanePasses else q.lanePasses }

/-- What a walk-on closes before its step (R156). -/
def State.walkClose (s : State) (l : LaneId) : State :=
  (s.closeReading l).updSeq l fun q => { q with mark := none, pendingCue := none, current := none }

/-- The playout unit as a lane leaves its state by a walk-on: the episode ended, the block dropped at once, no
underrun cause (R113, R115, R118). That LOSS is read (R119) after the retires before the walk-on and before its step reads is
the model's choice (log 67). -/
def State.stopPlayout (s : State) (l : LaneId) : State :=
  (s.endEpisode l).updLane l fun x => { x with plu := { x.plu.drop with cause := none } }

/-- A taken cue made pending and its disc found: true for BAD_CUE (R152, R153, R154). -/
def State.takePending (s : State) (l : LaneId) (c : TakenCue) : State × Bool :=
  if s.structural l c then (s.updSeq l fun q => { q with pendingCue := some c }).findDisc l c else (s, true)

/-- A walk from a step on: cue after cue is retired BAD_CUE until one passes, STARVED or the end of the walk (R156). -/
def State.walk : Nat → WalkStep → State → LaneId → State
  | _, .endOfWalk, s, l =>
    ((s.setLaneState l .idle).releaseAll l).updSeq l fun q => { q with identity := none }
  | _, .starved, s, l => s.setLaneState l .starved
  | 0, .entry _ _, s, _ => s
  | n + 1, .entry k wrapped, s, l =>
    let c := s.readCue l k
    let r := ((s.countReads hostFieldWords).moveWalk l k wrapped).takePending l c
    if r.2 then
      let s := (r.1.retire l c .badCue).walkClose l
      State.walk n (s.walkStep l) (s.stepRead l) l
    else r.1

/-- More cues than one event can retire in a walk (R155: at most 24; log 9). -/
def walkFuel : Nat := 26

/-- A walk-on (R156). -/
def State.walkOn (s : State) (l : LaneId) : State :=
  let s := (s.walkClose l).stopPlayout l
  State.walk walkFuel (s.walkStep l) (s.stepRead l) l

/-- A pending cue retired and the walk gone on (R156, R162). -/
def State.retirePending (s : State) (l : LaneId) (o : CueOutcome) : State :=
  match (s.lane l).seq.pendingCue with
  | none => s
  | some c => (s.retire l c o).walkOn l

/-- PRIMING with its pending cue judged, retired BAD_CUE when it fails (R154). -/
def State.primeOrRetire (s : State) (l : LaneId) : State :=
  let r := s.prime l
  if r.2 then r.1.retirePending l .badCue else r.1

/-- PRIMING entered from BINDING (R153, R162). -/
def State.primingOrRetire (s : State) (l : LaneId) : State :=
  let r := s.enterPriming l
  if r.2 then r.1.retirePending l .badCue else r.1

/-! ### Prefetch (R158) -/

/-- The fill stands at the end of the last segment (R158). -/
def Lane.fillAtEnd (x : Lane) : Bool :=
  match x.lastSegment with
  | none => false
  | some g => x.f == g.ref.endIndex

/-- The segment a prefetched cue would have: none when a check fails (R152, R154, R158). -/
def State.prefetchSegment (s : State) (l : LaneId) (d : Identity) (base : Index) (c : TakenCue) : Option Segment :=
  if s.structural l c then
    (resolve d.toc c).map fun a => { cue := c, base := base, first := a.1, stop := a.2, disc := d.home }
  else none

/-- The prefetch decision (R158). The entry's host words are read once: the take uses what the decision has read, the model's
choice (log 62). -/
def State.prefetch : Nat → State → LaneId → State
  | 0, s, _ => s
  | n + 1, s, l =>
    let q := (s.lane l).seq
    let step := s.walkStep l
    let s := s.stepRead l
    match step, q.identity, (s.lane l).lastSegment with
    | .entry k wrapped, some d, some last =>
      let c := s.readCue l k
      let s := s.countReads hostFieldWords
      if (c.slot = 0 ∨ d.home = some c.slot) ∧ q.segments.length < Config.maxSegments ∧ q.mark = none then
        let s := s.moveWalk l k wrapped
        match s.prefetchSegment l d last.ref.endIndex c with
        | some g => (s.updSeq l fun q => { q with segments := q.segments ++ [g] }).due l
        | none => State.prefetch n (s.retire l c .badCue) l
      else s
    | _, _, _ => s

/-- The prefetch decision where the fill stands at the end of the last segment (R158). -/
def State.prefetchAtEnd (s : State) (l : LaneId) : State :=
  if (s.lane l).fillAtEnd then State.prefetch walkFuel s l else s

/-! ### Crossings, hold point, stream end, cut (R160, R161, R169) -/

/-- A crossing report into a segment (R160). -/
def State.crossing (s : State) (l : LaneId) (g : Segment) (gapless : Bool) : State :=
  let before := (s.lane l).seq.segments.takeWhile (fun q => q.base != g.base)
  let s := s.retireNormal l (before.map Segment.cue)
  s.updLane l fun x =>
    let x := { x with
      seq := { x.seq with
        segments := x.seq.segments.dropWhile (fun q => q.base != g.base)
        current := some g.base }
      plu := { x.plu with holdPoint := if g.cue.holdAfter then some g.ref.endIndex else x.plu.holdPoint } }
    x.updCue g.base fun c => { c with gapless := gapless }

/-- The current cue's segment (R151). -/
def Sequencer.currentSegment (q : Sequencer) : Option Segment :=
  match q.current with
  | none => none
  | some b => q.segments.find? (fun g => g.base == b)

/-- The segment of the current cue removed, with no current cue after it. -/
def Sequencer.dropCurrent (q : Sequencer) : Sequencer :=
  match q.current with
  | none => q
  | some b => { q with segments := q.segments.filter (fun g => g.base != b), current := none }

/-- The current cue retired with its normal outcome and its segment removed (R161). -/
def State.retireCurrent (s : State) (l : LaneId) : State :=
  match (s.lane l).seq.currentSegment with
  | none => s
  | some g => (s.retire l g.cue (normalOutcome g.cue)).updSeq l Sequencer.dropCurrent

/-- The hold point reached (R161): reading stays open while a segment is in the list (08 section 8.6). -/
def State.holdReached (s : State) (l : LaneId) : State :=
  let s := (s.setLaneState l .held).retireCurrent l
  let s := s.updLane l fun x => { x with plu := { x.plu with holdPoint := none } }
  if (s.lane l).seq.segments.isEmpty then s.closeReading l else s

/-- Stream end without a play-out mark: the cues left are retired and the lane walks on (R161). -/
def State.streamEnd (s : State) (l : LaneId) : State :=
  let cues := (s.lane l).seq.segments.map Segment.cue
  ((s.retireNormal l cues).updSeq l fun q => { q with segments := [], current := none }).walkOn l

/-- The lane's stream cut to f: the map cleared, the segments and the hold point gone, every cell released (R39, R167,
R169). -/
def State.cutStream (s : State) (l : LaneId) : State :=
  (s.updLane l fun x =>
    let x := x.cutToFill
    { x with seq := { x.seq with segments := [], pendingCue := none, current := none },
             plu := { x.plu with holdPoint := none } }).releaseAll l

/-- The play-out cut (R169). -/
def State.playOutCut (s : State) (l : LaneId) : State :=
  match (s.lane l).seq.mark with
  | none => s
  | some m => ((s.retireAll l m.outcome (s.lane l).seq.cues).cutStream l).walkOn l

/-! ### Disc identity (R168) -/

/-- A disc identity failure (R168); that DISC lands first is the model's choice (log 68). -/
def State.identityFailure (s : State) (l : LaneId) (m : PlayOutMark) : State :=
  let s := s.setNews (newsOf l) discBit
  (s.updSeq l fun q => { q with
    mark := match q.mark with
      | none => some m
      | some k => some k
    identity := none }).closeReading l

/-- A valid TOC handed on by the lane's transport link controller (R168). -/
def State.takeToc (s : State) (l : LaneId) (t : Toc) : State :=
  let q := (s.lane l).seq
  if !q.hasCue || q.state = .binding then s
  else
    match q.identity with
    | none => if q.state = .priming then (s.establish l).primeOrRetire l else s
    | some d => if d.toc.fingerprint = t.fingerprint then s else s.identityFailure l .discChanged

/-- A disc-absent report of the lane's transport link controller (R168). -/
def State.discAbsent (s : State) (l : LaneId) : State :=
  let q := (s.lane l).seq
  if !q.hasCue || q.state = .binding then s else s.identityFailure l .discAbsent

/-! ### Reports of the loader controller (R153, R162) -/

/-- A change of the tray's slot table entry: a slot-0 cue waiting in BINDING is judged again (R153, R175). -/
def State.trayChanged (s : State) (l : LaneId) : State :=
  let q := (s.lane l).seq
  match q.state, q.pendingCue with
  | .binding, some c =>
    if c.slot = 0 then
      match (s.slot (trayOf l)).occupancy with
      | .yes => s.primingOrRetire l
      | .no => s.retirePending l .badCue
      | .unknown => s
    else s
  | _, _ => s

/-- A slot table entry and its TOC record replaced, a change of a tray reported to its lane (R175). An entry that stays
what it was is not written again, its TOC record is (R132, R174; log 24). -/
def State.setSlot (s : State) (n : Loc) (e : SlotEntry) : State :=
  if s.slot n = e then s.writeToc n e
  else
    let s := s.writeSlot n e
    if n = trayOf .a then s.trayChanged .a else if n = trayOf .b then s.trayChanged .b else s

/-- An outcome of a BIND with its tag (R162). -/
def State.bindOutcome (s : State) (l : LaneId) (tag : Byte) (o : LoaderOutcome) : State :=
  match (s.lane l).seq.bind with
  | none => s
  | some b =>
    if b.tag ≠ tag then s
    else
      let s := s.updSeq l fun q => { q with bind := none }
      match o with
      | .done => (s.updSeq l fun q => { q with identity := none }).primingOrRetire l
      | .noDisc => s.retirePending l .discAbsent
      | .discBusy => s.retirePending l .discBusy
      | .noRoom => s.retirePending l .loaderFailed
      | .jammed => s.retirePending l .loaderFailed
      | .interrupted => s.updSeq l fun q => { q with reRequest := true }
      | .withdrawn => s

/-- The recovery ended: an interrupted BIND is sent again (R162, R193). -/
def State.recoveryEnded (s : State) (l : LaneId) : State :=
  let q := (s.lane l).seq
  if q.reRequest then
    let s := s.updSeq l fun q => { q with reRequest := false }
    match q.pendingCue with
    | some c => s.sendBind l c.slot
    | none => s
  else s

end Sys2Proof.Machine
end

