-- ==== Sys2Proof/Machine/Play.lean ====
section
/-! DEFINITION. Playout with the lane sequencer: take-ups, starts, advances, underrun, resumption (R105 to R120). -/

namespace Sys2Proof.Machine

/-! ### Take-up (R107, R108, R117, R118, R120) -/

/-- What a take-up has read: form, pairs and mark set. -/
structure TakenCopy where
  form : BlockForm
  pairs : List Pair
  marks : MarkSet
  deriving DecidableEq, Repr

/-- The position p read for take-up, a failed read counted (R14, R107). -/
def State.readForPlay (s : State) (l : LaneId) : State × TakenCopy :=
  let x := s.lane l
  match x.conditionAt x.p with
  | none => (s, { form := .silentLost, pairs := [], marks := 0 })
  | some c =>
    if c.playable then
      match s.readCell l x.p (x.addressIn x.p) with
      | .copy q => (s, { form := .copy, pairs := q.pairs, marks := q.marks })
      | .unassigned => (s.noteStoreFault l, { form := .silentFault, pairs := [], marks := 0 })
      | .storeFault => (s.noteStoreFault l, { form := .silentFault, pairs := [], marks := 0 })
    else (s, { form := .silentLost, pairs := [], marks := 0 })

/-- The pair after the block, read from position p + 1 where it lies before f and is playable; elsewhere nothing is read
and nothing counted (R108; log 50). -/
def State.readNext (s : State) (l : LaneId) : State × Option Pair :=
  let x := s.lane l
  let i := plus x.p 1
  match x.conditionAt i with
  | none => (s, none)
  | some c =>
    if c.playable then
      match s.readCell l i (x.addressIn i) with
      | .copy q => (s, if q.marks.getLsbD 0 then none else some (pairAt q.pairs 0))
      | .unassigned => (s.noteStoreFault l, none)
      | .storeFault => (s.noteStoreFault l, none)
    else (s, none)

/-- The edge pair, when its position is p − 1 and it is usable (R106, R108). -/
def Lane.edgePair (x : Lane) : Option Pair :=
  if x.plu.edge.position = x.p - 1 ∧ x.plu.edge.usable then some x.plu.edge.pair else none

/-- The loss cause of a block with muted pairs (R109, R110). -/
def BlockForm.cause : BlockForm → LossCause
  | .copy => .gap
  | .silentLost => .lost
  | .silentFault => .storeFault

/-- The gapless indication of a crossing (R117). -/
def gaplessCrossing (advance : Bool) (finished : Option PlayBlock) (form : BlockForm) (plan : List ConcealedRun) :
    Bool :=
  advance && form == .copy &&
    (match finished with
     | none => false
     | some b => !b.plannedFall && !b.fell) &&
    (match runAt plan 0 with
     | none => true
     | some r => !r.muted)

/-- The unit with a block taken up: the rise, then the look-ahead (R110, R112). -/
def Lane.playBlock (x : Lane) (b : PlayBlock) : Lane :=
  match b.form with
  | .copy =>
    let planned := x.plansFall
    let u := x.plu
    let u := if u.gain = .silent ∨ u.gain = .falling then { u with gain := .rising, fall := .step } else u
    { x with plu := { u with block := some { b with plannedFall := planned } } }
  | .silentLost => { x with plu := { x.plu.silence with block := some b } }
  | .silentFault => { x with plu := { x.plu.silence with block := some b } }

/-- The counts of a block taken up, for the cue of its segment and for the lane (R120). -/
def Lane.countBlock (x : Lane) (base : Option Index) (muted interpolated : Nat) : Lane :=
  let k := if muted = 0 then 0 else 1
  let x := match base with
    | none => x
    | some b => x.updCue b fun c => { c with
        played := bump c.played
        muted := addUpTo Config.max16 c.muted k
        interpolated := addUpTo Config.max32 c.interpolated interpolated }
  { x with count := { x.count with
      muted := addUpTo Config.max16 x.count.muted k
      interpolated := addUpTo Config.max32 x.count.interpolated interpolated } }

/-- The loss episode at a take-up (R118). -/
def State.countLoss (s : State) (l : LaneId) (address muted : Nat) (cause : LossCause) : State :=
  if muted = 0 then s.endEpisode l
  else s.updLane l fun x => { x with plu := { x.plu with
    episode := some (Episode.grow x.plu.episode x.p address muted cause) } }

/-- Take-up of p, at an advance or at a start (R107). That the retires of a crossing read their entries' states before the end
of an episode reads LOSS (R119, R160) is the model's choice (log 67). -/
def State.takeUp (s : State) (l : LaneId) (advance : Bool) : State :=
  let limit := (s.settings l).interpLimit
  let finished := (s.lane l).plu.block
  let (s, q) := s.readForPlay l
  let (s, next) := if q.form = .copy ∧ needsNext limit q.marks then s.readNext l else (s, none)
  let x := s.lane l
  let plan := if q.form = .copy then concealPlan limit q.pairs q.marks x.edgePair next else []
  let muted := if q.form = .copy then mutedPairs plan else Config.pairsPerBlock
  let address := (x.addressIn x.p).getD 0
  let s := match x.seq.segments.find? (fun g => g.base == x.p) with
    | some g => s.crossing l g (gaplessCrossing advance finished q.form plan)
    | none => s
  let s := s.updLane l fun x =>
    let x := x.playBlock { position := x.p, form := q.form, pairs := q.pairs, marks := q.marks, plan := plan, next := 0,
                           plannedFall := false, fell := false }
    let x := x.countBlock ((x.segmentAt x.p).map Segment.base) muted (interpolatedPairs plan)
    { x with seq := { x.seq with unplayed := 0, lastAddress := address } }
  s.countLoss l address muted q.form.cause

/-! ### Underrun and starts (R106, R115) -/

/-- The underrun cause from the transport's state (R115). -/
def underrunCause : TlcState → UnderrunCause
  | .offline => .transport
  | .starting => .transport
  | .mechHeld => .mechanism
  | .empty => .read
  | .toc => .read
  | .ready => .read
  | .seeking => .read
  | .reading => .read

/-- UNDERRUN entered (R115); at stream end the sequencer goes on, or leaves a marked lane to its cut (R161, R169). That LOSS is
read (R119) before the retire of a stream end reads its entry's state is the model's choice (log 67). -/
def State.enterUnderrun (s : State) (l : LaneId) : State :=
  let s := (s.endEpisode l).setLaneState l .underrun
  let s := s.updLane l fun x => { x with
    plu := { x.plu.drop with cause := some (underrunCause (s.tlc l).state) } }
  let x := s.lane l
  if x.fillAtEnd ∧ x.seq.mark = none then s.streamEnd l else s

/-- A start of p with the lane PLAYING (R106). -/
def State.startPlay (s : State) (l : LaneId) : State :=
  let s := s.setLaneState l .playing
  let s := s.updLane l fun x => { x with plu := { x.plu with cause := none } }
  let x := s.lane l
  if x.p = x.f then s.enterUnderrun l else s.takeUp l false

/-- A start whose block in play is dropped first (R113). -/
def State.dropAndStart (s : State) (l : LaneId) : State :=
  (s.updLane l fun x => { x with plu := x.plu.drop }).startPlay l

/-! ### Advances (R105) -/

/-- The advance claim, the release of the cell it passes and the edge pair (R105, steps 1 and 2). -/
def State.claimAdvance (s : State) (l : LaneId) : State :=
  let s := s.updLane l fun x =>
    let edge := match x.plu.block with
      | none => x.plu.edge
      | some b => { position := b.position, pair := pairAt b.pairs 587,
                    usable := b.form == .copy && !b.marks.getLsbD 587 }
    let x := x.advanceMap (s.settings l).guard
    let hold := x.rsc.mapFullHold && !decide (x.spans.length < Config.maxSpans)
    { x.due.refreshDue with plu := { x.plu with edge := edge }, rsc := { x.rsc with mapFullHold := hold } }
  s.releasePassed l

/-- A playout advance; the repeated prefetch decision is made last (R105, R158; log 43). That LOSS is read (R119) before the
retire of a hold point reads its entry's state (R161) is the model's choice (log 67). -/
def State.advance (s : State) (l : LaneId) : State :=
  let s := s.claimAdvance l
  let x := s.lane l
  let s :=
    if x.plu.holdPoint = some x.p then
      let s := s.updLane l fun x => { x with plu := x.plu.drop }
      if x.seq.mark.isSome ∧ x.secureLead = 0 then s else (s.endEpisode l).holdReached l
    else if x.p = x.f then s.enterUnderrun l
    else s.takeUp l true
  s.prefetchAtEnd l

/-- The block in play has sent its last pair with the lane PLAYING at its position (R105). -/
def Lane.atAdvance (x : Lane) : Bool :=
  match x.plu.block with
  | none => false
  | some b => b.next == Config.pairsPerBlock && x.seq.state == .playing && b.position == x.p

/-- The block in play has sent its last pair otherwise (R105). -/
def Lane.atOtherEnd (x : Lane) : Bool :=
  match x.plu.block with
  | none => false
  | some b => b.next == Config.pairsPerBlock && !(x.seq.state == .playing && b.position == x.p)

/-- A fall of STOPPING has ended (R113, R165). -/
def Lane.atFallEnd (x : Lane) : Bool :=
  x.seq.state == .stopping && x.plu.block.isSome && x.plu.gain == .silent

/-- The end of a fall in STOPPING: the block dropped, the lane IDLE (R113, R165). -/
def State.endFall (s : State) (l : LaneId) : State :=
  (s.updLane l fun x => { x with plu := x.plu.drop }).setLaneState l .idle

/-- The end of a block of which no advance is taken, by lane state (R105, R113, R114, log 14). -/
def State.endBlock (s : State) (l : LaneId) : State :=
  match (s.lane l).seq.state with
  | .playing => s.dropAndStart l
  | .stopping => s.endFall l
  | .paused => s
  | .idle | .binding | .priming | .underrun | .held | .starved =>
    s.updLane l fun x => { x with plu := x.plu.drop }

/-! ### Resumption (R114) -/

/-- The gain of a kept block resumed at pair k (R114). -/
def Playout.resumeGain (u : Playout) (form : BlockForm) (planned : Bool) (k : Nat) : Playout :=
  if form = .copy ∧ ¬(planned ∧ Config.fallPair ≤ k) then { u.silence with gain := .rising } else u.silence

/-- GO in PAUSED (R114); a kept block that a SKIP has cut stays silent to its end (log 15). The fresh look-ahead is made for
a kept copy alone: a SILENT_LOST or SILENT_FAULT block has none at its take-up (R112) and gets no planned fall here, the
model's choice (log 59). -/
def State.resume (s : State) (l : LaneId) : State :=
  let x := s.lane l
  match x.plu.block with
  | none => s.startPlay l
  | some b =>
    let k := min Config.pairsPerBlock (b.next + x.plu.fallLeft)
    if b.position ≠ x.p then
      if k = Config.pairsPerBlock then s.dropAndStart l
      else
        (s.setLaneState l .playing).updLane l fun x =>
          { x with plu := { x.plu.silence with block := some { b with next := k, plannedFall := false } } }
    else if k = Config.pairsPerBlock then
      ((s.setLaneState l .playing).updLane l fun x =>
        { x with plu := { x.plu.silence with block := some { b with next := k } } }).advance l
    else
      let planned := b.form == .copy && x.plansFall
      (s.setLaneState l .playing).updLane l fun x =>
        { x with plu := { x.plu.resumeGain b.form planned k with
          block := some { b with next := k, plannedFall := planned } } }

end Sys2Proof.Machine
end

