-- ==== Sys2Proof/Machine/Intake.lean ====
section
/-! DEFINITION. Block intake: mapping, classification and handling of an arrival (R45, R49 to R63). -/

namespace Sys2Proof.Machine

/-! ### Mapping (R49) -/

/-- The position of a true address from a segment on, through contiguous next segments, with the segment it maps
through (R49). -/
def mapAddress (segs : List Segment) : Nat → SegRef → Int → Option (SegRef × Index)
  | 0, _, _ => none
  | n + 1, g, a =>
    if a < g.first then none
    else if a < g.stop then some (g, plus g.base (a.toNat - g.first))
    else
      match nextContiguous segs g with
      | none => none
      | some h => mapAddress segs n h a

/-- The true address of a label: the label less the run's label error (R49). -/
def RunContext.trueAddress (r : RunContext) (label : BitVec 24) : Int := (label.toNat : Int) - r.err

/-- The mapping of an arrival through the run segment (R49). -/
def Lane.mapArrival (x : Lane) (label : BitVec 24) : Option (SegRef × Index) :=
  match x.run.seg with
  | none => none
  | some g => mapAddress x.seq.segments (x.seq.segments.length + 1) g (x.run.trueAddress label)

/-- Position i is a preroll position of the run (R51); a run that has become unanchored has none (R48, R71; log 39). -/
def RunContext.isPreroll (r : RunContext) (i : Index) : Bool :=
  r.anchored && decide (ahead i r.seekPosition < ahead r.target r.seekPosition)

/-- The advance into p has been taken: the block in play is that of p (R27, R106). -/
def Lane.playTaken (x : Lane) : Bool :=
  match x.plu.block with
  | none => false
  | some b => b.position == x.p

/-- The mark set of an arrival, none when it is OVERMARKED (R2). -/
def Arrival.markSet (a : Arrival) : Option MarkSet := MarkReport.marks a.marks

/-! ### Results -/

/-- The in-order counter at 0 (R62). -/
def Lane.breakRun (x : Lane) : Lane := { x with run := { x.run with inOrder := 0 } }

/-- A carried-out I0 arrival counted; 75 in a row are a good event (R62). -/
def State.countInOrder (s : State) (l : LaneId) : State :=
  if Config.goodRun ≤ (s.lane l).run.inOrder + 1 then (s.updLane l Lane.breakRun).goodEvent l
  else s.updLane l fun x => { x with run := { x.run with inOrder := x.run.inOrder + 1 } }

/-- An intake result of the OPEN run: its class, outcome, position and class of the copy, nothing more. -/
def intakeResult (c : IntakeClass) (o : IntakeOutcome) (i : Option Index) (copy : Option CopyClass) : IntakeResult :=
  { cls := c, outcome := o, position := i, copy := copy, secureLead := 0, bufferedLead := 0, spanCount := 0,
    segmentFilled := false, cause := none, passed := none, ofRun := true, preroll := false }

/-- An intake result with the leads and the span count as they stand after the arrival (R63). -/
def Lane.measured (x : Lane) (r : IntakeResult) : IntakeResult :=
  { r with secureLead := x.secureLead, bufferedLead := x.bufferedLead, spanCount := x.spans.length }

/-- An arrival reported: SEGMENT_FILLED to the sequencer when the appended position is the last of its segment, then
the result to the repair scheduler (R61, R63, R86). -/
def State.report (s : State) (l : LaneId) (r : IntakeResult) : State :=
  (if r.segmentFilled then s.prefetchAtEnd l else s).takeResult l ((s.lane l).measured r)

/-- A skip counted for the lane and for the cue of a segment (R53, R54). -/
def Lane.countSkip (x : Lane) (g : SegRef) : Lane :=
  let x := x.updCue g.base fun c => { c with skips := bump c.skips }
  { x with count := { x.count with skips := bump x.count.skips } }

/-- Position i is the last of a segment (R61). -/
def SegRef.isLast (g : SegRef) (i : Index) : Bool := plus i 1 == g.endIndex

/-! ### Classes (R52 to R59) -/

/-- What an arrival delivers: its mark set when it has one, unless the store refuses its first write (R52, R53, R59). -/
structure Delivery where
  marks : Option MarkSet
  refused : Bool
  deriving DecidableEq, Repr

/-- The delivery of an arrival whose copy would be the first at position i; a refusal is counted (R9, R59). -/
def State.deliver (s : State) (l : LaneId) (i : Index) (a : Arrival) : State × Delivery :=
  match a.markSet with
  | none => (s, { marks := none, refused := false })
  | some m =>
    if s.canAssign l i then (s, { marks := some m, refused := false })
    else (s.countStoreFault l, { marks := none, refused := true })

/-- The outcome of a carried-out arrival (R52, R59). -/
def Delivery.outcome (d : Delivery) : IntakeOutcome := if d.refused then .storeRefused else .done

/-- The delivered copy written at position i of segment g (R10). -/
def State.writeDelivery (s : State) (l : LaneId) (g : SegRef) (i : Index) (a : Arrival) (d : Delivery) : State :=
  match d.marks with
  | none => s
  | some m => s.firstWrite l i (g.addressOf i) m a.pairs

/-- The class of an arrival with a position class, I6 when it is OVERMARKED (R45, step 5). -/
def Arrival.classOf (a : Arrival) (c marked : IntakeClass) : IntakeClass :=
  match a.marks with
  | .overmarked => marked
  | .runs _ => c

/-- The in-order counter at an arrival that finds the window full: an I0 leaves it, an I6 returns it to 0 (R59, R62). -/
def State.atWindow (s : State) (l : LaneId) (a : Arrival) : State :=
  match a.marks with
  | .overmarked => s.updLane l Lane.breakRun
  | .runs _ => s

/-- Class I0, and I6 with sub-class I0 (R52, R59). Where the store refuses the first write and the map then answers FULL to
the append, the outcome is FULL, the map's answer, and not STORE_REFUSED (log 49). -/
def State.takeAtFill (s : State) (l : LaneId) (g : SegRef) (a : Arrival) : State :=
  let x := s.lane l
  let i := x.f
  let cls := a.classOf .i0 .i6of0
  if x.bufferedLead = s.share l - 2 then (s.atWindow l a).report l (intakeResult cls .window (some i) none)
  else
    let (s, d) := s.deliver l i a
    let copy := copyClass (s.settings l).interpLimit d.marks
    match (s.lane l).append g copy with
    | none => (s.updLane l Lane.breakRun).report l (intakeResult cls .full (some i) copy)
    | some x' =>
      let s := (s.setLane l x').writeDelivery l g i a d
      let s := if d.marks.isSome then s.countInOrder l else s.updLane l Lane.breakRun
      s.report l { intakeResult cls d.outcome (some i) copy with segmentFilled := g.isLast i }

/-- Class I2, with the class of the copy where the map has judged one (R54). -/
def State.takeFar (s : State) (l : LaneId) (g : SegRef) (i : Index) (o : IntakeOutcome) (copy : Option CopyClass) :
    State :=
  (s.updLane l fun x => (x.countSkip g).breakRun).report l (intakeResult .i2 o (some i) copy)

/-- Class I1, and I6 with sub-class I1 (R53, R59); I2 when the map refuses (R54). -/
def State.takeKept (s : State) (l : LaneId) (g : SegRef) (i : Index) (a : Arrival) : State :=
  let (s, d) := s.deliver l i a
  let copy := copyClass (s.settings l).interpLimit d.marks
  match (s.lane l).aheadHole g i copy with
  | none => s.takeFar l g i .full copy
  | some x' =>
    let s := (s.setLane l ((x'.countSkip g).breakRun)).writeDelivery l g i a d
    s.report l { intakeResult (a.classOf .i1 .i6of1) d.outcome (some i) copy with segmentFilled := g.isLast i }

/-- An arrival after f; where several reasons of I2 hold, the first of TOO_FAR, WINDOW, SEGMENT, FULL is the one reported
(R51, R53, R54; log 40). -/
def State.takeAhead (s : State) (l : LaneId) (g : SegRef) (i : Index) (a : Arrival) : State :=
  let x := s.lane l
  let c := s.settings l
  if c.keepLimit < ahead i x.f then s.takeFar l g i .tooFar none
  else if c.share - 3 < ahead i x.p then s.takeFar l g i .window none
  else if (x.segmentAt x.f).map Segment.base ≠ some g.base then s.takeFar l g i .segment none
  else s.takeKept l g i a

/-- The outcome of an absorption (R57). -/
def ClaimAnswer.outcome : ClaimAnswer → IntakeOutcome
  | .done => .done
  | .full => .full
  | .below => .below

/-- What an absorption gives: the state after it, its outcome, and the class of the copy it judged (R56). -/
abbrev Absorbed := State × IntakeOutcome × Option CopyClass

/-- The absorption of an arriving copy into a position that holds one (R55, R56). -/
def State.absorbMerged (s : State) (l : LaneId) (i : Index) (a : Arrival) (m : MarkSet) : Absorbed :=
  let x := s.lane l
  match s.readCell l i (x.addressIn i) with
  | .copy q =>
    let merged := q.marks &&& m
    let copy := copyClass (s.settings l).interpLimit (some merged)
    let r := x.absorb i copy x.playTaken
    match r.1 with
    | .done =>
      let s := s.setLane l r.2
      (if merged = q.marks then s else s.rewrite q merged (mergePairs q.pairs a.pairs q.marks m), .done, copy)
    | .full => (s, .full, copy)
    | .below => (s, .below, copy)
  | .unassigned => (s.noteStoreFault l, .storeRefused, none)
  | .storeFault => (s.noteStoreFault l, .storeRefused, none)

/-- The absorption of an arrival as the first copy of a position, or without a copy (R56, R59). A copy that the store
refused is reported STORE_REFUSED where the map answers DONE, else with the map's own FULL or BELOW (log 49). -/
def State.absorbFirst (s : State) (l : LaneId) (g : SegRef) (i : Index) (a : Arrival) (d : Delivery) : Absorbed :=
  let x := s.lane l
  let copy := copyClass (s.settings l).interpLimit d.marks
  let r := x.absorb i copy x.playTaken
  match r.1 with
  | .done => ((s.setLane l r.2).writeDelivery l g i a d, d.outcome, copy)
  | .full => (s, .full, copy)
  | .below => (s, .below, copy)

/-- Class I3, and I6 with sub-class I3 (R56, R57, R59). -/
def State.takeBehind (s : State) (l : LaneId) (g : SegRef) (i : Index) (a : Arrival) (preroll : Bool) : State :=
  let held := match (s.lane l).conditionAt i with
    | some c => c.playable
    | none => false
  let (s, o, copy) :=
    match a.markSet with
    | none => s.absorbFirst l g i a { marks := none, refused := false }
    | some m =>
      if held then s.absorbMerged l i a m
      else
        let (s, d) := s.deliver l i a
        s.absorbFirst l g i a d
  (s.updLane l Lane.breakRun).report l { intakeResult (a.classOf .i3 .i6of3) o (some i) copy with preroll := preroll }

/-- Class I4, on the side of the window it was found (R58). R63 names no outcome for it: the model gives it DONE, with the
side in a field of its own (log 41). -/
def State.takePassed (s : State) (l : LaneId) (i : Index) (side : PassedSide) (preroll : Bool) : State :=
  (s.updLane l Lane.breakRun).report l
    { intakeResult .i4 .done (some i) none with passed := some side, preroll := preroll }

/-- Class I5 (R50). -/
def State.takeOutside (s : State) (l : LaneId) (label : BitVec 24) : State :=
  let x := s.lane l
  let atEnd : Bool := match x.run.seg with
    | none => false
    | some g => x.run.kind == .fill && decide ((g.stop : Int) ≤ x.run.trueAddress label) && x.f == g.endIndex
  (s.updLane l Lane.breakRun).report l
    (intakeResult .i5 (if atEnd then .segmentEnd else .outside) none none)

/-- An arrival judged by steps 3 to 5 of R45. -/
def State.judge (s : State) (l : LaneId) (a : Arrival) : State :=
  let x := s.lane l
  match x.mapArrival a.label with
  | none => s.takeOutside l a.label
  | some (g, i) =>
    let preroll := x.run.isPreroll i
    let s := s.updLane l fun x => { x with run := { x.run with seg := some g } }
    if before i x.p then s.takePassed l i .belowPlayout preroll
    else if i = x.f then s.takeAtFill l g a
    else if before x.f i then s.takeAhead l g i a
    else if x.run.kind = .repair ∨ ahead x.f i ≤ (s.settings l).absorbLimit ∨ preroll then s.takeBehind l g i a preroll
    else s.takePassed l i .behindLimit preroll

/-! ### Held blocks (R43, R47, R48) -/

/-- Blocks released one after another while the run stays OPEN (R48). -/
def State.releaseBlocks (l : LaneId) : List Arrival → State → State
  | [], s => s
  | a :: rest, s =>
    if (s.lane l).run.state = .opened then State.releaseBlocks l rest (s.judge l a) else s

/-- The checked block and the held ones released with a label error and a check state (R48). -/
def State.releaseHeld (s : State) (l : LaneId) (checked : Arrival) (err : Int) (check : CheckState) : State :=
  let r := (s.lane l).run
  let blocks := r.held.take r.heldBefore ++ checked :: r.held.drop r.heldBefore
  State.releaseBlocks l blocks (s.updLane l fun x => { x with run := { x.run with
    err := err, check := check, anchored := x.run.anchored && check != .noAnchor, held := [], heldBefore := 0 } })

/-- The result of a run abandoned for a cause; it has no class of its own, the model gives it I7 (R43, R63; log 41). -/
def abandonedResult (c : AbandonCause) : IntakeResult :=
  { intakeResult .i7 .abandoned none none with cause := some c }

/-- A run abandoned on hold queue overflow (R47). -/
def State.overrun (s : State) (l : LaneId) : State :=
  ((s.updLane l fun x => { x with count := { x.count with overruns := bump x.count.overruns } }).endRun l).report l
    (abandonedResult .overrun)

/-- A stray arrival; its result has no outcome of its own, the model gives it DONE (R46, R63, R138; log 41). -/
def State.takeStray (s : State) (l : LaneId) : State :=
  let s := s.updLane l fun x => { x with count := { x.count with strays := bump x.count.strays } }
  (s.updTlc l Tlc.stray).report l { intakeResult .i7 .done none none with ofRun := false }

/-- The late arrival at a full window after the end of a run: only looked at, so that the kept run segment stays
(R45, step 1; log 55). It is taken so in every state of the controller, those in which R128, R129, R131, R145 and R46 class
a BLOCK I7 among them: the model's choice (log 60). -/
def State.lateArrival (s : State) (l : LaneId) (label : BitVec 24) : Bool :=
  let x := s.lane l
  x.run.state == .ended && x.bufferedLead == s.share l - 2 &&
    (match x.mapArrival label with
     | none => false
     | some (_, i) => i == x.f)

end Sys2Proof.Machine
end

