-- ==== Sys2Proof/Machine/SpliceUnit.lean ====
section
/-! DEFINITION. The Splice Unit and the arrival of a block (R45 to R48, R66 to R75). -/

namespace Sys2Proof.Machine

/-! ### The search (R67 to R69) -/

/-- The candidate label errors in the order they are tried (R69). -/
def candidates : List Int := [0, 1, -1, 2, -2]

/-- The candidate position of a label error, when it exists and lies in [p − 2, f) (R67, R68). -/
def candidatePosition (x : Lane) (q : CheckRequest) (e : Int) : Option Index :=
  let a := (q.block.label.toNat : Int) - e
  if (q.seg.first : Int) ≤ a ∧ a < q.seg.stop then
    let i := plus q.seg.base (a.toNat - q.seg.first)
    if ahead i (x.p - 2) < ahead x.f (x.p - 2) then some i else none
  else none

/-- The shared unmarked positions of two mark sets (R68). -/
def sharedCount (a b : MarkSet) : Nat := 588 - countMarks (a ||| b)

/-- The mark set of the checked block. -/
def CheckRequest.marks (q : CheckRequest) : MarkSet := q.block.markSet.getD 0

/-- The reading of one candidate: a failed read counted, the reading kept when comparable (R67, R68). -/
def State.readCandidate (s : State) (l : LaneId) (q : CheckRequest) (e : Int) : State × Option Reading :=
  let x := s.lane l
  match candidatePosition x q e with
  | none => (s, none)
  | some i =>
    match s.readCell l i (x.addressIn i) with
    | .copy c =>
      (s, if Config.sharedPairs ≤ sharedCount q.marks c.marks then
            some { err := e, marks := c.marks, pairs := c.pairs } else none)
    | .storeFault => (s.noteStoreFault l, none)
    | .unassigned => (s, none)

/-- The readings of a list of candidates. -/
def State.readCandidates (l : LaneId) (q : CheckRequest) : List Int → State → State × List Reading
  | [], s => (s, [])
  | e :: rest, s =>
    let (s, r) := s.readCandidate l q e
    let (s, rs) := State.readCandidates l q rest s
    (s, r.toList ++ rs)

/-- A comparable candidate matches: every shared unmarked pair is equal (R69). -/
def Reading.matched (r : Reading) (q : CheckRequest) : Bool :=
  let union := r.marks ||| q.marks
  (List.range 588).all fun k => union.getLsbD k || pairAt r.pairs k == pairAt q.block.pairs k

/-! ### Results (R70 to R72) -/

/-- NO_ANCHOR (R71). -/
def State.noAnchor (s : State) (l : LaneId) (q : CheckRequest) : State :=
  (s.updLane l fun x => { x with count := { x.count with unanchored := bump x.count.unanchored } }).releaseHeld l
    q.block 0 .noAnchor

/-- MATCH(e) (R70). -/
def State.matchFound (s : State) (l : LaneId) (q : CheckRequest) (e : Int) : State :=
  let s := s.updLane l fun x =>
    if e = 0 then x
    else
      let x := x.updCue q.seg.base fun c => { c with slips := bump c.slips }
      { x with count := { x.count with slips := bump x.count.slips } }
  s.releaseHeld l q.block e .matched

/-- NO_MATCH: the run abandoned, a bad event, then the result (R72). -/
def State.noMatch (s : State) (l : LaneId) : State :=
  let s := s.updLane l fun x => { x with count := { x.count with noMatches := bump x.count.noMatches } }
  ((s.endRun l).badEvent l).2.report l (abandonedResult .noMatch)

/-- The result of a completed check handed on (R69). -/
def State.deliverCheck (s : State) (c : RunningCheck) : State :=
  if c.discarded then s
  else
    match c.readings.find? (fun r => r.matched c.request) with
    | some r => s.matchFound c.lane c.request r.err
    | none => s.noMatch c.lane

/-! ### The arbiter (R73, R74) -/

/-- A pending place. -/
def Splice.place (u : Splice) : LaneId → Option CheckRequest
  | .a => u.pendingA
  | .b => u.pendingB

/-- A pending place replaced. -/
def Splice.setPlace (u : Splice) (l : LaneId) (q : Option CheckRequest) : Splice :=
  match l with
  | .a => { u with pendingA := q }
  | .b => { u with pendingB := q }

/-- A request taken from its place: its readings fixed; a check without a comparable candidate completes at once and
leaves the unit free (R67, R69, R74). -/
def State.takeCheck (s : State) (l : LaneId) (q : CheckRequest) : State :=
  let s := { s with splice := s.splice.setPlace l none }
  let (s, rs) := State.readCandidates l q candidates s
  match rs with
  | [] => s.noAnchor l q
  | r :: _ =>
    { s with splice := { s.splice with
        running := some { lane := l, request := q, readings := rs, reached := r.err, discarded := false } } }

/-- The free unit takes waiting requests, lane A's first, until one runs or none waits (R74). -/
def State.nextCheck : Nat → State → State
  | 0, s => s
  | n + 1, s =>
    match s.splice.running, s.splice.pendingA, s.splice.pendingB with
    | none, some q, _ => State.nextCheck n (s.takeCheck .a q)
    | none, none, some q => State.nextCheck n (s.takeCheck .b q)
    | _, _, _ => s

/-- More requests than can wait (log 9). -/
def checkFuel : Nat := 4

/-- A check request that reaches the unit (R73). -/
def State.requestCheck (s : State) (l : LaneId) (q : CheckRequest) : State :=
  let dropped := match s.splice.running with
    | none => none
    | some c => if c.lane = l ∧ c.discarded then none else some c
  State.nextCheck checkFuel { s with splice := { s.splice.setPlace l (some q) with running := dropped } }

/-- The completion of the running check (R69, R74). -/
def State.completeCheck (s : State) (c : RunningCheck) : State :=
  State.nextCheck checkFuel ({ s with splice := { s.splice with running := none } }.deliverCheck c)

/-! ### Arrivals (R45, R47) -/

/-- An arrival of a run that waits for its check (R47). -/
def State.hold (s : State) (l : LaneId) (a : Arrival) : State :=
  let r := (s.lane l).run
  if Config.holdPlaces ≤ r.held.length then s.overrun l
  else
    match r.check, a.marks, r.seg with
    | .waiting, .runs _, some g =>
      (s.updLane l fun x => { x with run := { x.run with
        check := .awaiting, heldBefore := x.run.held.length } }).requestCheck l { block := a, seg := g }
    | _, _, _ => s.updLane l fun x => { x with run := { x.run with held := x.run.held ++ [a] } }

/-- A BLOCK handed to the intake (R45). The late arrival of step 1 is reported as class I0 and changes nothing of the run:
where it maps through a later contiguous segment, the ended run's kept segment stays as it is, which R49's last paragraph
leaves open for a run that is over (log 55). -/
def State.arrive (s : State) (l : LaneId) (a : Arrival) : State :=
  let r := (s.lane l).run
  if r.state ≠ .opened ∨ (s.tlc l).state ≠ .reading then
    if s.lateArrival l a.label then
      s.report l { intakeResult .i0 .window (some (s.lane l).f) none with ofRun := false }
    else s.takeStray l
  else if r.check = .waiting ∨ r.check = .awaiting then s.hold l a
  else s.judge l a

end Sys2Proof.Machine
end

