-- ==== Sys2Proof/Machine/Loader.lean ====
section
/-! DEFINITION. The loader controller: gates, plans, legs and stages, jams, mechanism stops, homings and recovery
(R173 to R193). -/

namespace Sys2Proof.Machine

/-! ### Small changes -/

/-- A stage command given to the mechanism. -/
def State.command (s : State) (c : StageCommand) : State :=
  s.updLoader fun d => { d with commands := d.commands ++ [c] }

/-- Quiet begun on a lane: its scheduler told, its transport halted (R183, R96). -/
def State.beginQuiet (s : State) (l : LaneId) : State :=
  ((s.updLane l fun x => { x with rsc := { x.rsc with quiet := true } }).due l).halt l

/-- Quiet released on a lane that had it: a scheduling point (R183, R96). -/
def State.endQuiet (s : State) (l : LaneId) : State :=
  if (s.lane l).rsc.quiet then (s.updLane l fun x => { x with rsc := { x.rsc with quiet := false } }).due l else s

/-- Quiet released (R183). -/
def State.releaseQuiet (s : State) : State := (s.endQuiet .a).endQuiet .b

/-- A stage begun under a move limit that starts or goes on (R185, R191). -/
def State.beginStage (s : State) (g : Stage) (c : StageCommand) (restart : Bool) : State :=
  (s.updLoader fun d => { d with
    stage := some g, moveLimit := if restart then some Config.moveLimit else d.moveLimit }).command c

/-- A transport is marked stopped for the current request (R184). -/
def Loader.stopped (d : Loader) : LaneId → Bool
  | .a => d.stopped0
  | .b => d.stopped1

/-- The stopped mark of a transport changed. -/
def Loader.setStopped (d : Loader) (l : LaneId) (on : Bool) : Loader :=
  match l with
  | .a => { d with stopped0 := on }
  | .b => { d with stopped1 := on }

/-- An entry of occupancy NO (R173). -/
def SlotEntry.absent : SlotEntry := { occupancy := .no, toc := none, home := none }

/-- The number of a magazine slot, none for the other locations (R173). -/
def slotNumber (n : Loc) : Option Nat := if n.val < 6 then some (n.val + 1) else none

/-- The location of a location number. -/
def locOf (n : Nat) : Loc := ⟨n % 10, by omega⟩

/-! ### Gates (R179) -/

/-- The lane whose transport a request involves (R179). -/
def LoaderRequest.involved : LoaderRequest → Option LaneId
  | .bind l _ _ => some l
  | .eject n => if n = 6 then some .a else if n = 7 then some .b else none
  | .insert _ => none
  | .rescan => none

/-- A lane lets an arm move that does not involve its transport (R179). -/
def State.laneOpens (s : State) (l : LaneId) : Bool :=
  let x := s.lane l
  let reads := x.seq.state == .priming || x.seq.state == .playing || x.seq.state == .paused || x.seq.state == .held
  !reads || decide (s.applied.loaderLead ≤ x.secureLead)

/-- The gate of a request is open (R179). -/
def State.gateOpen (s : State) (r : LoaderRequest) : Bool :=
  (r.involved == some .a || s.laneOpens .a) && (r.involved == some .b || s.laneOpens .b)

/-! ### Plans (R182) -/

/-- What a request comes to at its start. -/
inductive Plan
  | ends (o : LoaderOutcome)
  | legs (l : List Leg)
  | homing
  deriving DecidableEq, Repr

/-- A location holds a disc with home slot k. -/
def State.holdsHome (s : State) (n : Loc) (k : Nat) : Bool :=
  (s.slot n).occupancy == .yes && (s.slot n).home == some k

/-- Every location. -/
def locations : List Loc := [0, 1, 2, 3, 4, 5, 6, 7, 8, 9]

/-- The slots that are NO, lowest first. -/
def State.freeSlots (s : State) : List Loc :=
  [0, 1, 2, 3, 4, 5].filter (fun n : Loc => (s.slot n).occupancy == .no)

/-- The slot a disc is returned to: its home slot when that is NO, else the lowest that is NO (R182, R192). -/
def State.returnSlot (s : State) (home : Option Nat) : Option Loc :=
  match home with
  | none => s.freeSlots.head?
  | some k => if (s.slot (slotLoc k)).occupancy = .no then some (slotLoc k) else s.freeSlots.head?

/-- The plan of a BIND (R182). -/
def State.planBind (s : State) (l : LaneId) (k : Nat) : Plan :=
  let t := trayOf l
  if s.holdsHome t k then .ends .done
  else if s.holdsHome (trayOf (LaneId.other l)) k then .ends .discBusy
  else if (s.slot (slotLoc k)).occupancy ≠ .yes ∧ ¬ locations.any (fun n => s.holdsHome n k) then .ends .noDisc
  else if (s.tlc l).state = .offline then .ends .discBusy
  else
    let fetch : Leg := { source := slotLoc k, dest := t }
    match (s.slot t).occupancy with
    | .no => .legs [fetch]
    | .yes | .unknown =>
      match s.returnSlot (s.slot t).home with
      | none => .ends .noRoom
      | some n => .legs [{ source := t, dest := n }, fetch]

/-- A lane is IDLE or STARVED. -/
def State.laneAtRest (s : State) (l : LaneId) : Bool :=
  (s.lane l).seq.state == .idle || (s.lane l).seq.state == .starved

/-- The plan of an EJECT (R182). -/
def State.planEject (s : State) (n : Nat) : Plan :=
  let r : LoaderRequest := .eject n
  if (s.slot (locOf n)).occupancy ≠ .yes then .ends .noDisc
  else if (s.slot frontLoc).occupancy ≠ .no then .ends .noRoom
  else
    match r.involved with
    | some l =>
      if !s.laneAtRest l || (s.tlc l).state = .offline then .ends .discBusy
      else .legs [{ source := locOf n, dest := frontLoc }]
    | none => .legs [{ source := locOf n, dest := frontLoc }]

/-- The plan of an INSERT (R182). -/
def State.planInsert (s : State) (k : Nat) : Plan :=
  if (s.slot frontLoc).occupancy ≠ .yes then .ends .noDisc
  else if (s.slot (slotLoc k)).occupancy ≠ .no then .ends .noRoom
  else .legs [{ source := frontLoc, dest := slotLoc k }]

/-- The plan of a request at its start (R182). -/
def State.plan (s : State) : LoaderRequest → Plan
  | .bind l k _ => s.planBind l k
  | .eject n => s.planEject n
  | .insert k => s.planInsert k
  | .rescan => .homing

/-! ### Ends of requests (R186) -/

/-- Steps 2 and 3 of R186: the outcome reported to a BIND's lane and recorded. -/
def State.endOutcome (s : State) (r : LoaderRequest) (o : LoaderOutcome) : State :=
  (match r with
   | .bind l _ tag => s.bindOutcome l tag o
   | .eject _ | .insert _ | .rescan => s).recordOutcome r o

/-- The outcomes of a list of requests, in order. -/
def State.endOutcomes (o : LoaderOutcome) : List LoaderRequest → State → State
  | [], s => s
  | r :: rest, s => State.endOutcomes o rest (s.endOutcome r o)

/-- The spin-up of a transport marked stopped, the mark cleared (R184). -/
def State.spinUpStopped (s : State) (l : LaneId) : State :=
  if s.loader.stopped l then (s.changeTlc l Tlc.spinUp).updLoader fun d => d.setStopped l false else s

/-- The end of a request that has started: spin-ups, outcome, settle time (R186). -/
def State.endRequest (s : State) (o : LoaderOutcome) : State :=
  match s.loader.current with
  | none => s
  | some c =>
    (((s.spinUpStopped .a).spinUpStopped .b).endOutcome c.request o).updLoader fun d => { d with
      state := .settling, stage := none, moveLimit := none, settleTimer := some Config.settleTime,
      toRecovery := false, current := some { c with legs := [] } }

/-! ### Stages of a request (R184, R185) -/

/-- The TAKE of the first leg still to do begun (R185). -/
def State.beginTake (s : State) : State :=
  match s.loader.current with
  | some { legs := g :: _, .. } => s.beginStage .take (.take g.source) true
  | _ => s

/-- The home slot a disc carries from a location to the arm (R173, R185). -/
def State.carriedHome (s : State) (n : Loc) : Option Nat :=
  match slotNumber n with
  | some k => some k
  | none => if n = frontLoc then none else (s.slot n).home

/-- The disc taken from a location into the arm: its TOC record is copied to the arm's, then its own is cleared (R174,
R185). The arm's entry and its SLOTS_CHANGED land with its record, before the source's: the model's choice (log 54). -/
def State.moveToArm (s : State) (n : Loc) : State :=
  (s.setSlot armLoc { occupancy := .yes, toc := (s.slot n).toc, home := s.carriedHome n }).setSlot n .absent

/-- The home slot a disc has at its destination (R173). -/
def State.placedHome (s : State) (n : Loc) : Option Nat :=
  match slotNumber n with
  | some k => some k
  | none => if n = frontLoc then none else (s.slot armLoc).home

/-- The arm's disc placed into a location: its TOC record is copied there, then the arm's is cleared (R174, R185). The
location's entry and its SLOTS_CHANGED land with its record, before the arm's: the model's choice (log 54). -/
def State.moveFromArm (s : State) (n : Loc) : State :=
  (s.setSlot n { occupancy := .yes, toc := (s.slot armLoc).toc, home := s.placedHome n }).setSlot armLoc .absent

/-- A leg counted and its move limit cancelled at the end of its PLACE (R185, R186). -/
def Loader.legDone (d : Loader) : Loader :=
  { d with moveLimit := none, stage := none, count := { d.count with moves := bump d.count.moves } }

/-- The end of a PLACE of a request: the next leg, or the end with DONE (R185, R186). -/
def State.nextLeg (s : State) : State :=
  match s.loader.current with
  | some { legs := _ :: g :: rest, leg := n, request := r } =>
    (s.updLoader fun d => { d with current := some { request := r, legs := g :: rest, leg := n + 1 } }).beginTake
  | _ => s.endRequest .done

/-- The destination of the leg in progress: that of a homing's put-away leg, or of the current request's leg. -/
def Loader.destination (d : Loader) : Option Loc :=
  match d.homing, d.current with
  | some h, _ => h.putAway
  | none, some { legs := g :: _, .. } => some g.dest
  | none, _ => none

/-! ### Homing (R190 to R192) -/

/-- The waiting RESCANs marked as served by a homing at the mechanism's return (R190, log 19). -/
def serveRescans (q : List Waiting) : List Waiting :=
  q.map fun w => if w.request = .rescan then { w with served := true } else w

/-- A homing begun: quiet on both lanes, the first SENSE (R183, R191). -/
def State.beginHoming (s : State) (kind : HomingKind) : State :=
  let s := s.updLoader fun d => { d with
    state := .homing, homing := some { kind := kind, sensing := 0, putAway := none },
    queue := if kind = .atReturn then serveRescans d.queue else d.queue }
  ((s.beginQuiet .a).beginQuiet .b).beginStage .sense (.sense 0) true

/-- The entry of a location after its SENSE (R191). -/
def sensedEntry (n : Loc) (e : SlotEntry) (present : Bool) : SlotEntry :=
  let e : SlotEntry :=
    match e.occupancy, present with
    | .yes, true => e
    | .no, false => e
    | .yes, false => .absent
    | .unknown, false => .absent
    | .no, true => { occupancy := .yes, toc := none, home := slotNumber n }
    | .unknown, true => { occupancy := .yes, toc := none, home := slotNumber n }
  if n = frontLoc then { e with toc := none } else e

/-- The spin-up of a transport whose loader hold is still yes, its mark cleared (R192). -/
def State.spinUpHeld (s : State) (l : LaneId) : State :=
  let s := if (s.tlc l).loaderHold then s.changeTlc l Tlc.spinUp else s
  s.updLoader fun d => d.setStopped l false

/-- The RESCANs a homing ends: the current one, or those it served (R190, R192). -/
def Loader.rescansEnded (d : Loader) (kind : HomingKind) : List LoaderRequest :=
  match kind with
  | .afterReset => []
  | .rescan => (d.current.map Current.request).toList
  | .atReturn => (d.queue.filter Waiting.served).map Waiting.request

/-- A homing ended (R192). -/
def State.endHoming (s : State) (kind : HomingKind) (o : LoaderOutcome) : State :=
  let s := s.updLoader fun d => { d with
    count := { d.count with homings := bump d.count.homings }, faultMark := o != .done, homing := none, stage := none,
    moveLimit := none }
  let s := (s.spinUpHeld .a).spinUpHeld .b
  let ended := s.loader.rescansEnded kind
  let s := s.updLoader fun d => { d with
    queue := if kind = .atReturn then d.queue.filter (fun w => !w.served) else d.queue }
  let s := State.endOutcomes o ended s
  let s := if kind = .atReturn then (s.changeTlc .a Tlc.mechanismRelease).changeTlc .b Tlc.mechanismRelease else s
  s.updLoader fun d =>
    let settling := kind == .atReturn || !d.faultMark
    { d with settleTimer := some Config.settleTime, toRecovery := kind == .atReturn,
             state := if settling then .settling else .faulted,
             current := if settling then d.current else none }

/-- After the ten senses: the arm's disc is put away, or the homing ends (R192). -/
def State.afterSenses (s : State) (h : Homing) : State :=
  if (s.slot armLoc).occupancy = .yes then
    let dest := match s.returnSlot (s.slot armLoc).home with
      | some n => some n
      | none => if (s.slot frontLoc).occupancy = .no then some frontLoc else none
    match dest with
    | some n =>
      (s.updLoader fun d => { d with homing := some { h with putAway := some n } }).beginStage .carry (.carry n) true
    | none => s.endHoming h.kind .noRoom
  else s.endHoming h.kind .done

/-- The entry of a location written after its SENSE: an entry that R191 leaves unchanged is not written, but FRONT's TOC
facts are cleared whatever the result (R174, R191). -/
def State.writeSensed (s : State) (n : Loc) (present : Bool) : State :=
  let e := sensedEntry n (s.slot n) present
  if s.slot n = e ∧ n ≠ frontLoc then s else s.setSlot n e

/-- The end of a SENSE (R191). -/
def State.senseEnd (s : State) (h : Homing) (present : Bool) : State :=
  let s := s.writeSensed h.sensing present
  if h.sensing.val < 9 then
    let n : Loc := locOf (h.sensing.val + 1)
    (s.updLoader fun d => { d with homing := some { h with sensing := n } }).beginStage .sense (.sense n) true
  else s.afterSenses h

/-! ### Jams (R187, R191, R192) -/

/-- The locations the stage in progress is acting on (R187). -/
def Loader.stageLocations (d : Loader) : List Loc :=
  match d.stage with
  | none => []
  | some .take =>
    match d.current with
    | some { legs := g :: _, .. } => [g.source, armLoc]
    | _ => [armLoc]
  | some .carry => [armLoc]
  | some .place => armLoc :: d.destination.toList
  | some .sense =>
    match d.homing with
    | some h => [h.sensing]
    | none => []

/-- A list of locations UNKNOWN (R187). -/
def State.forget (s : State) : List Loc → State
  | [] => s
  | n :: rest => (s.setSlot n .unknown).forget rest

/-- The mechanism has the stage in progress halted (R187, R189). -/
def State.haltStage (s : State) : State := if s.loader.stage.isSome then s.command .halt else s

/-- A waiting request that a jam answers: not a RESCAN (R187). -/
def Waiting.jammed (w : Waiting) : Bool := w.request != .rescan

/-- The waiting BINDs, EJECTs and INSERTs answered JAMMED in queue order until none waits, a BIND that a walk-on sends
on the way among them (R187). -/
def State.answerWaiting : Nat → State → State
  | 0, s => s
  | n + 1, s =>
    match s.loader.queue.find? Waiting.jammed with
    | none => s
    | some w =>
      State.answerWaiting n
        ((s.updLoader fun d => { d with queue := d.queue.erase w }).endOutcome w.request .jammed)

/-- More requests than one jam can answer: each walk-on retires a cue (log 9). -/
def answerFuel : Nat := 64

/-- A jam counted (R187, step 4). -/
def Loader.countJam (d : Loader) : Loader := { d with count := { d.count with jams := bump d.count.jams } }

/-- A jam (R187); one of a homing ends the homing (R191, R192). The RESCAN of a RESCAN homing is answered before the
waiting requests, the RESCANs that a homing at return served after them (log 45). -/
def State.jam (s : State) : State :=
  let s := (s.haltStage).forget s.loader.stageLocations
  match s.loader.homing with
  | some h =>
    let s := match h.kind, s.loader.current with
      | .rescan, some c => s.endOutcome c.request .jammed
      | _, _ => s
    ((State.answerWaiting answerFuel (s.updLoader fun d => { d with current := none })).updLoader
      Loader.countJam).endHoming h.kind .jammed
  | none =>
    let s := match s.loader.current with
      | some c => s.endOutcome c.request .jammed
      | none => s
    (State.answerWaiting answerFuel
      (s.updLoader fun d => { d with current := none, stage := none, moveLimit := none })).updLoader fun d =>
        { d.countJam with faultMark := true, settleTimer := some Config.settleTime, toRecovery := false, state := .faulted }

/-! ### Starts (R180 to R184) -/

/-- The transports that a plan's legs take from or place into (R184). -/
def legTouches (l : LaneId) (legs : List Leg) : Bool := legs.any (fun g => g.source == trayOf l || g.dest == trayOf l)

/-- The spindle stop of a transport the legs involve, quiet on the lane of one they do not (R183, R184). -/
def State.prepareLane (s : State) (r : LoaderRequest) (legs : List Leg) (l : LaneId) : State :=
  let s := if legTouches l legs then
      (s.changeTlc l fun t => t.spindleStop.1).updLoader fun d => d.setStopped l true
    else s
  if r.involved = some l then s else s.beginQuiet l

/-- No spindle stop of the current request is unanswered (R184). -/
def State.stopsAnswered (s : State) : Bool :=
  !(s.loader.stopped0 && s.tlc0.stopPending) && !(s.loader.stopped1 && s.tlc1.stopPending)

/-- A BIND whose move has begun is MOVING at its lane (R153, R182). -/
def State.bindBegun (s : State) : LoaderRequest → State
  | .bind l _ tag => s.updSeq l fun q => { q with bind := q.bind.map fun b =>
      if b.tag = tag then { b with moving := true } else b }
  | .eject _ => s
  | .insert _ => s
  | .rescan => s

/-- A request with legs started: MOVING, quiet, spindle stops; the first stage when none is to be awaited (R182 to
R184). -/
def State.startLegs (s : State) (r : LoaderRequest) (legs : List Leg) : State :=
  let s := (s.updLoader fun d => { d with
    state := .moving, current := some { request := r, legs := legs, leg := 1 }, stage := none }).bindBegun r
  let s := (s.prepareLane r legs .a).prepareLane r legs .b
  if s.stopsAnswered then s.beginTake else s

/-- A request started (R181, R182). -/
def State.startRequest (s : State) (w : Waiting) : State :=
  let s := if w.due && !s.gateOpen w.request then
      s.updLoader fun d => { d with count := { d.count with forced := bump d.count.forced } }
    else s
  match s.plan w.request with
  | .ends o => s.endOutcome w.request o
  | .legs legs => s.startLegs w.request legs
  | .homing =>
    (s.updLoader fun d => { d with current := some { request := w.request, legs := [], leg := 0 } }).beginHoming .rescan

/-- The waiting requests the arbiter may start: in FAULTED only RESCANs (R180, R187). A BIND, EJECT or INSERT that no jam
has answered when the loader enters FAULTED stays in its place and is passed over, so that the oldest RESCAN counts as the
oldest request (log 21). -/
def Loader.startable (d : Loader) : List Waiting :=
  match d.state with
  | .idle => d.queue
  | .faulted => if d.settleTimer.isNone then d.queue.filter (fun w => w.request = .rescan) else []
  | .homing | .moving | .settling | .stopped | .recovering => []

/-- The request the arbiter starts: the oldest when due, else the oldest whose gate is open (R180, R181). -/
def State.choose (s : State) : Option Waiting :=
  match s.loader.startable with
  | [] => none
  | w :: rest => if w.due then some w else (w :: rest).find? (fun v => s.gateOpen v.request)

/-- The arbiter starts the request it chose, taken out of the queue (R180). -/
def State.arbitrate (s : State) (w : Waiting) : State :=
  (s.updLoader fun d => { d with queue := d.queue.erase w }).startRequest w

/-! ### Spindle stops answered, reports of the transport link controllers -/

/-- The answer to a spindle stop (R184); an answer while a stage is in progress, when no stop is pending in any run, is
passed over (log 47). -/
def State.spindleAnswered (s : State) (o : SpindleOutcome) : State :=
  if s.loader.state = .moving ∧ s.loader.stage = none then
    match o with
    | .done => if s.stopsAnswered then s.beginTake else s
    | .failed => s.jam
    | .noTransport => s.endRequest .discBusy
    | .held => s
  else s

/-- A disc-absent report of a transport (R175). -/
def State.trayAbsent (s : State) (l : LaneId) : State := s.setSlot (trayOf l) .absent

/-- A table of contents handed on by a transport (R175). -/
def State.trayToc (s : State) (l : LaneId) (t : Toc) : State :=
  let e := s.slot (trayOf l)
  s.setSlot (trayOf l) { occupancy := .yes, toc := some t, home := e.home }

/-! ### Mechanism stops and returns (R189, R190) -/

/-- The request or homing that a mechanism stop ends (R189). -/
def State.interrupt (s : State) : State :=
  let locs := s.loader.stageLocations
  let moving := s.loader.state = .moving ∨ s.loader.state = .homing
  if moving then
    let s := s.haltStage
    let s := match s.loader.current with
      | some c =>
        (s.endOutcome c.request .interrupted).updLoader fun d => { d with
          count := { d.count with interruptions := bump d.count.interruptions } }
      | none => s
    s.forget locs
  else s

/-- A mechanism stop (R189). -/
def State.stopMechanism (s : State) : State :=
  let s := s.interrupt
  let s := s.updLoader fun d => { d with
    current := none, stage := none, homing := none, moveLimit := none, settleTimer := none, recoveryTimer := none,
    toRecovery := false }
  let s := (s.changeTlc .a Tlc.mechanismStop).changeTlc .b Tlc.mechanismStop
  let s := s.updLoader fun d => { d with
    stopped0 := false, stopped1 := false, mechStopped := true, state := .stopped }
  s.setNews .mech mechStoppedBit

/-- The mechanism's return (R190). -/
def State.returnMechanism (s : State) : State :=
  (s.updLoader fun d => { d with mechStopped := false }).beginHoming .atReturn

/-! ### Settle and recovery (R186, R192, R193) -/

/-- The settle timer expired (R186, R187, R192, R193). -/
def State.settled (s : State) : State :=
  let s := (s.updLoader fun d => { d with settleTimer := none }).releaseQuiet
  s.updLoader fun d =>
    match d.state with
    | .settling =>
      if d.toRecovery then
        { d with state := .recovering, current := none, toRecovery := false,
                 recoveryTimer := some s.applied.loaderWaitLimit }
      else { d with state := .idle, current := none }
    | .idle | .homing | .moving | .stopped | .recovering | .faulted => d

/-- RECOVERING ended (R193). -/
def State.endRecovery (s : State) : State :=
  let s := s.updLoader fun d => { d with
    recoveryTimer := none, state := if d.faultMark then .faulted else .idle }
  (s.recoveryEnded .a).recoveryEnded .b

/-- Neither transport is in STARTING or TOC, so that RECOVERING ends (R193). -/
def State.recovered (s : State) : Bool :=
  s.loader.state == .recovering && s.tlc0.state != .starting && s.tlc0.state != .toc &&
    s.tlc1.state != .starting && s.tlc1.state != .toc

end Sys2Proof.Machine
end

