-- ==== Sys2Proof/Machine/Overlap.lean ====
section
/-! DEFINITION. The host accesses that stand in the queue directly behind an event of the part and may fall among its reads
and writes (R199, log 7): what each does at the Host Port, and what an event finds of them as it begins. -/

namespace Sys2Proof.Machine

/-! ### The Host Port at an access (R197, R198, R200) -/

/-- The Host Port with a low half held for the word of an XM offset (R198). -/
def HostPort.holdLow (h : HostPort) (a : Nat) (v : Half) : HostPort := { h with writeHold := some (a / 4, v) }

/-- The low half held for the word of an XM offset (R198). -/
def HostPort.heldLow (h : HostPort) (a : Nat) : Option Half :=
  match h.writeHold with
  | some (m, v) => if m = a / 4 then some v else none
  | none => none

/-- The Host Port with the write holding register emptied by a commit (R198). -/
def HostPort.dropLow (h : HostPort) : HostPort := { h with writeHold := none }

/-- The Host Port with PAGE written (R200). -/
def HostPort.setPage (h : HostPort) (v : Half) : HostPort := { h with page := v.setWidth 3 }

/-- What a command does at the Host Port of a released part. -/
inductive PortAccess
  /-- A read of XM, of a register or of an unused offset. -/
  | read
  | writeLow (offset : Nat) (value : Half)
  | writeHigh (offset : Nat) (value : Half)
  | writePage (value : Half)
  /-- A write of another register, or a form that reaches nothing. -/
  | other
  deriving DecidableEq, Repr

/-- The access that a command is, none for a command that is no host access and for a reset by CONTROL. -/
def portAccess : Instr → Option PortAccess
  | .hostXmRead o => some (if xmOffset o && hostOffsetOk o then .read else .other)
  | .hostXmWriteLow o v => some (if xmOffset o && hostOffsetOk o && lowHalf o then .writeLow o v else .other)
  | .hostXmWriteHigh o v => some (if xmOffset o && hostOffsetOk o && !lowHalf o then .writeHigh o v else .other)
  | .hostRegisterRead o => some (if !xmOffset o && hostOffsetOk o then .read else .other)
  | .enableWrite _ | .registerWriteIgnored _ _ => some .other
  | .pageWrite v => some (.writePage v)
  | .controlReset v => if v.getLsbD 0 then none else some .other
  | .resetNAssert | .resetNRelease | .xmInitialisationDone => none
  | .attentionEmpty _ | .unknownCommand _ | .start _ | .stop _ | .pause _ | .go _ | .skip _ => none
  | .eject | .insert | .rescan | .revive | .apply => none
  | .block _ _ _ _ | .seekDone _ _ | .seekFail _ _ | .status _ _ _ | .tocEntry _ _ _ | .tocEnd _ _ _ => none
  | .frameCheckError _ _ | .frameKindInvalid _ _ | .linkIdleInFrame _ _ => none
  | .startupWindowExpiry _ | .tocLimitExpiry _ | .seekTimerExpiry _ | .stall _ | .spindleStopLimitExpiry _ => none
  | .checkCompletion | .playoutAdvance _ | .blockEndNotPlaying _ | .fallEnd _ | .audioPortFrame _ => none
  | .waitTimerExpiry _ | .stageEndTake _ | .stageEndCarry | .stageEndPlace | .stageEndSense _ => none
  | .moveLimitExpiry | .settleTimerExpiry | .recoveryTimerExpiry => none
  | .mechanismStop _ _ | .mechanismReturn | .mechanismLineChange _ _ => none

/-- The XM offset of an access to the window or the home area (R196). -/
def HostPort.xmTarget (h : HostPort) (o : Nat) : Option Nat :=
  match hostTarget h.page o with
  | .xm a => some a
  | .register _ | .unused => none

/-- The Host Port after an access, as far as later commits rest on it. -/
def HostPort.accessed (h : HostPort) : PortAccess → HostPort
  | .writeLow o v =>
    match h.xmTarget o with
    | some a => h.holdLow a v
    | none => h
  | .writeHigh _ _ => h.dropLow
  | .writePage v => h.setPage v
  | .read | .other => h

/-- The commit that an access is (R198). -/
def HostPort.commits (h : HostPort) : PortAccess → Option Commit
  | .writeHigh o v =>
    (h.xmTarget o).map fun a =>
      { address := 4 * (a / 4), word := v ++ (h.heldLow a).getD 0, whole := (h.heldLow a).isSome }
  | .read | .writeLow _ _ | .writePage _ | .other => none

/-- An access falls at a moment of an event: one that reads or commits; for the others no moment differs from another. -/
def PortAccess.falls : PortAccess → Bool
  | .read => true
  | .writeHigh _ _ => true
  | .writeLow _ _ => false
  | .writePage _ => false
  | .other => false

/-! ### The look-ahead of an event -/

/-- The accesses among commands that follow an event, by the Host Port as they find it and a schedule, up to the first
command that is none: they fall in their order, each no earlier than the one before it. `own` is the cell whose command the
event takes: a commit into it falls after the event has read and cleared the cell (R203), so that the event sees neither
that commit nor one after it; `hidden` says that one has been met. -/
def accessesWithin (own : Option CellId) : HostPort → Moment → Bool → List Moment → List Instr → List Access
  | h, last, hidden, m :: ms, c :: rest =>
    match portAccess c with
    | none => []
    | some x =>
      if x.falls then
        let w := h.commits x
        let hidden := hidden || w.any fun c => own.any fun o => c.address == cellOffset o
        let k := last.latest m
        { moment := k, commit := if hidden then none else w } ::
          accessesWithin own (h.accessed x) k hidden ms rest
      else accessesWithin own (h.accessed x) last hidden (m :: ms) rest
  | _, _, _, _, _ => []

/-- The schedule as an event begins: what the event before wrote has landed, and the accesses that stand directly behind the
event take their moments. -/
def State.overlapFrom (s : State) (own : Option CellId) : Overlap :=
  let l := accessesWithin own s.host .start false s.overlap.schedule s.pending
  { schedule := s.overlap.schedule.drop l.length, within := l, unlanded := [], now := .start }

end Sys2Proof.Machine
end

