-- ==== Sys2Proof/Machine/Event.lean ====
section
/-! DEFINITION. One event taken whole: what follows within it in the other blocks, the records it refreshes, and the
answer to a command of an attention cell (00 section 6.4, R171, R203, R204, R207; log 8). -/

namespace Sys2Proof.Machine

/-! ### What follows within an event (log 8) -/

/-- Step 1: the next BIND of a lane that a faulted loader answers JAMMED, handed to the lane and recorded as the last
outcome (R177, R187, steps 2 and 3 of R186; that it is recorded is log 53). -/
def State.handJammed (s : State) (l : LaneId) : Option State :=
  match (s.lane l).marks.jammed with
  | [] => none
  | (slot, tag) :: rest =>
    some ((s.updLane l fun x => { x with marks := { x.marks with jammed := rest } }).endOutcome (.bind l slot tag) .jammed)

/-- The play-out cut is due (R169). -/
def Lane.cutDue (x : Lane) : Bool :=
  x.seq.mark.isSome && (x.seq.state == .priming ||
    ((x.seq.state == .playing || x.seq.state == .underrun) && x.secureLead == 0))

/-- The fill rests with a reason that releases a waiting lane (R116, R159). -/
def Lane.restsFull (x : Lane) : Bool :=
  x.rsc.mode == .rest &&
    (x.rsc.rest == some .windowFull || x.rsc.rest == some .cueEnd || x.rsc.rest == some .mapFull)

/-- A lane in PRIMING enters PLAYING, or a lane in UNDERRUN restarts (R116, R159). -/
def Lane.playDue (x : Lane) (c : LaneSettings) : Bool :=
  ((x.seq.state == .priming && !x.seq.segments.isEmpty && decide (c.startLead ≤ x.secureLead)) ||
    (x.seq.state == .underrun && decide (c.restartLead ≤ x.secureLead))) ||
  (((x.seq.state == .priming && !x.seq.segments.isEmpty) || x.seq.state == .underrun) &&
    decide (1 ≤ x.bufferedLead) && x.restsFull)

/-- One thing that follows on a lane. -/
def State.followLane (s : State) (l : LaneId) : Option State :=
  match s.handJammed l with
  | some t => some t
  | none =>
    if (s.lane l).cutDue then some (s.playOutCut l)
    else if (s.lane l).marks.schedule then some (s.schedule l .plain)
    else if (s.lane l).playDue (s.settings l) then some (s.startPlay l)
    else none

/-- One thing that follows within the event, none when nothing does. -/
def State.follow (s : State) : Option State :=
  match s.followLane .a with
  | some t => some t
  | none =>
    match s.followLane .b with
    | some t => some t
    | none =>
      if s.recovered then some s.endRecovery
      else
        match s.choose with
        | some w => some (s.arbitrate w)
        | none => none

/-- Everything that follows within the event. -/
def State.settle : Nat → State → State
  | 0, s => s
  | n + 1, s =>
    match s.follow with
    | none => s
    | some t => State.settle n t

/-- More than can follow within one event (log 9). -/
def settleFuel : Nat := 400

/-! ### Records (R171, R147, R194) -/

/-- The beginning of an event, of the command in a cell where one is named: what was given out in the event before is gone
(log 27), what it wrote has landed, and the host accesses directly behind take their moments (log 7). -/
def State.clearOutputs (s : State) (own : Option CellId := none) : State :=
  { s with tlc0 := { s.tlc0 with sent := [] }, tlc1 := { s.tlc1 with sent := [] },
           loader := { s.loader with commands := [] }, overlap := s.overlapFrom own }

/-- No marks of an event. -/
def LaneMarks.clear : LaneMarks := { stateChanged := false, refresh := false, schedule := false, loss := false, jammed := [] }

/-- The lane status record refreshed, then LOSS set where it holds a new note, and STATE, the marks cleared (R119,
R171). -/
def State.finishLane (s : State) (l : LaneId) : State :=
  let m := (s.lane l).marks
  let s := s.updLane l fun x => { x with marks := .clear }
  let s := if m.refresh || m.stateChanged then s.writeStatus l else s
  let s := if m.loss then s.setNews (newsOf l) lossBit else s
  if m.stateChanged then s.setNews (newsOf l) stateBit else s

/-- A transport record rewritten when one of its fields differs from the event's start (R147). -/
def State.finishTransport (s before : State) (l : LaneId) : State :=
  if (s.tlc l).fieldWords = (before.tlc l).fieldWords then s else s.writeTransport l

/-- The loader record rewritten when one of its fields differs from the event's start (R194). -/
def State.finishLoader (s before : State) : State :=
  if s.loaderFields = before.loaderFields then s else s.writeLoader

/-- The records at the end of an event that began at `before` (log 23). R199 and R207 order the words of one record only:
that the records land in the order lane A, lane B, T0, T1, loader is the model's choice (log 54). -/
def State.finish (s before : State) : State :=
  ((((s.finishLane .a).finishLane .b).finishTransport before .a).finishTransport before .b).finishLoader before

/-- What an event does but for its answer and its records: its own effect and what follows. -/
def State.carryOut (s : State) (f : State → State) : State := State.settle settleFuel (f s)

/-- An event: its own effect, what follows, the records. -/
def State.event (s : State) (f : State → State) : State :=
  let s := s.clearOutputs
  (s.carryOut f).finish s

/-- An event that occurs only in a released part and where its condition holds; else nothing happens (log 1). -/
def State.onEvent (s : State) (occurs : Bool) (f : State → State) : State :=
  if s.released && occurs then s.event f else s

/-! ### Commands of attention cells (R203, R204) -/

/-- The result codes (R204). -/
inductive ResultCode
  | taken
  | refusedState
  | refusedArgument
  | refusedBusy
  | unknownCommand
  deriving DecidableEq, Repr

/-- Result codes as numbers (11 section 11.2). -/
def ResultCode.code : ResultCode → Nat
  | .taken => 1
  | .refusedState => 2
  | .refusedArgument => 3
  | .refusedBusy => 4
  | .unknownCommand => 5

/-- The news word and bit of an answer from a cell's owner (R203). -/
def answerNews : CellId → NewsWord × Word
  | .laneA => (.laneA, answerBit)
  | .laneB => (.laneB, answerBit)
  | .mech => (.mech, answerBit)
  | .settings => (.part, partAnswerBit)

/-- The answer word of a command (R204). -/
def answerWord (code result detail : Nat) : Word := packBytes code result (detail % 256) (detail / 256)

/-- The answer written, the cell cleared, attention pending cleared, ANSWER set (R203). -/
def State.answer (s : State) (c : CellId) (code : Nat) (r : ResultCode) (detail : Nat) : State :=
  let s := (s.setWord (answerOffset c) (answerWord code r.code detail)).setWord (cellOffset c) 0
  (s.setAttention c false).setNews (answerNews c).1 (answerNews c).2

/-- The lane of a lane cell. -/
def cellLane : CellId → Option LaneId
  | .laneA => some .a
  | .laneB => some .b
  | .mech => none
  | .settings => none

/-- The detail of an answer to a taken or refused command, but for a refused APPLY (10 section 10.5). -/
def State.detail (s : State) (c : CellId) : Nat :=
  match cellLane c with
  | some l => (s.lane l).seq.state.code
  | none => if c = .mech then s.loader.queue.length else s.generation.toNat

/-- What the owner of a cell makes of a command: refused with an answer, with its own detail where it has one and with how
many words the judgement has read, or taken with its effect. -/
inductive Verdict
  | refused (r : ResultCode) (detail : Option Nat) (reads : Nat)
  | taken (f : State → State)

/-- An attention event that names a command, once begun and judged: acted on and answered (R203, R204). The answer of a taken
command lands before the records (log 54). -/
def State.attend (s : State) (c : CellId) (code : Nat) (v : Verdict) : State :=
  match v with
  | .refused r d n => (s.countReads n).answer c code r (d.getD (s.detail c))
  | .taken f =>
    let t := s.carryOut f
    (t.answer c code .taken (t.detail c)).finish s

/-- The command code a cell holds. -/
def State.cellCode (s : State) (c : CellId) : Nat := byteOf (s.cellWord c) 0

/-- The first argument of the command a cell holds. -/
def State.cellArg1 (s : State) (c : CellId) : Nat := byteOf (s.cellWord c) 1

/-- The second argument of the command a cell holds. -/
def State.cellArg2 (s : State) (c : CellId) : Nat := byteOf (s.cellWord c) 2

/-- The owner of a cell takes its attention event and finds the command of a code (log 1, log 11). Bytes of the word that
the command does not use, byte 3 always, are not looked at, whatever they hold: the spec does not say what they do, and that
they are ignored is the model's choice (log 66). -/
def State.attends (s : State) (c : CellId) (code : Nat) : Bool :=
  s.released && s.attentionOf c && s.cellCode c == code

/-- The attention event of a cell begun: its owner takes the command from it (R203). -/
def State.taking (s : State) (c : CellId) : State := s.clearOutputs (some c)

/-- A command of a cell taken from it and judged where the cell holds it; else nothing happens. -/
def State.onCommand (s : State) (c : CellId) (code : Nat) (judge : State → Verdict) : State :=
  if s.attends c code then (s.taking c).attend c code (judge (s.taking c)) else s

end Sys2Proof.Machine
end

