-- ==== Sys2Proof/Machine/HostPort.lean ====
section
/-! DEFINITION. The Host Port: reads and writes of the host, the reset and the initialisation of Exchange Memory
(R196 to R206). -/

namespace Sys2Proof.Machine

/-! ### Reads (R197, R200) -/

/-- What a read that is not served returns (R196). -/
def notServed : Half := 0xFFFF

/-- The Host Port after a read: the value it drives and its read holding register. -/
def State.drive (s : State) (data : Half) (hold : Option (Nat × Half)) : State :=
  { s with host := { s.host with data := data, readHold := hold } }

/-- The low half of a word. -/
def lowOf (w : Word) : Half := w.extractLsb' 0 16

/-- The high half of a word. -/
def highOf (w : Word) : Half := w.extractLsb' 16 16

/-- The words of the last event that have landed when a host access is taken: those written by the moment at which it falls,
all of them once no access is left that falls within the event (R199, log 7). -/
def Overlap.meet (o : Overlap) : Overlap :=
  match o.within with
  | [] => { o with unlanded := [] }
  | x :: rest => { o with within := rest, unlanded := o.unlanded.filter fun u => x.moment.before u.moment }

/-- The state as a host read or commit is taken (R199). -/
def State.meetHost (s : State) : State := { s with overlap := s.overlap.meet }

/-- The word at a byte address as the host finds it: what it held before the first write to it that has not landed (R199,
log 7). -/
def State.hostWord (s : State) (a : Nat) : Word :=
  match s.overlap.unlanded.find? (fun u => u.address == a) with
  | none => s.word a
  | some u => u.old

/-- NEWS as the host finds it (R199, R200, log 7). -/
def State.foundNews (s : State) : BitVec 4 := summaryOf fun w => s.hostWord w.offset

/-- A register's value as a host read finds it (R199, R200). -/
def State.register (s : State) (o : Nat) : Half :=
  if o = 0x1F00 then Config.partCode
  else if o = 0x1F02 then s.stateRegister
  else if o = 0x1F04 then s.foundNews.setWidth 16
  else if o = 0x1F06 then s.host.enable.setWidth 16
  else if o = 0x1F08 then s.host.page.setWidth 16
  else 0

/-- An XM read at an XM offset (R197). -/
def State.readXm (s : State) (a : Nat) : State :=
  let s := s.meetHost
  let n := a / 4
  let w := s.hostWord (4 * n)
  if a % 4 = 0 then s.drive (lowOf w) (some (n, highOf w))
  else
    match s.host.readHold with
    | some (m, h) => s.drive (if m = n then h else highOf w) none
    | none => s.drive (highOf w) none

/-- A host read at an even host offset (R196). -/
def State.hostRead (s : State) (o : Nat) : State :=
  if s.pins.resetN then s.drive notServed none
  else
    match hostTarget s.host.page o with
    | .xm a => if s.pins.xmReady then s.readXm a else s.drive notServed none
    | .register r => s.meetHost.drive (s.meetHost.register r) none
    | .unused => s.meetHost.drive 0 none

/-- HOST_XM_READ (R197). -/
def execHostXmRead (offset : Nat) (s : State) : Host.Outcome State Fault Refusal :=
  .next (if xmOffset offset && hostOffsetOk offset then s.hostRead offset else s)

/-- HOST_REGISTER_READ (R197, R200). -/
def execHostRegisterRead (offset : Nat) (s : State) : Host.Outcome State Fault Refusal :=
  .next (if !xmOffset offset && hostOffsetOk offset then s.hostRead offset else s)

/-! ### XM writes (R198, R203, R205) -/

/-- The news word at an XM offset (11 section 11.1). -/
def newsAt (a : Nat) : Option NewsWord :=
  if a = 0x20 then some .laneA
  else if a = 0x24 then some .laneB
  else if a = 0x28 then some .mech
  else if a = 0x2C then some .part
  else none

/-- The attention cell at an XM offset (10 section 10.5). -/
def cellAt (a : Nat) : Option CellId :=
  if a = 0x00 then some .laneA
  else if a = 0x04 then some .laneB
  else if a = 0x08 then some .mech
  else if a = 0x0C then some .settings
  else none

/-- The words not landed after a commit that leaves `w` at an address: the first of them lands over it, and each set of a
news bit lands on what stands before it (R199, R205). -/
def recommit (a : Nat) : Word → List Unlanded → List Unlanded
  | _, [] => []
  | w, u :: rest =>
    if u.address = a then
      { u with old := w } :: (match u.sets with
        | none => rest
        | some b => recommit a (w ||| b) rest)
    else u :: recommit a w rest

/-- The word at an address once everything has landed, after a commit that leaves `w` there; `now` is the word without that
commit (R199, R205). -/
def landedWord (a : Nat) (now : Word) : Word → List Unlanded → Word
  | w, [] => w
  | w, u :: rest =>
    if u.address = a then
      match u.sets with
      | none => now
      | some b => landedWord a now (w ||| b) rest
    else landedWord a now w rest

/-- A host commit that leaves a word at an address, for the words still to land there as the earlier of two (R199). -/
def State.commitWord (s : State) (a : Nat) (w : Word) : State :=
  { s.putWord a (landedWord a (s.word a) w s.overlap.unlanded) with
    overlap := { s.overlap with unlanded := recommit a w s.overlap.unlanded } }

/-- The words not landed once the last of those a test names has landed. -/
def landThrough (p : Unlanded → Bool) : List Unlanded → List Unlanded
  | [] => []
  | u :: rest => if p u || rest.any p then landThrough p rest else u :: rest

/-- The state as a host commit to an XM offset is taken. One into an attention cell that the last event of the part has
cleared falls after the clear, since the cell's owner takes its event whole (R199, R203). -/
def State.meetCommit (s : State) (a : Nat) : State :=
  let s := s.meetHost
  if (cellAt a).isSome then
    { s with overlap := { s.overlap with unlanded := landThrough (fun u => u.address == a) s.overlap.unlanded } }
  else s

/-- A host commit of a high half at an XM offset, with a low half for the whole word or alone; in a news word the ones of
the committed bits clear, a sticky bit by its condition as the last event leaves it, the model's choice for a clear within
that event (log 69); in an attention cell the commit raises attention (R198, R203, R205). -/
def State.commit (s : State) (a : Nat) (high : Half) (low : Option Half) : State :=
  let w := high ++ low.getD (lowOf (s.hostWord a))
  match newsAt a with
  | some n =>
    let ones := high ++ low.getD 0
    s.commitWord a (s.clearedNews n (s.hostWord a) ones)
  | none =>
    match cellAt a with
    | some c => (s.putWord a w).setAttention c true
    | none => s.commitWord a w

/-- A host access of any kind: the read holding register is invalid after it (R197). -/
def State.touch (s : State) : State := { s with host := { s.host with readHold := none } }

/-- An XM write of a low half (R198). -/
def State.writeLow (s : State) (a : Nat) (v : Half) : State :=
  { s with host := s.host.holdLow a v }

/-- An XM write of a high half: a commit (R198). -/
def State.writeHigh (s : State) (a : Nat) (v : Half) : State :=
  let n := 4 * (a / 4)
  ({ s with host := s.host.dropLow }.meetCommit n).commit n v (s.host.heldLow a)

/-- XM writes are served: the part is not in reset and XM is ready (R196). -/
def State.xmServed (s : State) : Bool := s.pins.xmReady && !s.pins.resetN

/-- A host write to the window or the home area, as one of the two halves (R196). -/
def State.hostWrite (s : State) (o : Nat) (f : State → Nat → State) : State :=
  match hostTarget s.host.page o with
  | .xm a => if s.xmServed then f s.touch a else s.touch
  | .register _ => s
  | .unused => s

/-- HOST_XM_WRITE_LOW (R198). -/
def execHostXmWriteLow (offset : Nat) (value : Half) (s : State) : Host.Outcome State Fault Refusal :=
  .next (if xmOffset offset && hostOffsetOk offset && lowHalf offset then
    s.hostWrite offset fun s a => s.writeLow a value else s)

/-- HOST_XM_WRITE_HIGH (R198). -/
def execHostXmWriteHigh (offset : Nat) (value : Half) (s : State) : Host.Outcome State Fault Refusal :=
  .next (if xmOffset offset && hostOffsetOk offset && !lowHalf offset then
    s.hostWrite offset fun s a => s.writeHigh a value else s)

/-! ### Register writes (R200, R206) -/

/-- A register write: ignored while RESET_N is asserted (R196). -/
def State.registerWrite (s : State) (f : State → State) : State := if s.pins.resetN then s.touch else f s.touch

/-- ENABLE_WRITE (R200, R206). -/
def execEnableWrite (value : Half) (s : State) : Host.Outcome State Fault Refusal :=
  .next (s.registerWrite fun s => { s with host := { s.host with enable := value.setWidth 4 } })

/-- PAGE_WRITE (R200). -/
def execPageWrite (value : Half) (s : State) : Host.Outcome State Fault Refusal :=
  .next (s.registerWrite fun s => { s with host := s.host.setPage value })

/-- REGISTER_WRITE_IGNORED (R200): an access that changes nothing but the read holding register (R197). -/
def execRegisterWriteIgnored (offset : Nat) (value : Half) (s : State) : Host.Outcome State Fault Refusal :=
  .next (if hostOffsetOk offset && ignoredWrite offset value then s.touch else s)

/-! ### Reset and initialisation (R201, R202) -/

/-- The reset entered: every block at its reset values; the lines, the queue of commands and the schedule of the accesses
to come are as they are (R201). -/
def State.enterReset (s : State) (resetN : Bool) : State :=
  { State.reset with
    pins := { State.reset.pins with resetN := resetN, flapClosed := s.pins.flapClosed, supplyGood := s.pins.supplyGood }
    overlap := { Overlap.whole with schedule := s.overlap.schedule }
    pending := s.pending }

/-- CONTROL_RESET (R201): the initialisation begins in the same event. -/
def execControlReset (value : Half) (s : State) : Host.Outcome State Fault Refusal :=
  .next (s.registerWrite fun s => if value.getLsbD 0 then s.enterReset false else s)

/-- RESET_N_ASSERT (R201). -/
def execResetNAssert (s : State) : Host.Outcome State Fault Refusal := .next (s.enterReset true)

/-- RESET_N_RELEASE (R201): the initialisation begins. -/
def execResetNRelease (s : State) : Host.Outcome State Fault Refusal :=
  .next { s with pins := { s.pins with resetN := false } }

/-- XM as the initialisation writes it (R202): the settings block at its defaults, the transport and loader records at
their owners' reset values, all other words 0. -/
def State.writeXm (s : State) : State :=
  ((({ s with xm := [] }.setWords 0xC00 (Config.defaultSettings.map wordOf)).setWords (transportOffset .a)
    s.tlc0.recordWords).setWords (transportOffset .b) s.tlc1.recordWords).setWords loaderOffset s.loaderWords

/-- The release of reset: the RESETs of the transport link controllers, then the loader controller's judgement of the
lines (R128, R195, R201). -/
def State.release0 (s : State) : State :=
  let s := (s.changeTlc .a Tlc.sendReset).changeTlc .b Tlc.sendReset
  if s.linesGood then s.beginHoming .afterReset else s.stopMechanism

/-- XM_INITIALISATION_DONE (R201, R202). -/
def execXmInitialisationDone (s : State) : Host.Outcome State Fault Refusal :=
  .next (if !s.pins.resetN && !s.pins.xmReady then
    ({ s with pins := { s.pins with xmReady := true } }.writeXm).event State.release0 else s)

end Sys2Proof.Machine
end

