-- ==== Sys2Proof/Machine/LaneCommands.lean ====
section
/-! DEFINITION. The commands of the lane cells: START, STOP, PAUSE, GO, SKIP, and the answers to an empty cell and to
an unknown code (R163 to R167, R203, R204). -/

namespace Sys2Proof.Machine

/-! ### Cells without a command -/

/-- ATTENTION_EMPTY (R203). -/
def execAttentionEmpty (cell : CellId) (s : State) : Host.Outcome State Fault Refusal :=
  .next (if s.released && s.attentionOf cell && s.cellWord cell == 0 then
    (s.taking cell).setAttention cell false else s)

/-- The detail of an UNKNOWN_COMMAND answer: the lane state in a lane cell, else 0 (R204). -/
def State.unknownDetail (s : State) (c : CellId) : Nat :=
  match cellLane c with
  | some l => (s.lane l).seq.state.code
  | none => 0

/-- The cell holds a word whose code is none of its commands (R204). -/
def State.holdsUnknown (s : State) (c : CellId) : Bool :=
  s.cellWord c != 0 && !(cellCodes c).contains (s.cellCode c)

/-- UNKNOWN_COMMAND (R204). -/
def execUnknownCommand (cell : CellId) (s : State) : Host.Outcome State Fault Refusal :=
  .next (if s.released && s.attentionOf cell && s.holdsUnknown cell then
    (s.taking cell).attend cell (s.cellCode cell) (.refused .unknownCommand (some (s.unknownDetail cell)) 0) else s)

/-! ### START (R163, R164) -/

/-- START is admitted in a lane state (R163). -/
def LaneState.admitsStart : LaneState → Bool
  | .idle => true
  | .starved => true
  | .binding => false
  | .priming => false
  | .playing => false
  | .underrun => false
  | .paused => false
  | .held => false
  | .stopping => false

/-- The lane at a START: indices 0, counters and counts cleared, the applied Guard taken (R5, R40, R44, R102, R121,
R164). -/
def Lane.restart (x : Lane) (mode : WalkMode) (guard : Nat) : Lane :=
  { x.due with
    p := 0
    f := 0
    spans := []
    guard := guard
    seq := { x.seq with
      mode := mode, identity := none, lanePasses := 0, entryPasses := List.replicate Config.cueEntries 0, unplayed := 0,
      mark := none, segments := [], current := none, pendingCue := none, lastAddress := 0 }
    run := x.run.clear
    rsc := { x.rsc with mapFullHold := false, refillWait := false }
    plu := { x.plu.drop with holdPoint := none, cause := none, episode := none,
                             edge := { x.plu.edge with usable := false } }
    count := Lane.reset.count }

/-- The walk mode of START's second argument (11 section 11.2). -/
def walkModeOf (n : Nat) : WalkMode := if n = 1 then .cycle else .once

/-- The effect of START(k, mode) (R164). -/
def State.startLane (s : State) (l : LaneId) (k mode : Nat) : State :=
  let s := (s.releaseAll l).updLane l fun x => x.restart (walkModeOf mode) (s.settings l).guard
  State.walk walkFuel (.entry k false) s l

/-- The judgement of START (R163); the entry's state is read where there is such an entry. -/
def State.judgeStart (s : State) (l : LaneId) (k mode : Nat) : Verdict :=
  if !s.enabled l || !(s.lane l).seq.state.admitsStart then .refused .refusedState none 0
  else if 23 < k || !s.armed l k || 1 < mode then .refused .refusedArgument none (if 23 < k then 0 else 1)
  else .taken fun s => (s.countReads 1).startLane l k mode

/-- START (R164). -/
def execStart (lane : LaneId) (s : State) : Host.Outcome State Fault Refusal :=
  .next (s.onCommand (laneCell lane) codeStart fun s =>
    s.judgeStart lane (s.cellArg1 (laneCell lane)) (s.cellArg2 (laneCell lane)))

/-! ### STOP (R165) -/

/-- STOP is admitted in every state but IDLE (R163). -/
def LaneState.admitsStop (t : LaneState) : Bool := t != .idle

/-- What the repair scheduler, the intake and the map do at a STOP (R38, R44, R98). -/
def State.stopReading (s : State) (l : LaneId) : State :=
  let s := (s.updLane l fun x =>
    let x := x.abortAttempt
    { x with rsc := { x.rsc.dropAttempt with rest := none, mapFullHold := false, refillWait := false } }).halt l
  (s.endRun l).updLane l fun x => { x.clearMap with run := x.run.clear }

/-- The outstanding BIND withdrawn where it is QUEUED, and cleared (R165, R188). -/
def State.dropBind (s : State) (l : LaneId) : State :=
  let s := match (s.lane l).seq.bind with
    | some b => if b.moving then s else s.withdrawBind l b.tag
    | none => s
  s.updSeq l fun q => { q with bind := none, reRequest := false }

/-- STOPPING entered with the fall of the block in play; IDLE at once when no fall is made (R113, R165). -/
def State.enterStopping (s : State) (l : LaneId) : State :=
  let s := (s.endEpisode l).setLaneState l .stopping
  let s := s.updLane l fun x => { x with plu := { x.plu.beginFall with cause := none } }
  let u := (s.lane l).plu
  if u.block.isNone || u.gain == .silent then s.endFall l else s

/-- The effect of STOP (R165). -/
def State.stopLane (s : State) (l : LaneId) : State :=
  if (s.lane l).seq.state = .stopping then s
  else
    let s := (s.stopReading l).dropBind l
    let s := s.retireAll l .cutByHost (s.lane l).seq.cues
    let s := s.updLane l fun x => { x with
      seq := { x.seq with segments := [], pendingCue := none, current := none, identity := none, mark := none }
      plu := { x.plu with holdPoint := none } }
    ((s.closeReading l).releaseAll l).enterStopping l

/-- The judgement of a command that only a lane state admits (R163). -/
def State.judgeByState (s : State) (l : LaneId) (admits : LaneState → Bool) (f : State → State) : Verdict :=
  if !s.enabled l || !admits (s.lane l).seq.state then .refused .refusedState none 0 else .taken f

/-- STOP (R165). -/
def execStop (lane : LaneId) (s : State) : Host.Outcome State Fault Refusal :=
  .next (s.onCommand (laneCell lane) codeStop fun s =>
    s.judgeByState lane LaneState.admitsStop fun s => s.stopLane lane)

/-! ### PAUSE and GO (R166) -/

/-- PAUSE is admitted in PLAYING and UNDERRUN (R163). -/
def LaneState.admitsPause (t : LaneState) : Bool := t == .playing || t == .underrun

/-- The effect of PAUSE (R113, R166). -/
def State.pauseLane (s : State) (l : LaneId) : State :=
  ((s.endEpisode l).setLaneState l .paused).updLane l fun x =>
    { x with plu := { x.plu.beginFall with cause := none } }

/-- PAUSE (R166). -/
def execPause (lane : LaneId) (s : State) : Host.Outcome State Fault Refusal :=
  .next (s.onCommand (laneCell lane) codePause fun s =>
    s.judgeByState lane LaneState.admitsPause fun s => s.pauseLane lane)

/-- GO is admitted in PAUSED, HELD and STARVED (R163). -/
def LaneState.admitsGo (t : LaneState) : Bool := t == .paused || t == .held || t == .starved

/-- The effect of GO; the repeated prefetch decision is made last (R114, R158, R166; log 43). -/
def State.goLane (s : State) (l : LaneId) : State :=
  let s := s.updSeq l fun q => { q with unplayed := 0 }
  let x := s.lane l
  let s :=
    match x.seq.state with
    | .paused => s.resume l
    | .held =>
      let s := s.updLane l fun x => { x with plu := { x.plu with holdPoint := none } }
      if (x.segmentAt x.p).isSome then s.startPlay l else s.walkOn l
    | .starved => s.walkOn l
    | .idle | .binding | .priming | .playing | .underrun | .stopping => s
  s.prefetchAtEnd l

/-- GO (R166). -/
def execGo (lane : LaneId) (s : State) : Host.Outcome State Fault Refusal :=
  .next (s.onCommand (laneCell lane) codeGo fun s => s.judgeByState lane LaneState.admitsGo fun s => s.goLane lane)

/-! ### SKIP (R167) -/

/-- SKIP is admitted in PLAYING, UNDERRUN, PAUSED and HELD (R163). -/
def LaneState.admitsSkip (t : LaneState) : Bool := t == .playing || t == .underrun || t == .paused || t == .held

/-- The segment that a SKIP cuts: the current cue's; in HELD, and where a GO out of HELD has found p = f so that no cue is
current yet, the one that holds p (R166, R167). -/
def Lane.skipped (x : Lane) : Option Segment :=
  if x.seq.state = .held then x.segmentAt x.p
  else
    match x.seq.currentSegment with
    | some g => some g
    | none => x.segmentAt x.p

/-- The segment after one of the list (R167). -/
def segmentAfter (segs : List Segment) (g : Segment) : Option Segment :=
  ((segs.dropWhile (fun q => q.base != g.base)).drop 1).head?

/-- The playout unit at a SKIP to a next segment, by lane state (R113). -/
def Lane.skipPlayout (x : Lane) : Lane :=
  match x.seq.state with
  | .playing => { x with plu := x.plu.beginFall }
  | .paused | .held => { x with plu := x.plu.drop }
  | .idle | .binding | .priming | .underrun | .starved | .stopping => x

/-- SKIP to a next segment (R39, R167). -/
def State.skipTo (s : State) (l : LaneId) (cut next : Segment) : State :=
  let s := s.retire l cut.cue .cutByHost
  let s := s.updLane l fun x =>
    let x := x.cutTo next.base (s.settings l).guard
    let x := { x with seq := { x.seq with
      segments := x.seq.segments.filter (fun g => g.base != cut.base), current := some next.base } }
    x.skipPlayout
  s.releaseBelow l next.base

/-- SKIP to f (R39, R167). -/
def State.skipToFill (s : State) (l : LaneId) (cut : Option Segment) : State :=
  let s := match cut with
    | some g => s.retire l g.cue .cutByHost
    | none => s
  (s.cutStream l).walkOn l

/-- What a SKIP ends before the cut: the attempt, the run, the episode, the hold point; the edge pair is not used across
the cut (R98, R106, R118, R121, R167). That LOSS is read (R119) before the retire of the SKIP reads its entry's state is the
model's choice (log 67). -/
def State.skipEnds (s : State) (l : LaneId) : State :=
  (((s.updLane l Lane.abortAttempt).endRun l).endEpisode l).updLane l fun x =>
    { x with plu := { x.plu with holdPoint := none, edge := { x.plu.edge with usable := false } } }

/-- The map-full hold after a SKIP's cut (R85). -/
def Lane.clearHold (x : Lane) : Lane :=
  if x.spans.length < Config.maxSpans then { x with rsc := { x.rsc with mapFullHold := false } } else x

/-- The effect of SKIP (R167). -/
def State.skipLane (s : State) (l : LaneId) : State :=
  let s := s.skipEnds l
  let cut := (s.lane l).skipped
  let s :=
    match cut with
    | none => s.skipToFill l none
    | some g =>
      match segmentAfter (s.lane l).seq.segments g with
      | some next => s.skipTo l g next
      | none => s.skipToFill l (some g)
  s.updLane l fun x => x.clearHold.due.refreshDue

/-- SKIP (R167). -/
def execSkip (lane : LaneId) (s : State) : Host.Outcome State Fault Refusal :=
  .next (s.onCommand (laneCell lane) codeSkip fun s =>
    s.judgeByState lane LaneState.admitsSkip fun s => s.skipLane lane)

end Sys2Proof.Machine
end

