-- ==== Sys2Proof/Machine/MechCommands.lean ====
section
/-! DEFINITION. The commands of the mechanism cell and of the settings cell: EJECT, INSERT, RESCAN, REVIVE, APPLY (R130,
R178, R208, R209). -/

namespace Sys2Proof.Machine

/-! ### EJECT, INSERT, RESCAN (R178) -/

/-- The loader takes no EJECT or INSERT (R178). -/
def State.loaderClosed (s : State) : Bool :=
  let d := s.loader
  let returning := match d.homing with
    | some h => h.kind == .atReturn
    | none => false
  d.mechStopped || returning || d.state == .recovering || d.state == .faulted

/-- Mechanism-cell requests waiting in the queue (R177). -/
def Loader.cellRequests (d : Loader) : Nat := (d.queue.filter (fun w => w.request.kind != 1)).length

/-- The last two cases of R178: a mechanism place is free or not. -/
def State.judgePlace (s : State) (r : LoaderRequest) : Verdict :=
  if 2 ≤ s.loader.cellRequests then .refused .refusedBusy none 0 else .taken fun s => s.enqueue r

/-- The judgement of EJECT(location) (R178). -/
def State.judgeEject (s : State) (n : Nat) : Verdict :=
  let r : LoaderRequest := .eject n
  if 7 < n then .refused .refusedArgument none 0
  else if s.loaderClosed || (s.slot (locOf n)).occupancy != .yes || (s.slot frontLoc).occupancy != .no then
    .refused .refusedState none 0
  else
    match r.involved with
    | some l => if s.laneAtRest l then s.judgePlace r else .refused .refusedState none 0
    | none => s.judgePlace r

/-- EJECT (R178). -/
def execEject (s : State) : Host.Outcome State Fault Refusal :=
  .next (s.onCommand .mech codeEject fun s => s.judgeEject (s.cellArg1 .mech))

/-- The judgement of INSERT(slot) (R178). -/
def State.judgeInsert (s : State) (k : Nat) : Verdict :=
  if k < 1 || 6 < k then .refused .refusedArgument none 0
  else if s.loaderClosed || (s.slot frontLoc).occupancy != .yes || (s.slot (slotLoc k)).occupancy != .no then
    .refused .refusedState none 0
  else s.judgePlace (.insert k)

/-- INSERT (R178). -/
def execInsert (s : State) : Host.Outcome State Fault Refusal :=
  .next (s.onCommand .mech codeInsert fun s => s.judgeInsert (s.cellArg1 .mech))

/-- RESCAN (R178). -/
def execRescan (s : State) : Host.Outcome State Fault Refusal :=
  .next (s.onCommand .mech codeRescan fun s => s.judgePlace .rescan)

/-! ### REVIVE (R130) -/

/-- The lane of a transport number. -/
def transportOf (t : Nat) : Option LaneId := if t = 0 then some .a else if t = 1 then some .b else none

/-- A revived controller (R130). -/
def Tlc.revive (t : Tlc) : Tlc := if t.mechStopped then { t with state := .mechHeld } else t.sendReset

/-- The judgement of REVIVE(t) (R130). -/
def State.judgeRevive (s : State) (t : Nat) : Verdict :=
  match transportOf t with
  | none => .refused .refusedArgument none 0
  | some l =>
    if (s.tlc l).state = .offline then .taken fun s => s.changeTlc l Tlc.revive else .refused .refusedState none 0

/-- REVIVE (R130). -/
def execRevive (s : State) : Host.Outcome State Fault Refusal :=
  .next (s.onCommand .mech codeRevive fun s => s.judgeRevive (s.cellArg1 .mech))

/-! ### APPLY (R208, R209) -/

/-- How many settings there are (10 section 10.8). -/
def settingCount : Nat := 31

/-- The settings block as 31 numbers in index order, each word as the APPLY reads it (R199, R212). R208 orders the judging
of the fields, not the reading of the block: that APPLY reads the words once each in index order, which a host commit between
two of them can tell, is the model's choice (log 65). -/
def State.settingsBlock (s : State) : List Nat :=
  (List.range settingCount).map (fun i => (s.seenWord i (0xC00 + 4 * i)).toNat)

/-- A value lies in a range. -/
def within (low high n : Nat) : Bool := decide (low ≤ n) && decide (n ≤ high)

/-- A share alone is in its range (10 section 10.8). -/
def shareOk (n : Nat) : Bool := n == 0 || (within 256 2816 n && n % 64 == 0)

/-- The fields 2 to 13 of a lane, by their place after the share, against the lane's values in the block (10 section
10.8). -/
def laneFieldOk (c : LaneSettings) : Nat → Bool
  | 1 => c.readSpeed == 1 || c.readSpeed == 2 || c.readSpeed == 4
  | 2 => within 8 (c.share - 2) c.startLead
  | 3 => within 8 (c.share - 2) c.restartLead
  | 4 => within 2 32 c.guard
  | 5 => within 8 300 c.repairMargin
  | 6 => within (c.guard + c.repairMargin + 1) (c.share - 2) c.repairStartLead
  | 7 => within 32 (c.repairStartLead - 32) c.fillFloor
  | 8 => within 16 (c.share / 2) c.refillGap
  | 9 => within 1 3 c.maxAttempts
  | 10 => within 1 16 c.interpLimit
  | 11 => within 0 512 c.keepLimit
  | 12 => within 0 300 c.absorbLimit
  | _ => true

/-- LoaderLead against a lane's share in the block. -/
def leadFits (share lead : Nat) : Bool := share == 0 || decide (lead ≤ share - 2)

/-- The field of an index 1..31 passes (R208). -/
def fieldOk (c : Settings) (i : Nat) : Bool :=
  if i = 1 then shareOk c.laneA.share
  else if i ≤ 13 then c.laneA.share == 0 || laneFieldOk c.laneA (i - 1)
  else if i = 14 then shareOk c.laneB.share && decide (c.laneA.share + c.laneB.share ≤ Config.storeCells)
  else if i ≤ 26 then c.laneB.share == 0 || laneFieldOk c.laneB (i - 14)
  else if i = 27 then within 100 2000 c.seekLimit && c.seekLimit % 50 == 0
  else if i = 28 then within 20 250 c.cadenceLimit
  else if i = 29 then within 1 7 c.violationLimit
  else if i = 30 then
    within 0 1500 c.loaderLead && leadFits c.laneA.share c.loaderLead && leadFits c.laneB.share c.loaderLead
  else within 1 60 c.loaderWaitLimit

/-- The index of the first field that fails (R208). -/
def firstFailing (c : Settings) : Option Nat := ((List.range 31).map (· + 1)).find? (fun i => !fieldOk c i)

/-- A lane at an APPLY: a lowered MaxAttempts converts; a lane disabled holds no run (R37, R44, R102). A share changes in
IDLE alone, where the map is empty; it is cleared with the share in any other state (log 47). -/
def Lane.applied (x : Lane) (old new : LaneSettings) : Lane :=
  let x := if new.share = old.share then x else x.clearMap
  let x := if new.maxAttempts < old.maxAttempts && new.share != 0 then x.limitAttempts new.maxAttempts else x
  let x := if new.share = 0 then
      { x with run := x.run.clear, rsc := { x.rsc with mapFullHold := false, refillWait := false } }
    else x
  x.due

/-- The effect of a taken APPLY (R209). -/
def State.applySettings (s : State) (c : Settings) : State :=
  let old := s.applied
  let s := { s with applied := c, generation := s.generation + 1 }
  let s := s.updLane .a fun x => x.applied old.laneA c.laneA
  let s := s.updLane .b fun x => x.applied old.laneB c.laneB
  (s.changeTlc .a fun t => t.limitViolation c.violationLimit).changeTlc .b fun t => t.limitViolation c.violationLimit

/-- The judgement of APPLY (R208). -/
def State.judgeApply (s : State) : Verdict :=
  let c := Settings.ofList s.settingsBlock
  let differsA := c.laneA.share != s.share .a
  let differsB := c.laneB.share != s.share .b
  let idle := (s.lane .a).seq.state == .idle && (s.lane .b).seq.state == .idle
  match firstFailing c with
  | some i => .refused .refusedArgument (some i) settingCount
  | none =>
    if (differsA || differsB) && !idle then .refused .refusedState (some (if differsA then 1 else 14)) settingCount
    else .taken fun s => (s.countReads settingCount).applySettings c

/-- APPLY (R208, R209). -/
def execApply (s : State) : Host.Outcome State Fault Refusal :=
  .next (s.onCommand .settings codeApply State.judgeApply)

end Sys2Proof.Machine
end

