-- ==== Sys2Proof/Machine/LinkEvents.lean ====
section
/-! DEFINITION. The events of the transport links: up-frames, dropped frames, and the timers of the transport link
controllers (R123, R128 to R142). -/

namespace Sys2Proof.Machine

/-! ### BLOCK (R138) -/

/-- The cadence timer restarted at a BLOCK in READING (R138). -/
def State.restartCadence (s : State) (l : LaneId) : State :=
  s.updTlc l fun t =>
    if t.state = .reading then { t with timers := { t.timers with cadence := some s.applied.cadenceLimit } } else t

/-- BLOCK (R138); operands that no frame can carry are a malformed frame (R123, log 31). -/
def execBlock (t : TransportId) (label : BitVec 24) (marks : MarkReport) (pairs : List Pair) (s : State) :
    Host.Outcome State Fault Refusal :=
  .next (s.onEvent true fun s =>
    if blockOk marks pairs then
      (s.restartCadence t.lane).arrive t.lane { label := label, marks := marks, pairs := pairs }
    else s.updTlc t.lane Tlc.checkError)

/-! ### SEEK_DONE and SEEK_FAIL (R136, R137) -/

/-- The controller at the SEEK_DONE of its outstanding seek (R136). -/
def Tlc.reached (t : Tlc) (cadence : Nat) : Tlc :=
  { t.good with state := .reading, seek := none, timers := { TlcTimers.none with cadence := some cadence } }

/-- The run opened at a SEEK_DONE (R42). -/
def Lane.openRun (x : Lane) : Lane :=
  if x.run.state = .seeking then { x with run := { x.run with state := .opened } } else x

/-- The address is that of the outstanding seek (R136). -/
def Tlc.awaits (t : Tlc) (address : Nat) : Bool :=
  t.state == .seeking && (match t.seek with
    | none => false
    | some k => k.address == address)

/-- SEEK_DONE (R136). -/
def execSeekDone (t : TransportId) (address : BitVec 24) (s : State) : Host.Outcome State Fault Refusal :=
  .next (s.onEvent true fun s =>
    if (s.tlc t.lane).awaits address.toNat then
      ((s.changeTlc t.lane fun u => u.reached s.applied.cadenceLimit).updLane t.lane Lane.openRun).due t.lane
    else s.updTlc t.lane Tlc.stray)

/-- The controller at a SEEK_FAIL in SEEKING, before its bad event (R137). -/
def Tlc.seekFailed (t : Tlc) (r : SeekReason) : Tlc :=
  { t with state := .ready, seek := none, timers := .none, lastFailure := some r,
           count := { t.count with seekFailures := bump t.count.seekFailures } }

/-- A bad event whose own action stands replaced when it faults (R141). -/
def State.badThen (s : State) (l : LaneId) (f : State → State) : State :=
  let r := s.badEvent l
  if r.1 then r.2 else f r.2

/-- The re-seek of a stall or a SEEK_FAIL (R88). -/
def State.seekAgain (s : State) (l : LaneId) : State := s.schedule l { Point.plain with reseek := true }

/-- SEEK_FAIL (R137, log 35). -/
def execSeekFail (t : TransportId) (reason : SeekReason) (s : State) : Host.Outcome State Fault Refusal :=
  .next (s.onEvent true fun s =>
    if (s.tlc t.lane).state = .seeking then
      (s.changeTlc t.lane fun u => u.seekFailed reason).badThen t.lane fun s => s.seekAgain t.lane
    else s.updTlc t.lane Tlc.stray)

/-! ### STATUS (R128, R131, R140) -/

/-- A STATUS recorded (R126). -/
def Tlc.record (t : Tlc) (spinning present : Bool) : Tlc :=
  { t with spindle := if spinning then .spinning else .stopped, disc := if present then .present else .absent }

/-- A disc found absent: EMPTY, reported to the lane sequencer and the loader controller (R128, R131, R140). -/
def State.discGone (s : State) (l : LaneId) : State := ((s.changeTlc l Tlc.toEmpty).discAbsent l).trayAbsent l

/-- A STATUS taken in EMPTY (R140). -/
def State.statusInEmpty (s : State) (l : LaneId) (spinning present : Bool) : State :=
  let t := s.tlc l
  if t.stopPending && !spinning then
    (s.changeTlc l fun t => { t with stopPending := false, timers := .none }).spindleAnswered .done
  else if !t.loaderHold && present && spinning then s.changeTlc l Tlc.enterToc
  else s

/-- The action of a recorded STATUS by the controller's state (R128, R131, R140). -/
def State.takeStatus (s : State) (l : LaneId) (spinning present : Bool) : State :=
  match (s.tlc l).state with
  | .starting =>
    if !present then s.discGone l
    else if spinning then s.changeTlc l Tlc.enterToc
    else s.changeTlc l fun t => t.send (.spin true)
  | .toc =>
    if !present then s.discGone l
    else if spinning then s
    else s.changeTlc l fun t => t.send (.spin true)
  | .empty => s.statusInEmpty l spinning present
  | .ready | .seeking | .reading =>
    if !present then s.discGone l
    else if spinning then s
    else s.changeTlc l Tlc.respin
  | .offline | .mechHeld => s

/-- STATUS (R140). -/
def execStatus (t : TransportId) (spinning : Bool) (present : Bool) (s : State) : Host.Outcome State Fault Refusal :=
  .next (s.onEvent true fun s =>
    (s.updTlc t.lane fun u => u.record spinning present).takeStatus t.lane spinning present)

/-! ### TOC_ENTRY and TOC_END (R131, R132) -/

/-- TOC_ENTRY (R131). -/
def execTocEntry (t : TransportId) (track : Byte) (address : BitVec 24) (s : State) :
    Host.Outcome State Fault Refusal :=
  .next (s.onEvent true fun s => s.updTlc t.lane fun u =>
    if u.state = .toc then { u with assembly := u.assembly.take track.toNat address.toNat } else u.stray)

/-- The controller READY with a table (R132). -/
def Tlc.tocDone (t : Tlc) (c : Toc) : Tlc :=
  { t with state := .ready, fingerprint := c.fingerprint, timers := .none }

/-- A valid table: the TOC record and the slot table entry, READY, the identity check (R132). -/
def State.completeToc (s : State) (l : LaneId) (c : Toc) : State :=
  (((s.trayToc l c).changeTlc l fun t => t.tocDone c).takeToc l c).due l

/-- An invalid table dropped (R132). -/
def Tlc.invalidToc (t : Tlc) : Tlc :=
  { t with assembly := .empty, count := { t.count with invalidTocs := bump t.count.invalidTocs } }

/-- TOC_END (R132). -/
def execTocEnd (t : TransportId) (count : Byte) (leadOut : BitVec 24) (s : State) : Host.Outcome State Fault Refusal :=
  .next (s.onEvent true fun s =>
    let u := s.tlc t.lane
    if u.state = .toc then
      match u.assembly.judge count.toNat leadOut.toNat with
      | some c => s.completeToc t.lane c
      | none => s.updTlc t.lane Tlc.invalidToc
    else s.updTlc t.lane Tlc.stray)

/-! ### Dropped frames (R123, R210, log 12) -/

/-- A frame dropped and counted, the receiver hunting (R123, R210). -/
def Tlc.dropFrame (t : Tlc) : Tlc := { t.checkError with receiver := .hunting }

/-- FRAME_CHECK_ERROR (R123). -/
def execFrameCheckError (t : TransportId) (bytes : List Byte) (s : State) : Host.Outcome State Fault Refusal :=
  .next (s.onEvent (((s.tlc t.lane).receiver.feedAll bytes).2 == .frame none) fun s => s.updTlc t.lane Tlc.dropFrame)

/-- FRAME_KIND_INVALID (R210). -/
def execFrameKindInvalid (t : TransportId) (bytes : List Byte) (s : State) : Host.Outcome State Fault Refusal :=
  .next (s.onEvent (((s.tlc t.lane).receiver.feedAll bytes).2 == .badKind) fun s => s.updTlc t.lane Tlc.dropFrame)

/-- The receiver is left inside a frame by a run of bytes (R210). -/
def Receiver.leftInFrame (r : Receiver) (bytes : List Byte) : Bool :=
  match r.feedAll bytes with
  | (.inFrame _, .nothing) => true
  | _ => false

/-- LINK_IDLE_IN_FRAME (R210). -/
def execLinkIdleInFrame (t : TransportId) (bytes : List Byte) (s : State) : Host.Outcome State Fault Refusal :=
  .next (s.onEvent ((s.tlc t.lane).receiver.leftInFrame bytes) fun s => s.updTlc t.lane Tlc.dropFrame)

/-! ### Timers (R129, R133, R135, R138, R142) -/

/-- OFFLINE entered (R129). -/
def Tlc.toOffline (t : Tlc) : Tlc :=
  { t with state := .offline, timers := .none, count := { t.count with offlines := bump t.count.offlines } }

/-- STARTUP_WINDOW_EXPIRY (R129); that TRANSPORT_DOWN lands before the records of the event is the model's choice (log 68). -/
def execStartupWindowExpiry (t : TransportId) (s : State) : Host.Outcome State Fault Refusal :=
  .next (s.onEvent ((s.tlc t.lane).state == .starting && (s.tlc t.lane).timers.startup.isSome) fun s =>
    (s.changeTlc t.lane Tlc.toOffline).setNews .mech transportDownBit)

/-- TOC_LIMIT_EXPIRY (R133, log 18). -/
def execTocLimitExpiry (t : TransportId) (s : State) : Host.Outcome State Fault Refusal :=
  .next (s.onEvent ((s.tlc t.lane).state == .toc && (s.tlc t.lane).timers.toc.isSome) fun s =>
    (s.updTlc t.lane fun u => { u with count := { u.count with tocTimeouts := bump u.count.tocTimeouts } }).badThen
      t.lane fun s => s.changeTlc t.lane Tlc.enterToc)

/-- The outstanding SEEK sent again (R135). -/
def Tlc.resend (t : Tlc) (limit : Nat) : Tlc :=
  match t.seek with
  | none => t
  | some k => t.takeSeek k limit

/-- SEEK_TIMER_EXPIRY (R135, log 18). -/
def execSeekTimerExpiry (t : TransportId) (s : State) : Host.Outcome State Fault Refusal :=
  .next (s.onEvent ((s.tlc t.lane).state == .seeking && (s.tlc t.lane).timers.seek.isSome) fun s =>
    (s.updTlc t.lane fun u => { u with count := { u.count with seekTimeouts := bump u.count.seekTimeouts } }).badThen
      t.lane fun s => s.changeTlc t.lane fun u => u.resend s.applied.seekLimit)

/-- The controller at a stall: no timer runs (R138). -/
def Tlc.stalled (t : Tlc) : Tlc :=
  { t with timers := .none, count := { t.count with stalls := bump t.count.stalls } }

/-- STALL (R138). -/
def execStall (t : TransportId) (s : State) : Host.Outcome State Fault Refusal :=
  .next (s.onEvent ((s.tlc t.lane).state == .reading && (s.tlc t.lane).timers.cadence.isSome) fun s =>
    (s.updTlc t.lane Tlc.stalled).badThen t.lane fun s => s.seekAgain t.lane)

/-- SPINDLE_STOP_LIMIT_EXPIRY (R142). -/
def execSpindleStopLimitExpiry (t : TransportId) (s : State) : Host.Outcome State Fault Refusal :=
  .next (s.onEvent ((s.tlc t.lane).stopPending && (s.tlc t.lane).timers.spindleStop.isSome) fun s =>
    (s.changeTlc t.lane fun u => { u with stopPending := false, timers := .none }).spindleAnswered .failed)

end Sys2Proof.Machine
end

