-- ==== Sys2Proof/Machine/PartEvents.lean ====
section
/-! DEFINITION. The events of the Splice Unit, the playout units and the loader mechanism (R69, R103 to R113, R177 to
R193). -/

namespace Sys2Proof.Machine

/-! ### Splice Unit -/

/-- CHECK_COMPLETION (R69). -/
def execCheckCompletion (s : State) : Host.Outcome State Fault Refusal :=
  .next (match s.splice.running with
    | none => s
    | some c => s.onEvent true fun s => s.completeCheck c)

/-! ### Playout -/

/-- PLAYOUT_ADVANCE (R105). -/
def execPlayoutAdvance (lane : LaneId) (s : State) : Host.Outcome State Fault Refusal :=
  .next (s.onEvent (s.lane lane).atAdvance fun s => s.advance lane)

/-- BLOCK_END_NOT_PLAYING (R105, R113). -/
def execBlockEndNotPlaying (lane : LaneId) (s : State) : Host.Outcome State Fault Refusal :=
  .next (s.onEvent (s.lane lane).atOtherEnd fun s => s.endBlock lane)

/-- FALL_END (R113, R165). -/
def execFallEnd (lane : LaneId) (s : State) : Host.Outcome State Fault Refusal :=
  .next (s.onEvent (s.lane lane).atFallEnd fun s => s.endFall lane)

/-- AUDIO_PORT_FRAME (R103, R111): no record shows a frame. -/
def execAudioPortFrame (lane : LaneId) (s : State) : Host.Outcome State Fault Refusal :=
  .next (if s.released then s.clearOutputs.updLane lane Lane.frame else s)

/-! ### Loader timers -/

/-- The queue with the request at a place marked due, its timer expired (R177). -/
def markDue (q : List Waiting) (place : Nat) : List Waiting :=
  q.modify place fun w => { w with timer := none, due := true }

/-- The request at a place of the queue has its wait timer running (R177). -/
def Loader.waits (d : Loader) (place : Nat) : Bool :=
  match d.queue[place]? with
  | none => false
  | some w => w.timer.isSome

/-- WAIT_TIMER_EXPIRY (R177, R181). -/
def execWaitTimerExpiry (place : Nat) (s : State) : Host.Outcome State Fault Refusal :=
  .next (s.onEvent (s.loader.waits place) fun s => s.updLoader fun d => { d with queue := markDue d.queue place })

/-- MOVE_LIMIT_EXPIRY (R187, R191). -/
def execMoveLimitExpiry (s : State) : Host.Outcome State Fault Refusal :=
  .next (s.onEvent s.loader.moveLimit.isSome State.jam)

/-- SETTLE_TIMER_EXPIRY (R186, R192). -/
def execSettleTimerExpiry (s : State) : Host.Outcome State Fault Refusal :=
  .next (s.onEvent s.loader.settleTimer.isSome State.settled)

/-- RECOVERY_TIMER_EXPIRY (R193). -/
def execRecoveryTimerExpiry (s : State) : Host.Outcome State Fault Refusal :=
  .next (s.onEvent s.loader.recoveryTimer.isSome State.endRecovery)

/-! ### Stage ends (R185, R191, R192) -/

/-- The end of a TAKE (R185). -/
def State.takeEnd (s : State) (taken : Bool) : State :=
  match s.loader.current with
  | some { legs := g :: _, .. } =>
    if taken then (s.moveToArm g.source).beginStage .carry (.carry g.dest) false
    else (s.setSlot g.source .absent).endRequest .noDisc
  | _ => s

/-- STAGE_END_TAKE (R185). -/
def execStageEndTake (taken : Bool) (s : State) : Host.Outcome State Fault Refusal :=
  .next (s.onEvent (s.loader.stage == some .take) fun s => s.takeEnd taken)

/-- The end of a CARRY: the PLACE begins (R185, R192). -/
def State.carryEnd (s : State) : State :=
  match s.loader.destination with
  | none => s
  | some n => s.beginStage .place (.place n) false

/-- STAGE_END_CARRY (R185). -/
def execStageEndCarry (s : State) : Host.Outcome State Fault Refusal :=
  .next (s.onEvent (s.loader.stage == some .carry) State.carryEnd)

/-- The end of a PLACE: the disc is in its destination, the leg is counted, and the request or the homing goes on
(R185, R186, R192). -/
def State.placeEnd (s : State) : State :=
  match s.loader.destination with
  | none => s
  | some n =>
    let s := (s.moveFromArm n).updLoader Loader.legDone
    match s.loader.homing with
    | some h => s.endHoming h.kind .done
    | none => s.nextLeg

/-- STAGE_END_PLACE (R185). -/
def execStageEndPlace (s : State) : Host.Outcome State Fault Refusal :=
  .next (s.onEvent (s.loader.stage == some .place) State.placeEnd)

/-- STAGE_END_SENSE (R191). -/
def execStageEndSense (present : Bool) (s : State) : Host.Outcome State Fault Refusal :=
  .next (match s.loader.homing with
    | none => s
    | some h => s.onEvent (s.loader.stage == some .sense) fun s => s.senseEnd h present)

/-! ### Mechanism lines (R189, R190) -/

/-- The state with the lines at new values. -/
def State.setLines (s : State) (flapClosed supplyGood : Bool) : State :=
  { s with pins := { s.pins with flapClosed := flapClosed, supplyGood := supplyGood } }

/-- MECHANISM_STOP (R189). -/
def execMechanismStop (flapClosed : Bool) (supplyGood : Bool) (s : State) : Host.Outcome State Fault Refusal :=
  .next (s.onEvent (!s.loader.mechStopped && !(flapClosed && supplyGood)) fun s =>
    (s.setLines flapClosed supplyGood).stopMechanism)

/-- MECHANISM_RETURN (R190). -/
def execMechanismReturn (s : State) : Host.Outcome State Fault Refusal :=
  .next (s.onEvent s.loader.mechStopped fun s => (s.setLines true true).returnMechanism)

/-- MECHANISM_LINE_CHANGE (R189): while the mechanism stays stopped, or before the release of reset, only the lines
change. -/
def execMechanismLineChange (flapClosed : Bool) (supplyGood : Bool) (s : State) : Host.Outcome State Fault Refusal :=
  .next (if s.released then
    s.onEvent (s.loader.mechStopped && !(flapClosed && supplyGood)) fun s => s.setLines flapClosed supplyGood
    else s.setLines flapClosed supplyGood)

end Sys2Proof.Machine
end

