-- ==== Sys2Proof/Machine/Dispatch.lean ====
section
/-! DEFINITION. What each command does: one arm per constructor. -/

namespace Sys2Proof.Machine

def exec (i : Instr) (s : State) : Host.Outcome State Fault Refusal :=
  match i with
  | .hostXmRead o => Sys2Proof.Machine.execHostXmRead o s
  | .hostXmWriteLow o v => Sys2Proof.Machine.execHostXmWriteLow o v s
  | .hostXmWriteHigh o v => Sys2Proof.Machine.execHostXmWriteHigh o v s
  | .enableWrite v => Sys2Proof.Machine.execEnableWrite v s
  | .pageWrite v => Sys2Proof.Machine.execPageWrite v s
  | .controlReset v => Sys2Proof.Machine.execControlReset v s
  | .registerWriteIgnored o v => Sys2Proof.Machine.execRegisterWriteIgnored o v s
  | .resetNAssert => Sys2Proof.Machine.execResetNAssert s
  | .resetNRelease => Sys2Proof.Machine.execResetNRelease s
  | .xmInitialisationDone => Sys2Proof.Machine.execXmInitialisationDone s
  | .attentionEmpty c => Sys2Proof.Machine.execAttentionEmpty c s
  | .unknownCommand c => Sys2Proof.Machine.execUnknownCommand c s
  | .start l => Sys2Proof.Machine.execStart l s
  | .stop l => Sys2Proof.Machine.execStop l s
  | .pause l => Sys2Proof.Machine.execPause l s
  | .go l => Sys2Proof.Machine.execGo l s
  | .skip l => Sys2Proof.Machine.execSkip l s
  | .eject => Sys2Proof.Machine.execEject s
  | .insert => Sys2Proof.Machine.execInsert s
  | .rescan => Sys2Proof.Machine.execRescan s
  | .revive => Sys2Proof.Machine.execRevive s
  | .apply => Sys2Proof.Machine.execApply s
  | .block t label marks pairs => Sys2Proof.Machine.execBlock t label marks pairs s
  | .seekDone t address => Sys2Proof.Machine.execSeekDone t address s
  | .seekFail t reason => Sys2Proof.Machine.execSeekFail t reason s
  | .status t spinning present => Sys2Proof.Machine.execStatus t spinning present s
  | .tocEntry t track address => Sys2Proof.Machine.execTocEntry t track address s
  | .tocEnd t count leadOut => Sys2Proof.Machine.execTocEnd t count leadOut s
  | .frameCheckError t bs => Sys2Proof.Machine.execFrameCheckError t bs s
  | .frameKindInvalid t bs => Sys2Proof.Machine.execFrameKindInvalid t bs s
  | .linkIdleInFrame t bs => Sys2Proof.Machine.execLinkIdleInFrame t bs s
  | .startupWindowExpiry t => Sys2Proof.Machine.execStartupWindowExpiry t s
  | .tocLimitExpiry t => Sys2Proof.Machine.execTocLimitExpiry t s
  | .seekTimerExpiry t => Sys2Proof.Machine.execSeekTimerExpiry t s
  | .stall t => Sys2Proof.Machine.execStall t s
  | .spindleStopLimitExpiry t => Sys2Proof.Machine.execSpindleStopLimitExpiry t s
  | .checkCompletion => Sys2Proof.Machine.execCheckCompletion s
  | .playoutAdvance l => Sys2Proof.Machine.execPlayoutAdvance l s
  | .blockEndNotPlaying l => Sys2Proof.Machine.execBlockEndNotPlaying l s
  | .fallEnd l => Sys2Proof.Machine.execFallEnd l s
  | .waitTimerExpiry place => Sys2Proof.Machine.execWaitTimerExpiry place s
  | .stageEndTake taken => Sys2Proof.Machine.execStageEndTake taken s
  | .stageEndCarry => Sys2Proof.Machine.execStageEndCarry s
  | .stageEndPlace => Sys2Proof.Machine.execStageEndPlace s
  | .stageEndSense present => Sys2Proof.Machine.execStageEndSense present s
  | .moveLimitExpiry => Sys2Proof.Machine.execMoveLimitExpiry s
  | .settleTimerExpiry => Sys2Proof.Machine.execSettleTimerExpiry s
  | .recoveryTimerExpiry => Sys2Proof.Machine.execRecoveryTimerExpiry s
  | .mechanismStop flapClosed supplyGood => Sys2Proof.Machine.execMechanismStop flapClosed supplyGood s
  | .mechanismReturn => Sys2Proof.Machine.execMechanismReturn s
  | .audioPortFrame l => Sys2Proof.Machine.execAudioPortFrame l s
  | .mechanismLineChange flapClosed supplyGood => Sys2Proof.Machine.execMechanismLineChange flapClosed supplyGood s
  | .hostRegisterRead o => Sys2Proof.Machine.execHostRegisterRead o s

end Sys2Proof.Machine
end

