-- ==== Sys2Proof/Safety.lean ====
section
/-! DEFINITION. What a state of the part keeps at every step, and what the part itself never writes in Exchange
Memory: the words the statements about every step are made of. -/

namespace Sys2Proof.Machine

/-- Spans that cover [p, f) in order, each from where the one before it ends (R18). -/
def SpansCover (p f : Index) : List Span → Prop
  | [] => p = f
  | y :: rest => y.first = p ∧ SpansCover (plus p y.count) f rest

/-- No two adjacent spans are to be joined (R18). -/
def SpansApart : List Span → Prop
  | x :: y :: rest => x.joins y = false ∧ SpansApart (y :: rest)
  | _ => True

/-- A span carries a repair part exactly when it is HOLE or WEAK (R17, R19). -/
def Span.Formed (y : Span) : Prop := y.repair.isSome = y.cond.wantsRepair

/-- The form of a map with playout point p, fill f and a window of n positions: f lies at most n positions after p (R6),
and the spans have the form of R18: at most 32, none empty, covering exactly [p, f), no two adjacent ones alike, each with
a repair part exactly when it is HOLE or WEAK. -/
structure MapFormed (p f : Index) (spans : List Span) (n : Nat) : Prop where
  window : n ≤ Config.storeCells
  lead : ahead f p ≤ n
  few : spans.length ≤ Config.maxSpans
  filled : ∀ y ∈ spans, 0 < y.count ∧ y.Formed
  cover : SpansCover p f spans
  apart : SpansApart spans
  total : (spans.map Span.count).sum = ahead f p

/-- The repair target of a map with an active span: it ends inside [p, f), and the active span lies in it (R33, R34). -/
def TargetAimed (p f : Index) (spans : List Span) (target : Option RepairTarget) : Prop :=
  ∀ t a, target = some t → spans.find? Span.active = some a →
    ahead t.last p < ahead f p ∧ ahead a.last p ≤ ahead t.last p ∧ t.contains a.first = true

/-- A map in form with its repair target aimed. -/
structure MapKept (p f : Index) (spans : List Span) (target : Option RepairTarget) (n : Nat) : Prop where
  form : MapFormed p f spans n
  aimed : TargetAimed p f spans target

/-- The segments of a lane are at most 4 (R157), its taken cues, the pending one among them, are of the 24 entries of its
cue table, and it counts the passes of each of these (R149, R151, R172). -/
structure CuesKept (segments : List Segment) (pendingCue : Option TakenCue) (entryPasses : List Nat) : Prop where
  few : segments.length ≤ Config.maxSegments
  segmentEntry : ∀ g ∈ segments, g.cue.entry < Config.cueEntries
  pendingEntry : ∀ c, pendingCue = some c → c.entry < Config.cueEntries
  passes : entryPasses.length = Config.cueEntries

/-- The bounds a lane with a window of n positions keeps: its map in form and its repair target aimed, its cues those of
its table, at most 4 held blocks (R41), and a gain level of at most 128, also where a shortened fall starts (R104, R111).
-/
def Lane.Bounded (n : Nat) (x : Lane) : Prop :=
  MapKept x.p x.f x.spans x.rsc.target n ∧ CuesKept x.seq.segments x.seq.pendingCue x.seq.entryPasses ∧
    x.run.held.length ≤ Config.holdPlaces ∧ x.plu.level ≤ Config.fullGain ∧
    (match x.plu.fall with
     | .step => True
     | .short g _ _ => g ≤ Config.fullGain)

/-- The numbers of a list of cells rise. -/
def CellsRise (l : List StoreCell) : Prop := l.Pairwise fun c d => c.number < d.number

/-- The loader queue holds at most two requests of the mechanism cell and at most one BIND of a lane (R177, R178). -/
def Loader.QueueBounded (d : Loader) : Prop := d.cellRequests ≤ 2 ∧ ∀ l, d.binds l ≤ 1

/-- The window of a lane: at most N − 2 positions are in it (R6). -/
def State.window (s : State) (l : LaneId) : Nat := s.share l - 2

/-- The invariant: Exchange Memory and the shock store in canonical form, the applied settings within their ranges (R208),
both lanes and the loader queue within their bounds, and the host commits that fall within an event (log 7) in Exchange
Memory. -/
structure State.Inv (s : State) : Prop where
  memory : Memory.wf s.xm = true
  cells : CellsRise s.store
  settings : ∀ i, 1 ≤ i → i ≤ 31 → fieldOk s.applied i = true
  laneA : s.laneA.Bounded (s.window .a)
  laneB : s.laneB.Bounded (s.window .b)
  queue : s.loader.QueueBounded
  commits : ∀ x ∈ s.overlap.within, ∀ c, x.commit = some c → c.address + 4 ≤ Memory.size

/-- A byte of Exchange Memory that no event of the part writes, a taken attention command's own cell and answer word
apart: attention cells, answer words, the unused words below the transport records, the settings block, and the host
fields of the cue tables (R149, R198, R199, R208). -/
def HostOnly (a : Nat) : Prop :=
  a < 0x20 ∨ (0x30 ≤ a ∧ a < 0x100) ∨ (0xC00 ≤ a ∧ a < 0x1000) ∨ (0x1000 ≤ a ∧ a < 0x2000 ∧ 4 ≤ a % 32 ∧ a % 32 < 16)

/-- Nothing waits to follow within an event: true between the events of a run. -/
def State.AtRest (s : State) : Prop := s.follow = none

/-- What no event of the part itself changes: the Host Port, the pins, attention pending, the applied settings and their
generation, the queue of commands, and the bytes only the host writes. -/
structure State.SameOutside (s t : State) : Prop where
  host : t.host = s.host
  pins : t.pins = s.pins
  attention : t.attention = s.attention
  applied : t.applied = s.applied
  generation : t.generation = s.generation
  pending : t.pending = s.pending
  bytes : ∀ a, HostOnly a → Memory.byte t.xm a = Memory.byte s.xm a

/-! ### Words of the statements -/

/-- The XM offset a window or home area access reaches (R196). -/
def State.xmReached (s : State) (o : Nat) : Nat :=
  if o < 0x1000 then s.host.page.toNat * 4096 + o else o - 0x1000

/-- Exchange Memory holds a list of words from a byte address on. -/
def State.HoldsWords (s : State) (a : Nat) (ws : List Word) : Prop :=
  ∀ i, i < ws.length → s.word (a + 4 * i) = ws.getD i 0

/-- An event of the part or of what is connected to it, but for the mechanism lines: neither a host access, nor a reset,
nor an attention event. -/
def partEvent : Instr → Bool
  | .block _ _ _ _ => true
  | .seekDone _ _ => true
  | .seekFail _ _ => true
  | .status _ _ _ => true
  | .tocEntry _ _ _ => true
  | .tocEnd _ _ _ => true
  | .frameCheckError _ _ => true
  | .frameKindInvalid _ _ => true
  | .linkIdleInFrame _ _ => true
  | .startupWindowExpiry _ => true
  | .tocLimitExpiry _ => true
  | .seekTimerExpiry _ => true
  | .stall _ => true
  | .spindleStopLimitExpiry _ => true
  | .checkCompletion => true
  | .playoutAdvance _ => true
  | .blockEndNotPlaying _ => true
  | .fallEnd _ => true
  | .waitTimerExpiry _ => true
  | .stageEndTake _ => true
  | .stageEndCarry => true
  | .stageEndPlace => true
  | .stageEndSense _ => true
  | .moveLimitExpiry => true
  | .settleTimerExpiry => true
  | .recoveryTimerExpiry => true
  | .audioPortFrame _ => true
  | .hostXmRead _ => false
  | .hostXmWriteLow _ _ => false
  | .hostXmWriteHigh _ _ => false
  | .enableWrite _ => false
  | .pageWrite _ => false
  | .controlReset _ => false
  | .registerWriteIgnored _ _ => false
  | .resetNAssert => false
  | .resetNRelease => false
  | .xmInitialisationDone => false
  | .attentionEmpty _ => false
  | .unknownCommand _ => false
  | .start _ => false
  | .stop _ => false
  | .pause _ => false
  | .go _ => false
  | .skip _ => false
  | .eject => false
  | .insert => false
  | .rescan => false
  | .revive => false
  | .apply => false
  | .mechanismStop _ _ => false
  | .mechanismReturn => false
  | .mechanismLineChange _ _ => false
  | .hostRegisterRead _ => false

/-- An event that may change a record of the part: one of the part, a command of an attention cell, a change of the
mechanism lines, or the end of the initialisation. -/
def recordEvent (c : Instr) : Bool :=
  partEvent c ||
    match c with
    | .start _ | .stop _ | .pause _ | .go _ | .skip _ | .eject | .insert | .rescan | .revive | .apply => true
    | .attentionEmpty _ | .unknownCommand _ => true
    | .mechanismStop _ _ | .mechanismReturn | .mechanismLineChange _ _ | .xmInitialisationDone => true
    | _ => false

/-- A host write of a high half at an offset commits with this low half: the one held for its word, else that of the word
as the host finds it (R198, R199). -/
def State.CommitsLow (s : State) (o : Nat) (low : Half) : Prop :=
  s.host.writeHold = some (s.xmReached o / 4, low) ∨
    ((∀ h, s.host.writeHold ≠ some (s.xmReached o / 4, h)) ∧
      low = ((s.meetCommit (s.xmReached o / 4 * 4)).hostWord (s.xmReached o / 4 * 4)).extractLsb' 0 16)

/-- The lane is the same but for the marks of an event and the refresh count of its record. -/
def Lane.SameButRecord (x y : Lane) : Prop :=
  ∃ n, y = { x with marks := .clear, seq := { x.seq with refresh := n } }

/-- No mark of an event is left on a lane: true between the events of a run. -/
def State.Unmarked (s : State) : Prop := ∀ l, (s.lane l).marks = .clear

/-- An XM address within a record that the part rewrites as its fields change: a transport record, the loader record or a
lane status record (R207). -/
def inRecord (a : Nat) : Prop :=
  (∃ l, transportOffset l ≤ a ∧ a < transportOffset l + 64) ∨ (loaderOffset ≤ a ∧ a < loaderOffset + 128) ∨
    ∃ l, statusOffset l ≤ a ∧ a < statusOffset l + 1024

/-- Nothing has changed but the records in XM, their refresh counts, the marks of the event, what the event before gave out
(log 27), and how accesses fall (log 7). -/
structure State.OnlyRecords (s t : State) : Prop where
  lanes : ∀ l, (s.lane l).SameButRecord (t.lane l)
  tlcs : ∀ l, ∃ n, t.tlc l = { s.tlc l with refresh := n, sent := [] }
  loader : ∃ n, t.loader = { s.loader with refresh := n, commands := [] }
  rest : t = { s with xm := t.xm, overlap := t.overlap, laneA := t.laneA, laneB := t.laneB, tlc0 := t.tlc0,
                      tlc1 := t.tlc1, loader := t.loader }
  /-- Every byte of XM outside the records, the news words among them. -/
  bytes : s.Unmarked → ∀ a, ¬ inRecord a → Memory.byte t.xm a = Memory.byte s.xm a

/-- The lane's repair scheduler rests with reading closed, and its transport neither seeks nor reads, so that a
scheduling point changes nothing (R79). -/
def State.ReadingClosed (s : State) (l : LaneId) : Prop :=
  (s.lane l).seq.reading = false ∧ (s.lane l).rsc.mode = .none ∧ (s.lane l).rsc.rest = none ∧
    (s.tlc l).state ≠ .seeking ∧ (s.tlc l).state ≠ .reading

/-- The lane's work goes on at a scheduling point that brings nothing: an attempt in flight with the buffered lead at
FillFloor or more, or a fill whose run can go on, with no rest reason and no repair to start (R81, R83). -/
def State.WorkGoesOn (s : State) (l : LaneId) : Prop :=
  s.share l ≠ 0 ∧ (s.lane l).seq.reading = true ∧ (s.lane l).rsc.quiet = false ∧
    (((s.lane l).rsc.mode = .repair ∧ (s.lane l).activeSpan ≠ none ∧
        (s.settings l).fillFloor ≤ (s.lane l).bufferedLead) ∨
      ((s.lane l).rsc.mode = .fill ∧ s.startRepair l = none ∧ (s.lane l).fillRest (s.share l) = none ∧
        s.fillGoesOn l = true))

/-- A homing has ended with an outcome: counted, the fault mark as the outcome says, the settle timer started, SETTLING or
FAULTED (R192). -/
structure State.HomingOver (s t : State) (kind : HomingKind) (o : LoaderOutcome) : Prop where
  homings : t.loader.count.homings = bump s.loader.count.homings
  faultMark : t.loader.faultMark = decide (o ≠ .done)
  settleTimer : t.loader.settleTimer = some 300
  state : t.loader.state = if kind = .atReturn ∨ o = .done then .settling else .faulted
  toRecovery : t.loader.toRecovery = decide (kind = .atReturn)
  ended : t.loader.homing = none ∧ t.loader.stage = none ∧ t.loader.moveLimit = none
  news : kind = .rescan → s.loader.current ≠ none → t.news .mech &&& loaderDoneBit = loaderDoneBit
  released : kind = .atReturn → ∀ l, (s.tlc l).state = .mechHeld →
    (t.tlc l).state = .starting ∧ .reset ∈ (t.tlc l).sent

/-- A BLOCK on the transport of the lane is one of its OPEN run, judged on arrival (R45). -/
def State.JudgesOnArrival (s : State) (l : LaneId) : Prop :=
  s.released = true ∧ (s.tlc l).state = .reading ∧ (s.lane l).run.state = .opened ∧
    (s.lane l).run.check ≠ .waiting ∧ (s.lane l).run.check ≠ .awaiting

/-- The readings of a check request of a lane: of the candidate label errors 0, +1, −1, +2, −2 in this order those whose
position lies in [p − 2, f), reads as a copy and shares at least 294 unmarked pairs with the checked block (R67, R68,
R69). -/
def State.readings (s : State) (l : LaneId) (q : CheckRequest) : List Reading :=
  [0, 1, -1, 2, -2].filterMap fun e =>
    match candidatePosition (s.lane l) q e with
    | none => none
    | some i =>
      match s.readCell l i ((s.lane l).addressIn i) with
      | .copy c =>
        if 294 ≤ sharedCount q.marks c.marks then some { err := e, marks := c.marks, pairs := c.pairs } else none
      | .storeFault => none
      | .unassigned => none

/-- No candidate of a check request reads as a store fault (R13, R67). -/
def State.ReadsNoFault (s : State) (l : LaneId) (q : CheckRequest) : Prop :=
  ∀ e ∈ [0, 1, -1, 2, -2], ∀ i, candidatePosition (s.lane l) q e = some i →
    s.readCell l i ((s.lane l).addressIn i) ≠ .storeFault

/-- The condition an arriving copy gives a position that had none: by its class, and within guard without repair (R22,
R23). -/
def conditionOf (copy : CopyClass) (inGuard : Bool) : Condition :=
  match copy with
  | .clean | .short => .good
  | .long => if inGuard then .settled else .weak
  | .none => if inGuard then .lost else .hole

/-- The class of the copy that an absorption of a BLOCK into a position judges: the merged copy's where the position holds a
copy that reads as one, the arriving copy's where it holds none and the store takes its first write, that of no copy for an
OVERMARKED block and a refused one; none where the held copy does not read (R55, R56, R59). -/
def State.absorbedClass (s : State) (l : LaneId) (i : Index) (marks : MarkReport) : Option CopyClass :=
  let limit := (s.settings l).interpLimit
  match MarkReport.marks marks with
  | none => some (copyClass limit none)
  | some m =>
    if ((s.lane l).conditionAt i).any Condition.playable then
      match s.readCell l i ((s.lane l).addressIn i) with
      | .copy q => some (copyClass limit (some (q.marks &&& m)))
      | .storeFault => none
      | .unassigned => none
    else some (copyClass limit (if s.canAssign l i then some m else none))

/-- Nothing waits in the lane that could play, cut or end anything within an event: its sequencer waits for nothing, no mark
of an event is left, and it is neither PRIMING nor in UNDERRUN (R116, R159, R169). -/
def State.LaneQuiet (s : State) (l : LaneId) : Prop :=
  s.Unmarked ∧ (s.lane l).seq.mark = none ∧ (s.lane l).seq.bind = none ∧ (s.lane l).seq.reRequest = false ∧
    (s.lane l).seq.state ≠ .priming ∧ (s.lane l).seq.state ≠ .underrun

/-- A BLOCK of a REPAIR run at a position ends the attempt in flight by reaching the last position of its target (R92). -/
def Lane.EndsAttemptAt (x : Lane) (i : Index) : Prop :=
  x.run.kind = .repair ∧ x.rsc.mode = .repair ∧ ∃ t, x.rsc.target = some t ∧ before i t.last = false

/-- A position's condition is the one given, or, where the end of an attempt gives it up, LOST for HOLE and SETTLED for
WEAK (R35). -/
def Condition.EndsAs (c d : Condition) : Prop := d = c ∨ (c = .hole ∧ d = .lost) ∨ (c = .weak ∧ d = .settled)

/-- The condition that BLOCKs of the run give a position: exactly the one given, but where an attempt ends with them
possibly the one given up (R35, R92). -/
def State.Conditioned (s u : State) (l : LaneId) (i j : Index) (c : Condition) : Prop :=
  ∃ d, (u.lane l).conditionAt j = some d ∧ c.EndsAs d ∧ (¬ (s.lane l).EndsAttemptAt i → d = c)

/-- The fill decision of a lane as R82's table gives it, for a share of N positions and a refill wait brought up to date:
a rest reason, or none for FILL. -/
def Lane.restReason (x : Lane) (n gap : Nat) : Option RestReason :=
  if x.seq.state = .held ∧ x.pastLastSegment = true then some .heldByLane
  else if x.atCueEnd = true then some .cueEnd
  else if x.rsc.mapFullHold = true then some .mapFull
  else if x.bufferedLead = n - 2 ∨ (x.rsc.refillWait = true ∧ n - 2 - gap < x.bufferedLead) then some .windowFull
  else none

/-- The lane's repair scheduler rests for quiet with nothing in flight, its transport READY (R78, R97). -/
def State.RestsForQuiet (s : State) (l : LaneId) : Prop :=
  s.share l ≠ 0 ∧ (s.lane l).seq.reading = true ∧ (s.tlc l).state = .ready ∧ (s.lane l).rsc.quiet = true ∧
    (s.lane l).rsc.mode = .rest ∧ (s.lane l).rsc.target = none ∧ (s.lane l).activeSpan = none ∧
    (s.lane l).run.inProgress = false

/-- A span without an attempt in flight may be repaired: HOLE or WEAK, its first position RepairMargin beyond guard (R89).
-/
def Lane.MayRepair (x : Lane) (margin : Nat) (y : Span) : Prop :=
  (y.cond = .hole ∨ y.cond = .weak) ∧ x.guard + margin ≤ ahead y.first x.p

/-- The buffered lead lets a repair start (R90). -/
def Lane.MayStart (x : Lane) (v : LaneSettings) : Prop :=
  v.fillFloor ≤ x.bufferedLead ∧
    (v.repairStartLead ≤ x.bufferedLead ∨ x.bufferedLead = v.share - 2 ∨ x.atCueEnd = true)

/-- A SEEK has been sent for a run of a kind to a target in a segment: to the target, or two positions before it for an
anchored run (R42, R64, R65). -/
structure State.SeekSent (s t : State) (l : LaneId) (kind : RunKind) (g : SegRef) (target : Index) (speed : Speed)
    (steady : Bool) : Prop where
  state : (t.tlc l).state = .seeking
  run : (t.lane l).run.state = .seeking ∧ (t.lane l).run.kind = kind ∧ (t.lane l).run.target = target ∧
    (t.lane l).run.seg = some g ∧ (t.lane l).run.held = [] ∧ (t.lane l).run.err = 0
  start : (t.lane l).run.seekPosition = if (t.lane l).run.anchored then target - 2 else target
  check : (t.lane l).run.check = if (t.lane l).run.anchored then .waiting else .none
  anchored : (t.lane l).run.anchored = t.anchoredTest l g target
  seek : (t.tlc l).seek =
    some { address := g.addressOf (t.lane l).run.seekPosition, speed := speed, steady := steady }
  sent : ∀ k, (t.tlc l).seek = some k → .seek k ∈ (t.tlc l).sent
  counted : (t.tlc l).count.seeks = bump (s.tlc l).count.seeks

/-- The fill decision for lane `l` of `s` has been carried out, with no fill of it going on: REST with its reason and
refill wait as the reason has it, the transport standing; or FILL with a SEEK to f (R82, R83, R84). -/
def State.FillDecided (s t : State) (l : LaneId) : Prop :=
  let x := s.lane l
  let v := s.settings l
  (∀ r, x.restReason v.share v.refillGap = some r →
    (t.lane l).rsc.mode = .rest ∧ (t.lane l).rsc.rest = some r ∧ (t.tlc l).state = .ready ∧
    (t.tlc l).count.seeks = (s.tlc l).count.seeks ∧
    ((t.lane l).rsc.refillWait = true ↔
      r = .windowFull ∨ (x.rsc.refillWait = true ∧ v.share - 2 - v.refillGap < x.bufferedLead))) ∧
  ∀ g, x.restReason v.share v.refillGap = none → x.segmentAt x.f = some g →
    (t.lane l).rsc.mode = .fill ∧ (t.lane l).rsc.rest = none ∧ (t.lane l).rsc.refillWait = false ∧
    s.SeekSent t l .fill g.ref x.f (speedOf v.readSpeed) false

/-- The lane's block in play is the position p and at its end, and the lane plays on: a playout advance (R105). -/
def State.AdvanceDue (s : State) (l : LaneId) : Prop :=
  s.released = true ∧ (s.lane l).seq.state = .playing ∧ (s.lane l).p ≠ (s.lane l).f ∧
    ∃ b, (s.lane l).plu.block = some b ∧ b.next = 588 ∧ b.position = (s.lane l).p

/-- The lane finds a SKIP in its cell in a state that admits it (R163). -/
def State.SkipAdmitted (s : State) (l : LaneId) : Prop :=
  s.attends (laneCell l) codeSkip = true ∧ s.share l ≠ 0 ∧
    ((s.lane l).seq.state = .playing ∨ (s.lane l).seq.state = .underrun ∨ (s.lane l).seq.state = .paused ∨
      (s.lane l).seq.state = .held)

/-- Entry k, ARMED, has been retired BAD_CUE: its state FREE in ONCE and ARMED in CYCLE, nothing counted for it, CUE_DONE
set (R152, R170). -/
def State.RetiredBad (t : State) (l : LaneId) (k : Nat) : Prop :=
  t.word (cueOffset l k) = packBytes (if (t.lane l).seq.mode = .cycle then 1 else 0) CueOutcome.badCue.code 0 0 ∧
    t.news (newsOf l) &&& cueDoneBit = cueDoneBit

/-- The bytes an answer to a cell's command may change: the cell, its answer word and its owner's news word (R203). -/
def answerBytes (c : CellId) (a : Nat) : Prop :=
  (cellOffset c ≤ a ∧ a < cellOffset c + 4) ∨ (answerOffset c ≤ a ∧ a < answerOffset c + 4) ∨
    ((answerNews c).1.offset ≤ a ∧ a < (answerNews c).1.offset + 4)

/-- The owner of a cell has answered the command in it (R203). -/
structure State.Answered (s t : State) (c : CellId) (word : Word) : Prop where
  /-- The answer word. -/
  answer : t.word (answerOffset c) = word
  /-- The cell is cleared. -/
  cell : t.cellWord c = 0
  /-- Attention pending of the cell is cleared, that of the others as it was. -/
  attention : t.attention = (s.setAttention c false).attention
  /-- ANSWER is set in the owner's news word. -/
  news : t.news (answerNews c).1 &&& (answerNews c).2 = (answerNews c).2
  host : t.host = s.host
  pins : t.pins = s.pins
  pending : t.pending = s.pending
  /-- No other byte that only the host writes is written. -/
  bytes : ∀ a, HostOnly a → ¬ answerBytes c a → Memory.byte t.xm a = Memory.byte s.xm a

/-- A refused command has changed nothing but the answer word, the cell, attention pending and the ANSWER bit (R204);
what the event before gave out is gone. -/
structure State.RefusedOnly (s t : State) (c : CellId) (word : Word) : Prop where
  answered : s.Answered t c word
  rest : t = { s.clearOutputs with xm := t.xm, attention := t.attention, overlap := t.overlap }
  bytes : ∀ a, ¬ answerBytes c a → Memory.byte t.xm a = Memory.byte s.xm a
  news : t.news (answerNews c).1 = s.news (answerNews c).1 ||| (answerNews c).2

/-- The commands of a lane's cell with their codes and the lane states that admit them (R163). -/
def laneCommands (l : LaneId) : List (Instr × Nat × List LaneState) :=
  [(.start l, 0x01, [.idle, .starved]),
   (.stop l, 0x02, [.binding, .priming, .playing, .underrun, .paused, .held, .starved, .stopping]),
   (.pause l, 0x03, [.playing, .underrun]),
   (.go l, 0x04, [.paused, .held, .starved]),
   (.skip l, 0x05, [.playing, .underrun, .paused, .held])]

/-- A command of a lane's cell is refused with a result code. -/
def State.LaneRefused (s : State) (l : LaneId) (c : Instr) (code result : Nat) : Prop :=
  ∃ t, exec c s = .next t ∧
    s.RefusedOnly t (laneCell l) (answerWord code result (s.lane l).seq.state.code)

/-- A command of the mechanism cell is refused with a result code; the detail is the number of waiting requests. -/
def State.MechRefused (s : State) (c : Instr) (code result : Nat) : Prop :=
  ∃ t, exec c s = .next t ∧ s.RefusedOnly t .mech (answerWord code result s.loader.queue.length)

/-- A command of the mechanism cell is taken with its request; while the loader controller starts none, the request
stands behind those that wait, its wait timer started (R177, R178). -/
def State.MechTaken (s : State) (c : Instr) (code : Nat) (r : LoaderRequest) : Prop :=
  ∃ t, exec c s = .next t ∧ s.Answered t .mech (answerWord code 1 t.loader.queue.length) ∧
    (s.loader.state ≠ .idle → s.loader.state ≠ .faulted → s.loader.state ≠ .recovering →
      s.loader.queue ++ [{ request := r, timer := some s.applied.loaderWaitLimit, due := false, served := false }]
        <+: t.loader.queue)

/-- The loader controller starts no request and ends no recovery in this state. -/
def State.LoaderBusy (s : State) : Prop :=
  s.loader.state ≠ .idle ∧ s.loader.state ≠ .faulted ∧ s.loader.state ≠ .recovering

/-- The lane's sequencer waits for nothing: no play-out mark, no BIND outstanding and none to be sent again. -/
def Lane.Settled (x : Lane) : Prop := x.seq.mark = none ∧ x.seq.bind = none ∧ x.seq.reRequest = false

/-- A bad event has been taken on the transport of a lane: counted, and at ViolationLimit the transport has faulted
(R141). -/
def State.BadEventTaken (s t : State) (l : LaneId) : Prop :=
  (t.tlc l).count.badEvents = bump (s.tlc l).count.badEvents ∧
    (if s.applied.violationLimit ≤ (s.tlc l).violation + 1 then
      (t.tlc l).violation = 0 ∧ (t.tlc l).count.faults = bump (s.tlc l).count.faults ∧
        (t.tlc l).spindle = .unknown ∧ (t.tlc l).disc = .unknown
    else
      (t.tlc l).violation = (s.tlc l).violation + 1 ∧ (t.tlc l).count.faults = (s.tlc l).count.faults)

/-- The bad event of this event does not fault the transport (R141). -/
def State.bears (s : State) (l : LaneId) : Bool := decide ((s.tlc l).violation + 1 < s.applied.violationLimit)

/-- No counter of a lane that arrivals raise has changed, but the store faults. -/
def Lane.SameCounts (x y : Lane) : Prop :=
  y.count.skips = x.count.skips ∧ y.count.strays = x.count.strays ∧ y.count.overruns = x.count.overruns ∧
    y.count.noMatches = x.count.noMatches ∧ y.count.unanchored = x.count.unanchored ∧ y.count.slips = x.count.slips

/-- The slot table differs from that of `s` at most at the locations of a list. -/
def State.SameSlotsBut (s t : State) (ns : List Loc) : Prop := ∀ n, n ∉ ns → t.slot n = s.slot n

end Sys2Proof.Machine
end

