-- ==== Sys2Proof/Certificates/Slice0/Obligations.lean ====
section
/-! DEFINITION. The statements for the provers. -/

open Sys2Proof Sys2Proof.Machine

/-! ### Steps, reset and the invariant -/

/-- A step takes the command at the front of the queue and runs it with the queue's rest; on an empty queue the part
idles (log 2). -/
def Obligations.StepRunsFrontCommand : Prop :=
  (∀ (c : Instr) (rest : List Instr) (s : State), s.pending = c :: rest →
    step s = exec c { s with pending := rest }) ∧
  ∀ s : State, s.pending = [] → step s = .next s

/-- The reset values that the spec states: both lanes IDLE, ONCE, reading closed, at index 0 with an empty map (R172,
R15, R40), no run (R44), no work (R102), silent and with loss note 0 (R121, R119); no cell assigned (R15); both
transports STARTING with everything unknown (R148); the Splice Unit idle (R77); every location UNKNOWN, the queue empty
and the fault mark clear (R175, R195); PAGE and ENABLE 0 (R200); the default settings at generation 0 (R209). -/
def Obligations.ResetValues : Prop :=
  (∀ l : LaneId,
    let x := State.reset.lane l
    x.seq.state = .idle ∧ x.seq.mode = .once ∧ x.seq.reading = false ∧ x.seq.segments = [] ∧ x.p = 0 ∧ x.f = 0 ∧
      x.spans = [] ∧ x.run.state = .none ∧ x.run.check = .none ∧ x.run.held = [] ∧ x.rsc.mode = .none ∧
      x.rsc.quiet = false ∧ x.plu.block = none ∧ x.plu.gain = .silent ∧ x.plu.level = 0 ∧ x.plu.note.blocks = 0 ∧
      x.plu.note.cause = .lost) ∧
  (∀ l : LaneId,
    let t := State.reset.tlc l
    t.state = .starting ∧ t.spindle = .unknown ∧ t.disc = .unknown ∧ t.loaderHold = false ∧ t.stopPending = false ∧
      t.violation = 0) ∧
  State.reset.store = [] ∧ State.reset.splice.running = none ∧
  (∀ n : Loc, State.reset.slot n = .unknown) ∧ State.reset.loader.queue = [] ∧ State.reset.loader.faultMark = false ∧
  State.reset.host.page = 0 ∧ State.reset.host.enable = 0 ∧ State.reset.applied = .default ∧
  State.reset.generation = 0 ∧ State.reset.pins.xmReady = false

/-- The invariant holds at reset, and no lane has a mark of an event (log 8). -/
def Obligations.ResetKeepsInvariant : Prop := State.reset.Inv ∧ State.reset.Unmarked

/-- Every step keeps the invariant, whatever commands wait: Exchange Memory and the shock store in canonical form; the
applied settings within their ranges; in both lanes f at most N − 2 positions after p, the map in its form (at most 32
spans, none empty, covering exactly [p, f), no two adjacent ones alike, a repair part exactly on HOLE and WEAK), the
repair target of an active span ending inside [p, f) and holding that span, at most 4 segments, every taken cue one of
the 24 entries of its table, at most 4 held blocks, the gain level at most 128; at most two requests of the mechanism
cell and one BIND of a lane in the loader queue (R6, R10, R16, R18, R20, R33, R34, R41, R104, R149, R151, R157, R177,
R178, R208); the host commits that fall within an event in Exchange Memory (log 7). And no step leaves a lane a mark of its event
(log 8). -/
def Obligations.StepKeepsInvariant : Prop :=
  ∀ s t : State, step s = .next t → (s.Inv → t.Inv) ∧ (s.Unmarked → t.Unmarked)

/-- No event of the part changes what only the host changes: Host Port, pins, attention pending, settings, generation,
queue, attention cells, answer words, the settings block and the host fields of the cue tables; and it clears no news
bit. -/
def Obligations.PartEventFrame : Prop :=
  ∀ (c : Instr) (s : State), partEvent c = true →
    ∃ t, exec c s = .next t ∧ s.SameOutside t ∧ ∀ w, t.news w ||| s.news w = t.news w

/-- An event that changes a field of a transport record or of the loader record leaves in Exchange Memory the record
whole, as the event's end has it: the refresh count, the fields, the refresh count again; and a lane status record
whose refresh count it has raised stands there whole in the same way. A lane's refresh count is raised by 1 in an event
that leaves the lane in another state, that is its playout advance or that takes a SKIP of it. This is so for the
events of the part, the commands of the attention cells, the events of the mechanism lines and the end of the
initialisation (R147, R171, R194, R207; at the event's end, the loader record in the step of an outcome too, log 23). -/
def Obligations.RecordsRewritten : Prop :=
  ∀ (c : Instr) (s : State), recordEvent c = true → s.released = true ∨ c = .xmInitialisationDone →
    ∃ t, exec c s = .next t ∧
      (∀ l, (t.tlc l).fieldWords ≠ (s.tlc l).fieldWords → t.HoldsWords (transportOffset l) (t.tlc l).recordWords) ∧
      (t.loaderFields ≠ s.loaderFields → t.HoldsWords loaderOffset t.loaderWords) ∧
      ∀ l, ((t.lane l).seq.refresh ≠ (s.lane l).seq.refresh →
          t.HoldsWords (statusOffset l) (t.lane l).statusWords) ∧
        ((t.lane l).seq.state ≠ (s.lane l).seq.state ∨ (c = .playoutAdvance l ∧ s.AdvanceDue l) ∨
            (c = .skip l ∧ s.SkipAdmitted l) →
          (t.lane l).seq.refresh = (s.lane l).seq.refresh + 1)

/-! ### The host port -/

/-- XM reads. A read of a low half returns it and loads the read holding register with the word's number and high half; a
read of a high half returns the half held for that word, else the word's own high half, and invalidates the read holding
register; all else stays. The word is the one the host finds between two words of an event's writes, where the read falls
within the event; where no access falls within it, it is the word that XM holds (R196, R197, R199; where an access falls is
log 7). -/
def Obligations.XmReads : Prop :=
  ∀ (o : Nat) (w : Word) (s : State), xmOffset o = true → hostOffsetOk o = true → s.released = true →
    w = s.meetHost.hostWord (s.xmReached o / 4 * 4) →
    (s.xmReached o % 4 = 0 → exec (.hostXmRead o) s = .next { s.meetHost with host := { s.host with
      data := w.extractLsb' 0 16, readHold := some (s.xmReached o / 4, w.extractLsb' 16 16) } }) ∧
    (s.xmReached o % 4 = 2 → ∀ h, s.host.readHold = some (s.xmReached o / 4, h) →
      exec (.hostXmRead o) s = .next { s.meetHost with host := { s.host with data := h, readHold := none } }) ∧
    (s.xmReached o % 4 = 2 → (∀ h, s.host.readHold ≠ some (s.xmReached o / 4, h)) →
      exec (.hostXmRead o) s = .next { s.meetHost with host := { s.host with
        data := w.extractLsb' 16 16, readHold := none } }) ∧
    s.meetHost = { s with overlap := s.meetHost.overlap } ∧
    (s.overlap.within = [] → w = s.word (s.xmReached o / 4 * 4))

/-- Accesses that commit nothing. One that is not served changes nothing but the read holding register, and a read of it
returns 0xFFFF: a register read while RESET_N is asserted, an XM read or an XM write of a high half before the release of
reset. An XM write of a low half loads the write holding register; XM and all else stay; one that is not served reaches
neither (R196, R198). -/
def Obligations.AccessesWithoutCommit : Prop :=
  ∀ (o : Nat) (v : Half) (s : State),
    (hostOffsetOk o = true → s.pins.resetN = true → xmOffset o = false → exec (.hostRegisterRead o) s =
      .next { s with host := { s.host with data := 0xFFFF, readHold := none } }) ∧
    (hostOffsetOk o = true → s.released = false → xmOffset o = true → exec (.hostXmRead o) s =
      .next { s with host := { s.host with data := 0xFFFF, readHold := none } }) ∧
    (WellFormed (.hostXmWriteHigh o v) = true → s.released = false →
      exec (.hostXmWriteHigh o v) s = .next { s with host := { s.host with readHold := none } }) ∧
    (WellFormed (.hostXmWriteLow o v) = true →
      exec (.hostXmWriteLow o v) s = .next { s with host := { s.host with
        readHold := none
        writeHold := if s.released then some (s.xmReached o / 4, v) else s.host.writeHold } })

/-- An XM write of a high half commits: with the low half held for that word the whole word, else the high half alone;
the write holding register is empty after it. Outside news words and attention cells the host finds just that word after
it, XM holds it unless a write of the last event is still to land over it, and nothing else of the part changes but the
overlap of accesses (R198, R199; log 7). -/
def Obligations.XmWriteHighCommits : Prop :=
  ∀ (o : Nat) (v low : Half) (s : State), WellFormed (.hostXmWriteHigh o v) = true → s.released = true →
    (∀ c, s.xmReached o / 4 * 4 ≠ cellOffset c) → (∀ w : NewsWord, s.xmReached o / 4 * 4 ≠ w.offset) →
    s.CommitsLow o low →
    ∃ t, exec (.hostXmWriteHigh o v) s = .next t ∧ t.hostWord (s.xmReached o / 4 * 4) = v ++ low ∧
      (s.overlap.within = [] → t.word (s.xmReached o / 4 * 4) = v ++ low) ∧
      t = { s with xm := t.xm, overlap := t.overlap, host := { s.host with readHold := none, writeHold := none } } ∧
      ∀ a, a < s.xmReached o / 4 * 4 ∨ s.xmReached o / 4 * 4 + 4 ≤ a → Memory.byte t.xm a = Memory.byte s.xm a

/-- A commit into an attention cell, of a whole word or of a high half alone, through the home area or the PAGE window,
stores the word and sets the cell's attention pending; no other cell's attention and no other byte changes (R196, R198,
R203; into a cell that the last event has cleared it falls after the clear, log 7). -/
def Obligations.CommitRaisesAttention : Prop :=
  ∀ (c : CellId) (o : Nat) (v low : Half) (s : State), WellFormed (.hostXmWriteHigh o v) = true → s.released = true →
    s.xmReached o / 4 * 4 = cellOffset c → s.CommitsLow o low →
    ∃ t, exec (.hostXmWriteHigh o v) s = .next t ∧ t.cellWord c = v ++ low ∧
      t.attention = (s.setAttention c true).attention ∧
      t = { s with xm := t.xm, attention := t.attention, overlap := t.overlap,
                   host := { s.host with readHold := none, writeHold := none } } ∧
      (s.host.writeHold ≠ some (cellOffset c / 4, low) → low = (s.cellWord c).extractLsb' 0 16) ∧
      ∀ a, a < cellOffset c ∨ cellOffset c + 4 ≤ a → Memory.byte t.xm a = Memory.byte s.xm a

/-- A commit into a news word, of a whole word or of a high half alone, through the home area or the PAGE window, clears
the bits written as 1, but for a sticky bit whose condition holds, and sets none; a high half alone clears no bit of the
low half; no other byte changes. MECH_STOPPED is held while the mechanism field is STOPPED, TRANSPORT_DOWN while a
transport is OFFLINE; that a clear which falls within the last event meets these as that event leaves them is the model's
choice (log 69). The word is the one the host finds, as at an XM read (R196, R198, R205; log 7). -/
def Obligations.CommitClearsNews : Prop :=
  ∀ (n : NewsWord) (o : Nat) (v low : Half) (s : State), WellFormed (.hostXmWriteHigh o v) = true →
    s.released = true → s.xmReached o / 4 * 4 = n.offset →
    (s.host.writeHold = some (n.offset / 4, low) ∨
      ((∀ h, s.host.writeHold ≠ some (n.offset / 4, h)) ∧ low = 0)) →
    ∃ t, exec (.hostXmWriteHigh o v) s = .next t ∧
      (∀ k, k < 32 → (t.hostWord n.offset).getLsbD k =
        ((s.meetHost.hostWord n.offset).getLsbD k &&
        (!(v ++ low : Word).getLsbD k ||
        (decide (n = .mech) && ((k == 2 && s.loader.mechStopped) ||
          (k == 3 && (decide (s.tlc0.state = .offline) || decide (s.tlc1.state = .offline)))))))) ∧
      (s.overlap.within = [] → s.meetHost.hostWord n.offset = s.news n ∧
        t.hostWord n.offset = t.news n) ∧
      t = { s with xm := t.xm, overlap := t.overlap, host := { s.host with readHold := none, writeHold := none } } ∧
      ∀ a, a < n.offset ∨ n.offset + 4 ≤ a → Memory.byte t.xm a = Memory.byte s.xm a

/-- ENABLE keeps bits 0 to 3 and PAGE bits 0 to 2 of what is written, and nothing else changes; while RESET_N is
asserted both are ignored. A write to IDENT, STATE, NEWS or an unused offset, and a CONTROL write with RESET 0, change
nothing but the read holding register. IDENT reads as the part code, STATE as the XM_READY flag and the two lines, NEWS
as the summary of the news words as the host finds them, ENABLE and PAGE as they are, CONTROL and the unused offsets as 0; a
read changes nothing but what the port drives, the read holding register and the overlap of accesses (R196, R199, R200;
log 7). -/
def Obligations.RegisterAccesses : Prop :=
  ∀ (o : Nat) (v : Half) (s : State),
    exec (.enableWrite v) s = .next { s with host := { s.host with
      readHold := none, enable := if s.pins.resetN then s.host.enable else v.extractLsb' 0 4 } } ∧
    exec (.pageWrite v) s = .next { s with host := { s.host with
      readHold := none, page := if s.pins.resetN then s.host.page else v.extractLsb' 0 3 } } ∧
    (WellFormed (.registerWriteIgnored o v) = true →
      exec (.registerWriteIgnored o v) s = .next { s with host := { s.host with readHold := none } }) ∧
    (WellFormed (.hostRegisterRead o) = true → s.pins.resetN = false →
      ∃ v : Half, exec (.hostRegisterRead o) s = .next { s.meetHost with
          host := { s.host with data := v, readHold := none } } ∧
        (o = 0x1F00 → v = 0x2620) ∧
        (o = 0x1F02 → ∀ k, k < 16 → v.getLsbD k = ((k == 0 && s.pins.xmReady) || (k == 1 && s.pins.flapClosed) ||
          (k == 2 && s.pins.supplyGood))) ∧
        (o = 0x1F04 → ∀ k, k < 16 → v.getLsbD k = (decide (k < 4) && s.meetHost.foundNews.getLsbD k)) ∧
        (∀ w : NewsWord, s.overlap.within = [] → s.meetHost.hostWord w.offset = s.news w) ∧
        (s.overlap.within = [] → s.meetHost.foundNews = s.newsSummary) ∧
        (o = 0x1F06 → v.toNat = s.host.enable.toNat) ∧ (o = 0x1F08 → v.toNat = s.host.page.toNat) ∧
        (0x1F0A ≤ o → v = 0))

/-- NEWS shows a bit exactly when its news word is not 0, ATTN_N is asserted exactly when NEWS AND ENABLE is not 0, and
reading clears nothing: a host read leaves Exchange Memory, NEWS and ATTN_N as they are (R206). -/
def Obligations.NewsDrivesAttn : Prop :=
  (∀ s : State,
    (s.newsSummary.getLsbD 0 = true ↔ s.news .laneA ≠ 0) ∧ (s.newsSummary.getLsbD 1 = true ↔ s.news .laneB ≠ 0) ∧
    (s.newsSummary.getLsbD 2 = true ↔ s.news .mech ≠ 0) ∧ (s.newsSummary.getLsbD 3 = true ↔ s.news .part ≠ 0) ∧
    (s.attnAsserted = true ↔ s.newsSummary &&& s.host.enable ≠ 0)) ∧
  (∀ (o : Nat) (s t : State), (exec (.hostXmRead o) s = .next t ∨ exec (.hostRegisterRead o) s = .next t) →
    t.xm = s.xm ∧ t.newsSummary = s.newsSummary ∧ t.attnAsserted = s.attnAsserted)

/-! ### Reset -/

/-- A reset entered by RESET_N or by CONTROL puts every block at its reset values and empties the Host Port; only the
lines, the queue of commands and the schedule of accesses to come stay. CONTROL is ignored while RESET_N is asserted; its
release begins the initialisation and changes nothing else (R196, R201; what stays is logs 3 and 7). -/
def Obligations.ResetEnteredAndReleased : Prop :=
  ∀ (v : Half) (s : State), v.getLsbD 0 = true →
    exec .resetNAssert s = .next { State.reset with
      pins := { s.pins with resetN := true, resetFlag := false, xmReady := false }, pending := s.pending,
      overlap := { Overlap.whole with schedule := s.overlap.schedule } } ∧
    (s.pins.resetN = false → exec (.controlReset v) s = .next { State.reset with
      pins := { s.pins with resetN := false, resetFlag := false, xmReady := false }, pending := s.pending,
      overlap := { Overlap.whole with schedule := s.overlap.schedule } }) ∧
    (s.pins.resetN = true → exec (.controlReset v) s = .next { s with host := { s.host with readHold := none } }) ∧
    exec .resetNRelease s = .next { s with pins := { s.pins with resetN := false } }

/-- The end of the initialisation after an entered reset: XM_READY is 1; the settings block holds the defaults, every
other byte only the host writes is 0; each transport link controller has sent RESET and is STARTING with its startup
window, or held when a line is bad; the loader senses the first location, or is STOPPED (R128, R145, R195, R201,
R202). -/
def Obligations.InitialisationEnds : Prop :=
  ∀ u s : State, s = u.enterReset false →
    ∃ t, exec .xmInitialisationDone s = .next t ∧ t.pins = { s.pins with xmReady := true } ∧
      (∀ i, i < 31 → t.word (0xC00 + 4 * i) = BitVec.ofNat 32 (Config.defaultSettings.getD i 0)) ∧
      (∀ a, HostOnly a → (a < 0xC00 ∨ 0xC00 + 4 * 31 ≤ a) → Memory.byte t.xm a = 0) ∧
      (s.linesGood = true →
        t.loader.state = .homing ∧ t.loader.stage = some .sense ∧
        t.loader.homing = some { kind := .afterReset, sensing := 0, putAway := none } ∧
        ∀ l, (t.tlc l).state = .starting ∧ (t.tlc l).sent = [.reset] ∧
          (t.tlc l).timers.startup = some Config.startupWindow) ∧
      (s.linesGood = false →
        t.loader.state = .stopped ∧ t.loader.mechStopped = true ∧
        t.news .mech &&& mechStoppedBit = mechStoppedBit ∧ ∀ l, (t.tlc l).state = .mechHeld)

/-! ### Attention and lane commands -/

/-- An owner that finds its cell empty clears its attention pending and answers nothing. A value whose code is none of
its cell's commands is answered UNKNOWN_COMMAND with its own code, and with the lane state in a lane's cell, else 0.
Nothing else changes; the outputs of the event before are gone (log 27) and its writes have landed (log 7) (R203,
R204). -/
def Obligations.CellsWithoutCommand : Prop :=
  ∀ (c : CellId) (s : State), s.released = true → s.attentionOf c = true →
    (s.cellWord c = 0 → exec (.attentionEmpty c) s = .next ((s.taking c).setAttention c false)) ∧
    (s.cellWord c ≠ 0 → s.cellCode c ∉ cellCodes c →
      ∃ t, exec (.unknownCommand c) s = .next t ∧ s.RefusedOnly t c (answerWord (s.cellCode c) 5
        (match c with
         | .laneA => s.laneA.seq.state.code
         | .laneB => s.laneB.seq.state.code
         | .mech => 0
         | .settings => 0)))

/-- A lane command is answered REFUSED_STATE in a disabled lane and in a lane state that does not admit it, and a START
with an entry above 23, an entry that is not ARMED or a mode above 1 is answered REFUSED_ARGUMENT; a refused command
changes nothing but its answer, the outputs of the event before apart (R163, R204; log 27; the entry's state is the word
the event reads, log 7). -/
def Obligations.LaneCommandsRefused : Prop :=
  ∀ (l : LaneId) (s : State),
    (∀ c k admitted, (c, k, admitted) ∈ laneCommands l → s.attends (laneCell l) k = true →
      (s.share l = 0 ∨ (s.lane l).seq.state ∉ admitted) → s.LaneRefused l c k 2) ∧
    (s.attends (laneCell l) codeStart = true → s.share l ≠ 0 →
      (s.lane l).seq.state = .idle ∨ (s.lane l).seq.state = .starved →
      23 < s.cellArg1 (laneCell l) ∨ (s.taking (laneCell l)).armed l (s.cellArg1 (laneCell l)) = false ∨
        1 < s.cellArg2 (laneCell l) →
      s.LaneRefused l (.start l) codeStart 3)

/-- A taken START: answered TAKEN with the lane state it leads to; p and f are 0, the walk mode is the argument's, the
counters of arrivals are 0, no cell of the share is assigned. Its entry, read as the cue c after the entry's state, is
retired BAD_CUE when a structural check fails; with slot 0 and the tray UNKNOWN the lane waits in BINDING; with a slot
whose disc is not in the tray it waits in BINDING for the BIND it has queued; with its disc there it is in PRIMING,
where it waits for a transport that can be used, or opens reading on its first segment, or is retired BAD_CUE when its
table of contents refuses it; a BAD_CUE is written where the retire, which reads the entry's state after the three words of
the take, still finds it ARMED. What becomes of the entry is stated where the invariant holds, no mark of an event is left
and the loader controller starts nothing in the event (R12, R44, R152, R153, R154, R164; an entry as the event reads it,
log 7; marks, log 8). -/
def Obligations.StartTaken : Prop :=
  ∀ (l : LaneId) (k : Nat) (c : TakenCue) (tray : SlotEntry) (s : State), s.attends (laneCell l) codeStart = true →
    s.share l ≠ 0 → (s.lane l).seq.state = .idle ∨ (s.lane l).seq.state = .starved →
    k = s.cellArg1 (laneCell l) → k ≤ 23 → (s.taking (laneCell l)).armed l k = true → s.cellArg2 (laneCell l) ≤ 1 →
    c = ((s.taking (laneCell l)).countReads 1).readCue l k → tray = s.slot (trayOf l) →
    ∃ t, exec (.start l) s = .next t ∧
      s.Answered t (laneCell l) (answerWord codeStart 1 (t.lane l).seq.state.code) ∧
      (t.lane l).p = 0 ∧ (t.lane l).f = 0 ∧
      (t.lane l).seq.mode = (if s.cellArg2 (laneCell l) = 1 then .cycle else .once) ∧
      Lane.reset.SameCounts (t.lane l) ∧ (t.lane l).count.repaired = 0 ∧ (∀ c ∈ t.store, s.inShare l c = false) ∧
      (s.Inv → s.LoaderBusy → s.Unmarked → (s.lane l).seq.bind = none →
        (6 < c.slot ∨ 99 < c.track ∨ (c.track = 0 ∧ (c.stop ≤ c.start ∨ Config.discEnd < c.stop)) ∨
            (c.slot = 0 ∧ tray.occupancy = .no) → ((s.taking (laneCell l)).countReads 4).armed l k = true →
          t.RetiredBad l k) ∧
        (c.slot ≤ 6 → c.track ≤ 99 → (c.track = 0 → c.start < c.stop ∧ c.stop ≤ Config.discEnd) →
          (c.slot = 0 → tray.occupancy = .unknown →
            (t.lane l).seq.state = .binding ∧ (t.lane l).seq.pendingCue = some c ∧ (t.lane l).seq.bind = none ∧
            (t.lane l).seq.segments = []) ∧
          (1 ≤ c.slot → ¬(tray.occupancy = .yes ∧ tray.home = some c.slot) → s.loader.binds l = 0 →
            (t.lane l).seq.state = .binding ∧ (t.lane l).seq.pendingCue = some c ∧ (t.lane l).seq.segments = [] ∧
            (t.lane l).seq.bind = some { tag := (s.lane l).seq.bindTag + 1, slot := c.slot, moving := false } ∧
            s.loader.queue ++ [{
              request := .bind l c.slot ((s.lane l).seq.bindTag + 1)
              timer := some s.applied.loaderWaitLimit, due := false, served := false }] <+: t.loader.queue) ∧
          (tray.occupancy = .yes → c.slot = 0 ∨ tray.home = some c.slot →
            ((s.tlc l).state.usable = false →
              (t.lane l).seq.state = .priming ∧ (t.lane l).seq.pendingCue = some c ∧ (t.lane l).seq.identity = none ∧
              (t.lane l).seq.segments = []) ∧
            (∀ d, (s.tlc l).state.usable = true → tray.toc = some d →
              (resolve d c = none → ((s.taking (laneCell l)).countReads 4).armed l k = true → t.RetiredBad l k) ∧
              (∀ a b, resolve d c = some (a, b) →
                (t.lane l).seq.state = .priming ∧ (t.lane l).seq.pendingCue = none ∧
                (t.lane l).seq.identity = some { toc := d, home := tray.home } ∧ (t.lane l).seq.reading = true ∧
                (t.lane l).seq.current = some 0 ∧
                (t.lane l).seq.segments =
                  [{ cue := c, base := 0, first := a, stop := b, disc := tray.home }])))))

/-- A taken STOP: answered TAKEN. But in STOPPING the lane is then IDLE or STOPPING with no cue taken, no segment, no
disc identity, no BIND, no play-out mark, no hold point and reading closed, f is set to p, and no cell of its share is
assigned. In STOPPING, where the sequencer waits for nothing, the lane's sequencer stays as it is but for the refresh
count, and its playout unit stays as it is (R12, R38, R165). -/
def Obligations.StopTaken : Prop :=
  ∀ (l : LaneId) (s : State), s.attends (laneCell l) codeStop = true → s.share l ≠ 0 → (s.lane l).seq.state ≠ .idle →
    ∃ t, exec (.stop l) s = .next t ∧
      s.Answered t (laneCell l) (answerWord codeStop 1 (t.lane l).seq.state.code) ∧
      ((s.lane l).seq.state ≠ .stopping →
        ((t.lane l).seq.state = .idle ∨ (t.lane l).seq.state = .stopping) ∧
        (t.lane l).seq.segments = [] ∧ (t.lane l).seq.pendingCue = none ∧ (t.lane l).seq.current = none ∧
        (t.lane l).seq.identity = none ∧ (t.lane l).seq.bind = none ∧ (t.lane l).seq.reRequest = false ∧
        (t.lane l).seq.mark = none ∧ (t.lane l).seq.reading = false ∧ (t.lane l).plu.holdPoint = none ∧
        (t.lane l).plu.episode = none ∧ (t.lane l).f = (s.lane l).p ∧ (t.lane l).p = (s.lane l).p ∧
        ∀ c ∈ t.store, s.inShare l c = false) ∧
      ((s.lane l).seq.state = .stopping → (s.lane l).Settled →
        (∃ n, (t.lane l).seq = { (s.lane l).seq with refresh := n }) ∧ (t.lane l).plu = (s.lane l).plu)

/-- The retire of a cue, at the STOP of a lane with one taken cue: an entry that is ARMED gets its result whole, the
cut outcome, the passes with this one added, the cue's own counts and the gapless entry, and its state is FREE in ONCE
and ARMED in CYCLE; CUE_DONE is set. An entry that is not ARMED stays as it is, and CUE_DONE too. The host's words of
the entry stay. Whether it is ARMED is as the retire reads it, a host commit that falls before that read found (R150, R165,
R170; log 7; that a STOP counts the pass is log 44). -/
def Obligations.CueRetired : Prop :=
  ∀ (l : LaneId) (c : TakenCue) (first : Word) (result : List Word) (s : State),
    s.attends (laneCell l) codeStop = true → s.share l ≠ 0 →
    (s.lane l).seq.state ≠ .idle → (s.lane l).seq.state ≠ .stopping → (s.lane l).seq.cues = [c] → s.Inv →
    first = packBytes (if (s.lane l).seq.mode = .cycle then 1 else 0) CueOutcome.cutByHost.code
      (codeFlag c.counts.gapless) 0 →
    result = [packHalves (bump ((s.lane l).seq.entryPasses.getD c.entry 0)) c.counts.played,
      packHalves c.counts.muted c.counts.skips, wordOf c.counts.interpolated,
      packHalves c.counts.repaired c.counts.slips] →
    ∃ t, exec (.stop l) s = .next t ∧
      ((s.taking (laneCell l)).armed l c.entry = true →
        t.word (cueOffset l c.entry) = first ∧ t.HoldsWords (cueOffset l c.entry + 16) result ∧
        t.news (newsOf l) &&& cueDoneBit = cueDoneBit) ∧
      ((s.taking (laneCell l)).armed l c.entry = false →
        (∀ a, cueOffset l c.entry ≤ a → a < cueOffset l c.entry + 32 →
          Memory.byte t.xm a = Memory.byte s.xm a) ∧
        t.news (newsOf l) &&& cueDoneBit = s.news (newsOf l) &&& cueDoneBit) ∧
      ∀ a, cueOffset l c.entry + 4 ≤ a → a < cueOffset l c.entry + 16 →
        Memory.byte t.xm a = Memory.byte s.xm a

/-- A taken PAUSE: answered TAKEN; the lane is PAUSED at p, its open loss episode ended and no underrun cause; the
block in play is kept, and falls when it is a copy that still sounds, else the gain is SILENT. Its next pair stays
where it was: R113 sets it to the pair after the fall's last pair, which the model does as the fall's pairs are sent
and at a GO, its own choice (R113, R118, R166; log 16). -/
def Obligations.PauseTaken : Prop :=
  ∀ (l : LaneId) (s : State), s.attends (laneCell l) codePause = true → s.share l ≠ 0 →
    (s.lane l).seq.state = .playing ∨ (s.lane l).seq.state = .underrun →
    ∃ t, exec (.pause l) s = .next t ∧
      s.Answered t (laneCell l) (answerWord codePause 1 (t.lane l).seq.state.code) ∧ (t.lane l).f = (s.lane l).f ∧
      ((s.lane l).seq.bind = none → (s.lane l).seq.reRequest = false →
        (t.lane l).seq.state = .paused ∧ (t.lane l).p = (s.lane l).p ∧ (t.lane l).plu.episode = none ∧
        (t.lane l).plu.cause = none ∧
        (∀ b, (s.lane l).plu.block = some b →
          (∃ b', (t.lane l).plu.block = some b' ∧ b'.position = b.position ∧ b'.next = b.next ∧ b'.form = b.form) ∧
          (t.lane l).plu.gain =
            if b.form = .copy ∧ 0 < (s.lane l).plu.level ∧ b.next < 588 then .falling else .silent))

/-- A taken GO: answered TAKEN, f where it was. In PAUSED, a block kept at p goes on in PLAYING at the pair where its
fall would have ended, when one is left of it: RISING from 0, or SILENT for a silent block and where the fall planned
anew has begun. A kept COPY block gets its look-ahead made afresh; that a kept silent block gets none, so that no fall is
planned for it, is the model's choice (log 59), where R114 makes the look-ahead for any kept block (R114, R166; while the fall
of the PAUSE still runs that is log 16). -/
def Obligations.GoTaken : Prop :=
  ∀ (l : LaneId) (s : State), s.attends (laneCell l) codeGo = true → s.share l ≠ 0 →
    (s.lane l).seq.state = .paused ∨ (s.lane l).seq.state = .held ∨ (s.lane l).seq.state = .starved →
    ∃ t, exec (.go l) s = .next t ∧
      s.Answered t (laneCell l) (answerWord codeGo 1 (t.lane l).seq.state.code) ∧ (t.lane l).f = (s.lane l).f ∧
      ((s.lane l).seq.state = .paused → (s.lane l).Settled → ∀ b, (s.lane l).plu.block = some b →
        b.position = (s.lane l).p → b.next + (s.lane l).plu.fallLeft < 588 →
        (t.lane l).seq.state = .playing ∧ (t.lane l).p = (s.lane l).p ∧ (t.lane l).plu.level = 0 ∧
        (t.lane l).plu.block = some { b with
          next := b.next + (s.lane l).plu.fallLeft, plannedFall := b.form == .copy && (s.lane l).plansFall } ∧
        (t.lane l).plu.gain =
          if b.form = .copy ∧ ¬((s.lane l).plansFall = true ∧ 460 ≤ b.next + (s.lane l).plu.fallLeft) then .rising
          else .silent)

/-- A taken SKIP: answered TAKEN, the status record refreshed, f where it was; with no play-out mark p goes to the base
of the next segment when the stream has one, that base lying in [p, f]; without a next segment p goes to f (R39, R167).
-/
def Obligations.SkipTaken : Prop :=
  ∀ (l : LaneId) (s : State), s.attends (laneCell l) codeSkip = true → s.share l ≠ 0 →
    (s.lane l).seq.state = .playing ∨ (s.lane l).seq.state = .underrun ∨ (s.lane l).seq.state = .paused ∨
      (s.lane l).seq.state = .held →
    ∃ t, exec (.skip l) s = .next t ∧
      s.Answered t (laneCell l) (answerWord codeSkip 1 (t.lane l).seq.state.code) ∧ (t.lane l).f = (s.lane l).f ∧
      (t.lane l).seq.refresh = (s.lane l).seq.refresh + 1 ∧
      (∀ cut next, (s.lane l).skipped = some cut → segmentAfter (s.lane l).seq.segments cut = some next →
        (s.lane l).seq.mark = none → ahead next.base (s.lane l).p ≤ (s.lane l).bufferedLead →
        (t.lane l).p = next.base) ∧
      ((∀ cut, (s.lane l).skipped = some cut → segmentAfter (s.lane l).seq.segments cut = none) →
        (t.lane l).p = (s.lane l).f)

/-! ### Mechanism and settings commands -/

/-- EJECT, INSERT and RESCAN are taken where the table of R178 refuses them in no case: EJECT of a disc in a slot or in
the tray of a lane at rest with FRONT empty, INSERT from FRONT into an empty slot, while the loader is neither stopped,
returning, recovering nor faulted; RESCAN always; each while a mechanism place is free. -/
def Obligations.MechanismRequestsTaken : Prop :=
  ∀ s : State, s.loader.cellRequests < 2 →
    (s.attends .mech codeEject = true → s.cellArg1 .mech ≤ 7 → s.loaderClosed = false →
      (s.slot (locOf (s.cellArg1 .mech))).occupancy = .yes → (s.slot frontLoc).occupancy = .no →
      (∀ l, s.cellArg1 .mech = (trayOf l).val → s.laneAtRest l = true) →
      s.MechTaken .eject codeEject (.eject (s.cellArg1 .mech))) ∧
    (s.attends .mech codeInsert = true → 1 ≤ s.cellArg1 .mech → s.cellArg1 .mech ≤ 6 → s.loaderClosed = false →
      (s.slot frontLoc).occupancy = .yes → (s.slot (slotLoc (s.cellArg1 .mech))).occupancy = .no →
      s.MechTaken .insert codeInsert (.insert (s.cellArg1 .mech))) ∧
    (s.attends .mech codeRescan = true → s.MechTaken .rescan codeRescan .rescan)

/-- EJECT, INSERT and RESCAN refused, in the order of R178's table: the argument, then the state, then the places; each
changes nothing but its answer, the outputs of the event before apart (log 27). -/
def Obligations.MechanismRequestsRefused : Prop :=
  ∀ s : State,
    (s.attends .mech codeEject = true →
      (7 < s.cellArg1 .mech → s.MechRefused .eject codeEject 3) ∧
      (s.cellArg1 .mech ≤ 7 →
        (s.loaderClosed = true ∨ (s.slot (locOf (s.cellArg1 .mech))).occupancy ≠ .yes ∨
          (s.slot frontLoc).occupancy ≠ .no ∨ ∃ l, s.cellArg1 .mech = (trayOf l).val ∧ s.laneAtRest l = false) →
        s.MechRefused .eject codeEject 2) ∧
      (s.cellArg1 .mech ≤ 7 → s.loaderClosed = false → (s.slot (locOf (s.cellArg1 .mech))).occupancy = .yes →
        (s.slot frontLoc).occupancy = .no → (∀ l, s.cellArg1 .mech = (trayOf l).val → s.laneAtRest l = true) →
        2 ≤ s.loader.cellRequests → s.MechRefused .eject codeEject 4)) ∧
    (s.attends .mech codeInsert = true →
      (s.cellArg1 .mech = 0 ∨ 6 < s.cellArg1 .mech → s.MechRefused .insert codeInsert 3) ∧
      (1 ≤ s.cellArg1 .mech → s.cellArg1 .mech ≤ 6 →
        (s.loaderClosed = true ∨ (s.slot frontLoc).occupancy ≠ .yes ∨
          (s.slot (slotLoc (s.cellArg1 .mech))).occupancy ≠ .no) → s.MechRefused .insert codeInsert 2) ∧
      (1 ≤ s.cellArg1 .mech → s.cellArg1 .mech ≤ 6 → s.loaderClosed = false → (s.slot frontLoc).occupancy = .yes →
        (s.slot (slotLoc (s.cellArg1 .mech))).occupancy = .no → 2 ≤ s.loader.cellRequests →
        s.MechRefused .insert codeInsert 4)) ∧
    (s.attends .mech codeRescan = true → 2 ≤ s.loader.cellRequests → s.MechRefused .rescan codeRescan 4)

/-- REVIVE(t): refused for its argument when t is not 0 or 1, for the state when controller t is not OFFLINE; taken, it
puts the controller in MECH_HELD while the mechanism is stopped, else sends RESET: spindle and disc UNKNOWN, the
violation counter 0, STARTING with the startup window (what follows in the event apart). The fault and offline counters
stay. A refused REVIVE changes nothing but its answer, the outputs of the event before apart (R128, R130; log 27). -/
def Obligations.ReviveTakenAndRefused : Prop :=
  ∀ s : State, s.attends .mech codeRevive = true →
    (1 < s.cellArg1 .mech → s.MechRefused .revive codeRevive 3) ∧
    ∀ l, s.cellArg1 .mech = (match l with
        | .a => 0
        | .b => 1) →
      ((s.tlc l).state ≠ .offline → s.MechRefused .revive codeRevive 2) ∧
      ((s.tlc l).state = .offline → ∃ t, exec .revive s = .next t ∧
        s.Answered t .mech (answerWord codeRevive 1 t.loader.queue.length) ∧
        (t.tlc l).count.faults = (s.tlc l).count.faults ∧ (t.tlc l).count.offlines = (s.tlc l).count.offlines ∧
        ((s.tlc l).mechStopped = true → (t.tlc l).state = .mechHeld) ∧
        ((s.tlc l).mechStopped = false → (t.tlc l).spindle = .unknown ∧ (t.tlc l).disc = .unknown ∧
          (t.tlc l).violation = 0 ∧
          (s.LoaderBusy → (t.tlc l).state = .starting ∧ (t.tlc l).sent = [.reset] ∧
            (t.tlc l).timers.startup = some 3000)))

/-- A taken APPLY: every field of the settings block passes, and a share changes only with both lanes IDLE; the applied
settings become the block's, the generation is raised by 1 and answered, f stays in a lane that keeps its share or
whose map is empty, and a violation counter at or above a lowered ViolationLimit becomes the limit less 1 (R141, R208,
R209; the block is what the event reads of it, log 7). -/
def Obligations.ApplyTaken : Prop :=
  ∀ (c : Settings) (s : State), s.attends .settings codeApply = true → c = .ofList (s.taking .settings).settingsBlock →
    (∀ i, 1 ≤ i → i ≤ 31 → fieldOk c i = true) →
    ((c.laneA.share = s.share .a ∧ c.laneB.share = s.share .b) ∨
      (s.laneA.seq.state = .idle ∧ s.laneB.seq.state = .idle)) →
    ∃ t, exec .apply s = .next t ∧ s.Answered t .settings (answerWord codeApply 1 t.generation.toNat) ∧
      t.applied = c ∧ t.generation = s.generation + 1 ∧
      ∀ l, ((t.share l = s.share l ∨ (s.lane l).f = (s.lane l).p) → (t.lane l).f = (s.lane l).f) ∧
        (t.tlc l).violation =
          if c.violationLimit ≤ (s.tlc l).violation then c.violationLimit - 1 else (s.tlc l).violation

/-- A refused APPLY changes nothing but its answer: the index of the first field that fails with REFUSED_ARGUMENT; with
every field good, REFUSED_STATE and the index of the first share that differs while a lane is not IDLE. The outputs of
the event before are gone (log 27); the block is what the event reads of it, log 7 (R208). -/
def Obligations.ApplyRefused : Prop :=
  ∀ (c : Settings) (s : State), s.attends .settings codeApply = true → c = .ofList (s.taking .settings).settingsBlock →
    (∀ i, 1 ≤ i → i ≤ 31 → fieldOk c i = false → (∀ j, 1 ≤ j → j < i → fieldOk c j = true) →
      ∃ t, exec .apply s = .next t ∧ s.RefusedOnly t .settings (answerWord codeApply 3 i)) ∧
    ((∀ i, 1 ≤ i → i ≤ 31 → fieldOk c i = true) →
      (s.laneA.seq.state ≠ .idle ∨ s.laneB.seq.state ≠ .idle) →
      (c.laneA.share ≠ s.share .a →
        ∃ t, exec .apply s = .next t ∧ s.RefusedOnly t .settings (answerWord codeApply 2 1)) ∧
      (c.laneA.share = s.share .a → c.laneB.share ≠ s.share .b →
        ∃ t, exec .apply s = .next t ∧ s.RefusedOnly t .settings (answerWord codeApply 2 14)))

/-! ### Transport links -/

/-- A BLOCK that reaches no OPEN run on a READING transport, and is no late arrival at a full window, is stray: counted
once at the lane and once at the transport, no other counter of the lane raised, f where it was, no copy written. Where
nothing waits and reading is closed, so that the scheduling point of its result changes nothing, all else of the part
stays but the records that show it: p, the spans, the run context, the store, the other counters, the rest of XM (R45,
R46, R79, R138; the outputs of the event before are gone, log 27). -/
def Obligations.StrayBlockCounted : Prop :=
  ∀ (t : TransportId) (label : BitVec 24) (marks : MarkReport) (pairs : List Pair) (s : State), s.released = true →
    WellFormed (.block t label marks pairs) = true →
    ((s.lane t.lane).run.state ≠ .opened ∨ (s.tlc t.lane).state ≠ .reading) → s.lateArrival t.lane label = false →
    ∃ u, exec (.block t label marks pairs) s = .next u ∧ (u.lane t.lane).f = (s.lane t.lane).f ∧
      (u.lane t.lane).count.strays = bump (s.lane t.lane).count.strays ∧
      (u.tlc t.lane).count.strays = bump (s.tlc t.lane).count.strays ∧
      (u.lane t.lane).count.skips = (s.lane t.lane).count.skips ∧
      (u.lane t.lane).count.overruns = (s.lane t.lane).count.overruns ∧
      (u.lane t.lane).count.noMatches = (s.lane t.lane).count.noMatches ∧
      (u.lane t.lane).count.unanchored = (s.lane t.lane).count.unanchored ∧
      (u.lane t.lane).count.slips = (s.lane t.lane).count.slips ∧ List.Sublist u.store s.store ∧
      (s.AtRest → s.ReadingClosed t.lane →
        ((s.updTlc t.lane fun x => { x with count := { x.count with strays := bump x.count.strays } }).updLane t.lane
          fun x => { x with count := { x.count with strays := bump x.count.strays } }).OnlyRecords u)

/-- A BLOCK of an OPEN run, judged on arrival, that maps to f with room in the window, the map answering no FULL, is
appended: f moves up by 1, none of the lane's counters of arrivals changes. Its condition is that of R23's table by the guard and
the class of the copy, none for an OVERMARKED block and one the store refuses, but that the end of an attempt in
flight, which this BLOCK is, may give it up with its span; the cell of f holds the copy, written first (R10, R22, R23,
R35, R52, R59, R92). -/
def Obligations.BlockAtFillAppended : Prop :=
  ∀ (t : TransportId) (label : BitVec 24) (marks : MarkReport) (pairs : List Pair) (g : SegRef) (i : Index) (s : State),
    WellFormed (.block t label marks pairs) = true → s.JudgesOnArrival t.lane →
    (s.lane t.lane).mapArrival label = some (g, i) → i = (s.lane t.lane).f →
    (s.lane t.lane).bufferedLead < 0x80000000 →
    (s.lane t.lane).bufferedLead ≠ s.share t.lane - 2 →
    (s.lane t.lane).append g (copyClass (s.settings t.lane).interpLimit
      (if s.canAssign t.lane i then MarkReport.marks marks else none)) ≠ none →
    ∃ u, exec (.block t label marks pairs) s = .next u ∧ (u.lane t.lane).f = i + 1 ∧
      (s.lane t.lane).SameCounts (u.lane t.lane) ∧
      (s.Inv → (s.lane t.lane).Settled →
        s.Conditioned u t.lane i i (conditionOf
          (copyClass (s.settings t.lane).interpLimit (if s.canAssign t.lane i then MarkReport.marks marks else none))
          (decide ((s.lane t.lane).bufferedLead < (s.lane t.lane).guard))) ∧
        (∀ m, MarkReport.marks marks = some m → s.canAssign t.lane i = true →
          findCell u.store (s.cellNumber t.lane i) =
            some (freshCell (s.cellNumber t.lane i) i (g.addressOf i) m pairs)) ∧
        (MarkReport.marks marks = none → List.Sublist u.store s.store))

/-- A BLOCK of an OPEN run that maps after f, at most KeepLimit positions ahead and inside the window and the segment
of f, is kept ahead where the map does not answer FULL: f moves behind it, one skip is counted and none of the lane's other
counters of arrivals. The positions passed over are LOST within guard and HOLE beyond it, its own condition is that of
R23's table, and its cell holds the copy; an OVERMARKED block leaves a position without a copy; the end of an attempt
in flight, which this BLOCK is, may give these positions up with their span (R25, R35, R51, R53, R59, R92). -/
def Obligations.BlockAheadKept : Prop :=
  ∀ (t : TransportId) (label : BitVec 24) (marks : MarkReport) (pairs : List Pair) (g : SegRef) (i : Index) (s : State),
    WellFormed (.block t label marks pairs) = true → s.JudgesOnArrival t.lane →
    (s.lane t.lane).mapArrival label = some (g, i) → before i (s.lane t.lane).p = false →
    before (s.lane t.lane).f i = true → ahead i (s.lane t.lane).f ≤ (s.settings t.lane).keepLimit →
    ahead i (s.lane t.lane).p ≤ s.share t.lane - 3 →
    ((s.lane t.lane).segmentAt (s.lane t.lane).f).map Segment.base = some g.base →
    (s.lane t.lane).aheadHole g i (copyClass (s.settings t.lane).interpLimit
      (if s.canAssign t.lane i then MarkReport.marks marks else none)) ≠ none →
    ∃ u, exec (.block t label marks pairs) s = .next u ∧ (u.lane t.lane).f = i + 1 ∧
      (u.lane t.lane).count.skips = bump (s.lane t.lane).count.skips ∧
      (s.lane t.lane).SameCounts { u.lane t.lane with
        count := { (u.lane t.lane).count with skips := (s.lane t.lane).count.skips } } ∧
      (s.Inv → (s.lane t.lane).Settled →
        (∀ j, j < ahead i (s.lane t.lane).f → s.Conditioned u t.lane i (plus (s.lane t.lane).f j)
          (if (s.lane t.lane).bufferedLead + j < (s.lane t.lane).guard then .lost else .hole)) ∧
        s.Conditioned u t.lane i i (conditionOf
          (copyClass (s.settings t.lane).interpLimit (if s.canAssign t.lane i then MarkReport.marks marks else none))
          (decide (ahead i (s.lane t.lane).p < (s.lane t.lane).guard))) ∧
        (∀ m, MarkReport.marks marks = some m → s.canAssign t.lane i = true →
          findCell u.store (s.cellNumber t.lane i) =
            some (freshCell (s.cellNumber t.lane i) i (g.addressOf i) m pairs)))

/-- A BLOCK of an OPEN run that maps behind f, near enough on a FILL run or at a preroll position, is absorbed: f and p
and the counters stay. Where the map answers no absorption there FULL, on a FILL and on a REPAIR run: a position that holds a copy keeps it
merged with the arriving one, GOOD where the merged marks are not long, else as it was but a WEAK position within guard
SETTLED; a position without a copy takes the arriving one, GOOD, or with long marks WEAK where a hole lies beyond guard
and SETTLED else; an OVERMARKED block leaves the store and the condition, but that a WEAK position within guard is
SETTLED. Where the BLOCK ends an attempt in flight, a position so left HOLE or WEAK may be given up with its span (R22,
R26, R35, R55, R56, R59, R92; that a GOOD position stays GOOD is log 37). -/
def Obligations.BlockAbsorbed : Prop :=
  ∀ (t : TransportId) (label : BitVec 24) (marks : MarkReport) (pairs : List Pair) (g : SegRef) (i : Index)
    (old : Condition) (s : State),
    WellFormed (.block t label marks pairs) = true → s.JudgesOnArrival t.lane →
    (s.lane t.lane).mapArrival label = some (g, i) → before i (s.lane t.lane).p = false →
    i ≠ (s.lane t.lane).f → before (s.lane t.lane).f i = false →
    ((s.lane t.lane).run.kind = .repair ∨ ahead (s.lane t.lane).f i ≤ (s.settings t.lane).absorbLimit ∨
      (s.lane t.lane).run.isPreroll i = true) →
    (s.lane t.lane).conditionAt i = some old →
    ∃ u, exec (.block t label marks pairs) s = .next u ∧ (u.lane t.lane).f = (s.lane t.lane).f ∧
      (s.lane t.lane).SameCounts (u.lane t.lane) ∧
      (s.Inv → (s.lane t.lane).Settled →
        (∀ copy, ((s.lane t.lane).absorb i copy (s.lane t.lane).playTaken).1 ≠ .full) →
        ¬(i = (s.lane t.lane).p ∧ old = .lost ∧ (s.lane t.lane).playTaken = true) →
        (u.lane t.lane).p = (s.lane t.lane).p ∧
        (∀ m q, MarkReport.marks marks = some m → old.playable = true →
          s.readCell t.lane i ((s.lane t.lane).addressIn i) = .copy q →
          s.Conditioned u t.lane i i (
            if copyClass (s.settings t.lane).interpLimit (some (q.marks &&& m)) ≠ .long then .good
            else if old = .weak ∧ ahead i (s.lane t.lane).p < (s.lane t.lane).guard then .settled else old) ∧
          ∃ q', findCell u.store q.number = some q' ∧ q'.position = i ∧ q'.marks = q.marks &&& m ∧
            q'.pairs = if q.marks &&& m = q.marks then q.pairs else mergePairs q.pairs pairs q.marks m) ∧
        (∀ m, MarkReport.marks marks = some m → old.playable = false → s.canAssign t.lane i = true →
          s.Conditioned u t.lane i i (
            if copyClass (s.settings t.lane).interpLimit (some m) ≠ .long then .good
            else if old = .hole ∧ (s.lane t.lane).guard ≤ ahead i (s.lane t.lane).p then .weak else .settled) ∧
          findCell u.store (s.cellNumber t.lane i) =
            some (freshCell (s.cellNumber t.lane i) i (g.addressOf i) m pairs)) ∧
        (MarkReport.marks marks = none → List.Sublist u.store s.store ∧ s.Conditioned u t.lane i i (
          if old = .weak ∧ ahead i (s.lane t.lane).p < (s.lane t.lane).guard then .settled else old)))

/-- A BLOCK that is discarded. Of an OPEN run: too far ahead, beyond the window, in another segment or refused by the map
(I2) it is counted as a skip; below p, or on a FILL run too far behind f and no preroll position (I4), outside the run's
segments (I5), and at f of a full window (WINDOW), it is not counted. An absorption that the map refuses, BELOW at a LOST p
whose playout has been taken or FULL for more than 32 spans, leaves the position and its cell as they were and is not counted.
f stays and no copy is written; on a FILL run no condition in the map changes, and where nothing waits in the lane no counter
of it changes but the skips, and the store faults by a first write that the store refuses. The late arrival of an ENDED run at
f of a full window is discarded in the same way, no stray counted, in whatever state the transport is (R45, R50, R52, R54,
R57, R58, R59; that it is so in every state of the transport is log 60). -/
def Obligations.BlockDiscarded : Prop :=
  (∀ (t : TransportId) (label : BitVec 24) (marks : MarkReport) (pairs : List Pair) (s : State),
    WellFormed (.block t label marks pairs) = true → s.JudgesOnArrival t.lane →
    ∃ u, exec (.block t label marks pairs) s = .next u ∧
      (∀ g i, (s.lane t.lane).mapArrival label = some (g, i) → before i (s.lane t.lane).p = false →
        before (s.lane t.lane).f i = true →
        (s.settings t.lane).keepLimit < ahead i (s.lane t.lane).f ∨
          s.share t.lane - 3 < ahead i (s.lane t.lane).p ∨
          ((s.lane t.lane).segmentAt (s.lane t.lane).f).map Segment.base ≠ some g.base ∨
          (s.lane t.lane).aheadHole g i (copyClass (s.settings t.lane).interpLimit
            (if s.canAssign t.lane i then MarkReport.marks marks else none)) = none →
        (u.lane t.lane).f = (s.lane t.lane).f ∧ List.Sublist u.store s.store ∧
          (u.lane t.lane).count.skips = bump (s.lane t.lane).count.skips ∧
          (s.lane t.lane).SameCounts { u.lane t.lane with
            count := { (u.lane t.lane).count with skips := (s.lane t.lane).count.skips } } ∧
          (s.Inv → (s.lane t.lane).Settled → (s.lane t.lane).run.kind = .fill →
            ∀ j, (u.lane t.lane).conditionAt j = (s.lane t.lane).conditionAt j)) ∧
      ((s.lane t.lane).mapArrival label = none ∨
        (∃ g i, (s.lane t.lane).mapArrival label = some (g, i) ∧
          (before i (s.lane t.lane).p = true ∨
            (before i (s.lane t.lane).p = false ∧ i = (s.lane t.lane).f ∧
              (s.lane t.lane).bufferedLead = s.share t.lane - 2) ∨
            (before i (s.lane t.lane).p = false ∧ i ≠ (s.lane t.lane).f ∧ before (s.lane t.lane).f i = false ∧
              (s.lane t.lane).run.kind = .fill ∧ (s.settings t.lane).absorbLimit < ahead (s.lane t.lane).f i ∧
              (s.lane t.lane).run.isPreroll i = false))) →
        (u.lane t.lane).f = (s.lane t.lane).f ∧ List.Sublist u.store s.store ∧
          (s.lane t.lane).SameCounts (u.lane t.lane) ∧
          (s.LaneQuiet t.lane → (s.lane t.lane).run.kind = .fill → (u.lane t.lane).count = (s.lane t.lane).count) ∧
          (s.Inv → (s.lane t.lane).Settled → (s.lane t.lane).run.kind = .fill →
            ∀ j, (u.lane t.lane).conditionAt j = (s.lane t.lane).conditionAt j)) ∧
      ∀ g i old, (s.lane t.lane).mapArrival label = some (g, i) → before i (s.lane t.lane).p = false →
        i ≠ (s.lane t.lane).f → before (s.lane t.lane).f i = false →
        ((s.lane t.lane).run.kind = .repair ∨ ahead (s.lane t.lane).f i ≤ (s.settings t.lane).absorbLimit ∨
          (s.lane t.lane).run.isPreroll i = true) →
        (s.lane t.lane).conditionAt i = some old →
        ((i = (s.lane t.lane).p ∧ old = .lost ∧ (s.lane t.lane).playTaken = true) ∨
          ∃ c, s.absorbedClass t.lane i marks = some c ∧
            ((s.lane t.lane).absorb i c (s.lane t.lane).playTaken).1 = .full) →
        (u.lane t.lane).f = (s.lane t.lane).f ∧ List.Sublist u.store s.store ∧
          (s.lane t.lane).SameCounts (u.lane t.lane) ∧
          (s.LaneQuiet t.lane → (s.lane t.lane).run.kind = .fill →
            (u.lane t.lane).count = { (s.lane t.lane).count with
              storeFaults := if marks ≠ .overmarked ∧ old.playable = false ∧ s.canAssign t.lane i = false then
                bump (s.lane t.lane).count.storeFaults else (s.lane t.lane).count.storeFaults }) ∧
          (s.Inv → (s.lane t.lane).Settled →
            (u.lane t.lane).p = (s.lane t.lane).p ∧ s.Conditioned u t.lane i i old ∧
            findCell u.store (s.cellNumber t.lane i) = findCell s.store (s.cellNumber t.lane i) ∧
            ((s.lane t.lane).run.kind = .fill →
              ∀ j, (u.lane t.lane).conditionAt j = (s.lane t.lane).conditionAt j))) ∧
  ∀ (t : TransportId) (label : BitVec 24) (marks : MarkReport) (pairs : List Pair) (g : SegRef) (s : State),
    s.released = true → WellFormed (.block t label marks pairs) = true → (s.lane t.lane).run.state = .ended →
    (s.lane t.lane).mapArrival label = some (g, (s.lane t.lane).f) →
    (s.lane t.lane).bufferedLead = s.share t.lane - 2 →
    ∃ u, exec (.block t label marks pairs) s = .next u ∧
      (u.lane t.lane).f = (s.lane t.lane).f ∧ List.Sublist u.store s.store ∧
      (s.lane t.lane).SameCounts (u.lane t.lane) ∧ (u.tlc t.lane).count.strays = (s.tlc t.lane).count.strays ∧
      (s.LaneQuiet t.lane → (u.lane t.lane).count = (s.lane t.lane).count) ∧
      (s.Inv → (s.lane t.lane).Settled →
        ∀ j, (u.lane t.lane).conditionAt j = (s.lane t.lane).conditionAt j)

/-- A BLOCK of an OPEN run that waits for its check. With the hold queue at its 4 places the run is abandoned, OPEN no
more and its held blocks gone: one overrun counted, no bad event, f where it was; so also for a run that still WAITS
for a block with marks, the model's choice (log 36). Else it is held, but the first with a mark set in WAITING is
handed to the Splice Unit as a check request, the check AWAITING; where nothing waits, nothing else changes but the
cadence timer's restart. A unit that runs another check keeps the request; an idle one, or one whose running check is
this lane's discarded one, takes it in the event: with comparable readings it runs the check of them, in the order of
R69, the reached candidate the first; with none the answer is NO_ANCHOR at once, counted, the unit free, and where no
other block is held the event is that of the block arriving judged with label error 0 on the run, now unanchored and
unchecked (R43, R47, R48, R67, R68, R71, R73, R74, R138; the outputs of the event before are gone, log 27). -/
def Obligations.BlockHeld : Prop :=
  ∀ (t : TransportId) (label : BitVec 24) (marks : MarkReport) (pairs : List Pair) (s r : State), s.released = true →
    WellFormed (.block t label marks pairs) = true → (s.tlc t.lane).state = .reading →
    (s.lane t.lane).run.state = .opened →
    ((s.lane t.lane).run.check = .waiting ∨ (s.lane t.lane).run.check = .awaiting) →
    r = (s.updTlc t.lane fun x => { x with timers := { x.timers with cadence := some s.applied.cadenceLimit } }) →
    ∃ u, exec (.block t label marks pairs) s = .next u ∧
      (4 ≤ (s.lane t.lane).run.held.length →
        (u.lane t.lane).count.overruns = bump (s.lane t.lane).count.overruns ∧
        (u.lane t.lane).run.state ≠ .opened ∧ (u.lane t.lane).run.held = [] ∧
        (u.lane t.lane).f = (s.lane t.lane).f ∧ (u.tlc t.lane).violation = (s.tlc t.lane).violation ∧
        (u.tlc t.lane).count.badEvents = (s.tlc t.lane).count.badEvents ∧ List.Sublist u.store s.store) ∧
      ((s.lane t.lane).run.held.length < 4 → s.AtRest →
        ((s.lane t.lane).run.check = .awaiting ∨ (s.lane t.lane).run.seg = none ∨ marks = .overmarked →
          (r.updLane t.lane fun x => { x with run := { x.run with
            held := x.run.held ++ [{ label := label, marks := marks, pairs := pairs }] } }).OnlyRecords u) ∧
        (∀ g c, (s.lane t.lane).run.check = .waiting → (s.lane t.lane).run.seg = some g → marks ≠ .overmarked →
          s.splice.running = some c → ¬(c.lane = t.lane ∧ c.discarded = true) →
          (State.OnlyRecords { (r.updLane t.lane fun x => { x with run := { x.run with
              check := .awaiting, heldBefore := x.run.held.length } }) with
            splice := s.splice.setPlace t.lane (some {
              block := { label := label, marks := marks, pairs := pairs }, seg := g }) } u)) ∧
        ∀ g q, (s.lane t.lane).run.check = .waiting → (s.lane t.lane).run.seg = some g → marks ≠ .overmarked →
          (∀ c, s.splice.running = some c → c.lane = t.lane ∧ c.discarded = true) →
          s.splice.place (LaneId.other t.lane) = none →
          q = { block := { label := label, marks := marks, pairs := pairs }, seg := g } →
          (∀ first rest, s.readings t.lane q = first :: rest →
            u.splice = { running := some { lane := t.lane, request := q, readings := first :: rest,
                                           reached := first.err, discarded := false }
                         pendingA := none, pendingB := none } ∧
            (u.lane t.lane).run =
              { (s.lane t.lane).run with check := .awaiting, heldBefore := (s.lane t.lane).run.held.length } ∧
            (u.lane t.lane).p = (s.lane t.lane).p ∧ (u.lane t.lane).f = (s.lane t.lane).f ∧
            (s.lane t.lane).SameCounts (u.lane t.lane) ∧ u.store = s.store) ∧
          (s.readings t.lane q = [] →
            u.splice.running = none ∧
            (u.lane t.lane).count.unanchored = bump (s.lane t.lane).count.unanchored ∧
            (u.lane t.lane).count.noMatches = (s.lane t.lane).count.noMatches ∧
            (u.lane t.lane).count.slips = (s.lane t.lane).count.slips ∧
            ((s.lane t.lane).run.held = [] → s.ReadsNoFault t.lane q →
              exec (.block t label marks pairs) s = exec (.block t label marks pairs)
                { (s.updLane t.lane fun x => { x with
                    count := { x.count with unanchored := bump x.count.unanchored }
                    run := { x.run with err := 0, check := .noAnchor, anchored := false, heldBefore := 0 } }) with
                  splice := { running := none, pendingA := none, pendingB := none } })))

/-- A SEEK_DONE that names the outstanding seek is a good event: the violation counter falls by 1, not below 0; where
nothing waits and the lane's work goes on, the transport is READING with its cadence timer started and no seek
outstanding, and the run is OPEN. A SEEK_FAIL in SEEKING is a bad event, counted, with its reason kept as the last seek
failure. Any other SEEK_DONE and a SEEK_FAIL in any other state are strays that only count: state, outstanding seek and
timers, the violation counter and every other count stay, and nothing else but the record that shows it changes (R42,
R136, R137, R141; the outputs of the event before are gone, log 27). -/
def Obligations.SeekAnswersTaken : Prop :=
  ∀ (t : TransportId) (address : BitVec 24) (reason : SeekReason) (s : State), s.released = true →
    (∃ u, exec (.seekDone t address) s = .next u ∧
      ((s.tlc t.lane).state = .seeking → (s.tlc t.lane).seek.map Seek.address = some address.toNat →
        (u.tlc t.lane).violation = (s.tlc t.lane).violation - 1 ∧
        (u.tlc t.lane).count.strays = (s.tlc t.lane).count.strays ∧
        (s.AtRest → s.WorkGoesOn t.lane →
          (u.tlc t.lane).state = .reading ∧ (u.tlc t.lane).seek = none ∧
          (u.tlc t.lane).timers = { TlcTimers.none with cadence := some s.applied.cadenceLimit } ∧
          (u.lane t.lane).run = { (s.lane t.lane).run with
            state := if (s.lane t.lane).run.state = .seeking then .opened else (s.lane t.lane).run.state })) ∧
      (((s.tlc t.lane).state ≠ .seeking ∨ (s.tlc t.lane).seek.map Seek.address ≠ some address.toNat) →
        (u.tlc t.lane).count.strays = bump (s.tlc t.lane).count.strays ∧
        (u.tlc t.lane).violation = (s.tlc t.lane).violation ∧
        (u.tlc t.lane).count.badEvents = (s.tlc t.lane).count.badEvents ∧
        (s.AtRest → (s.updTlc t.lane fun x =>
          { x with count := { x.count with strays := bump x.count.strays } }).OnlyRecords u))) ∧
    (∃ u, exec (.seekFail t reason) s = .next u ∧
      ((s.tlc t.lane).state = .seeking → s.BadEventTaken u t.lane ∧
        (u.tlc t.lane).count.seekFailures = bump (s.tlc t.lane).count.seekFailures ∧
        (u.tlc t.lane).lastFailure = some reason) ∧
      ((s.tlc t.lane).state ≠ .seeking →
        (u.tlc t.lane).count.strays = bump (s.tlc t.lane).count.strays ∧
        (u.tlc t.lane).lastFailure = (s.tlc t.lane).lastFailure ∧
        (u.tlc t.lane).violation = (s.tlc t.lane).violation ∧
        (u.tlc t.lane).count.badEvents = (s.tlc t.lane).count.badEvents ∧
        (s.AtRest → (s.updTlc t.lane fun x =>
          { x with count := { x.count with strays := bump x.count.strays } }).OnlyRecords u)))

/-- A STATUS is recorded in the spindle and disc fields in every state. A disc found absent in STARTING, TOC, READY,
SEEKING or READING empties the tray in the slot table and puts the controller in EMPTY; a spinning disc in STARTING has
it read the table of contents under the TOC limit (what follows in the event apart) (R128, R131, R140, R175). -/
def Obligations.StatusRecorded : Prop :=
  ∀ (t : TransportId) (spinning present : Bool) (s : State), s.released = true →
    ∃ u, exec (.status t spinning present) s = .next u ∧
      (u.tlc t.lane).spindle = (if spinning then .spinning else .stopped) ∧
      (u.tlc t.lane).disc = (if present then .present else .absent) ∧
      ((s.tlc t.lane).state ∈ [.starting, .toc, .ready, .seeking, .reading] → present = false →
        u.slot (trayOf t.lane) = .absent ∧ (s.LoaderBusy → (u.tlc t.lane).state = .empty)) ∧
      ((s.tlc t.lane).state = .starting → present = true → spinning = true → s.LoaderBusy →
        (u.tlc t.lane).state = .toc ∧ (u.tlc t.lane).sent = [.readToc] ∧ (u.tlc t.lane).timers.toc = some 5000 ∧
        (u.tlc t.lane).timers.startup = none)

/-- A TOC_ENTRY in TOC goes into the assembly: track 1..99 stored under its track, any other marking the assembly
invalid (where nothing of the loader follows in the event); in any other state it is a stray (R131). -/
def Obligations.TocEntryTaken : Prop :=
  ∀ (t : TransportId) (track : Byte) (address : BitVec 24) (s : State), s.released = true →
    ∃ u, exec (.tocEntry t track address) s = .next u ∧
      ((s.tlc t.lane).state = .toc → (s.AtRest ∨ s.LoaderBusy) → (u.tlc t.lane).state = .toc ∧
        (1 ≤ track.toNat → track.toNat ≤ 99 →
          (u.tlc t.lane).assembly.entries.lookup track.toNat = some address.toNat ∧
          (u.tlc t.lane).assembly.invalid = (s.tlc t.lane).assembly.invalid) ∧
        (track.toNat = 0 ∨ 99 < track.toNat →
          (u.tlc t.lane).assembly = { (s.tlc t.lane).assembly with invalid := true })) ∧
      ((s.tlc t.lane).state = .toc → (u.tlc t.lane).count.strays = (s.tlc t.lane).count.strays) ∧
      ((s.tlc t.lane).state ≠ .toc → (u.tlc t.lane).count.strays = bump (s.tlc t.lane).count.strays)

/-- A TOC_END in TOC: a valid assembly gives the controller its fingerprint and the tray's entry its disc and table; an
invalid one is counted and leaves the fingerprint and the slot table. After a valid one the controller is READY, no timer
running, where the lane is IDLE and nothing of the loader follows in the event. In any other state it is a stray (R132,
R175). -/
def Obligations.TocEndJudged : Prop :=
  ∀ (t : TransportId) (count : Byte) (leadOut : BitVec 24) (s : State), s.released = true →
    ∃ u, exec (.tocEnd t count leadOut) s = .next u ∧
      (∀ c, (s.tlc t.lane).state = .toc → (s.tlc t.lane).assembly.judge count.toNat leadOut.toNat = some c →
        c.leadOut = leadOut.toNat ∧ c.starts.length = count.toNat ∧
        c.fingerprint = fingerprintOf c.starts c.leadOut ∧ (u.tlc t.lane).fingerprint = c.fingerprint ∧
        u.slot (trayOf t.lane) =
          { occupancy := .yes, toc := some c, home := (s.slot (trayOf t.lane)).home } ∧
        s.SameSlotsBut u [trayOf t.lane] ∧
        (s.AtRest → s.LoaderBusy → s.ReadingClosed t.lane → (s.lane t.lane).seq.state = .idle →
          (u.tlc t.lane).state = .ready ∧ (u.tlc t.lane).timers = .none)) ∧
      ((s.tlc t.lane).state = .toc → (s.tlc t.lane).assembly.judge count.toNat leadOut.toNat = none →
        (u.tlc t.lane).count.invalidTocs = bump (s.tlc t.lane).count.invalidTocs ∧
        (u.tlc t.lane).fingerprint = (s.tlc t.lane).fingerprint ∧ s.SameSlotsBut u [] ∧
        (s.AtRest ∨ s.LoaderBusy → (u.tlc t.lane).state = .toc ∧
          (u.tlc t.lane).assembly = { entries := [], invalid := false })) ∧
      ((s.tlc t.lane).state ≠ .toc → (u.tlc t.lane).count.strays = bump (s.tlc t.lane).count.strays ∧
        s.SameSlotsBut u [])

/-- A frame dropped for its check byte, its kind byte or an idle link is counted in the check error counter and leaves
the receiver hunting for a delimiter; nothing of its content is taken: no other event of the transport is counted, the
violation counter and the recorded spindle and disc stay, and where nothing waits nothing else of the part changes but
the record that shows it, the controller's state and timers and the rest of XM included (R123, R210; the outputs of the
event before are gone, log 27). -/
def Obligations.DroppedFramesCounted : Prop :=
  ∀ (t : TransportId) (bytes : List Byte) (c : Instr) (s : State), s.released = true →
    ((c = .frameCheckError t bytes ∧ ((s.tlc t.lane).receiver.feedAll bytes).2 = .frame none) ∨
      (c = .frameKindInvalid t bytes ∧ ((s.tlc t.lane).receiver.feedAll bytes).2 = .badKind) ∨
      (c = .linkIdleInFrame t bytes ∧ ∃ got, (s.tlc t.lane).receiver.feedAll bytes = (.inFrame got, .nothing))) →
    ∃ u, exec c s = .next u ∧ (u.tlc t.lane).receiver = .hunting ∧
      (u.tlc t.lane).count = { (s.tlc t.lane).count with
        checkErrors := bump (s.tlc t.lane).count.checkErrors
        seeks := (u.tlc t.lane).count.seeks, halts := (u.tlc t.lane).count.halts } ∧
      (u.tlc t.lane).violation = (s.tlc t.lane).violation ∧
      (u.tlc t.lane).spindle = (s.tlc t.lane).spindle ∧ (u.tlc t.lane).disc = (s.tlc t.lane).disc ∧
      (s.AtRest → (s.updTlc t.lane fun x => { x with
        receiver := .hunting, count := { x.count with checkErrors := bump x.count.checkErrors } }).OnlyRecords u)

/-- The expiry of the TOC limit in TOC, of the seek timer in SEEKING and of the cadence timer in READING are bad events;
the timeout is counted when the transport does not fault, a stall always (R133, R135, R138, R141). -/
def Obligations.TimeoutsAreBadEvents : Prop :=
  ∀ (t : TransportId) (s : State), s.released = true →
    ((s.tlc t.lane).state = .toc → (s.tlc t.lane).timers.toc.isSome = true →
      ∃ u, exec (.tocLimitExpiry t) s = .next u ∧ s.BadEventTaken u t.lane ∧
        (s.bears t.lane = true → (u.tlc t.lane).count.tocTimeouts = bump (s.tlc t.lane).count.tocTimeouts)) ∧
    ((s.tlc t.lane).state = .seeking → (s.tlc t.lane).timers.seek.isSome = true →
      ∃ u, exec (.seekTimerExpiry t) s = .next u ∧ s.BadEventTaken u t.lane ∧
        (s.bears t.lane = true → (u.tlc t.lane).count.seekTimeouts = bump (s.tlc t.lane).count.seekTimeouts)) ∧
    ((s.tlc t.lane).state = .reading → (s.tlc t.lane).timers.cadence.isSome = true →
      ∃ u, exec (.stall t) s = .next u ∧ s.BadEventTaken u t.lane ∧
        (u.tlc t.lane).count.stalls = bump (s.tlc t.lane).count.stalls)

/-- The expiry of the startup window in STARTING: OFFLINE, the offline counter raised by 1, TRANSPORT_DOWN set. The
expiry of the spindle stop limit answers FAILED: a jam when the loader controller waits for it, with the fault mark
set. While a stage is in progress, where no stop is pending in any run, no jam is counted: that is the model's guard
(R129, R142, R143, R184, R187; log 47 for the guard). -/
def Obligations.StartupAndSpindleLimitsExpire : Prop :=
  ∀ (t : TransportId) (s : State), s.released = true →
    ((s.tlc t.lane).state = .starting → (s.tlc t.lane).timers.startup.isSome = true →
      ∃ u, exec (.startupWindowExpiry t) s = .next u ∧ (u.tlc t.lane).state = .offline ∧
        (u.tlc t.lane).count.offlines = bump (s.tlc t.lane).count.offlines ∧
        u.news .mech &&& transportDownBit = transportDownBit) ∧
    ((s.tlc t.lane).stopPending = true → (s.tlc t.lane).timers.spindleStop.isSome = true →
      ∃ u, exec (.spindleStopLimitExpiry t) s = .next u ∧
        (s.loader.state = .moving → s.loader.stage = none →
          u.loader.count.jams = bump s.loader.count.jams ∧ u.loader.faultMark = true) ∧
        (s.loader.state = .moving → s.loader.stage ≠ none →
          u.loader.count.jams = s.loader.count.jams ∧ u.loader.faultMark = s.loader.faultMark))

/-! ### Splice Unit and playout -/

/-- The end of a check with no other request waiting leaves the unit free. The result of a discarded check is handed to
no one: f and the counters stay. A check none of whose readings matches counts a NO_MATCH and is a bad event of the
lane's transport. Where requests wait as a discarded check ends, the unit takes lane A's, else lane B's, in the event:
with comparable readings it runs the check of them, with none it answers NO_ANCHOR, counted, and is free for the other
(R67, R68, R69, R71, R72, R74, R75). -/
def Obligations.CheckCompletes : Prop :=
  ∀ (c : RunningCheck) (s : State), s.released = true → s.splice.running = some c →
    ∃ t, exec .checkCompletion s = .next t ∧
      (s.splice.pendingA = none → s.splice.pendingB = none →
        (c.discarded = true → t.splice.running = none ∧ (t.lane c.lane).f = (s.lane c.lane).f ∧
          (s.lane c.lane).SameCounts (t.lane c.lane)) ∧
        (c.discarded = false → (∀ r ∈ c.readings, r.matched c.request = false) →
          t.splice.running = none ∧ (t.lane c.lane).f = (s.lane c.lane).f ∧
          (t.lane c.lane).count.noMatches = bump (s.lane c.lane).count.noMatches ∧ s.BadEventTaken t c.lane)) ∧
      ∀ l q, c.discarded = true → s.AtRest → s.splice.place l = some q → l = .a ∨ s.splice.pendingA = none →
        (∀ first rest, s.readings l q = first :: rest →
          t.splice = { s.splice.setPlace l none with
            running := some { lane := l, request := q, readings := first :: rest, reached := first.err,
                              discarded := false } } ∧
          (t.lane l).run = (s.lane l).run ∧ (t.lane l).f = (s.lane l).f ∧ (s.lane l).SameCounts (t.lane l)) ∧
        (s.readings l q = [] →
          (t.lane l).count.unanchored = bump (s.lane l).count.unanchored ∧
          (l = .b ∨ s.splice.pendingB = none → t.splice.running = none))

/-- A check that matches, with no other request waiting: the unit is free; the lane counts a label slip exactly when
the label error is not 0, and neither a NO_MATCH nor a NO_ANCHOR. Where the run is OPEN and no other block is held, the
event is that of the checked block arriving judged with that label error: the run MATCHED, the slip counted for the
lane and for the cue of the request's segment (R48, R69, R70). -/
def Obligations.CheckMatches : Prop :=
  ∀ (c : RunningCheck) (r : Reading) (s : State), s.released = true → s.splice.running = some c →
    s.splice.pendingA = none → s.splice.pendingB = none → c.discarded = false →
    c.readings.find? (fun q => q.matched c.request) = some r →
    ∃ t, exec .checkCompletion s = .next t ∧ t.splice.running = none ∧
      (t.lane c.lane).count.slips =
        (if r.err = 0 then (s.lane c.lane).count.slips else bump (s.lane c.lane).count.slips) ∧
      (t.lane c.lane).count.noMatches = (s.lane c.lane).count.noMatches ∧
      (t.lane c.lane).count.unanchored = (s.lane c.lane).count.unanchored ∧
      (∀ k : TransportId, k.lane = c.lane → (s.tlc c.lane).state = .reading →
        (s.tlc c.lane).timers.cadence = some s.applied.cadenceLimit →
        blockOk c.request.block.marks c.request.block.pairs = true →
        (s.lane c.lane).run.state = .opened → (s.lane c.lane).run.held = [] →
        exec .checkCompletion s = exec (.block k c.request.block.label c.request.block.marks c.request.block.pairs)
          { (s.updLane c.lane fun x =>
              let x := if r.err = 0 then x
                else x.updCue c.request.seg.base fun n => { n with slips := bump n.slips }
              { x with
                count := { x.count with slips := if r.err = 0 then x.count.slips else bump x.count.slips }
                run := { x.run with err := r.err, check := .matched, heldBefore := 0 } }) with
            splice := { s.splice with running := none } })

/-- A frame of the audio port sends the next pair of the block in play while the lane is PLAYING or the unit falls:
silent for a silent block and in a muted run, else the stored pair or, in a short run, the pair interpolated between
the run's neighbours, scaled by the level of this pair. That level is the unit's, but in a shortened fall from g over r
pairs the j-th pair has g × (r − j) ÷ r. A rise then steps up to FULL at 128, a fall steps down to SILENT at 0, a
planned fall begins with pair 460 of a sounding block. In PLAYING with the block at its end, between its last frame and
the advance, a frame changes nothing and what was sent last stands, the model's choice (log 13); in any other case a
silent pair is sent and the block waits. Nothing but the playout unit changes but the outputs of the event before
(R103, R108 to R113; log 17 for the interpolation, log 27). -/
def Obligations.AudioFrameSent : Prop :=
  ∀ (l : LaneId) (s : State) (u : Playout), s.released = true → u = (s.lane l).plu →
    (∀ (q : Pair) (k : Nat), scalePair q k = if k = 128 then q else {
      left := BitVec.ofInt 16 ((q.left.toInt * (k : Int)).tdiv 128)
      right := BitVec.ofInt 16 ((q.right.toInt * (k : Int)).tdiv 128) }) ∧
    ∃ (t : State) (v : Playout), exec (.audioPortFrame l) s = .next t ∧ v = (t.lane l).plu ∧
      t = s.clearOutputs.setLane l { s.lane l with plu := v } ∧
      (u.block = none → v = { u with out := .silent }) ∧
      (∀ b, u.block = some b → (s.lane l).seq.state ≠ .playing → u.gain ≠ .falling ∨ 588 ≤ b.next →
        v = { u with out := .silent }) ∧
      (∀ b, u.block = some b → (s.lane l).seq.state = .playing → 588 ≤ b.next → v = u) ∧
      (∀ b level, u.block = some b → b.next < 588 → (s.lane l).seq.state = .playing ∨ u.gain = .falling →
        level = (match u.gain, u.fall with
          | .falling, .short g r j => g * (r - (j + 1)) / r
          | _, _ => u.level) →
        v.block = some { b with next := b.next + 1 } ∧
        (b.form ≠ .copy → v.out = .silent) ∧
        (b.form = .copy → runAt b.plan b.next = none → v.out = scalePair (pairAt b.pairs b.next) level) ∧
        (∀ q, b.form = .copy → runAt b.plan b.next = some q → q.how = .mute → v.out = .silent) ∧
        (∀ q x y, b.form = .copy → runAt b.plan b.next = some q → q.how = .interpolate x y →
          v.out = scalePair (interpolatePair x y (b.next - q.first + 1) (q.length + 1)) level) ∧
        (b.plannedFall = true → b.next = 460 → u.gain = .full ∨ u.gain = .rising →
          if u.level ≤ 1 then v.gain = .silent ∧ v.level = 0
          else v.gain = .falling ∧ v.fall = .step ∧ v.level = u.level - 1) ∧
        (¬(b.plannedFall = true ∧ b.next = 460) →
          (u.gain = .full → v.gain = .full ∧ v.level = u.level) ∧
          (u.gain = .rising → u.level < 127 → v.gain = .rising ∧ v.level = u.level + 1) ∧
          (u.gain = .rising → 127 ≤ u.level → v.gain = .full ∧ v.level = 128)) ∧
        (u.gain = .silent → v.gain = .silent ∧ v.level = u.level) ∧
        (u.gain = .falling → u.fall = .step →
          if u.level ≤ 1 then v.gain = .silent ∧ v.level = 0
          else v.gain = .falling ∧ v.fall = .step ∧ v.level = u.level - 1) ∧
        (∀ g r j, u.gain = .falling → u.fall = .short g r j →
          if r ≤ j + 1 then v.gain = .silent ∧ v.level = 0
          else v.gain = .falling ∧ v.fall = .short g r (j + 1) ∧ v.level = g * (r - (j + 1)) / r))

/-- A playout advance: the status record refreshed and written whole with the lane as the event leaves it, f where it
was, p moved up by 1 (but where the play-out cut of a marked lane follows). Where p then lies before f and the hold
point is not there, the block of p is in play from its first pair, and the lane stays PLAYING (R29, R105, R171). -/
def Obligations.PlayoutAdvances : Prop :=
  ∀ (l : LaneId) (b : PlayBlock) (s : State), s.released = true → (s.lane l).plu.block = some b → b.next = 588 →
    (s.lane l).seq.state = .playing → b.position = (s.lane l).p → (s.lane l).p ≠ (s.lane l).f →
    ∃ t, exec (.playoutAdvance l) s = .next t ∧ (t.lane l).f = (s.lane l).f ∧
      (t.lane l).seq.refresh = (s.lane l).seq.refresh + 1 ∧
      t.HoldsWords (statusOffset l) (t.lane l).statusWords ∧
      ((s.lane l).seq.mark = none → (t.lane l).p = (s.lane l).p + 1) ∧
      ((s.lane l).Settled → (s.lane l).p + 1 ≠ (s.lane l).f → (s.lane l).plu.holdPoint ≠ some ((s.lane l).p + 1) →
        (t.lane l).seq.state = .playing ∧
        ∃ b', (t.lane l).plu.block = some b' ∧ b'.position = (s.lane l).p + 1 ∧ b'.next = 0)

/-- A block at its end with no advance to take. In STOPPING it is dropped and the lane becomes IDLE; in PAUSED it is kept,
which changes nothing of the lane's playout (log 14); in IDLE, HELD and STARVED it is dropped. In PLAYING, where a SKIP has set
p and the block is another position's, it is dropped and p is started: where p is not f, p is in play from its first pair, a
COPY block RISING from level 0; where p is f, and not the end of the stream, the lane is in UNDERRUN with the cause its
transport's state gives, no block in play and its loss episode ended. And a fall that ends in STOPPING drops the block and
leaves the lane IDLE (R105, R106, R113, R115, R165). -/
def Obligations.BlockAndFallEnd : Prop :=
  ∀ (l : LaneId) (b : PlayBlock) (s : State), s.released = true → (s.lane l).plu.block = some b →
    (s.lane l).Settled →
    (b.next = 588 → (s.lane l).seq.state = .stopping →
      ∃ t, exec (.blockEndNotPlaying l) s = .next t ∧ (t.lane l).seq.state = .idle ∧ (t.lane l).plu.block = none ∧
        (t.lane l).plu.gain = .silent ∧ (t.lane l).p = (s.lane l).p ∧ (t.lane l).f = (s.lane l).f) ∧
    (b.next = 588 → (s.lane l).seq.state = .paused →
      ∃ t, exec (.blockEndNotPlaying l) s = .next t ∧ (t.lane l).seq.state = .paused ∧
        (t.lane l).plu = (s.lane l).plu ∧ (t.lane l).p = (s.lane l).p ∧ (t.lane l).f = (s.lane l).f) ∧
    (b.next = 588 → (s.lane l).seq.state = .idle ∨ (s.lane l).seq.state = .held ∨ (s.lane l).seq.state = .starved →
      ∃ t, exec (.blockEndNotPlaying l) s = .next t ∧ (t.lane l).seq.state = (s.lane l).seq.state ∧
        (t.lane l).plu.block = none ∧ (t.lane l).plu.gain = .silent ∧ (t.lane l).plu.level = 0 ∧
        (t.lane l).p = (s.lane l).p ∧ (t.lane l).f = (s.lane l).f) ∧
    (b.next = 588 → (s.lane l).seq.state = .playing → b.position ≠ (s.lane l).p →
      ∃ t, exec (.blockEndNotPlaying l) s = .next t ∧ (t.lane l).f = (s.lane l).f ∧
        ((s.lane l).p ≠ (s.lane l).f →
          (t.lane l).seq.state = .playing ∧ (t.lane l).p = (s.lane l).p ∧ (t.lane l).plu.cause = none ∧
          ∃ b', (t.lane l).plu.block = some b' ∧ b'.position = (s.lane l).p ∧ b'.next = 0 ∧
            (t.lane l).plu.level = 0 ∧ (t.lane l).plu.gain = if b'.form = .copy then .rising else .silent) ∧
        ((s.lane l).p = (s.lane l).f → s.Inv → s.share l ≠ 0 →
          (∀ g, (s.lane l).lastSegment = some g → (s.lane l).f ≠ g.ref.endIndex) →
          (t.lane l).seq.state = .underrun ∧ (t.lane l).p = (s.lane l).p ∧ (t.lane l).plu.block = none ∧
          (t.lane l).plu.gain = .silent ∧ (t.lane l).plu.level = 0 ∧ (t.lane l).plu.episode = none ∧
          (t.lane l).plu.cause = some (if (s.tlc l).state = .offline ∨ (s.tlc l).state = .starting then .transport
            else if (s.tlc l).state = .mechHeld then .mechanism else .read))) ∧
    ((s.lane l).seq.state = .stopping → (s.lane l).plu.gain = .silent →
      ∃ t, exec (.fallEnd l) s = .next t ∧ (t.lane l).seq.state = .idle ∧ (t.lane l).plu.block = none ∧
        (t.lane l).p = (s.lane l).p ∧ (t.lane l).f = (s.lane l).f)

/-! ### Repair scheduler -/

/-- The work decision as the settle time's end releases quiet on a lane that rests for it with a READY transport. Where
the lead lets a repair start, the earliest span that may be repaired is activated: REPAIR, the target its extent and
segment, the attempt its attempts plus 1, at ReadSpeed for the first and 1× after it, steady for the third, with a SEEK
for it. With no such span or not enough lead the fill decision follows: REST with its reason and nothing sent, or FILL
with a SEEK to f. It is stated where no request waits, no mark of an event is left and no lane waits, primes or is in
UNDERRUN (R64, R65, R81 to R84, R89, R90, R91, R96; marks, log 8). -/
def Obligations.WorkDecided : Prop :=
  ∀ (l : LaneId) (s : State), s.released = true → s.loader.settleTimer.isSome = true → s.loader.queue = [] →
    s.loader.state = .faulted ∨ (s.loader.state = .settling ∧ s.loader.toRecovery = false) →
    (∀ m, (s.lane m).Settled ∧ (s.lane m).seq.state ≠ .priming ∧ (s.lane m).seq.state ≠ .underrun) →
    s.Inv → s.Unmarked → s.RestsForQuiet l →
    ∃ t, exec .settleTimerExpiry s = .next t ∧ (t.lane l).rsc.quiet = false ∧
      (∀ (y : Span) (r : RepairPart) (speed : Speed), (s.lane l).MayStart (s.settings l) → y ∈ (s.lane l).spans →
        (s.lane l).MayRepair (s.settings l).repairMargin y → y.repair = some r →
        (∀ z ∈ (s.lane l).spans, (s.lane l).MayRepair (s.settings l).repairMargin z →
          ahead y.first (s.lane l).p ≤ ahead z.first (s.lane l).p) →
        speed = (if r.attempts = 0 then speedOf (s.settings l).readSpeed else .x1) →
        (t.lane l).rsc.mode = .repair ∧ (t.lane l).rsc.rest = none ∧
        (t.lane l).rsc.target = some { first := y.first, last := plus y.first (y.count - 1), seg := y.seg } ∧
        (t.lane l).rsc.attempt =
          some { number := r.attempts + 1, speed := speed, steady := decide (2 ≤ r.attempts) } ∧
        (t.lane l).activeSpan = some { y with repair := some { r with active := true } } ∧ (t.lane l).madeGood = 0 ∧
        s.SeekSent t l .repair y.seg y.first speed (decide (2 ≤ r.attempts))) ∧
      (¬(s.lane l).MayStart (s.settings l) ∨
          (∀ y ∈ (s.lane l).spans, ¬(s.lane l).MayRepair (s.settings l).repairMargin y) →
        s.FillDecided t l ∧ (t.lane l).spans = (s.lane l).spans)

/-- A mechanism stop aborts an attempt in flight: REST(MECHANISM), with no target and no attempt; every span with a
repair part that the target reaches has one abort more, up to 255, none is active, and the map stays otherwise;
attempts, the repaired positions, quiet, the map-full hold and refill wait stay. It is stated for a lane that waits for
nothing and neither primes nor is in UNDERRUN, no mark of an event being left (R36, R79, R96; marks, log 8). -/
def Obligations.MechanismStopAbortsAttempt : Prop :=
  ∀ (flap power : Bool) (l : LaneId) (g : RepairTarget) (s : State), s.released = true →
    s.loader.mechStopped = false → (flap && power) = false → s.Inv → s.Unmarked → (s.lane l).Settled →
    (s.lane l).seq.state ≠ .priming → (s.lane l).seq.state ≠ .underrun → s.share l ≠ 0 →
    (s.lane l).seq.reading = true → (s.tlc l).state.usable = true → (s.lane l).rsc.mode = .repair →
    (s.lane l).rsc.target = some g → (s.lane l).activeSpan ≠ none →
    ∃ t, exec (.mechanismStop flap power) s = .next t ∧
      (t.lane l).rsc = { (s.lane l).rsc with mode := .rest, rest := some .mechanism, target := none, attempt := none } ∧
      (t.lane l).run.inProgress = false ∧ (t.lane l).p = (s.lane l).p ∧ (t.lane l).f = (s.lane l).f ∧
      (t.lane l).count.repaired = (s.lane l).count.repaired ∧
      (t.lane l).spans = (s.lane l).spans.map fun y => { y with repair := y.repair.map fun r => { r with
        active := false
        aborts := if (List.range y.count).any (fun k => g.contains (plus y.first k)) then min 255 (r.aborts + 1)
          else r.aborts } }

/-- The end of an attempt: a BLOCK of its REPAIR run at or behind the last position of the target and behind f; where
it fills a HOLE, before a position that is not WEAK, whose span could widen the target beyond it (R34). The positions
it has made GOOD are counted at the lane, this one among them; the map's other positions in the target that are still
HOLE or WEAK have one attempt more, or repair given up at MaxAttempts: LOST and SETTLED. Where then no span may be
repaired, the fill decision follows: REST with its reason, a HALT sent, or FILL with a SEEK to f. That other positions
keep their spans is stated but where the BLOCK fills a HOLE; the decision for a lane that neither primes nor is in
UNDERRUN, while the loader controller starts nothing (R33, R34, R35, R81 to R84, R92, R93, R94; the cue that counts
them is log 38). -/
def Obligations.AttemptEnds : Prop :=
  ∀ (t : TransportId) (label : BitVec 24) (marks : MarkReport) (pairs : List Pair) (g : SegRef) (i : Index)
    (w : RepairTarget) (s : State),
    WellFormed (.block t label marks pairs) = true → s.JudgesOnArrival t.lane → s.Inv → (s.lane t.lane).Settled →
    (s.lane t.lane).mapArrival label = some (g, i) → before i (s.lane t.lane).p = false →
    before i (s.lane t.lane).f = true → (s.lane t.lane).run.kind = .repair → (s.lane t.lane).rsc.mode = .repair →
    (s.lane t.lane).rsc.target = some w → before i w.last = false →
    (s.lane t.lane).conditionAt i ≠ some .hole ∨ (s.lane t.lane).conditionAt (i + 1) ≠ some .weak →
    ∃ u, exec (.block t label marks pairs) s = .next u ∧
      (u.lane t.lane).count.repaired = min 65535 ((s.lane t.lane).count.repaired + ((s.lane t.lane).madeGood +
        (if w.contains i = true ∧ (s.lane t.lane).conditionAt i ≠ some .good ∧
          (u.lane t.lane).conditionAt i = some .good then 1 else 0))) ∧
      (∀ j y r, j ≠ i → w.contains j = true → (s.lane t.lane).spanAt j = some y → y.repair = some r →
        marks = .overmarked ∨ (s.lane t.lane).conditionAt i ≠ some .hole →
        ((s.settings t.lane).maxAttempts ≤ r.attempts + 1 → (u.lane t.lane).conditionAt j =
          some (if y.cond = .hole then .lost else .settled)) ∧
        (r.attempts + 1 < (s.settings t.lane).maxAttempts → ∃ z q, (u.lane t.lane).spanAt j = some z ∧
          z.cond = y.cond ∧ z.repair = some q ∧ q.attempts = r.attempts + 1 ∧ (s.LoaderBusy → q.aborts = r.aborts))) ∧
      ((∀ y ∈ (u.lane t.lane).spans, ¬(u.lane t.lane).MayRepair (s.settings t.lane).repairMargin y) →
        (s.lane t.lane).seq.reading = true → (s.lane t.lane).rsc.quiet = false → s.share t.lane ≠ 0 →
        (s.lane t.lane).seq.state ≠ .priming → (s.lane t.lane).seq.state ≠ .underrun → s.LoaderBusy →
        s.FillDecided u t.lane ∧ (u.lane t.lane).rsc.target = none ∧ (u.lane t.lane).activeSpan = none ∧
        ∀ r, (s.lane t.lane).restReason (s.share t.lane) (s.settings t.lane).refillGap = some r →
          (u.tlc t.lane).sent = [.halt])

/-! ### Loader -/

/-- The expiry of a wait timer marks its request due, in its place; while the loader controller starts none, the queue
keeps its order. The expiry of the move limit is a jam: counted, the fault mark set, the locations the stage acts on
UNKNOWN and no other (R177, R181, R187). -/
def Obligations.WaitTimerAndMoveLimitExpire : Prop :=
  (∀ (place : Nat) (w : Waiting) (s : State), s.released = true → s.loader.queue[place]? = some w →
    w.timer.isSome = true →
    ∃ t, exec (.waitTimerExpiry place) s = .next t ∧
      (s.LoaderBusy → t.loader.queue[place]? = some { w with timer := none, due := true } ∧
        ∀ k, k ≠ place → k < s.loader.queue.length → t.loader.queue[k]? = s.loader.queue[k]?)) ∧
  (∀ s : State, s.released = true → s.loader.moveLimit.isSome = true →
    ∃ t, exec .moveLimitExpiry s = .next t ∧ t.loader.count.jams = bump s.loader.count.jams ∧
      t.loader.faultMark = true ∧ t.loader.settleTimer = some 300 ∧
      (∀ n ∈ s.loader.stageLocations, t.slot n = .unknown) ∧ s.SameSlotsBut t s.loader.stageLocations)

/-- The end of a TAKE. With a disc taken, the disc is in the arm with its table and the home slot it carries, its
source is empty, and the CARRY to the leg's destination begins under the same move limit. With none, the source is
empty, and the request ends: the loader settles. The end of a CARRY begins the PLACE at the same destination; the end
of a PLACE puts the arm's disc there with its table and the home slot it has there, empties the arm and counts a move
(R173, R174, R185, R186). -/
def Obligations.StagesOfALegEnd : Prop :=
  (∀ (taken : Bool) (c : Current) (g : Leg) (rest : List Leg) (s : State), s.released = true →
    s.loader.state = .moving → s.loader.stage = some .take → s.loader.current = some c → c.legs = g :: rest →
    g.source ≠ armLoc →
    ∃ t, exec (.stageEndTake taken) s = .next t ∧
      (taken = true →
        t.slot armLoc = { occupancy := .yes, toc := (s.slot g.source).toc, home := s.carriedHome g.source } ∧
        t.slot g.source = .absent ∧ s.SameSlotsBut t [armLoc, g.source] ∧ t.loader.state = .moving ∧
        t.loader.stage = some .carry ∧ t.loader.commands = [.carry g.dest] ∧
        t.loader.moveLimit = s.loader.moveLimit) ∧
      (taken = false → t.slot g.source = .absent ∧ s.SameSlotsBut t [g.source] ∧ t.loader.state = .settling ∧
        t.loader.stage = none ∧ t.loader.moveLimit = none ∧ t.loader.settleTimer = some 300)) ∧
  ∀ (n : Loc) (s : State), s.released = true → s.loader.destination = some n →
    (s.LoaderBusy → s.loader.stage = some .carry →
      ∃ t, exec .stageEndCarry s = .next t ∧ t.loader.stage = some .place ∧ t.loader.commands = [.place n] ∧
        t.loader.moveLimit = s.loader.moveLimit ∧ t.loader.current = s.loader.current ∧ s.SameSlotsBut t []) ∧
    (n ≠ armLoc → s.loader.stage = some .place →
      ∃ t, exec .stageEndPlace s = .next t ∧
        t.slot n = { occupancy := .yes, toc := (s.slot armLoc).toc, home := s.placedHome n } ∧
        t.slot armLoc = .absent ∧ s.SameSlotsBut t [n, armLoc] ∧ t.loader.count.moves = bump s.loader.count.moves)

/-- The end of a SENSE: the location's entry becomes what R191's table gives, FRONT without TOC facts; then the next
location is sensed under a new move limit (R191). -/
def Obligations.SenseEnds : Prop :=
  ∀ (present : Bool) (h : Homing) (s : State), s.released = true → s.loader.homing = some h →
    s.loader.stage = some .sense →
    ∃ t, exec (.stageEndSense present) s = .next t ∧ s.SameSlotsBut t [h.sensing] ∧
      (t.slot h.sensing).occupancy = (if present then .yes else .no) ∧
      (h.sensing ≠ frontLoc → (s.slot h.sensing).occupancy = (if present then .yes else .no) →
        t.slot h.sensing = s.slot h.sensing) ∧
      (h.sensing ≠ frontLoc → present = true → (s.slot h.sensing).occupancy ≠ .yes →
        t.slot h.sensing = { occupancy := .yes, toc := none, home := slotNumber h.sensing }) ∧
      (present = false → (s.slot h.sensing).occupancy ≠ .no → t.slot h.sensing = .absent) ∧
      (h.sensing = frontLoc → (t.slot h.sensing).toc = none) ∧
      (h.sensing.val < 9 → s.loader.state = .homing →
        t.loader.homing = some { h with sensing := locOf (h.sensing.val + 1) } ∧ t.loader.stage = some .sense ∧
        t.loader.commands = [.sense (locOf (h.sensing.val + 1))] ∧ t.loader.moveLimit = some 6000)

/-- The end of a homing. After the SENSE of the last location a disc in the arm is put away, by a CARRY under a new
move limit, to its home slot when that is free, else to the first free slot, else to FRONT when nothing was sensed
there; with no such place the homing ends NO_ROOM, with no disc in the arm DONE. The PLACE of a put-away puts the disc
there, counts a move and ends the homing DONE (R173, R192). -/
def Obligations.HomingEnds : Prop :=
  (∀ (present : Bool) (h : Homing) (s : State), s.released = true → s.loader.state = .homing →
    s.loader.homing = some h → h.sensing = frontLoc → s.loader.stage = some .sense →
    ∃ t, exec (.stageEndSense present) s = .next t ∧
      ((s.slot armLoc).occupancy ≠ .yes → s.HomingOver t h.kind .done) ∧
      ((s.slot armLoc).occupancy = .yes → s.returnSlot (s.slot armLoc).home = none → present = true →
        s.HomingOver t h.kind .noRoom) ∧
      (∀ n, (s.slot armLoc).occupancy = .yes →
        s.returnSlot (s.slot armLoc).home = some n ∨
          (s.returnSlot (s.slot armLoc).home = none ∧ present = false ∧ n = frontLoc) →
        t.loader.homing = some { h with putAway := some n } ∧ t.loader.state = .homing ∧
          t.loader.stage = some .carry ∧ t.loader.commands = [.carry n] ∧ t.loader.moveLimit = some 6000 ∧
          t.loader.count.homings = s.loader.count.homings)) ∧
  (∀ (n : Loc) (h : Homing) (s : State), s.released = true → s.loader.homing = some h → h.putAway = some n →
    n ≠ armLoc → s.loader.stage = some .place →
    ∃ t, exec .stageEndPlace s = .next t ∧
      t.slot n = { occupancy := .yes, toc := (s.slot armLoc).toc, home := s.placedHome n } ∧
      t.slot armLoc = .absent ∧ s.SameSlotsBut t [n, armLoc] ∧ t.loader.count.moves = bump s.loader.count.moves ∧
      s.HomingOver t h.kind .done) ∧
  ∀ (k : Nat) (s : State), 1 ≤ k → k ≤ 6 →
    ((s.slot (slotLoc k)).occupancy = .no → s.returnSlot (some k) = some (slotLoc k)) ∧
    ((s.slot (slotLoc k)).occupancy ≠ .no → s.returnSlot (some k) = s.returnSlot none) ∧
    (∀ n, s.returnSlot none = some n → (s.slot n).occupancy = .no ∧ n.val < 6 ∧
      ∀ m : Loc, m.val < n.val → (s.slot m).occupancy ≠ .no) ∧
    (s.returnSlot none = none → (s.slot (slotLoc k)).occupancy ≠ .no)

/-- The settle timer and the recovery timer, once expired, run no more; the slot table and the fault mark stay. With no
request waiting, no mark of an event left and sequencers that wait for nothing, the settle timer's expiry releases quiet on both lanes and takes
SETTLING to IDLE with no current request, or after a homing at the mechanism's return to RECOVERING under the recovery
limit, which ends at once where no transport starts or reads its table; FAULTED stays. RECOVERING ends in FAULTED with
the fault mark set, else in IDLE (R183, R186, R192, R193; marks, log 8). -/
def Obligations.SettleAndRecoveryEnd : Prop :=
  ∀ (s : State) (ended : LoaderState), s.released = true →
    ended = (if s.loader.faultMark then .faulted else .idle) →
    (s.loader.settleTimer.isSome = true →
      ∃ t, exec .settleTimerExpiry s = .next t ∧ t.loader.settleTimer = none ∧ s.SameSlotsBut t [] ∧
        t.loader.faultMark = s.loader.faultMark ∧
        (s.loader.queue = [] → s.Unmarked → (∀ l, (s.lane l).Settled ∧ (s.lane l).seq.state ≠ .priming ∧
            (s.lane l).seq.state ≠ .underrun) →
          (∀ l, (t.lane l).rsc.quiet = false) ∧
          (s.loader.state = .settling → s.loader.toRecovery = false →
            t.loader.state = .idle ∧ t.loader.current = none) ∧
          (s.loader.state = .settling → s.loader.toRecovery = true →
            (∃ l, (s.tlc l).state = .starting ∨ (s.tlc l).state = .toc) →
            t.loader.state = .recovering ∧ t.loader.recoveryTimer = some s.applied.loaderWaitLimit) ∧
          (s.loader.state = .settling → s.loader.toRecovery = true →
            (∀ l, (s.tlc l).state ≠ .starting ∧ (s.tlc l).state ≠ .toc) →
            t.loader.state = ended ∧ t.loader.recoveryTimer = none) ∧
          (s.loader.state = .faulted → t.loader.state = .faulted))) ∧
    (s.loader.recoveryTimer.isSome = true →
      ∃ t, exec .recoveryTimerExpiry s = .next t ∧ t.loader.recoveryTimer = none ∧ s.SameSlotsBut t [] ∧
        t.loader.faultMark = s.loader.faultMark ∧
        (s.loader.queue = [] → s.Unmarked → (∀ l, (s.lane l).Settled ∧ (s.lane l).seq.state ≠ .priming ∧
          (s.lane l).seq.state ≠ .underrun) → t.loader.state = ended))

/-- A mechanism stop: the lines have their new values, the loader is STOPPED with no request, stage, homing or timer,
each transport link controller is MECH_HELD, or stays OFFLINE, and keeps the stop in mind; MECH_STOPPED is set, and the
waiting requests keep their places (R145, R189). -/
def Obligations.MechanismStops : Prop :=
  ∀ (flap power : Bool) (s : State), s.released = true → s.loader.mechStopped = false → (flap && power) = false →
    ∃ t, exec (.mechanismStop flap power) s = .next t ∧
      t.pins = { s.pins with flapClosed := flap, supplyGood := power } ∧ t.loader.state = .stopped ∧
      t.loader.mechStopped = true ∧ t.loader.current = none ∧ t.loader.stage = none ∧ t.loader.homing = none ∧
      t.loader.moveLimit = none ∧ t.loader.settleTimer = none ∧ t.loader.recoveryTimer = none ∧
      t.news .mech &&& mechStoppedBit = mechStoppedBit ∧ s.loader.queue <+: t.loader.queue ∧
      ∀ l, (t.tlc l).mechStopped = true ∧
        (t.tlc l).state = if (s.tlc l).state = .offline then .offline else .mechHeld

/-- The mechanism's return: both lines good, the loader homes from the first location with quiet begun on both lanes,
the transports still held. A change of one line while the mechanism stays stopped leaves it stopped, and where nothing
waits changes nothing but the lines and the loader record that shows them, the rest of XM included; before the release
of reset it changes the lines alone (R183, R189, R190; before the release that is log 3; the outputs of the event
before are gone, log 27). -/
def Obligations.MechanismReturns : Prop :=
  ∀ s : State,
    (s.released = true → s.loader.mechStopped = true →
      ∃ t, exec .mechanismReturn s = .next t ∧ t.linesGood = true ∧ t.loader.mechStopped = false ∧
        t.loader.state = .homing ∧ t.loader.homing = some { kind := .atReturn, sensing := 0, putAway := none } ∧
        t.loader.stage = some .sense ∧ t.loader.commands = [.sense 0] ∧ t.loader.moveLimit = some 6000 ∧
        t.loader.faultMark = s.loader.faultMark ∧ (∀ l, (t.lane l).rsc.quiet = true) ∧
        ∀ l, (s.tlc l).state = .mechHeld → (t.tlc l).state = .mechHeld) ∧
    (∀ flap power, s.released = true → s.loader.mechStopped = true → (flap && power) = false →
      ∃ t, exec (.mechanismLineChange flap power) s = .next t ∧
        t.pins = { s.pins with flapClosed := flap, supplyGood := power } ∧ t.loader.mechStopped = true ∧
        s.SameSlotsBut t [] ∧ (s.LoaderBusy → t.loader.state = s.loader.state) ∧
        (s.AtRest → State.OnlyRecords
          { s with pins := { s.pins with flapClosed := flap, supplyGood := power } } t)) ∧
    (∀ flap power, s.released = false → exec (.mechanismLineChange flap power) s =
      .next { s with pins := { s.pins with flapClosed := flap, supplyGood := power } })

/-! ### Formats, marks, cells and the map -/

/-- The bytes of every well-formed up-frame are read back as that frame, check byte included (R123, R124, R210). -/
def Obligations.UpFramesReadBack : Prop :=
  ∀ u : UpFrame,
    (match u with
     | .block _ marks pairs => blockOk marks pairs = true
     | .seekDone _ => True
     | .seekFail _ => True
     | .status _ _ => True
     | .tocEntry _ _ => True
     | .tocEnd _ _ => True) → parseFrame u.bytes = some u

/-- The mark set of a run list holds a pair position exactly when a run of the list covers it; positions above 587 and
runs of length 0 add nothing; OVERMARKED has no mark set (R2). -/
def Obligations.MarkSetOfRunList : Prop :=
  (∀ (runs : List (BitVec 10 × BitVec 10)) (k : Nat), k < 588 →
    ((marksOfRuns runs).getLsbD k = true ↔ ∃ r ∈ runs, r.1.toNat ≤ k ∧ k < r.1.toNat + r.2.toNat)) ∧
  (∀ runs, MarkReport.marks (.runs runs) = some (marksOfRuns runs)) ∧ marksOfRuns [] = 0 ∧
  MarkReport.marks .overmarked = none

/-- A copy written first to a position is what a read of it returns, in the cell of the position's number, with no other
cell changed; a cell whose tag or check word does not agree answers STORE_FAULT, a free cell or one of another position
UNASSIGNED; and a merge takes the arriving pair exactly where only the stored copy is marked (R9, R10, R13, R55). -/
def Obligations.CellsReadBackAndMerge : Prop :=
  (∀ (l : LaneId) (i : Index) (address : Nat) (marks : MarkSet) (pairs : List Pair) (s : State),
    ∃ c, (s.firstWrite l i address marks pairs).readCell l i (some address) = .copy c ∧ c.marks = marks ∧
      c.pairs = pairs ∧ c.number = s.cellNumber l i ∧ c.position = i ∧
      ∀ n, n ≠ c.number → findCell (s.firstWrite l i address marks pairs).store n = findCell s.store n) ∧
  (∀ (l : LaneId) (i : Index) (address : Nat) (c : StoreCell) (s : State),
    findCell s.store (s.cellNumber l i) = some c →
    (c.position ≠ i → s.readCell l i (some address) = .unassigned) ∧
    (c.position = i → (c.tagIndex ≠ i ∨ c.tagAddress ≠ address ∨
      c.check ≠ cellCheck c.tagIndex c.tagAddress c.marks c.pairs) → s.readCell l i (some address) = .storeFault)) ∧
  (∀ (l : LaneId) (i : Index) (address : Nat) (s : State), findCell s.store (s.cellNumber l i) = none →
    s.readCell l i (some address) = .unassigned) ∧
  (∀ (stored arriving : List Pair) (m n : MarkSet) (k : Nat), k < 588 →
    pairAt (mergePairs stored arriving m n) k =
      if m.getLsbD k = true ∧ n.getLsbD k = false then pairAt arriving k else pairAt stored k)

/-- The advance claim, made when p is not f, moves p up by 1 and takes the applied Guard, f as it was, and after its guard
conversion no HOLE or WEAK span begins within guard. In a map in form, each position after the old p keeps its segment, and
its condition and repair part but where it is converted: a HOLE position within guard becomes LOST and a WEAK one SETTLED, its
repair part dropped; a HOLE or WEAK position from the guard boundary on keeps both, unless its span reaches within guard and
the cut of such a span would leave more than 32 spans: then that span is converted whole. All other positions keep theirs
(R29, R30, R31). -/
def Obligations.AdvanceConvertsGuard : Prop :=
  ∀ (x : Lane) (guard : Nat), guard < 2 ^ 32 → x.p ≠ x.f →
    (x.advanceMap guard).p = x.p + 1 ∧ (x.advanceMap guard).f = x.f ∧ (x.advanceMap guard).guard = guard ∧
      (∀ y ∈ (x.advanceMap guard).spans, y.cond = .hole ∨ y.cond = .weak → guard ≤ ahead y.first (x.p + 1)) ∧
      ∀ (n : Nat) (cut : List Span) (s : Index) (y : Span), MapFormed x.p x.f x.spans n →
        cut = normalize ((dropPositions 1 x.spans).flatMap fun z => guardCut guard (ahead z.first (x.p + 1)) z) →
        x.spanAt s = some y → s ≠ x.p →
        ∃ z, (x.advanceMap guard).spanAt s = some z ∧ z.seg = y.seg ∧
          (z.cond, z.repair) =
            if ahead s x.p - 1 < guard ∨ (ahead y.first x.p - 1 < guard ∧ 32 < cut.length) then
              match y.cond with
              | .hole => (.lost, none)
              | .weak => (.settled, none)
              | .good | .settled | .lost => (y.cond, y.repair)
            else (y.cond, y.repair)
end

