-- ==== Sys2Proof/Laws/Form.lean ====
section
/-! SUPPORT. The form of R18: span lists that cover [p, f), and what restoring the form, changing one position and moving
on do to them. -/

namespace Sys2Proof.Machine

set_option Elab.async false

/-! ### Indices -/

theorem plus_zero (a : Index) : plus a 0 = a := by simp [plus]

theorem plus_plus (a : Index) (m n : Nat) : plus (plus a m) n = plus a (m + n) := by
  simp only [plus, BitVec.ofNat_add, BitVec.add_assoc]

theorem ahead_self (a : Index) : ahead a a = 0 := by simp [ahead]

theorem plus_ahead (a b : Index) : plus b (ahead a b) = a := by
  simp only [plus, ahead, BitVec.ofNat_toNat, BitVec.setWidth_eq]
  rw [BitVec.add_comm, BitVec.sub_add_cancel]

theorem ahead_plus_left (f p : Index) (k : Nat) (h : ahead f p + k < 2 ^ 32) : ahead (plus f k) p = ahead f p + k := by
  have : plus f k - p = (f - p) + BitVec.ofNat 32 k := by
    simp only [plus, BitVec.sub_eq_add_neg, BitVec.add_assoc, BitVec.add_comm (BitVec.ofNat 32 k)]
  unfold ahead at *
  rw [this, BitVec.toNat_add, BitVec.toNat_ofNat]
  omega

theorem ahead_plus_right (f p : Index) (k : Nat) (h : k ≤ ahead f p) : ahead f (plus p k) = ahead f p - k := by
  have hk : k < 2 ^ 32 := by
    have : ahead f p < 2 ^ 32 := (f - p).isLt
    omega
  have : f - plus p k = (f - p) - BitVec.ofNat 32 k := by
    simp only [plus, BitVec.sub_eq_add_neg, BitVec.neg_add, BitVec.add_assoc]
  have hl : (f - p).toNat < 2 ^ 32 := (f - p).isLt
  unfold ahead at *
  rw [this, BitVec.toNat_sub, BitVec.toNat_ofNat]
  omega

theorem ahead_plus (z p0 p : Index) (h : ahead p p0 + ahead z p < 2 ^ 32) : ahead z p0 = ahead p p0 + ahead z p := by
  have := ahead_plus_left p p0 (ahead z p) h
  rwa [plus_ahead] at this

theorem ahead_sub (z p0 p : Index) (h : ahead p p0 ≤ ahead z p0) : ahead z p = ahead z p0 - ahead p p0 := by
  have := ahead_plus_right z p0 (ahead p p0) h
  rwa [plus_ahead] at this

/-- Of two indices within a window of a base, the stream order is that of their distances from the base. -/
theorem before_iff (a b p : Index) (ha : ahead a p < 2 ^ 31) (hb : ahead b p < 2 ^ 31) :
    before a b = decide (ahead a p < ahead b p) := by
  have h : a - b = (a - p) - (b - p) := by
    simp only [BitVec.sub_eq_add_neg, BitVec.neg_add, BitVec.neg_neg]
    rw [BitVec.add_assoc, BitVec.add_comm (-b) p, ← BitVec.add_assoc (-p), BitVec.add_left_neg, BitVec.zero_add]
  unfold before
  unfold ahead at *
  rw [h, BitVec.msb_eq_decide, BitVec.toNat_sub]
  congr 1
  apply propext
  have h1 := (a - p).isLt
  have h2 := (b - p).isLt
  omega

theorem ahead_later (a b p : Index) (ha : ahead a p < 2 ^ 31) (hb : ahead b p < 2 ^ 31) :
    ahead (later a b) p = max (ahead a p) (ahead b p) := by
  unfold later
  rw [before_iff a b p ha hb]
  split <;> rename_i h <;> simp only [decide_eq_true_eq] at h <;> omega

/-! ### Covers -/

/-- The positions that the spans of a list have together. -/
def spanTotal (l : List Span) : Nat := (l.map Span.count).sum

/-- Every span of the list has a repair part exactly when it is HOLE or WEAK. -/
def AllFormed (l : List Span) : Prop := ∀ y ∈ l, y.Formed

theorem SpansCover.append {p q f : Index} : ∀ {a : List Span} {b : List Span}, SpansCover p q a → SpansCover q f b →
    SpansCover p f (a ++ b)
  | [], _, h, k => by
    cases h
    exact k
  | _ :: _, _, h, k => ⟨h.1, SpansCover.append h.2 k⟩

theorem SpansCover.split {p f : Index} : ∀ {a : List Span} {b : List Span}, SpansCover p f (a ++ b) →
    SpansCover p (plus p (spanTotal a)) a ∧ SpansCover (plus p (spanTotal a)) f b
  | [], _, h => by
    have h0 : plus p (spanTotal []) = p := plus_zero p
    rw [h0]
    exact ⟨rfl, h⟩
  | y :: a, _, h => by
    have := SpansCover.split (a := a) h.2
    rw [plus_plus] at this
    exact ⟨⟨h.1, by simpa [spanTotal] using this.1⟩, by simpa [spanTotal] using this.2⟩

theorem SpansCover.end_eq {p f : Index} {l : List Span} (h : SpansCover p f l) : f = plus p (spanTotal l) := by
  have := (SpansCover.split (a := l) (b := []) (by simpa using h)).2
  exact this.symm

/-- What a cover reads of a span. -/
def Span.extent (y : Span) : Index × Nat := (y.first, y.count)

theorem SpansCover.of_extent {p f : Index} : ∀ {a b : List Span}, a.map Span.extent = b.map Span.extent →
    SpansCover p f a → SpansCover p f b
  | [], [], _, h => h
  | [], _ :: _, e, _ => by cases e
  | _ :: _, [], e, _ => by cases e
  | x :: a, y :: b, e, h => by
    simp only [List.map_cons, List.cons.injEq, Span.extent, Prod.mk.injEq] at e
    refine ⟨e.1.1 ▸ h.1, ?_⟩
    rw [← e.1.2]
    exact SpansCover.of_extent e.2 h.2

theorem spanTotal_of_extent {a b : List Span} (e : a.map Span.extent = b.map Span.extent) :
    spanTotal a = spanTotal b := by
  have := congrArg (List.map Prod.snd) e
  simp only [List.map_map] at this
  unfold spanTotal
  rw [show Span.count = Prod.snd ∘ Span.extent from rfl, this]

theorem map_extent {g : Span → Span} (hg : ∀ y, (g y).extent = y.extent) (l : List Span) :
    (l.map g).map Span.extent = l.map Span.extent := by
  simp [List.map_map, Function.comp_def, hg]

/-! ### Restoring the form -/

theorem joinRepair_formed {x y : Span} (hx : x.Formed) (hy : y.Formed) (h : x.joins y = true) (i : Index) (n : Nat) :
    Span.Formed { y with first := i, count := n, repair := joinRepair x.repair y.repair } := by
  have hc : x.cond = y.cond := by
    simp only [Span.joins, Bool.and_eq_true, beq_iff_eq] at h
    exact h.2
  unfold Span.Formed at *
  dsimp only
  rw [hc] at hx
  rw [← hy]
  rw [← hy] at hx
  cases hr : x.repair <;> cases hs : y.repair <;> simp_all [joinRepair]

/-- A span put before a list in the form keeps the form. -/
theorem pushSpan_form {x : Span} {p f : Index} {l : List Span} (hc : SpansCover p f (x :: l))
    (hp : ∀ y ∈ l, 0 < y.count ∧ y.Formed) (ha : SpansApart l) (hx : x.Formed) :
    SpansCover p f (pushSpan x l) ∧ (∀ y ∈ pushSpan x l, 0 < y.count ∧ y.Formed) ∧ SpansApart (pushSpan x l) ∧
      spanTotal (pushSpan x l) = x.count + spanTotal l := by
  cases l with
  | nil =>
    simp only [pushSpan]
    split
    · rename_i h0
      refine ⟨?_, by simp, trivial, by simp [spanTotal, h0]⟩
      have := hc.2
      rw [h0, plus_zero] at this
      exact this
    · exact ⟨hc, by simpa using ⟨by omega, hx⟩, trivial, by simp [spanTotal]⟩
  | cons y l =>
    simp only [pushSpan]
    split
    · rename_i h0
      refine ⟨?_, hp, ha, by omega⟩
      have := hc.2
      rw [h0, plus_zero] at this
      exact this
    · rename_i h0
      have hy := hp y (by simp)
      split
      · rename_i hj
        refine ⟨⟨hc.1, ?_⟩, ?_, ?_, ?_⟩
        · have := hc.2.2
          rw [plus_plus] at this
          exact this
        · intro z hz
          rcases List.mem_cons.1 hz with rfl | hz
          · exact ⟨by simp only; omega, joinRepair_formed hx hy.2 hj _ _⟩
          · exact hp z (by simp [hz])
        · cases l with
          | nil => trivial
          | cons z l => exact ⟨ha.1, ha.2⟩
        · simp only [spanTotal, List.map_cons, List.sum_cons]
          omega
      · rename_i hj
        refine ⟨hc, ?_, ⟨by simpa using hj, ha⟩, by simp [spanTotal]⟩
        intro z hz
        rcases List.mem_cons.1 hz with rfl | hz
        · exact ⟨by omega, hx⟩
        · exact hp z hz

/-- Restoring the form keeps the cover, and leaves no empty span and no two adjacent spans alike. -/
theorem normalize_form {p f : Index} {l : List Span} (hc : SpansCover p f l) (hl : AllFormed l) :
    SpansCover p f (normalize l) ∧ (∀ y ∈ normalize l, 0 < y.count ∧ y.Formed) ∧ SpansApart (normalize l) ∧
      spanTotal (normalize l) = spanTotal l := by
  induction l generalizing p with
  | nil => exact ⟨hc, by simp [normalize], trivial, rfl⟩
  | cons x l ih =>
    have h := ih hc.2 fun y hy => hl y (by simp [hy])
    have := pushSpan_form (x := x) (p := p) (f := f) (l := normalize l) ⟨hc.1, h.1⟩ h.2.1 h.2.2.1 (hl x (by simp))
    refine ⟨this.1, this.2.1, this.2.2.1, ?_⟩
    rw [show normalize (x :: l) = pushSpan x (normalize l) from rfl, this.2.2.2, h.2.2.2]
    simp [spanTotal]

/-- A list that covers [p, f), brought into form, is a map in form when it is short enough. -/
theorem MapFormed.normalized {p f : Index} {l : List Span} {n : Nat} (hw : n ≤ Config.storeCells) (hd : ahead f p ≤ n)
    (hc : SpansCover p f l) (hl : AllFormed l) (ht : spanTotal l = ahead f p)
    (hn : (normalize l).length ≤ Config.maxSpans) : MapFormed p f (normalize l) n := by
  have h := normalize_form hc hl
  exact ⟨hw, hd, hn, h.2.1, h.1, h.2.2.1, h.2.2.2.trans ht⟩

theorem MapFormed.allFormed {p f : Index} {l : List Span} {n : Nat} (h : MapFormed p f l n) : AllFormed l :=
  fun y hy => (h.filled y hy).2

/-- An empty map. -/
theorem MapFormed.empty {p : Index} {n : Nat} (hw : n ≤ Config.storeCells) : MapFormed p p [] n :=
  ⟨hw, by rw [ahead_self]; exact Nat.zero_le _, Nat.zero_le _, by simp, rfl, trivial, by simp [ahead_self]⟩

/-! ### Conditions and repair parts -/

theorem repairOf_formed (y : Span) (c : Condition) (o : Option RepairPart) :
    Span.Formed { y with cond := c, repair := repairOf c o } := by
  cases c <;> simp [Span.Formed, repairOf, Condition.wantsRepair]

theorem giveUp_formed (y : Span) : y.giveUp.Formed := by
  cases h : y.cond <;> simp [Span.Formed, Span.giveUp, h, Condition.givenUp, Condition.wantsRepair]

theorem setActive_extent (y : Span) (b : Bool) : (y.setActive b).extent = y.extent := rfl

theorem setActive_formed {y : Span} (h : y.Formed) (b : Bool) : (y.setActive b).Formed := by
  simpa [Span.Formed, Span.setActive] using h

theorem Span.Formed.at {y : Span} (h : y.Formed) (i : Index) (n : Nat) :
    Span.Formed { y with first := i, count := n } := h

theorem apart_map {g : Span → Span} (hg : ∀ y, (g y).seg = y.seg ∧ (g y).cond = y.cond) : ∀ {l : List Span},
    SpansApart l → SpansApart (l.map g)
  | [], _ => trivial
  | [_], _ => trivial
  | x :: y :: l, h => ⟨by simpa [Span.joins, hg] using h.1, apart_map hg (l := y :: l) h.2⟩

/-! ### A position changed (R34) -/

theorem activateNearest_extent (t : RepairTarget) (l : List Span) :
    (activateNearest t l).map Span.extent = l.map Span.extent := by
  induction l with
  | nil => rfl
  | cons y l ih =>
    unfold activateNearest
    split
    · rfl
    · simp [ih]

theorem activateNearest_formed (t : RepairTarget) {l : List Span} (h : AllFormed l) :
    AllFormed (activateNearest t l) := by
  induction l with
  | nil => exact h
  | cons y l ih =>
    have hl : AllFormed l := fun z hz => h z (by simp [hz])
    unfold activateNearest
    split
    · intro z hz
      rcases List.mem_cons.1 hz with rfl | hz
      · exact setActive_formed (h y (by simp)) true
      · exact hl z hz
    · intro z hz
      rcases List.mem_cons.1 hz with rfl | hz
      · exact h z (by simp)
      · exact ih hl z hz

theorem AllFormed.append {a b : List Span} (ha : AllFormed a) (hb : AllFormed b) : AllFormed (a ++ b) := by
  intro y hy
  rcases List.mem_append.1 hy with h | h
  · exact ha y h
  · exact hb y h

theorem spanTotal_append (a b : List Span) : spanTotal (a ++ b) = spanTotal a + spanTotal b := by
  simp [spanTotal]

theorem cutSpan_form {y : Span} {s : Index} (c : Condition) (hs : y.contains s = true) (hy : y.Formed) (f : Index)
    {rest : List Span} (hr : SpansCover (plus y.first y.count) f rest) :
    let pieces := cutSpan y (ahead s y.first) c
    SpansCover y.first f (pieces.1 :: (pieces.2 ++ rest)) ∧ AllFormed (pieces.1 :: pieces.2) ∧
      spanTotal (pieces.1 :: pieces.2) = y.count := by
  have hk : ahead s y.first < y.count := by simpa [Span.contains] using hs
  generalize ahead s y.first = k at hk
  refine ⟨⟨rfl, ?_⟩, ?_, ?_⟩
  · refine ⟨rfl, ?_⟩
    rw [plus_plus]
    refine ⟨rfl, ?_⟩
    have : k + 1 + (y.count - (k + 1)) = y.count := by omega
    simp only [cutSpan, plus_plus, this]
    exact hr
  · intro z hz
    simp only [cutSpan, List.mem_cons, List.not_mem_nil, or_false] at hz
    rcases hz with rfl | rfl | rfl
    · exact setActive_formed hy false
    · exact repairOf_formed { y.setActive false with first := plus y.first k, count := 1 } c _
    · exact hy
  · simp only [spanTotal, cutSpan, List.map_cons, List.map_nil, List.sum_cons, List.sum_nil]
    omega

/-- A list with one position changed covers what it covered. -/
theorem changeAt_form (t : Option RepairTarget) (s : Index) (c : Condition) {p f : Index} :
    ∀ (l walked : List Span), SpansCover p f (walked.reverse ++ l) → AllFormed (walked.reverse ++ l) →
      SpansCover p f (changeAt t s c walked l) ∧ AllFormed (changeAt t s c walked l) ∧
        spanTotal (changeAt t s c walked l) = spanTotal (walked.reverse ++ l)
  | [], walked, hc, hl => by
    simp only [List.append_nil] at hc hl ⊢
    exact ⟨hc, hl, rfl⟩
  | y :: l, walked, hc, hl => by
    unfold changeAt
    split
    · rename_i hs
      have hy : y.Formed := hl y (by simp)
      have hsp := hc.split
      have hfirst : y.first = plus p (spanTotal walked.reverse) := hsp.2.1
      have hcut := cutSpan_form c hs hy f (rest := l) (by rw [hfirst]; exact hsp.2.2)
      dsimp only at hcut ⊢
      generalize cutSpan y (ahead s y.first) c = pieces at hcut ⊢
      obtain ⟨a, b⟩ := pieces
      dsimp only at hcut ⊢
      have key : ∀ front : List Span, front.map Span.extent = (a :: walked).map Span.extent → AllFormed front →
          SpansCover p f (front.reverse ++ (b ++ l)) ∧ AllFormed (front.reverse ++ (b ++ l)) ∧
            spanTotal (front.reverse ++ (b ++ l)) = spanTotal (walked.reverse ++ y :: l) := by
        intro front he hf
        refine ⟨?_, ?_, ?_⟩
        · have h1 : SpansCover p f ((a :: walked).reverse ++ (b ++ l)) := by
            rw [List.reverse_cons, List.append_assoc]
            refine SpansCover.append hsp.1 ?_
            rw [← hfirst]
            exact hcut.1
          have h2 : ((a :: walked).reverse ++ (b ++ l)).map Span.extent =
              (front.reverse ++ (b ++ l)).map Span.extent := by
            simp only [List.map_append, List.map_reverse, he]
          exact SpansCover.of_extent h2 h1
        · refine AllFormed.append (fun z hz => hf z (List.mem_reverse.1 hz)) (AllFormed.append ?_ ?_)
          · exact fun z hz => hcut.2.1 z (by simp [hz])
          · exact fun z hz => hl z (by simp [hz])
        · have h3 : spanTotal front.reverse = spanTotal (a :: walked).reverse :=
            spanTotal_of_extent (by simp only [List.map_reverse, he])
          have h4 := hcut.2.2
          simp only [spanTotal_append, List.reverse_cons, h3] at h4 ⊢
          simp only [spanTotal, List.map_cons, List.sum_cons, List.map_nil, List.sum_nil] at h4 ⊢
          omega
      have hbase : AllFormed (a :: walked) := fun z hz => by
        rcases List.mem_cons.1 hz with rfl | hz
        · exact hcut.2.1 z (by simp)
        · exact hl z (by simp [hz])
      split
      · split
        · exact key _ (activateNearest_extent _ _) (activateNearest_formed _ hbase)
        · exact key _ rfl hbase
      · exact key _ rfl hbase
    · have := changeAt_form t s c l (y :: walked) (by simpa using hc) (by simpa using hl)
      refine ⟨this.1, this.2.1, ?_⟩
      rw [this.2.2]
      simp

/-- A span of a cover lies within it. -/
theorem SpansCover.mem {p f : Index} {l : List Span} {y : Span} (hc : SpansCover p f l) (hy : y ∈ l)
    (h : spanTotal l < 2 ^ 32) : ahead y.first p + y.count ≤ spanTotal l := by
  obtain ⟨a, b, rfl⟩ := List.append_of_mem hy
  have hs := hc.split.2.1
  rw [spanTotal_append] at h ⊢
  have ht : spanTotal (y :: b) = y.count + spanTotal b := by simp [spanTotal]
  have := ahead_plus_left p p (spanTotal a) (by rw [ahead_self]; omega)
  rw [ahead_self, ← hs] at this
  omega

/-- The last position of a span of a cover that is not empty. -/
theorem SpansCover.last {p f : Index} {l : List Span} {y : Span} (hc : SpansCover p f l) (hy : y ∈ l)
    (h : spanTotal l < 2 ^ 32) (h0 : 0 < y.count) : ahead y.last p = ahead y.first p + (y.count - 1) := by
  have := hc.mem hy h
  exact ahead_plus_left _ _ _ (by omega)

/-- Two spans of a cover that begin at one position are of one extent. -/
theorem SpansCover.same_first {p f : Index} : ∀ {l : List Span} {y z : Span}, SpansCover p f l → spanTotal l < 2 ^ 32 →
    (∀ w ∈ l, 0 < w.count) → y ∈ l → z ∈ l → y.first = z.first → y.count = z.count
  | [], _, _, _, _, _, hy, _, _ => by simp at hy
  | w :: l, y, z, hc, h, h0, hy, hz, he => by
    have hw := h0 w (by simp)
    have ht : spanTotal (w :: l) = w.count + spanTotal l := by simp [spanTotal]
    have far : ∀ v ∈ l, v.first ≠ w.first := by
      intro v hv hvw
      have hm := hc.2.mem hv (by omega)
      have hv0 := h0 v (by simp [hv])
      have h1 : ahead (plus p w.count) p = w.count := by
        have := ahead_plus_left p p w.count (by rw [ahead_self]; omega)
        rwa [ahead_self, Nat.zero_add] at this
      have h2 := ahead_plus v.first p (plus p w.count) (by omega)
      rw [hvw, hc.1, ahead_self] at h2
      omega
    rcases List.mem_cons.1 hy with hyw | hyl <;> rcases List.mem_cons.1 hz with hzw | hzl
    · rw [hyw, hzw]
    · exact absurd (he.symm.trans (congrArg _ hyw)) (far z hzl)
    · exact absurd (he.trans (congrArg _ hzw)) (far y hyl)
    · exact SpansCover.same_first hc.2 (by omega) (fun w hw => h0 w (by simp [hw])) hyl hzl he

/-! ### Guard conversion (R30, R31) -/

theorem guardCut_form (g o : Nat) {y : Span} (hy : y.Formed) :
    SpansCover y.first (plus y.first y.count) (guardCut g o y) ∧ AllFormed (guardCut g o y) ∧
      spanTotal (guardCut g o y) = y.count := by
  unfold guardCut
  repeat' split
  · exact ⟨⟨rfl, rfl⟩, by simpa [AllFormed] using hy, by simp [spanTotal]⟩
  · exact ⟨⟨rfl, rfl⟩, by simpa [AllFormed] using giveUp_formed y, by simp [spanTotal, Span.giveUp]⟩
  · refine ⟨⟨rfl, rfl, ?_⟩, ?_, ?_⟩
    · rw [plus_plus]
      exact congrArg _ (by simp only; omega)
    · intro z hz
      simp only [List.mem_cons, List.not_mem_nil, or_false] at hz
      rcases hz with rfl | rfl
      · exact giveUp_formed y
      · exact hy
    · simp only [spanTotal, List.map_cons, List.map_nil, List.sum_cons, List.sum_nil]
      omega
  · exact ⟨⟨rfl, rfl⟩, by simpa [AllFormed] using hy, by simp [spanTotal]⟩

theorem flatMap_guardCut_form (g : Nat) (o : Span → Nat) {p f : Index} : ∀ {l : List Span}, SpansCover p f l →
    AllFormed l → SpansCover p f (l.flatMap fun y => guardCut g (o y) y) ∧
      AllFormed (l.flatMap fun y => guardCut g (o y) y) ∧
      spanTotal (l.flatMap fun y => guardCut g (o y) y) = spanTotal l
  | [], hc, hl => ⟨hc, hl, rfl⟩
  | y :: l, hc, hl => by
    obtain ⟨rfl, hc2⟩ := hc
    have h1 := guardCut_form g (o y) (hl y (by simp))
    have h2 := flatMap_guardCut_form g o hc2 fun z hz => hl z (by simp [hz])
    rw [List.flatMap_cons]
    refine ⟨SpansCover.append h1.1 h2.1, AllFormed.append h1.2.1 h2.2.1, ?_⟩
    rw [spanTotal_append, h1.2.2, h2.2.2]
    simp [spanTotal]

theorem map_form {g : Span → Span} (he : ∀ y, (g y).extent = y.extent) (hf : ∀ y, y.Formed → (g y).Formed) {p f : Index}
    {l : List Span} (hc : SpansCover p f l) (hl : AllFormed l) :
    SpansCover p f (l.map g) ∧ AllFormed (l.map g) ∧ spanTotal (l.map g) = spanTotal l := by
  have e := map_extent he l
  refine ⟨SpansCover.of_extent e.symm hc, ?_, spanTotal_of_extent e⟩
  intro z hz
  obtain ⟨y, hy, rfl⟩ := List.mem_map.1 hz
  exact hf y (hl y hy)

/-! ### Moving on (R29, R39) -/

theorem dropPositions_form {p f : Index} : ∀ {l : List Span} {k : Nat}, SpansCover p f l → AllFormed l →
    k ≤ spanTotal l → SpansCover (plus p k) f (dropPositions k l) ∧ AllFormed (dropPositions k l) ∧
      spanTotal (dropPositions k l) = spanTotal l - k
  | [], k, hc, hl, hk => by
    have h0 : k = 0 := by simpa [spanTotal] using hk
    subst h0
    rw [plus_zero]
    exact ⟨hc, hl, by simp [dropPositions, spanTotal]⟩
  | y :: l, k, hc, hl, hk => by
    obtain ⟨rfl, hc2⟩ := hc
    have hl2 : AllFormed l := fun z hz => hl z (by simp [hz])
    simp only [spanTotal, List.map_cons, List.sum_cons] at hk
    unfold dropPositions
    split
    · rename_i hle
      have := dropPositions_form (k := k - y.count) hc2 hl2 (by unfold spanTotal; omega)
      rw [plus_plus, show y.count + (k - y.count) = k by omega] at this
      refine ⟨this.1, this.2.1, ?_⟩
      rw [this.2.2]
      simp only [spanTotal, List.map_cons, List.sum_cons]
      omega
    · rename_i hgt
      refine ⟨⟨rfl, ?_⟩, ?_, ?_⟩
      · rw [plus_plus, show k + (y.count - k) = y.count by omega]
        exact hc2
      · intro z hz
        rcases List.mem_cons.1 hz with rfl | hz
        · exact hl y (by simp)
        · exact hl2 z hz
      · simp only [spanTotal, List.map_cons, List.sum_cons]
        omega

/-! ### The append (R23) -/

theorem repairOf_formed' {y : Span} {c : Condition} {o : Option RepairPart} (h1 : y.cond = c)
    (h2 : y.repair = repairOf c o) : y.Formed := by
  cases c <;> simp [Span.Formed, h1, h2, repairOf, Condition.wantsRepair]

theorem apart_append_one {n : Span} : ∀ {l : List Span}, SpansApart l →
    (∀ y, l.getLast? = some y → y.joins n = false) → SpansApart (l ++ [n])
  | [], _, _ => trivial
  | [x], _, h => ⟨h x rfl, trivial⟩
  | x :: y :: l, ha, h => ⟨ha.1, apart_append_one (l := y :: l) ha.2 fun z hz => h z (by simpa using hz)⟩

theorem apart_replace_last {x y : Span} (hs : y.seg = x.seg) (hc : y.cond = x.cond) : ∀ {l : List Span},
    SpansApart (l ++ [x]) → SpansApart (l ++ [y])
  | [], _ => trivial
  | [a], h => ⟨by simpa [Span.joins, hs, hc] using h.1, trivial⟩
  | a :: b :: l, h => ⟨h.1, apart_replace_last hs hc (l := b :: l) h.2⟩

/-- A position put at the end of a map in form. -/
theorem growSpans_form {p f : Index} {l : List Span} {n : Span} (hc : SpansCover p f l) (hf : n.first = f)
    (hl : ∀ y ∈ l, 0 < y.count ∧ y.Formed) (ha : SpansApart l) (hn : 0 < n.count ∧ n.Formed) :
    SpansCover p (plus f n.count) (growSpans l n) ∧ (∀ y ∈ growSpans l n, 0 < y.count ∧ y.Formed) ∧
      SpansApart (growSpans l n) ∧ spanTotal (growSpans l n) = spanTotal l + n.count := by
  have hone : SpansCover f (plus f n.count) [n] := ⟨hf, by rfl⟩
  unfold growSpans
  split
  · rename_i y hy
    obtain ⟨l', rfl⟩ : ∃ l', l = l' ++ [y] := by
      have := List.getLast?_eq_some_iff.1 hy
      exact this
    rw [List.dropLast_concat]
    split
    · have hs := SpansCover.split hc
      refine ⟨SpansCover.append hs.1 ⟨hs.2.1, ?_⟩, ?_, ?_, ?_⟩
      · rw [← plus_plus]
        have := hs.2.2
        change plus _ _ = f at this
        rw [this]
        rfl
      · intro z hz
        rcases List.mem_append.1 hz with hz | hz
        · exact hl z (by simp [hz])
        · rw [List.mem_singleton.1 hz]
          have := hl y (by simp)
          exact ⟨by simp only; omega, this.2⟩
      · exact apart_replace_last (x := y) (y := { y with count := y.count + n.count }) rfl rfl ha
      · simp only [spanTotal_append]
        simp [spanTotal]
        omega
    · rename_i hj
      refine ⟨SpansCover.append hc hone, ?_, ?_, ?_⟩
      · intro z hz
        rcases List.mem_append.1 hz with hz | hz
        · exact hl z hz
        · rw [List.mem_singleton.1 hz]; exact hn
      · refine apart_append_one ha fun z hz => ?_
        rw [List.getLast?_concat, Option.some.injEq] at hz
        rw [← hz]
        simpa using hj
      · rw [spanTotal_append]; simp [spanTotal]
  · rename_i hy
    have h0 : l = [] := List.getLast?_eq_none_iff.1 hy
    subst h0
    refine ⟨?_, by simpa using hn, trivial, by simp [spanTotal]⟩
    rw [show p = f from hc]
    exact hone

/-! ### The active flag -/

/-- No span of the list is active. -/
def Quiet (l : List Span) : Prop := ∀ y ∈ l, y.active = false

theorem quiet_nil : Quiet [] := by simp [Quiet]

theorem Quiet.cons {y : Span} {l : List Span} (hy : y.active = false) (hl : Quiet l) : Quiet (y :: l) := by
  intro z hz
  rcases List.mem_cons.1 hz with rfl | hz
  · exact hy
  · exact hl z hz

theorem Quiet.head {y : Span} {l : List Span} (h : Quiet (y :: l)) : y.active = false := h y (by simp)

theorem Quiet.tail {y : Span} {l : List Span} (h : Quiet (y :: l)) : Quiet l := fun z hz => h z (by simp [hz])

theorem Quiet.append {a b : List Span} (ha : Quiet a) (hb : Quiet b) : Quiet (a ++ b) := by
  intro z hz
  rcases List.mem_append.1 hz with hz | hz
  · exact ha z hz
  · exact hb z hz

theorem Quiet.reverse {l : List Span} (h : Quiet l) : Quiet l.reverse := fun z hz => h z (List.mem_reverse.1 hz)

theorem Quiet.find {l : List Span} (h : Quiet l) : l.find? Span.active = none := by
  rw [List.find?_eq_none]
  intro y hy
  simp [h y hy]

theorem active_of_repair {y : Span} (h : ∀ r, y.repair = some r → r.active = false) : y.active = false := by
  unfold Span.active
  split
  · rename_i r hr
    exact h r hr
  · rfl

theorem repairOf_quiet {c : Condition} {o : Option RepairPart} (h : ∀ r, o = some r → r.active = false) :
    ∀ r, repairOf c o = some r → r.active = false := by
  intro r hr
  unfold repairOf at hr
  split at hr
  · cases o with
    | none => cases hr; rfl
    | some q => cases hr; exact h q rfl
  · cases hr

theorem repair_quiet {y : Span} (h : y.active = false) : ∀ r, y.repair = some r → r.active = false := by
  intro r hr
  unfold Span.active at h
  rwa [hr] at h

theorem joinRepair_quiet {a b : Option RepairPart} (ha : ∀ r, a = some r → r.active = false)
    (hb : ∀ r, b = some r → r.active = false) : ∀ r, joinRepair a b = some r → r.active = false := by
  intro r hr
  cases a with
  | none => exact hb r (by cases b <;> exact hr)
  | some x =>
    cases b with
    | none => exact ha r hr
    | some y => cases hr; simp [ha x rfl, hb y rfl]

theorem setActive_quiet (y : Span) : (y.setActive false).active = false :=
  active_of_repair fun r hr => by
    unfold Span.setActive at hr
    cases hq : y.repair with
    | none => simp [hq] at hr
    | some q => simp only [hq, Option.map_some, Option.some.injEq] at hr; rw [← hr]

theorem giveUp_quiet (y : Span) : y.giveUp.active = false := rfl

theorem pushSpan_quiet {x : Span} {l : List Span} (hx : x.active = false) (hl : Quiet l) : Quiet (pushSpan x l) := by
  cases l with
  | nil =>
    simp only [pushSpan]
    split
    · exact hl
    · exact quiet_nil.cons hx
  | cons y l =>
    simp only [pushSpan]
    split
    · exact hl
    · split
      · exact hl.tail.cons (active_of_repair (joinRepair_quiet (repair_quiet hx) (repair_quiet hl.head)))
      · exact hl.cons hx

theorem Quiet.normalize {l : List Span} (h : Quiet l) : Quiet (Machine.normalize l) := by
  induction l with
  | nil => exact h
  | cons y l ih => exact pushSpan_quiet h.head (ih h.tail)

theorem Quiet.map {l : List Span} (h : Quiet l) {g : Span → Span} (hg : ∀ y, y.active = false → (g y).active = false) :
    Quiet (l.map g) := by
  intro z hz
  obtain ⟨y, hy, rfl⟩ := List.mem_map.1 hz
  exact hg y (h y hy)

theorem Quiet.growSpans {l : List Span} {n : Span} (h : Quiet l) (hn : n.active = false) :
    Quiet (Machine.growSpans l n) := by
  unfold Machine.growSpans
  split
  · rename_i y hy
    have hm := List.mem_of_getLast? hy
    split
    · exact Quiet.append (fun z hz => h z (List.mem_of_mem_dropLast hz)) (quiet_nil.cons (h y hm))
    · exact h.append (quiet_nil.cons hn)
  · exact quiet_nil.cons hn

theorem Quiet.changeAt {t : Option RepairTarget} {s : Index} {c : Condition} : ∀ {l walked : List Span}, Quiet l →
    Quiet walked → Quiet (Machine.changeAt t s c walked l)
  | [], _, _, hw => hw.reverse
  | y :: l, walked, h, hw => by
    have hp := cutSpan_quiet y (ahead s y.first) c h.head
    unfold Machine.changeAt
    dsimp only
    split
    · rw [h.head]
      refine Quiet.append (Quiet.reverse ?_) (Quiet.append hp.2 h.tail)
      cases t <;> exact hw.cons hp.1
    · exact Quiet.changeAt h.tail (hw.cons h.head)
where
  cutSpan_quiet (y : Span) (k : Nat) (c : Condition) (h : y.active = false) :
      (cutSpan y k c).1.active = false ∧ Quiet (cutSpan y k c).2 :=
    ⟨setActive_quiet y, Quiet.cons (active_of_repair (repairOf_quiet (repair_quiet (setActive_quiet y))))
      (Quiet.cons (by exact h) quiet_nil)⟩

theorem guardCut_quiet (g o : Nat) {y : Span} (h : y.active = false) : Quiet (guardCut g o y) := by
  unfold guardCut
  repeat' split
  · exact quiet_nil.cons h
  · exact quiet_nil.cons rfl
  · exact Quiet.cons rfl (Quiet.cons (by exact h) quiet_nil)
  · exact quiet_nil.cons h

theorem Quiet.flatMap {l : List Span} (h : Quiet l) {g : Span → List Span}
    (hg : ∀ y, y.active = false → Quiet (g y)) : Quiet (l.flatMap g) := by
  intro z hz
  obtain ⟨y, hy, hz⟩ := List.mem_flatMap.1 hz
  exact hg y (h y hy) z hz

theorem Quiet.dropPositions : ∀ {l : List Span} {k : Nat}, Quiet l → Quiet (Machine.dropPositions k l)
  | [], _, h => h
  | y :: l, k, h => by
    unfold Machine.dropPositions
    split
    · exact Quiet.dropPositions h.tail
    · exact h.tail.cons h.head

/-- After the end claim and the abort claim no span is active. -/
theorem quiet_map {g : Span → Span} (hg : ∀ y, (g y).active = false) (l : List Span) : Quiet (l.map g) := by
  intro z hz
  obtain ⟨y, _, rfl⟩ := List.mem_map.1 hz
  exact hg y

theorem endSpan_quiet (t : RepairTarget) (m : Nat) (y : Span) : (endSpan t m y).active = false := by
  unfold endSpan
  split
  · rename_i h
    exact active_of_repair fun r hr => by rw [h] at hr; cases hr
  · repeat' split
    all_goals rfl

theorem abortSpan_quiet (t : RepairTarget) (y : Span) : (abortSpan t y).active = false := by
  unfold abortSpan
  split
  · rename_i h
    exact active_of_repair fun r hr => by rw [h] at hr; cases hr
  · rfl

/-! ### The repair target (R33, R34) -/

theorem TargetAimed.quiet {p f : Index} {l : List Span} {t : Option RepairTarget} (h : Quiet l) :
    TargetAimed p f l t := by
  intro _ _ _ ha
  rw [h.find] at ha
  cases ha

theorem TargetAimed.none {p f : Index} {l : List Span} : TargetAimed p f l none := by
  intro _ _ h
  cases h

/-- The target of a map that is not quiet ends inside it. -/
theorem TargetAimed.inside {p f : Index} {l : List Span} {t : Option RepairTarget} (h : TargetAimed p f l t)
    (hq : ¬ Quiet l) : ∀ u, t = some u → ahead u.last p < ahead f p := by
  intro u hu
  cases ha : l.find? Span.active with
  | none =>
    refine absurd (fun y hy => ?_) hq
    rw [List.find?_eq_none] at ha
    simpa using ha y hy
  | some a => exact (h u a hu ha).1

/-- A target widened to a span of a cover ends inside it and holds the span. -/
theorem RepairTarget.widen_aimed {t : RepairTarget} {p0 p f : Index} {l : List Span} {a : Span}
    (hn : ahead f p0 ≤ Config.storeCells) (hp : ahead p p0 ≤ ahead f p0) (hc : SpansCover p f l)
    (ht : spanTotal l = ahead f p) (ha : a ∈ l) (h0 : 0 < a.count) (h : ahead t.last p0 < ahead f p0) :
    ahead (t.widen a).last p < ahead f p ∧ ahead a.last p ≤ ahead (t.widen a).last p ∧
      (t.widen a).contains a.first = true := by
  simp only [Config.storeCells] at hn
  have hf := ahead_sub f p0 p hp
  have hm := hc.mem ha (by omega)
  have hl := hc.last ha (by omega) h0
  have hl0 := ahead_plus a.last p0 p (by omega)
  have hmax := ahead_later t.last a.last p0 (by omega) (by omega)
  have hlast : (t.widen a).last = later t.last a.last := rfl
  have hnew := ahead_sub (later t.last a.last) p0 p (by omega)
  rw [hlast]
  refine ⟨by omega, by omega, decide_eq_true ?_⟩
  dsimp only [RepairTarget.widen]
  split <;> omega

end Sys2Proof.Machine
end

