-- ==== Sys2Proof/Laws/Map.lean ====
section
/-! SUPPORT. The Continuity Map and the playout unit keep a lane within its bounds: one lemma per operation. -/

namespace Sys2Proof.Machine

set_option Elab.async false

/-! ### Lengths of span lists -/

theorem pushSpan_length (x : Span) (l : List Span) : (pushSpan x l).length ≤ l.length + 1 := by
  cases l with
  | nil => simp only [pushSpan]; split <;> simp
  | cons y l => simp only [pushSpan]; repeat' split
                all_goals simp

theorem normalize_length (l : List Span) : (normalize l).length ≤ l.length := by
  induction l with
  | nil => simp [normalize]
  | cons x l ih =>
    have h := pushSpan_length x (normalize l)
    simp only [normalize, List.foldr_cons, List.length_cons] at h ih ⊢
    omega

theorem normalize_map_length (f : Span → Span) (l : List Span) : (normalize (l.map f)).length ≤ l.length := by
  have := normalize_length (l.map f)
  simpa using this

theorem dropPositions_length (l : List Span) : ∀ k, (dropPositions k l).length ≤ l.length := by
  induction l with
  | nil => simp [dropPositions]
  | cons y l ih =>
    intro k
    have := ih (k - y.count)
    simp only [dropPositions]
    split <;> simp only [List.length_cons] <;> omega

/-! ### Bounds of a lane -/

/-- A lane the same in what its bounds read, or with its repair target dropped. -/
theorem Lane.Bounded.of_eq {n : Nat} {x y : Lane} (h : x.Bounded n) (h1 : y.spans = x.spans)
    (h2 : y.seq.segments = x.seq.segments) (h3 : y.run.held = x.run.held) (h4 : y.plu.level = x.plu.level)
    (h5 : y.plu.fall = x.plu.fall) (hp : y.p = x.p := by rfl) (hf : y.f = x.f := by rfl)
    (ht : y.rsc.target = x.rsc.target ∨ y.rsc.target = none := by first | exact Or.inl rfl | exact Or.inr rfl)
    (hc : y.seq.pendingCue = x.seq.pendingCue := by rfl) (he : y.seq.entryPasses = x.seq.entryPasses := by rfl) :
    y.Bounded n := by
  unfold Lane.Bounded at *
  rw [h1, h2, h3, h4, h5, hp, hf, hc, he]
  refine ⟨⟨h.1.form, ?_⟩, h.2⟩
  rcases ht with ht | ht
  · rw [ht]; exact h.1.aimed
  · rw [ht]; exact TargetAimed.none

/-- The counts of cues changed. -/
theorem CuesKept.map {l : List Segment} {c : Option TakenCue} {e : List Nat} (h : CuesKept l c e)
    {g : Segment → Segment} (hg : ∀ q, (g q).cue.entry = q.cue.entry) : CuesKept (l.map g) c e := by
  refine ⟨by simpa using h.few, fun q hq => ?_, h.pendingEntry, h.passes⟩
  obtain ⟨y, hy, rfl⟩ := List.mem_map.1 hq
  rw [hg]
  exact h.segmentEntry y hy

/-- Some of the segments left, in any case not more of them. -/
theorem CuesKept.sublist {l k : List Segment} {c : Option TakenCue} {e : List Nat} (h : CuesKept l c e)
    (hk : k.Sublist l) : CuesKept k c e :=
  ⟨Nat.le_trans hk.length_le h.few, fun q hq => h.segmentEntry q (hk.subset hq), h.pendingEntry, h.passes⟩

/-- No cue left. -/
theorem CuesKept.clear {e : List Nat} (he : e.length = Config.cueEntries) : CuesKept [] none e :=
  ⟨Nat.zero_le _, by simp, by simp, he⟩

theorem CuesKept.dropPending {l : List Segment} {c : Option TakenCue} {e : List Nat} (h : CuesKept l c e) :
    CuesKept l none e := ⟨h.few, h.segmentEntry, by simp, h.passes⟩

theorem Lane.Bounded.updCue {n : Nat} {x : Lane} (h : x.Bounded n) (b : Index) (g : CueCounts → CueCounts) :
    (x.updCue b g).Bounded n := by
  refine ⟨h.1, h.2.1.map fun q => ?_, h.2.2⟩
  split <;> rfl

/-- The lane with its map replaced is bounded when the new map is in form and has no active span. -/
theorem Lane.Bounded.setMap {n m : Nat} {x : Lane} (h : x.Bounded n) {p f : Index} {g : Nat} {l : List Span}
    (hl : MapFormed p f l m) (hq : Quiet l) : Lane.Bounded m { x with p := p, f := f, guard := g, spans := l } :=
  ⟨⟨hl, .quiet hq⟩, h.2⟩

/-- A new span list in form, its fill point with it, keeps the repair target aimed: the target, inside the window counted
from a base p0 where the list is not quiet, is widened to the active span. -/
theorem Lane.withSpans_kept {n : Nat} {x : Lane} {p0 f : Index} {l : List Span} (hl : MapFormed x.p f l n)
    (hn : ahead f p0 ≤ Config.storeCells) (hp : ahead x.p p0 ≤ ahead f p0)
    (ht : ¬ Quiet l → ∀ t, x.rsc.target = some t → ahead t.last p0 < ahead f p0) :
    MapKept x.p f l (x.withSpans l).rsc.target n := by
  refine ⟨hl, ?_⟩
  by_cases hq : Quiet l
  · exact .quiet hq
  · intro u a hu ha
    unfold Lane.withSpans Lane.activeSpan at hu
    dsimp only at hu
    split at hu
    · rename_i t b h1 h2
      rw [ha, Option.some.injEq] at h2
      subst h2
      cases hu
      have hm := List.mem_of_find?_eq_some ha
      exact t.widen_aimed hn hp hl.cover hl.total hm (hl.filled a hm).1 (ht hq t h1)
    · rename_i hno
      exact absurd ha (hno u a hu)

theorem Lane.withSpans_eq (x : Lane) (l : List Span) :
    x.withSpans l = { x with spans := l, rsc := { x.rsc with target := (x.withSpans l).rsc.target } } := by
  unfold Lane.withSpans
  dsimp only
  split <;> rfl

/-- A span list in form put in place of the lane's own, active only where that was. -/
theorem Lane.Bounded.withSpans {n : Nat} {x : Lane} (h : x.Bounded n) {l : List Span} (hl : MapFormed x.p x.f l n)
    (hq : Quiet x.spans → Quiet l) : (x.withSpans l).Bounded n := by
  have k := x.withSpans_kept (p0 := x.p) hl (Nat.le_trans hl.lead hl.window) (by rw [ahead_self]; exact Nat.zero_le _)
    fun hl => h.1.aimed.inside (mt hq hl)
  rw [x.withSpans_eq]
  exact ⟨k, h.2⟩

/-- The same with the fill point moved on. -/
theorem Lane.Bounded.withSpansTo {n : Nat} {x : Lane} (h : x.Bounded n) {f : Index} {l : List Span}
    (hl : MapFormed x.p f l n) (hf : ahead x.f x.p ≤ ahead f x.p) (hq : Quiet x.spans → Quiet l) :
    Lane.Bounded n { x.withSpans l with f := f } := by
  have k := x.withSpans_kept (p0 := x.p) hl (Nat.le_trans hl.lead hl.window) (by rw [ahead_self]; exact Nat.zero_le _)
    fun hl t ht => Nat.lt_of_lt_of_le (h.1.aimed.inside (mt hq hl) t ht) hf
  rw [x.withSpans_eq]
  exact ⟨k, h.2⟩

/-- A lane whose spans are changed one by one, their extents kept, and brought into form. -/
theorem Lane.Bounded.mapSpans {n : Nat} {x : Lane} (h : x.Bounded n) {g : Span → Span}
    (he : ∀ y, (g y).extent = y.extent) (hf : ∀ y, y.Formed → (g y).Formed) :
    MapFormed x.p x.f (normalize (x.spans.map g)) n := by
  have k := map_form he hf h.1.form.cover h.1.form.allFormed
  exact MapFormed.normalized h.1.form.window h.1.form.lead k.1 k.2.1 (k.2.2.trans h.1.form.total)
    (Nat.le_trans (normalize_map_length _ _) h.1.form.few)

theorem Lane.Bounded.append {n : Nat} {x y : Lane} {g : SegRef} {c : CopyClass} (h : x.Bounded n)
    (hn : x.bufferedLead < n) (hy : x.append g c = some y) : y.Bounded n := by
  unfold Lane.append at hy
  dsimp only at hy
  split at hy
  · exact absurd hy (by simp)
  · rename_i hl
    cases hy
    have hw := h.1.form.window
    have hd : ahead (plus x.f 1) x.p = ahead x.f x.p + 1 := ahead_plus_left _ _ _ (by
      unfold Lane.bufferedLead at hn
      simp only [Config.storeCells] at hw
      omega)
    generalize hs : ({ first := x.f, count := 1, seg := g, cond := _, repair := _ } : Span) = s at hl ⊢
    have hs1 : s.count = 1 := by rw [← hs]
    have hs2 : s.Formed := by
      rw [← hs]
      exact repairOf_formed' rfl rfl
    have k := growSpans_form (n := s) h.1.form.cover (by rw [← hs]) h.1.form.filled h.1.form.apart ⟨by omega, hs2⟩
    have hb : MapFormed x.p (plus x.f 1) (growSpans x.spans s) n := by
      refine ⟨hw, ?_, by omega, k.2.1, ?_, k.2.2.1, ?_⟩
      · unfold Lane.bufferedLead at hn
        omega
      · have := k.1
        rwa [hs1] at this
      · have := k.2.2.2
        unfold spanTotal at this
        rw [this, h.1.form.total, hs1, hd]
    refine h.withSpansTo hb (by omega) fun hq => hq.growSpans ?_
    rw [← hs]
    exact active_of_repair (repairOf_quiet (by simp))

theorem Lane.Bounded.aheadHole {n : Nat} {x y : Lane} {g : SegRef} {s : Index} {c : CopyClass} (h : x.Bounded n)
    (ha : ahead s x.p < n) (hs : ahead x.f x.p ≤ ahead s x.p) (hy : x.aheadHole g s c = some y) : y.Bounded n := by
  unfold Lane.aheadHole at hy
  dsimp only at hy
  split at hy
  · exact absurd hy (by simp)
  · rename_i hl
    cases hy
    have hw := h.1.form.window
    have hsf : ahead s x.f = ahead s x.p - ahead x.f x.p := by
      have := ahead_plus_right s x.p (ahead x.f x.p) hs
      rwa [plus_ahead] at this
    have hd : ahead (plus s 1) x.p = ahead s x.p + 1 := ahead_plus_left _ _ _ (by
      simp only [Config.storeCells] at hw
      omega)
    have hlow : min (ahead s x.f) (x.guard - x.bufferedLead) ≤ ahead s x.f := Nat.min_le_left _ _
    generalize min (ahead s x.f) (x.guard - x.bufferedLead) = k at hl hlow ⊢
    generalize he : ([{ first := x.f, count := k, seg := g, cond := .lost, repair := none },
     { first := plus x.f k, count := ahead s x.f - k, seg := g, cond := .hole, repair := some freshRepair },
     { first := s, count := 1, seg := g, cond := _, repair := _ }] : List Span) = new at hl ⊢
    have hnew : SpansCover x.f (plus s 1) new := by
      have h3 : plus (plus x.f k) (ahead s x.f - k) = s := by
        rw [plus_plus, show k + (ahead s x.f - k) = ahead s x.f by omega, plus_ahead]
      rw [← he]
      refine ⟨rfl, rfl, h3.symm, ?_⟩
      dsimp only
      rw [h3]
      rfl
    have hform : AllFormed new := by
      rw [← he]
      intro z hz
      simp only [List.mem_cons, List.not_mem_nil, or_false] at hz
      rcases hz with rfl | rfl | rfl
      · rfl
      · rfl
      · exact repairOf_formed' rfl rfl
    have htot : spanTotal new = ahead s x.f + 1 := by
      rw [← he]
      simp only [spanTotal, List.map_cons, List.map_nil, List.sum_cons, List.sum_nil]
      omega
    have hb : MapFormed x.p (plus s 1) (normalize (x.spans ++ new)) n := by
      refine MapFormed.normalized hw (by omega) (SpansCover.append h.1.form.cover hnew) (h.1.form.allFormed.append hform) ?_
        (by omega)
      have ht := h.1.form.total
      rw [spanTotal_append, htot, hd, hsf]
      unfold spanTotal
      omega
    refine h.withSpansTo hb (by omega) fun hq => (hq.append ?_).normalize
    rw [← he]
    exact Quiet.cons rfl (Quiet.cons rfl (Quiet.cons (active_of_repair (repairOf_quiet (by simp))) quiet_nil))

theorem Lane.Bounded.absorb {n : Nat} {x : Lane} {s : Index} {c : CopyClass} {t : Bool} (h : x.Bounded n) :
    (x.absorb s c t).2.Bounded n := by
  have key : ∀ d : Condition, ¬ Config.maxSpans < (normalize (changeAt x.rsc.target s d [] x.spans)).length →
      ∀ m, Lane.Bounded n { x.withSpans (normalize (changeAt x.rsc.target s d [] x.spans)) with madeGood := m } := by
    intro d hl m
    have k := changeAt_form x.rsc.target s d x.spans [] h.1.form.cover h.1.form.allFormed
    exact h.withSpans (MapFormed.normalized h.1.form.window h.1.form.lead k.1 k.2.1 (k.2.2.trans h.1.form.total)
      (Nat.le_of_not_lt hl)) fun hq => (hq.changeAt quiet_nil).normalize
  unfold Lane.absorb
  dsimp only
  repeat' split
  all_goals first
    | exact h
    | exact key _ (by assumption) _

theorem guardWhole_extent (g o : Nat) (y : Span) : (guardWhole g o y).extent = y.extent := by
  unfold guardWhole
  split <;> rfl

theorem guardWhole_formed (g o : Nat) {y : Span} (hy : y.Formed) : (guardWhole g o y).Formed := by
  unfold guardWhole
  split
  · exact giveUp_formed y
  · exact hy

theorem guardWhole_quiet (g o : Nat) {y : Span} (hy : y.active = false) : (guardWhole g o y).active = false := by
  unfold guardWhole
  split
  · exact giveUp_quiet y
  · exact hy

/-- What guard conversion restores: a lane whose map covers its window, however its spans are joined, its repair target
inside the window counted from a base p0. -/
theorem Lane.convertGuard_bounded {n : Nat} {x : Lane} (hw : n ≤ Config.storeCells) (hd : ahead x.f x.p ≤ n)
    (hn : x.spans.length ≤ Config.maxSpans) (hc : SpansCover x.p x.f x.spans) (hf : AllFormed x.spans)
    (ht : spanTotal x.spans = ahead x.f x.p) {p0 : Index} (hb : ahead x.f p0 ≤ Config.storeCells)
    (hp : ahead x.p p0 ≤ ahead x.f p0)
    (hq : ¬ Quiet x.spans → ∀ t, x.rsc.target = some t → ahead t.last p0 < ahead x.f p0)
    (h : CuesKept x.seq.segments x.seq.pendingCue x.seq.entryPasses ∧ x.run.held.length ≤ Config.holdPlaces ∧
      x.plu.level ≤ Config.fullGain ∧ (match x.plu.fall with
        | .step => True
        | .short g _ _ => g ≤ Config.fullGain)) : x.convertGuard.Bounded n := by
  have k := flatMap_guardCut_form x.guard (fun y => ahead y.first x.p) hc hf
  have m := map_form (g := fun y => guardWhole x.guard (ahead y.first x.p) y)
    (fun y => guardWhole_extent _ _ y) (fun y hy => guardWhole_formed _ _ hy) hc hf
  unfold Lane.convertGuard
  dsimp only
  split
  · have hm := MapFormed.normalized hw hd m.1 m.2.1 (m.2.2.trans ht) (Nat.le_trans (normalize_map_length _ _) hn)
    have := x.withSpans_kept hm hb hp fun hl => hq fun hs => hl (hs.map fun y hy => guardWhole_quiet _ _ hy).normalize
    rw [x.withSpans_eq]
    exact ⟨this, h⟩
  · rename_i hl
    have hm := MapFormed.normalized hw hd k.1 k.2.1 (k.2.2.trans ht) (Nat.le_of_not_lt hl)
    have := x.withSpans_kept hm hb hp fun hl => hq fun hs => hl (Quiet.flatMap hs fun y hy => guardCut_quiet _ _ hy).normalize
    rw [x.withSpans_eq]
    exact ⟨this, h⟩

theorem Lane.Bounded.convertGuard {n : Nat} {x : Lane} (h : x.Bounded n) : x.convertGuard.Bounded n :=
  Lane.convertGuard_bounded h.1.form.window h.1.form.lead h.1.form.few h.1.form.cover h.1.form.allFormed h.1.form.total
    (p0 := x.p) (Nat.le_trans h.1.form.lead h.1.form.window) (by rw [ahead_self]; exact Nat.zero_le _)
    h.1.aimed.inside h.2

theorem Lane.Bounded.moveOn {n : Nat} {x : Lane} (h : x.Bounded n) (k guard : Nat) (hk : k ≤ x.bufferedLead) :
    (x.moveOn k guard).Bounded n := by
  have ht : spanTotal x.spans = ahead x.f x.p := h.1.form.total
  have hd := dropPositions_form (k := k) h.1.form.cover h.1.form.allFormed (by rw [ht]; exact hk)
  have ha := ahead_plus_right x.f x.p k hk
  have hl := h.1.form.lead
  have hw := h.1.form.window
  unfold Lane.bufferedLead at hk
  have hp : ahead (plus x.p k) x.p = k := by
    have := ahead_plus_left x.p x.p k (by rw [ahead_self]; simp only [Config.storeCells] at hw; omega)
    rwa [ahead_self, Nat.zero_add] at this
  unfold Lane.moveOn
  refine Lane.convertGuard_bounded h.1.form.window (by dsimp only; omega)
    (Nat.le_trans (dropPositions_length _ _) h.1.form.few) hd.1 hd.2.1 ?_ (p0 := x.p) (by dsimp only; omega)
    (by dsimp only; omega) (fun hq => h.1.aimed.inside fun hs => hq hs.dropPositions) h.2
  dsimp only
  rw [hd.2.2, ht, ha]

theorem bufferedLead_pos {x : Lane} (h : ¬ x.p = x.f) : 1 ≤ x.bufferedLead := by
  by_contra hc
  have h0 : ahead x.f x.p = 0 := by
    unfold Lane.bufferedLead at hc
    omega
  have := plus_ahead x.f x.p
  rw [h0, plus_zero] at this
  exact h this

theorem Lane.Bounded.advanceMap {n : Nat} {x : Lane} (h : x.Bounded n) (guard : Nat) :
    (x.advanceMap guard).Bounded n := by
  unfold Lane.advanceMap
  split
  · exact h
  · exact h.moveOn _ _ (bufferedLead_pos (by assumption))

theorem Lane.Bounded.activate {n : Nat} {x y : Lane} {i : Index} (h : x.Bounded n) (hy : x.activate i = some y) :
    MapFormed x.p x.f y.spans n ∧ y.spans = x.spans.map (fun q => if q.first = i then q.setActive true else q) ∧
      y = { x with spans := y.spans, madeGood := 0 } ∧ Quiet x.spans := by
  unfold Lane.activate at hy
  split at hy
  · exact absurd hy (by simp)
  · rename_i hno
    split at hy
    · cases hy
      have hg : ∀ y : Span, (if y.first = i then y.setActive true else y).extent = y.extent := fun y => by
        split <;> rfl
      have k := map_form hg (fun y hy => by
        split
        · exact setActive_formed hy true
        · exact hy) h.1.form.cover h.1.form.allFormed
      refine ⟨⟨h.1.form.window, h.1.form.lead, by simpa using h.1.form.few, ?_, k.1, ?_, k.2.2.trans h.1.form.total⟩, rfl,
        rfl, ?_⟩
      · intro z hz
        refine ⟨?_, k.2.1 z hz⟩
        obtain ⟨y, hy, rfl⟩ := List.mem_map.1 hz
        have := (h.1.form.filled y hy).1
        split <;> exact this
      · exact apart_map (fun y => by split <;> exact ⟨rfl, rfl⟩) h.1.form.apart
      · intro z hz
        simp only [Lane.activeSpan, Option.not_isSome_iff_eq_none, List.find?_eq_none] at hno
        simpa using hno z hz
    · exact absurd hy (by simp)

theorem Lane.Bounded.endClaim {n : Nat} {x : Lane} (h : x.Bounded n) (t : RepairTarget) (m : Nat) :
    (x.endClaim t m).Bounded n := by
  refine ⟨⟨h.mapSpans ?_ ?_, .quiet (quiet_map (endSpan_quiet t m) _).normalize⟩, h.2⟩
  · intro y
    unfold endSpan
    repeat' split
    all_goals rfl
  · intro y hy
    unfold endSpan
    split
    · exact hy
    · rename_i r hr
      have hw : y.cond.wantsRepair = true := by
        unfold Span.Formed at hy
        rw [← hy, hr]; rfl
      repeat' split
      · exact giveUp_formed y
      · exact hw.symm
      · exact hw.symm

theorem Lane.Bounded.abortClaim {n : Nat} {x : Lane} (h : x.Bounded n) (t : RepairTarget) :
    (x.abortClaim t).Bounded n := by
  refine ⟨⟨h.mapSpans ?_ ?_, .quiet (quiet_map (abortSpan_quiet t) _).normalize⟩, h.2⟩
  · intro y
    unfold abortSpan
    split <;> rfl
  · intro y hy
    unfold abortSpan
    split
    · exact hy
    · rename_i r hr
      unfold Span.Formed at hy ⊢
      rw [← hy, hr]; rfl

theorem Lane.Bounded.limitAttempts {n : Nat} {x : Lane} (h : x.Bounded n) (m : Nat) : (x.limitAttempts m).Bounded n := by
  refine h.withSpans (h.mapSpans ?_ ?_) fun hq => (hq.map fun y hy => ?_).normalize
  · intro y
    repeat' split
    all_goals rfl
  · intro y hy
    repeat' split
    · exact hy
    · exact giveUp_formed y
    · exact hy
  · repeat' split
    · exact hy
    · exact giveUp_quiet y
    · exact hy

theorem Lane.Bounded.clearMap {n m : Nat} {x : Lane} (h : x.Bounded n) (hm : m ≤ Config.storeCells) :
    x.clearMap.Bounded m := ⟨⟨MapFormed.empty hm, .quiet quiet_nil⟩, h.2⟩

theorem Lane.Bounded.cutToFill {n : Nat} {x : Lane} (h : x.Bounded n) : x.cutToFill.Bounded n :=
  ⟨⟨MapFormed.empty h.1.form.window, .quiet quiet_nil⟩, h.2⟩

theorem Lane.Bounded.cutTo {n : Nat} {x : Lane} (h : x.Bounded n) (b : Index) (guard : Nat) :
    (x.cutTo b guard).Bounded n := by
  unfold Lane.cutTo
  split
  · exact h.moveOn _ _ (by assumption)
  · exact h.cutToFill

theorem Lane.Bounded.abortAttempt {n : Nat} {x : Lane} (h : x.Bounded n) : x.abortAttempt.Bounded n := by
  unfold Lane.abortAttempt
  split
  · exact (h.abortClaim _).of_eq rfl rfl rfl rfl rfl
  · exact h

theorem Lane.Bounded.endAttempt {n : Nat} {x : Lane} (h : x.Bounded n) (m : Nat) : (x.endAttempt m).Bounded n := by
  unfold Lane.endAttempt
  split
  · exact h
  · rename_i t _
    exact ((h.endClaim t m).updCue t.seg.base
      fun c => { c with repaired := addUpTo Config.max16 c.repaired (x.endClaim t m).madeGood }).of_eq rfl rfl rfl rfl rfl

theorem Lane.Bounded.startAttempt {n : Nat} {x y : Lane} {m : Nat} {q : Span} (h : x.Bounded n) (hq : q ∈ x.spans)
    (hy : x.startAttempt m q = some y) : y.Bounded n := by
  unfold Lane.startAttempt at hy
  cases ha : x.activate q.first with
  | none => simp [ha] at hy
  | some z =>
    simp only [ha, Option.map_some, Option.some.injEq] at hy
    subst hy
    obtain ⟨hz, hs, he, hn⟩ := h.activate ha
    rw [he]
    refine ⟨⟨hz, ?_⟩, h.2⟩
    intro t a ht hf
    cases ht
    dsimp only at hf ⊢
    rw [hs] at hf
    have ht : spanTotal x.spans < 2 ^ 32 := by
      have h1 : spanTotal x.spans = ahead x.f x.p := h.1.form.total
      have h2 : ahead x.f x.p < 2 ^ 32 := (x.f - x.p).isLt
      omega
    obtain ⟨y, hy, rfl⟩ := List.mem_map.1 (List.mem_of_find?_eq_some hf)
    have hact := List.find?_some hf
    have hw : y.first = q.first := by
      by_contra hc
      rw [if_neg hc, hn y hy] at hact
      cases hact
    rw [if_pos hw]
    have hsame := SpansCover.same_first h.1.form.cover ht (fun w hw => (h.1.form.filled w hw).1) hy hq hw
    have h0 := (h.1.form.filled q hq).1
    have hin := h.1.form.cover.mem hq ht
    have hl := h.1.form.cover.last hq ht h0
    have htot : spanTotal x.spans = ahead x.f x.p := h.1.form.total
    have hlast : (y.setActive true).last = q.last := by
      unfold Span.last Span.setActive
      rw [hw, hsame]
    have hfirst : (y.setActive true).first = q.first := hw
    rw [hlast, hfirst]
    refine ⟨by omega, Nat.le_refl _, ?_⟩
    simp [RepairTarget.contains]

theorem Lane.Bounded.countSkip {n : Nat} {x : Lane} (h : x.Bounded n) (g : SegRef) : (x.countSkip g).Bounded n :=
  (h.updCue g.base fun c => { c with skips := bump c.skips }).of_eq rfl rfl rfl rfl rfl

theorem Lane.Bounded.updateRefill {n : Nat} {x : Lane} (h : x.Bounded n) (c : LaneSettings) :
    (x.updateRefill c).Bounded n := by
  unfold Lane.updateRefill
  split
  · exact h.of_eq rfl rfl rfl rfl rfl
  · exact h

/-! ### The playout unit -/

/-- The bounds of a playout unit. -/
def Playout.Bounded (u : Playout) : Prop :=
  u.level ≤ Config.fullGain ∧
    (match u.fall with
     | .step => True
     | .short g _ _ => g ≤ Config.fullGain)

theorem Lane.Bounded.unit {n : Nat} {x : Lane} (h : x.Bounded n) : x.plu.Bounded := h.2.2.2

theorem Lane.Bounded.setUnit {n : Nat} {x : Lane} (h : x.Bounded n) {u : Playout} (hu : u.Bounded) :
    Lane.Bounded n { x with plu := u } := ⟨h.1, h.2.1, h.2.2.1, hu⟩

theorem Playout.Bounded.of_eq {u v : Playout} (h : u.Bounded) (h1 : v.level = u.level) (h2 : v.fall = u.fall) :
    v.Bounded := by
  unfold Playout.Bounded at *
  rw [h1, h2]; exact h

theorem Playout.silence_bounded (u : Playout) : u.silence.Bounded := ⟨Nat.zero_le _, trivial⟩

theorem Playout.drop_bounded (u : Playout) : u.drop.Bounded := ⟨Nat.zero_le _, trivial⟩

theorem Playout.Bounded.beginPlanned {u : Playout} (h : u.Bounded) (b : PlayBlock) : (u.beginPlanned b).Bounded := by
  unfold Playout.beginPlanned
  split
  · exact ⟨h.1, trivial⟩
  · exact h

theorem Playout.Bounded.ramp {u : Playout} (h : u.Bounded) : u.ramp.Bounded := by
  unfold Playout.ramp
  split
  · exact h
  · exact h
  · split
    · exact ⟨Nat.le_refl _, h.2⟩
    · exact ⟨by simp only; omega, h.2⟩
  · split
    · split
      · exact u.silence_bounded
      · exact ⟨Nat.le_trans (Nat.sub_le _ _) h.1, h.2⟩
    · rename_i g r j hf
      split
      · exact u.silence_bounded
      · have hg : g ≤ Config.fullGain := by
          have := h.2
          rw [hf] at this; exact this
        refine ⟨?_, hg⟩
        refine Nat.le_trans (Nat.div_le_of_le_mul ?_) hg
        rw [Nat.mul_comm]
        exact Nat.mul_le_mul_right _ (Nat.sub_le _ _)

theorem Playout.Bounded.sendPair {u : Playout} (h : u.Bounded) (b : PlayBlock) : (u.sendPair b).Bounded :=
  ((h.beginPlanned b).ramp).of_eq rfl rfl

theorem Playout.Bounded.beginFall {u : Playout} (h : u.Bounded) : u.beginFall.Bounded := by
  unfold Playout.beginFall
  split
  · exact h
  · split
    · simp only
      split
      · exact h
      · refine ⟨h.1, ?_⟩
        simp only
        split
        · rename_i he
          split at he <;> trivial
        · rename_i he
          split at he
          · cases he
          · cases he; exact h.1
    · exact u.silence_bounded

theorem Lane.Bounded.frame {n : Nat} {x : Lane} (h : x.Bounded n) : x.frame.Bounded n := by
  unfold Lane.frame
  repeat' split
  all_goals first
    | exact h.setUnit (h.unit.sendPair _)
    | exact h

theorem Lane.Bounded.playBlock {n : Nat} {x : Lane} (h : x.Bounded n) (b : PlayBlock) : (x.playBlock b).Bounded n := by
  unfold Lane.playBlock
  split
  · simp only
    split
    · exact h.setUnit ⟨h.unit.1, trivial⟩
    · exact h
  · exact h.setUnit ((x.plu.silence_bounded).of_eq rfl rfl)
  · exact h.setUnit ((x.plu.silence_bounded).of_eq rfl rfl)

theorem Lane.Bounded.countBlock {n : Nat} {x : Lane} (h : x.Bounded n) (b : Option Index) (m k : Nat) :
    (x.countBlock b m k).Bounded n := by
  unfold Lane.countBlock
  cases b with
  | none => exact h.of_eq rfl rfl rfl rfl rfl
  | some b =>
    exact (h.updCue b fun c => { c with
      played := bump c.played
      muted := addUpTo Config.max16 c.muted (if m = 0 then 0 else 1)
      interpolated := addUpTo Config.max32 c.interpolated k }).of_eq rfl rfl rfl rfl rfl

theorem Playout.resumeGain_bounded (u : Playout) (form : BlockForm) (planned : Bool) (k : Nat) :
    (u.resumeGain form planned k).Bounded := by
  unfold Playout.resumeGain
  split <;> exact ⟨Nat.zero_le _, trivial⟩

/-! ### Other changes of a lane -/

theorem Lane.Bounded.restart {n : Nat} {x : Lane} (h : x.Bounded n) (m : WalkMode) (g : Nat) :
    (x.restart m g).Bounded n :=
  ⟨⟨MapFormed.empty h.1.form.window, .quiet quiet_nil⟩, .clear rfl, Nat.zero_le _, (x.plu.drop_bounded)⟩

theorem Lane.Bounded.skipPlayout {n : Nat} {x : Lane} (h : x.Bounded n) : x.skipPlayout.Bounded n := by
  unfold Lane.skipPlayout
  split <;> first | exact h.setUnit h.unit.beginFall | exact h.setUnit x.plu.drop_bounded | exact h

theorem Lane.Bounded.clearHold {n : Nat} {x : Lane} (h : x.Bounded n) : x.clearHold.Bounded n := by
  unfold Lane.clearHold
  split
  · exact h.of_eq rfl rfl rfl rfl rfl
  · exact h

theorem Lane.Bounded.openRun {n : Nat} {x : Lane} (h : x.Bounded n) : x.openRun.Bounded n := by
  unfold Lane.openRun
  split
  · exact h.of_eq rfl rfl rfl rfl rfl
  · exact h

theorem Lane.Bounded.clearRun {n : Nat} {x : Lane} (h : x.Bounded n) :
    Lane.Bounded n { x with run := x.run.clear } :=
  ⟨h.1, h.2.1, Nat.zero_le _, h.2.2.2⟩

theorem Lane.Bounded.finishRun {n : Nat} {x : Lane} (h : x.Bounded n) :
    Lane.Bounded n { x with run := x.run.finish } :=
  ⟨h.1, h.2.1, Nat.zero_le _, h.2.2.2⟩

/-- A lane at an APPLY, for its new window (R6). -/
theorem Lane.Bounded.applied {old new : LaneSettings} {x : Lane} (h : x.Bounded (old.share - 2))
    (hn : new.share - 2 ≤ Config.storeCells) : (x.applied old new).Bounded (new.share - 2) := by
  unfold Lane.applied
  have h0 : (if new.share = old.share then x else x.clearMap).Bounded (new.share - 2) := by
    split
    · rename_i he
      rw [he]; exact h
    · exact h.clearMap hn
  simp only
  generalize (if new.share = old.share then x else x.clearMap) = y at h0 ⊢
  have h1 : (if new.maxAttempts < old.maxAttempts && new.share != 0 then y.limitAttempts new.maxAttempts
      else y).Bounded (new.share - 2) := by
    split
    · exact h0.limitAttempts _
    · exact h0
  split
  · exact (h1.clearRun).of_eq rfl rfl rfl rfl rfl
  · exact h1.of_eq rfl rfl rfl rfl rfl

theorem Lane.Bounded.due {n : Nat} {x : Lane} (h : x.Bounded n) : x.due.Bounded n := h

theorem Lane.Bounded.refreshDue {n : Nat} {x : Lane} (h : x.Bounded n) : x.refreshDue.Bounded n := h

theorem Lane.Bounded.breakRun {n : Nat} {x : Lane} (h : x.Bounded n) : x.breakRun.Bounded n := h

end Sys2Proof.Machine
end

