-- ==== Sys2Proof/Laws/Memory.lean ====
section
/-! SUPPORT. Exchange Memory: what a write changes of what is read, and that it keeps the canonical form. -/

namespace Sys2Proof.Machine.Memory

set_option Elab.async false

/-! ### Reading a byte of a written memory -/

theorem byte_nil (a : Nat) : byte [] a = 0 := rfl

theorem byte_append_of_not_mem (m n : Memory) (a : Nat) (h : ∀ c ∈ m, c.1 ≠ a) : byte (m ++ n) a = byte n a := by
  induction m with
  | nil => rfl
  | cons c m ih =>
    have hc : c.1 ≠ a := h c (by simp)
    simp [byte, hc, ih (fun d hd => h d (by simp [hd]))]

theorem byte_append_of_not_mem_right (m n : Memory) (a : Nat) (h : ∀ c ∈ n, c.1 ≠ a) :
    byte (m ++ n) a = byte m a := by
  induction m with
  | nil => simpa using byte_append_of_not_mem n [] a h
  | cons c m ih => simp [byte, ih]

theorem byte_filter (m : Memory) (p : Nat → Bool) (a : Nat) (h : p a = true) :
    byte (m.filter (fun c => p c.1)) a = byte m a := by
  induction m with
  | nil => rfl
  | cons c m ih =>
    by_cases hc : c.1 = a
    · subst hc; simp [byte, h]
    · by_cases hp : p c.1 = true
      · simp [byte, hc, hp, ih]
      · simp [byte, hc, hp, ih]

theorem listing_ge (bs : List Byte) (base : Nat) : ∀ c ∈ listing base bs, base ≤ c.1 := by
  induction bs generalizing base with
  | nil => simp [listing]
  | cons b bs ih =>
    intro c hc
    unfold listing at hc
    split at hc
    · exact Nat.le_of_succ_le (ih (base + 1) c hc)
    · rcases List.mem_cons.1 hc with rfl | hc
      · exact Nat.le_refl _
      · exact Nat.le_of_succ_le (ih (base + 1) c hc)

theorem listing_lt (bs : List Byte) (base : Nat) : ∀ c ∈ listing base bs, c.1 < base + bs.length := by
  induction bs generalizing base with
  | nil => simp [listing]
  | cons b bs ih =>
    intro c hc
    unfold listing at hc
    split at hc
    · have := ih (base + 1) c hc
      simp only [List.length_cons]; omega
    · rcases List.mem_cons.1 hc with rfl | hc
      · simp
      · have := ih (base + 1) c hc
        simp only [List.length_cons]; omega

theorem byte_listing (bs : List Byte) (base a : Nat) (h : base ≤ a) :
    byte (listing base bs) a = bs.getD (a - base) 0 := by
  induction bs generalizing base with
  | nil => rfl
  | cons b bs ih =>
    unfold listing
    by_cases ha : base = a
    · subst ha
      split
      · rename_i hb
        have := byte_append_of_not_mem (listing (base + 1) bs) [] base
          (fun c hc he => by have := listing_ge bs (base + 1) c hc; omega)
        simp only [List.append_nil] at this
        rw [this, hb]
        simp [byte, unlisted]
      · simp [byte]
    · have hlt : base + 1 ≤ a := by omega
      have hsub : a - base = (a - (base + 1)) + 1 := by omega
      split
      · rw [ih (base + 1) hlt, hsub]; simp
      · simp only [byte, ha, if_false]
        rw [ih (base + 1) hlt, hsub]; simp

/-- A byte of a written memory: from the written bytes inside, as before outside. -/
theorem byte_write (m : Memory) (base : Nat) (bs : List Byte) (a : Nat) :
    byte (write m base bs) a =
      if base ≤ a ∧ a < base + bs.length then bs.getD (a - base) 0 else byte m a := by
  unfold write
  by_cases hlow : a < base
  · rw [byte_append_of_not_mem_right]
    · have : byte (m.filter (fun c => decide (c.1 < base))) a = byte m a :=
        byte_filter m (fun k => decide (k < base)) a (by simp [hlow])
      rw [this, if_neg (by omega)]
    · intro c hc
      rcases List.mem_append.1 hc with hc | hc
      · have := listing_ge bs base c hc; omega
      · have := List.mem_filter.1 hc
        simp only [decide_eq_true_eq] at this; omega
  · rw [byte_append_of_not_mem]
    · by_cases hin : a < base + bs.length
      · rw [byte_append_of_not_mem_right, byte_listing _ _ _ (by omega), if_pos ⟨by omega, hin⟩]
        intro c hc
        have := List.mem_filter.1 hc
        simp only [decide_eq_true_eq] at this; omega
      · rw [byte_append_of_not_mem, if_neg (by omega)]
        · exact byte_filter m (fun k => decide (base + bs.length ≤ k)) a (by simp; omega)
        · intro c hc
          have := listing_lt bs base c hc; omega
    · intro c hc
      have := List.mem_filter.1 hc
      simp only [decide_eq_true_eq] at this; omega

theorem byte_write_out (m : Memory) (base : Nat) (bs : List Byte) (a : Nat)
    (h : a < base ∨ base + bs.length ≤ a) : byte (write m base bs) a = byte m a := by
  rw [byte_write, if_neg (by omega)]

theorem word_write_out (m : Memory) (base : Nat) (bs : List Byte) (a : Nat)
    (h : a + 4 ≤ base ∨ base + bs.length ≤ a) : word (write m base bs) a = word m a := by
  unfold word
  rw [byte_write_out, byte_write_out, byte_write_out, byte_write_out] <;> omega

theorem bytes_of_word (w : Word) :
    (w.extractLsb' 24 8 ++ w.extractLsb' 16 8 ++ w.extractLsb' 8 8 ++ w.extractLsb' 0 8 : Word) = w := by
  apply BitVec.eq_of_getLsbD_eq
  intro i hi
  simp only [BitVec.getLsbD_append, BitVec.getLsbD_extractLsb']
  by_cases h0 : i < 8
  · simp [h0]
  · by_cases h1 : i - 8 < 8
    · simp [h0, h1]; congr 1; omega
    · by_cases h2 : i - 8 - 8 < 8
      · simp [h0, h1, h2]; congr 1; omega
      · have h3 : i - 8 - 8 - 8 < 8 := by omega
        simp [h0, h1, h2, h3]; congr 1; omega

theorem wordBytes_length (w : Word) : (wordBytes w).length = 4 := rfl

theorem flatMap_wordBytes_length (ws : List Word) : (ws.flatMap wordBytes).length = 4 * ws.length := by
  induction ws with
  | nil => rfl
  | cons w ws ih => simp [List.flatMap_cons, ih, wordBytes_length]; omega

theorem getD_flatMap_wordBytes (ws : List Word) (k j : Nat) (hj : j < 4) :
    (ws.flatMap wordBytes).getD (4 * k + j) 0 = (wordBytes (ws.getD k 0)).getD j 0 := by
  induction ws generalizing k with
  | nil =>
    have : (wordBytes 0).getD j 0 = 0 := by
      have : j = 0 ∨ j = 1 ∨ j = 2 ∨ j = 3 := by omega
      rcases this with rfl | rfl | rfl | rfl <;> rfl
    simpa using this.symm
  | cons w ws ih =>
    cases k with
    | zero =>
      simp only [List.flatMap_cons, Nat.mul_zero, Nat.zero_add, List.getD_cons_zero]
      rw [List.getD_append _ _ _ _ (by rw [wordBytes_length]; exact hj)]
    | succ k =>
      simp only [List.flatMap_cons, List.getD_cons_succ]
      rw [List.getD_append_right _ _ _ _ (by rw [wordBytes_length]; omega), wordBytes_length]
      have : 4 * (k + 1) + j - 4 = 4 * k + j := by omega
      rw [this, ih k]

/-- A word read where a list of words was written. -/
theorem word_write_in (m : Memory) (base : Nat) (ws : List Word) (k : Nat) (h : k < ws.length) :
    word (write m base (ws.flatMap wordBytes)) (base + 4 * k) = ws.getD k 0 := by
  have hl := flatMap_wordBytes_length ws
  have hb : ∀ j, j < 4 → byte (write m base (ws.flatMap wordBytes)) (base + 4 * k + j) =
      (wordBytes (ws.getD k 0)).getD j 0 := by
    intro j hj
    rw [byte_write, if_pos (by omega)]
    have : base + 4 * k + j - base = 4 * k + j := by omega
    rw [this, getD_flatMap_wordBytes ws k j hj]
  have h0 := hb 0 (by omega)
  have h1 := hb 1 (by omega)
  have h2 := hb 2 (by omega)
  have h3 := hb 3 (by omega)
  unfold word
  rw [h1, h2, h3]
  simp only [Nat.add_zero] at h0
  rw [h0]
  exact bytes_of_word _

/-! ### The canonical form -/

theorem wfFrom_mono (m : Memory) (i j : Nat) (hij : i ≤ j) (h : wfFrom j m = true) : wfFrom i m = true := by
  cases m with
  | nil => rfl
  | cons c m =>
    simp only [wfFrom, Bool.and_eq_true, decide_eq_true_eq] at h ⊢
    exact ⟨⟨⟨by omega, h.1.1.2⟩, h.1.2⟩, h.2⟩

theorem wfFrom_mem (m : Memory) (low : Nat) (h : wfFrom low m = true) :
    ∀ c ∈ m, low ≤ c.1 ∧ c.1 < size ∧ c.2 ≠ 0 := by
  induction m generalizing low with
  | nil => simp
  | cons d m ih =>
    intro c hc
    simp only [wfFrom, Bool.and_eq_true, decide_eq_true_eq] at h
    rcases List.mem_cons.1 hc with rfl | hc
    · exact ⟨h.1.1.1, h.1.1.2, h.1.2⟩
    · have := ih (d.1 + 1) h.2 c hc
      exact ⟨by omega, this.2⟩

theorem wfFrom_filter (m : Memory) (low : Nat) (p : Host.Cell → Bool) (h : wfFrom low m = true) :
    wfFrom low (m.filter p) = true := by
  induction m generalizing low with
  | nil => rfl
  | cons d m ih =>
    simp only [wfFrom, Bool.and_eq_true, decide_eq_true_eq] at h
    by_cases hp : p d = true
    · simp only [List.filter_cons, hp, if_true, wfFrom, Bool.and_eq_true, decide_eq_true_eq]
      exact ⟨h.1, ih (d.1 + 1) h.2⟩
    · rw [List.filter_cons_of_neg hp]
      exact wfFrom_mono _ _ _ (by omega) (ih (d.1 + 1) h.2)

theorem wfFrom_append (m n : Memory) (low mid : Nat) (hle : low ≤ mid) (hm : wfFrom low m = true)
    (hlt : ∀ c ∈ m, c.1 < mid) (hn : wfFrom mid n = true) : wfFrom low (m ++ n) = true := by
  induction m generalizing low with
  | nil => exact wfFrom_mono _ _ _ hle hn
  | cons d m ih =>
    simp only [wfFrom, Bool.and_eq_true, decide_eq_true_eq, List.cons_append] at hm ⊢
    have hd := hlt d (by simp)
    exact ⟨hm.1, ih (d.1 + 1) (by omega) hm.2 (fun c hc => hlt c (by simp [hc]))⟩

theorem wfFrom_listing (bs : List Byte) (base : Nat) (h : base + bs.length ≤ size) :
    wfFrom base (listing base bs) = true := by
  induction bs generalizing base with
  | nil => rfl
  | cons b bs ih =>
    simp only [List.length_cons] at h
    unfold listing
    split
    · exact wfFrom_mono _ _ _ (by omega) (ih (base + 1) (by omega))
    · rename_i hb
      simp only [wfFrom, Bool.and_eq_true, decide_eq_true_eq]
      exact ⟨⟨⟨Nat.le_refl _, by omega⟩, hb⟩, ih (base + 1) (by omega)⟩

theorem wfFrom_raise (m : Memory) (low mid : Nat) (h : wfFrom low m = true) (hge : ∀ c ∈ m, mid ≤ c.1) :
    wfFrom mid m = true := by
  cases m with
  | nil => rfl
  | cons d m =>
    simp only [wfFrom, Bool.and_eq_true, decide_eq_true_eq] at h ⊢
    exact ⟨⟨⟨hge d (by simp), h.1.1.2⟩, h.1.2⟩, h.2⟩

/-- A write inside Exchange Memory keeps the canonical form. -/
theorem wf_write (m : Memory) (base : Nat) (bs : List Byte) (h : wf m = true) (hb : base + bs.length ≤ size) :
    wf (write m base bs) = true := by
  unfold wf write
  refine wfFrom_append _ _ 0 base (Nat.zero_le _) (wfFrom_filter _ _ _ h) ?_ ?_
  · intro c hc
    have := List.mem_filter.1 hc
    simpa using this.2
  · refine wfFrom_append _ _ base (base + bs.length) (by omega) (wfFrom_listing bs base hb)
      (fun c hc => listing_lt bs base c hc) ?_
    refine wfFrom_raise _ 0 _ (wfFrom_filter _ _ _ h) ?_
    intro c hc
    have := List.mem_filter.1 hc
    simpa using this.2

theorem byte_of_not_mem (m : Memory) (a : Nat) (h : ∀ c ∈ m, c.1 ≠ a) : byte m a = 0 := by
  have := byte_append_of_not_mem m [] a h
  simpa [byte, unlisted] using this

/-- A byte past the end of Exchange Memory reads 0. -/
theorem byte_past_end (m : Memory) (a : Nat) (h : wf m = true) (ha : size ≤ a) : byte m a = 0 :=
  byte_of_not_mem m a fun c hc he => by have := (wfFrom_mem m 0 h c hc).2.1; omega

/-- Equal memories: the canonical form leaves one list for what is read. -/
theorem wfFrom_ext (m n : Memory) (low : Nat) (hm : wfFrom low m = true) (hn : wfFrom low n = true)
    (h : ∀ a, byte m a = byte n a) : m = n := by
  induction m generalizing n low with
  | nil =>
    cases n with
    | nil => rfl
    | cons d n =>
      have hd := (wfFrom_mem _ _ hn d (by simp)).2.2
      have := h d.1
      simp only [byte, if_true] at this
      exact absurd this.symm hd
  | cons c m ih =>
    cases n with
    | nil =>
      have hc := (wfFrom_mem _ _ hm c (by simp)).2.2
      have := h c.1
      simp only [byte, if_true] at this
      exact absurd this hc
    | cons d n =>
      have hm' := hm
      have hn' := hn
      simp only [wfFrom, Bool.and_eq_true, decide_eq_true_eq] at hm hn
      have hcd : c.1 = d.1 := by
        rcases Nat.lt_trichotomy c.1 d.1 with hlt | he | hgt
        · have hb := h c.1
          have hz : byte (d :: n) c.1 = 0 := by
            apply byte_of_not_mem
            intro e he
            rcases List.mem_cons.1 he with rfl | he
            · omega
            · have := (wfFrom_mem n _ hn.2 e he).1; omega
          rw [hz] at hb
          simp only [byte, if_true] at hb
          exact absurd hb hm.1.2
        · exact he
        · have hb := h d.1
          have hz : byte (c :: m) d.1 = 0 := by
            apply byte_of_not_mem
            intro e he
            rcases List.mem_cons.1 he with rfl | he
            · omega
            · have := (wfFrom_mem m _ hm.2 e he).1; omega
          rw [hz] at hb
          simp only [byte, if_true] at hb
          exact absurd hb.symm hn.1.2
      have hv : c.2 = d.2 := by
        have := h c.1
        simpa [byte, hcd] using this
      have hcd' : c = d := Prod.ext hcd hv
      subst hcd'
      congr 1
      refine ih n (c.1 + 1) hm.2 hn.2 ?_
      intro a
      by_cases ha : c.1 = a
      · subst ha
        rw [byte_of_not_mem m c.1 fun e he => by have := (wfFrom_mem m _ hm.2 e he).1; omega,
          byte_of_not_mem n c.1 fun e he => by have := (wfFrom_mem n _ hn.2 e he).1; omega]
      · have := h a
        simpa [byte, ha] using this

end Sys2Proof.Machine.Memory
end

