-- ==== Sys2Proof/Laws/Overlap.lean ====
section
/-! SUPPORT. The host accesses that fall within an event (R199, log 7): what the writes and reads of the event leave of them,
and that their commits lie in Exchange Memory. -/

namespace Sys2Proof.Machine

set_option Elab.async false

/-! ### What the event writes and reads -/

@[simp] theorem Overlap.within_wrote (o : Overlap) (a : Nat) (w : Word) (b : Option Word) :
    (o.wrote a w b).within = o.within := rfl

@[simp] theorem Overlap.now_wrote (o : Overlap) (a : Nat) (w : Word) (b : Option Word) :
    (o.wrote a w b).now = o.now.wrote := rfl

@[simp] theorem Overlap.schedule_wrote (o : Overlap) (a : Nat) (w : Word) (b : Option Word) :
    (o.wrote a w b).schedule = o.schedule := rfl

@[simp] theorem Overlap.within_wroteWords (m : Memory) (o : Overlap) (a : Nat) (ws : List Word) :
    (o.wroteWords m a ws).within = o.within := by
  induction ws generalizing o a with
  | nil => rfl
  | cons w ws ih => simp [wroteWords, ih]

/-- So many words written. -/
theorem Overlap.now_wroteWords (m : Memory) (o : Overlap) (a : Nat) (ws : List Word) :
    (o.wroteWords m a ws).now = { o.now with writes := o.now.writes + ws.length } := by
  induction ws generalizing o a with
  | nil => rfl
  | cons w ws ih => simp [wroteWords, ih, Moment.wrote, Nat.add_assoc, Nat.add_comm 1]

/-- No word read: the moment stands. -/
@[simp] theorem Moment.read_zero (m : Moment) : m.read 0 = m := rfl

/-- No commit falls within the event: it reads every word as it stands. -/
@[simp] theorem State.seenWord_of_within_nil {s : State} (h : s.overlap.within = []) (i a : Nat) :
    s.seenWord i a = s.word a := by
  simp [State.seenWord, Overlap.fallen, h]

/-- A commit that the event finds is one of those that fall within it, at the address read. -/
theorem Overlap.mem_fallen {o : Overlap} {i a : Nat} {p : Unlanded → Bool} {c : Commit} (h : c ∈ o.fallen i a p) :
    c.address = a ∧ ∃ x ∈ o.within, x.commit = some c := by
  unfold Overlap.fallen at h
  obtain ⟨x, hx, hc⟩ := List.mem_filterMap.1 h
  split at hc
  · obtain ⟨hc, ha⟩ := Option.filter_eq_some_iff.1 hc
    exact ⟨by simpa using ha, x, hx, hc⟩
  · cases hc

/-- The word that the event reads is the one that stands, unless a commit to its address falls within the event. -/
theorem State.seenWord_cases (s : State) (i a : Nat) :
    s.seenWord i a = s.word a ∨ ∃ x ∈ s.overlap.within, ∃ c, x.commit = some c ∧ c.address = a := by
  cases h : s.overlap.fallen i a fun u => u.address == a with
  | nil => exact Or.inl (by simp [State.seenWord, h])
  | cons c l =>
    obtain ⟨ha, x, hx, hc⟩ := Overlap.mem_fallen (h ▸ List.mem_cons_self : c ∈ s.overlap.fallen i a _)
    exact Or.inr ⟨x, hx, c, hc, ha⟩

/-! ### The look-ahead -/

/-- The window and the home area lie in Exchange Memory (R196). -/
theorem HostPort.xmTarget_inside {h : HostPort} {o a : Nat} (ha : h.xmTarget o = some a) : 4 * (a / 4) + 4 ≤ Memory.size := by
  have hp : h.page.toNat < 8 := h.page.isLt
  have hs : Memory.size = 32768 := rfl
  unfold HostPort.xmTarget hostTarget at ha
  by_cases h1 : o < 0x1000
  · simp only [h1, if_true, Option.some.injEq] at ha
    omega
  · by_cases h2 : o < 0x1F00
    · simp only [h1, h2, if_true, if_false, Option.some.injEq] at ha
      omega
    · by_cases h3 : o < 0x1F0C <;> simp [h1, h2, h3] at ha

/-- Every commit of the look-ahead lies in Exchange Memory. -/
theorem accessesWithin_inside (own : Option CellId) (h : HostPort) (m : Moment) (b : Bool) (ms : List Moment)
    (l : List Instr) :
    ∀ x ∈ accessesWithin own h m b ms l, ∀ c, x.commit = some c → c.address + 4 ≤ Memory.size := by
  induction l generalizing h m b ms with
  | nil => cases ms <;> exact fun _ hx => nomatch hx
  | cons i l ih =>
    cases ms with
    | nil => exact fun _ hx => nomatch hx
    | cons k ms =>
      unfold accessesWithin
      split
      · exact fun _ hx => nomatch hx
      · rename_i x _
        split
        · intro y hy c hc
          rcases List.mem_cons.1 hy with rfl | hy
          · dsimp only at hc
            split at hc
            · cases hc
            · cases x <;> simp only [HostPort.commits, reduceCtorEq, Option.map_eq_some_iff] at hc
              obtain ⟨a, ha, rfl⟩ := hc
              exact HostPort.xmTarget_inside ha
          · exact ih _ _ _ _ y hy c hc
        · exact ih _ _ _ _

/-- Without a schedule no access falls within an event. -/
theorem accessesWithin_nil (own : Option CellId) (h : HostPort) (m : Moment) (b : Bool) (l : List Instr) :
    accessesWithin own h m b [] l = [] := by
  cases l <;> rfl

end Sys2Proof.Machine
end

