-- ==== Sys2Proof/Laws/State.lean ====
section
/-! SUPPORT. One lemma per field per update of the state, so that no proof unfolds a record update. -/

namespace Sys2Proof.Machine.State

set_option Elab.async false


section
variable (s : State) (l : LaneId) (x : Lane)

@[simp] theorem host_setLane : (s.setLane l x).host = s.host := by cases l <;> rfl
@[simp] theorem pins_setLane : (s.setLane l x).pins = s.pins := by cases l <;> rfl
@[simp] theorem attention_setLane : (s.setLane l x).attention = s.attention := by cases l <;> rfl
@[simp] theorem xm_setLane : (s.setLane l x).xm = s.xm := by cases l <;> rfl
@[simp] theorem applied_setLane : (s.setLane l x).applied = s.applied := by cases l <;> rfl
@[simp] theorem generation_setLane : (s.setLane l x).generation = s.generation := by cases l <;> rfl
@[simp] theorem overlap_setLane : (s.setLane l x).overlap = s.overlap := by cases l <;> rfl
@[simp] theorem store_setLane : (s.setLane l x).store = s.store := by cases l <;> rfl
@[simp] theorem tlc0_setLane : (s.setLane l x).tlc0 = s.tlc0 := by cases l <;> rfl
@[simp] theorem tlc1_setLane : (s.setLane l x).tlc1 = s.tlc1 := by cases l <;> rfl
@[simp] theorem splice_setLane : (s.setLane l x).splice = s.splice := by cases l <;> rfl
@[simp] theorem loader_setLane : (s.setLane l x).loader = s.loader := by cases l <;> rfl
@[simp] theorem pending_setLane : (s.setLane l x).pending = s.pending := by cases l <;> rfl
@[simp] theorem tlc_setLane (k : LaneId) : (s.setLane l x).tlc k = s.tlc k := by cases l <;> cases k <;> rfl
@[simp] theorem lane_setLane : (s.setLane l x).lane l = x := by cases l <;> rfl
@[simp] theorem lane_setLane_other : (s.setLane l x).lane (LaneId.other l) = s.lane (LaneId.other l) := by cases l <;> rfl
@[simp] theorem settings_setLane (k : LaneId) : (s.setLane l x).settings k = s.settings k := by cases l <;> cases k <;> rfl

end

section
variable (s : State) (l : LaneId) (g : Lane → Lane)

@[simp] theorem host_updLane : (s.updLane l g).host = s.host := by cases l <;> rfl
@[simp] theorem pins_updLane : (s.updLane l g).pins = s.pins := by cases l <;> rfl
@[simp] theorem attention_updLane : (s.updLane l g).attention = s.attention := by cases l <;> rfl
@[simp] theorem xm_updLane : (s.updLane l g).xm = s.xm := by cases l <;> rfl
@[simp] theorem applied_updLane : (s.updLane l g).applied = s.applied := by cases l <;> rfl
@[simp] theorem generation_updLane : (s.updLane l g).generation = s.generation := by cases l <;> rfl
@[simp] theorem overlap_updLane : (s.updLane l g).overlap = s.overlap := by cases l <;> rfl
@[simp] theorem store_updLane : (s.updLane l g).store = s.store := by cases l <;> rfl
@[simp] theorem tlc0_updLane : (s.updLane l g).tlc0 = s.tlc0 := by cases l <;> rfl
@[simp] theorem tlc1_updLane : (s.updLane l g).tlc1 = s.tlc1 := by cases l <;> rfl
@[simp] theorem splice_updLane : (s.updLane l g).splice = s.splice := by cases l <;> rfl
@[simp] theorem loader_updLane : (s.updLane l g).loader = s.loader := by cases l <;> rfl
@[simp] theorem pending_updLane : (s.updLane l g).pending = s.pending := by cases l <;> rfl
@[simp] theorem tlc_updLane (k : LaneId) : (s.updLane l g).tlc k = s.tlc k := by cases l <;> cases k <;> rfl
@[simp] theorem lane_updLane : (s.updLane l g).lane l = g (s.lane l) := by cases l <;> rfl
@[simp] theorem lane_updLane_other : (s.updLane l g).lane (LaneId.other l) = s.lane (LaneId.other l) := by cases l <;> rfl
@[simp] theorem settings_updLane (k : LaneId) : (s.updLane l g).settings k = s.settings k := by cases l <;> cases k <;> rfl

end

section
variable (s : State) (l : LaneId) (t : Tlc)

@[simp] theorem host_setTlc : (s.setTlc l t).host = s.host := by cases l <;> rfl
@[simp] theorem pins_setTlc : (s.setTlc l t).pins = s.pins := by cases l <;> rfl
@[simp] theorem attention_setTlc : (s.setTlc l t).attention = s.attention := by cases l <;> rfl
@[simp] theorem xm_setTlc : (s.setTlc l t).xm = s.xm := by cases l <;> rfl
@[simp] theorem applied_setTlc : (s.setTlc l t).applied = s.applied := by cases l <;> rfl
@[simp] theorem generation_setTlc : (s.setTlc l t).generation = s.generation := by cases l <;> rfl
@[simp] theorem overlap_setTlc : (s.setTlc l t).overlap = s.overlap := by cases l <;> rfl
@[simp] theorem store_setTlc : (s.setTlc l t).store = s.store := by cases l <;> rfl
@[simp] theorem splice_setTlc : (s.setTlc l t).splice = s.splice := by cases l <;> rfl
@[simp] theorem loader_setTlc : (s.setTlc l t).loader = s.loader := by cases l <;> rfl
@[simp] theorem pending_setTlc : (s.setTlc l t).pending = s.pending := by cases l <;> rfl
@[simp] theorem laneA_setTlc : (s.setTlc l t).laneA = s.laneA := by cases l <;> rfl
@[simp] theorem laneB_setTlc : (s.setTlc l t).laneB = s.laneB := by cases l <;> rfl
@[simp] theorem lane_setTlc (k : LaneId) : (s.setTlc l t).lane k = s.lane k := by cases l <;> cases k <;> rfl
@[simp] theorem tlc_setTlc : (s.setTlc l t).tlc l = t := by cases l <;> rfl
@[simp] theorem tlc_setTlc_other : (s.setTlc l t).tlc (LaneId.other l) = s.tlc (LaneId.other l) := by cases l <;> rfl
@[simp] theorem settings_setTlc (k : LaneId) : (s.setTlc l t).settings k = s.settings k := by cases l <;> cases k <;> rfl

end

section
variable (s : State) (l : LaneId) (g : Tlc → Tlc)

@[simp] theorem host_updTlc : (s.updTlc l g).host = s.host := by cases l <;> rfl
@[simp] theorem pins_updTlc : (s.updTlc l g).pins = s.pins := by cases l <;> rfl
@[simp] theorem attention_updTlc : (s.updTlc l g).attention = s.attention := by cases l <;> rfl
@[simp] theorem xm_updTlc : (s.updTlc l g).xm = s.xm := by cases l <;> rfl
@[simp] theorem applied_updTlc : (s.updTlc l g).applied = s.applied := by cases l <;> rfl
@[simp] theorem generation_updTlc : (s.updTlc l g).generation = s.generation := by cases l <;> rfl
@[simp] theorem overlap_updTlc : (s.updTlc l g).overlap = s.overlap := by cases l <;> rfl
@[simp] theorem store_updTlc : (s.updTlc l g).store = s.store := by cases l <;> rfl
@[simp] theorem splice_updTlc : (s.updTlc l g).splice = s.splice := by cases l <;> rfl
@[simp] theorem loader_updTlc : (s.updTlc l g).loader = s.loader := by cases l <;> rfl
@[simp] theorem pending_updTlc : (s.updTlc l g).pending = s.pending := by cases l <;> rfl
@[simp] theorem laneA_updTlc : (s.updTlc l g).laneA = s.laneA := by cases l <;> rfl
@[simp] theorem laneB_updTlc : (s.updTlc l g).laneB = s.laneB := by cases l <;> rfl
@[simp] theorem lane_updTlc (k : LaneId) : (s.updTlc l g).lane k = s.lane k := by cases l <;> cases k <;> rfl
@[simp] theorem tlc_updTlc : (s.updTlc l g).tlc l = g (s.tlc l) := by cases l <;> rfl
@[simp] theorem tlc_updTlc_other : (s.updTlc l g).tlc (LaneId.other l) = s.tlc (LaneId.other l) := by cases l <;> rfl

end

section
variable (s : State) (g : Loader → Loader)

@[simp] theorem host_updLoader : (s.updLoader g).host = s.host := rfl
@[simp] theorem pins_updLoader : (s.updLoader g).pins = s.pins := rfl
@[simp] theorem attention_updLoader : (s.updLoader g).attention = s.attention := rfl
@[simp] theorem xm_updLoader : (s.updLoader g).xm = s.xm := rfl
@[simp] theorem applied_updLoader : (s.updLoader g).applied = s.applied := rfl
@[simp] theorem generation_updLoader : (s.updLoader g).generation = s.generation := rfl
@[simp] theorem overlap_updLoader : (s.updLoader g).overlap = s.overlap := rfl
@[simp] theorem store_updLoader : (s.updLoader g).store = s.store := rfl
@[simp] theorem tlc0_updLoader : (s.updLoader g).tlc0 = s.tlc0 := rfl
@[simp] theorem tlc1_updLoader : (s.updLoader g).tlc1 = s.tlc1 := rfl
@[simp] theorem splice_updLoader : (s.updLoader g).splice = s.splice := rfl
@[simp] theorem pending_updLoader : (s.updLoader g).pending = s.pending := rfl
@[simp] theorem laneA_updLoader : (s.updLoader g).laneA = s.laneA := rfl
@[simp] theorem laneB_updLoader : (s.updLoader g).laneB = s.laneB := rfl
@[simp] theorem loader_updLoader : (s.updLoader g).loader = g s.loader := rfl
@[simp] theorem lane_updLoader (k : LaneId) : (s.updLoader g).lane k = s.lane k := by cases k <;> rfl
@[simp] theorem tlc_updLoader (k : LaneId) : (s.updLoader g).tlc k = s.tlc k := by cases k <;> rfl

end

section
variable (s : State) (a : Nat) (ws : List Word)

@[simp] theorem host_setWords : (s.setWords a ws).host = s.host := rfl
@[simp] theorem pins_setWords : (s.setWords a ws).pins = s.pins := rfl
@[simp] theorem attention_setWords : (s.setWords a ws).attention = s.attention := rfl
@[simp] theorem applied_setWords : (s.setWords a ws).applied = s.applied := rfl
@[simp] theorem generation_setWords : (s.setWords a ws).generation = s.generation := rfl
@[simp] theorem store_setWords : (s.setWords a ws).store = s.store := rfl
@[simp] theorem tlc0_setWords : (s.setWords a ws).tlc0 = s.tlc0 := rfl
@[simp] theorem tlc1_setWords : (s.setWords a ws).tlc1 = s.tlc1 := rfl
@[simp] theorem splice_setWords : (s.setWords a ws).splice = s.splice := rfl
@[simp] theorem loader_setWords : (s.setWords a ws).loader = s.loader := rfl
@[simp] theorem pending_setWords : (s.setWords a ws).pending = s.pending := rfl
@[simp] theorem xm_setWords : (s.setWords a ws).xm = Memory.write s.xm a (ws.flatMap wordBytes) := rfl
@[simp] theorem within_setWords : (s.setWords a ws).overlap.within = s.overlap.within := by simp [setWords]
@[simp] theorem laneA_setWords : (s.setWords a ws).laneA = s.laneA := rfl
@[simp] theorem laneB_setWords : (s.setWords a ws).laneB = s.laneB := rfl
@[simp] theorem now_setWords : (s.setWords a ws).overlap.now =
    { s.overlap.now with writes := s.overlap.now.writes + ws.length } := Overlap.now_wroteWords ..
@[simp] theorem lane_setWords (k : LaneId) : (s.setWords a ws).lane k = s.lane k := by cases k <;> rfl
@[simp] theorem tlc_setWords (k : LaneId) : (s.setWords a ws).tlc k = s.tlc k := by cases k <;> rfl

end

section
variable (s : State) (a : Nat) (w : Word)

@[simp] theorem host_setWord : (s.setWord a w).host = s.host := rfl
@[simp] theorem pins_setWord : (s.setWord a w).pins = s.pins := rfl
@[simp] theorem attention_setWord : (s.setWord a w).attention = s.attention := rfl
@[simp] theorem applied_setWord : (s.setWord a w).applied = s.applied := rfl
@[simp] theorem generation_setWord : (s.setWord a w).generation = s.generation := rfl
@[simp] theorem store_setWord : (s.setWord a w).store = s.store := rfl
@[simp] theorem tlc0_setWord : (s.setWord a w).tlc0 = s.tlc0 := rfl
@[simp] theorem tlc1_setWord : (s.setWord a w).tlc1 = s.tlc1 := rfl
@[simp] theorem splice_setWord : (s.setWord a w).splice = s.splice := rfl
@[simp] theorem loader_setWord : (s.setWord a w).loader = s.loader := rfl
@[simp] theorem pending_setWord : (s.setWord a w).pending = s.pending := rfl
@[simp] theorem laneA_setWord : (s.setWord a w).laneA = s.laneA := rfl
@[simp] theorem laneB_setWord : (s.setWord a w).laneB = s.laneB := rfl
@[simp] theorem xm_setWord : (s.setWord a w).xm =
    Memory.write s.xm a (wordBytes w) := by simp [setWord, setWords]
@[simp] theorem within_setWord : (s.setWord a w).overlap.within = s.overlap.within := rfl
@[simp] theorem now_setWord : (s.setWord a w).overlap.now = s.overlap.now.wrote := rfl
@[simp] theorem lane_setWord (k : LaneId) : (s.setWord a w).lane k = s.lane k := by cases k <;> rfl
@[simp] theorem tlc_setWord (k : LaneId) : (s.setWord a w).tlc k = s.tlc k := by cases k <;> rfl

end

section
variable (s : State) (n : NewsWord) (b : Word)

@[simp] theorem host_setNews : (s.setNews n b).host = s.host := rfl
@[simp] theorem pins_setNews : (s.setNews n b).pins = s.pins := rfl
@[simp] theorem attention_setNews : (s.setNews n b).attention = s.attention := rfl
@[simp] theorem applied_setNews : (s.setNews n b).applied = s.applied := rfl
@[simp] theorem generation_setNews : (s.setNews n b).generation = s.generation := rfl
@[simp] theorem store_setNews : (s.setNews n b).store = s.store := rfl
@[simp] theorem tlc0_setNews : (s.setNews n b).tlc0 = s.tlc0 := rfl
@[simp] theorem tlc1_setNews : (s.setNews n b).tlc1 = s.tlc1 := rfl
@[simp] theorem splice_setNews : (s.setNews n b).splice = s.splice := rfl
@[simp] theorem loader_setNews : (s.setNews n b).loader = s.loader := rfl
@[simp] theorem pending_setNews : (s.setNews n b).pending = s.pending := rfl
@[simp] theorem laneA_setNews : (s.setNews n b).laneA = s.laneA := rfl
@[simp] theorem laneB_setNews : (s.setNews n b).laneB = s.laneB := rfl
@[simp] theorem within_setNews : (s.setNews n b).overlap.within = s.overlap.within := rfl
@[simp] theorem now_setNews : (s.setNews n b).overlap.now = s.overlap.now.wrote := rfl
@[simp] theorem lane_setNews (k : LaneId) : (s.setNews n b).lane k = s.lane k := by cases k <;> rfl
@[simp] theorem tlc_setNews (k : LaneId) : (s.setNews n b).tlc k = s.tlc k := by cases k <;> rfl

@[simp] theorem xm_setNews : (s.setNews n b).xm = Memory.write s.xm n.offset (wordBytes (s.news n ||| b)) := rfl

end

section
variable (s : State) (n : Nat)

@[simp] theorem host_countReads : (s.countReads n).host = s.host := rfl
@[simp] theorem pins_countReads : (s.countReads n).pins = s.pins := rfl
@[simp] theorem attention_countReads : (s.countReads n).attention = s.attention := rfl
@[simp] theorem applied_countReads : (s.countReads n).applied = s.applied := rfl
@[simp] theorem generation_countReads : (s.countReads n).generation = s.generation := rfl
@[simp] theorem store_countReads : (s.countReads n).store = s.store := rfl
@[simp] theorem tlc0_countReads : (s.countReads n).tlc0 = s.tlc0 := rfl
@[simp] theorem tlc1_countReads : (s.countReads n).tlc1 = s.tlc1 := rfl
@[simp] theorem splice_countReads : (s.countReads n).splice = s.splice := rfl
@[simp] theorem loader_countReads : (s.countReads n).loader = s.loader := rfl
@[simp] theorem pending_countReads : (s.countReads n).pending = s.pending := rfl
@[simp] theorem laneA_countReads : (s.countReads n).laneA = s.laneA := rfl
@[simp] theorem laneB_countReads : (s.countReads n).laneB = s.laneB := rfl
@[simp] theorem xm_countReads : (s.countReads n).xm = s.xm := rfl
@[simp] theorem within_countReads : (s.countReads n).overlap.within = s.overlap.within := rfl
@[simp] theorem now_countReads : (s.countReads n).overlap.now = s.overlap.now.read n := rfl
@[simp] theorem lane_countReads (k : LaneId) : (s.countReads n).lane k = s.lane k := by cases k <;> rfl
@[simp] theorem tlc_countReads (k : LaneId) : (s.countReads n).tlc k = s.tlc k := by cases k <;> rfl

end

section
variable (s : State) (c : CellId) (on : Bool)

@[simp] theorem host_setAttention : (s.setAttention c on).host = s.host := by cases c <;> rfl
@[simp] theorem pins_setAttention : (s.setAttention c on).pins = s.pins := by cases c <;> rfl
@[simp] theorem xm_setAttention : (s.setAttention c on).xm = s.xm := by cases c <;> rfl
@[simp] theorem applied_setAttention : (s.setAttention c on).applied = s.applied := by cases c <;> rfl
@[simp] theorem generation_setAttention : (s.setAttention c on).generation = s.generation := by cases c <;> rfl
@[simp] theorem overlap_setAttention : (s.setAttention c on).overlap = s.overlap := by cases c <;> rfl
@[simp] theorem store_setAttention : (s.setAttention c on).store = s.store := by cases c <;> rfl
@[simp] theorem tlc0_setAttention : (s.setAttention c on).tlc0 = s.tlc0 := by cases c <;> rfl
@[simp] theorem tlc1_setAttention : (s.setAttention c on).tlc1 = s.tlc1 := by cases c <;> rfl
@[simp] theorem splice_setAttention : (s.setAttention c on).splice = s.splice := by cases c <;> rfl
@[simp] theorem loader_setAttention : (s.setAttention c on).loader = s.loader := by cases c <;> rfl
@[simp] theorem pending_setAttention : (s.setAttention c on).pending = s.pending := by cases c <;> rfl
@[simp] theorem laneA_setAttention : (s.setAttention c on).laneA = s.laneA := by cases c <;> rfl
@[simp] theorem laneB_setAttention : (s.setAttention c on).laneB = s.laneB := by cases c <;> rfl
@[simp] theorem lane_setAttention (k : LaneId) : (s.setAttention c on).lane k = s.lane k := by cases c <;> cases k <;> rfl
@[simp] theorem tlc_setAttention (k : LaneId) : (s.setAttention c on).tlc k = s.tlc k := by cases c <;> cases k <;> rfl
@[simp] theorem attentionOf_setAttention : (s.setAttention c on).attentionOf c = on := by cases c <;> rfl

end

end Sys2Proof.Machine.State
end

