-- ==== Sys2Proof/Laws/Follows.lean ====
section
/-! SUPPORT. What every operation of the part keeps, said once: `Follows r s` for a state `s` reached inside an event
that began at `r`. Each operation `f` has one lemma: `Follows r s` gives `Follows r (f s)`. -/

namespace Sys2Proof.Machine

set_option Elab.async false

/-- A state inside an event that began at `r`: the outside is as it was, the invariant is kept, and no news bit is
cleared. -/
structure Follows (r s : State) : Prop where
  outside : r.SameOutside s
  inv : r.Inv → s.Inv
  news : ∀ w, s.news w ||| r.news w = s.news w

theorem Follows.refl (s : State) : Follows s s :=
  ⟨⟨rfl, rfl, rfl, rfl, rfl, rfl, fun _ _ => rfl⟩, id, fun _ => BitVec.or_self⟩

/-- One more change, which may rest on the invariant where the event began. -/
theorem Follows.step {r s t : State} (h : Follows r s) (out : s.SameOutside t) (inv : r.Inv → s.Inv → t.Inv)
    (news : ∀ w, t.news w ||| s.news w = t.news w) : Follows r t := by
  refine ⟨⟨out.host.trans h.outside.host, out.pins.trans h.outside.pins,
    out.attention.trans h.outside.attention, out.applied.trans h.outside.applied,
    out.generation.trans h.outside.generation, out.pending.trans h.outside.pending,
    fun a ha => (out.bytes a ha).trans (h.outside.bytes a ha)⟩, fun hr => inv hr (h.inv hr), fun w => ?_⟩
  rw [← news w, BitVec.or_assoc, h.news w]

theorem Follows.trans {r s t : State} (h : Follows r s) (k : Follows s t) : Follows r t :=
  h.step k.outside (fun _ => k.inv) k.news

/-- A change of the state that leaves Exchange Memory and the outside alone. -/
theorem Follows.of_same {r s t : State} (h : Follows r s) (host : t.host = s.host) (pins : t.pins = s.pins)
    (attention : t.attention = s.attention) (applied : t.applied = s.applied) (generation : t.generation = s.generation)
    (pending : t.pending = s.pending) (xm : t.xm = s.xm) (inv : s.Inv → t.Inv) : Follows r t :=
  h.trans ⟨⟨host, pins, attention, applied, generation, pending, fun a _ => by rw [xm]⟩, inv, fun w => by
    simp [State.news, State.word, xm]⟩

/-! ### Updates of the parts -/

theorem State.Inv.lane {s : State} (h : s.Inv) (l : LaneId) : (s.lane l).Bounded (s.window l) := by
  cases l
  · exact h.laneA
  · exact h.laneB

theorem State.Inv.setLane {s : State} (h : s.Inv) {l : LaneId} {x : Lane} (hx : x.Bounded (s.window l)) :
    (s.setLane l x).Inv := by
  cases l
  · exact ⟨h.memory, h.cells, h.settings, hx, h.laneB, h.queue, h.commits⟩
  · exact ⟨h.memory, h.cells, h.settings, h.laneA, hx, h.queue, h.commits⟩

theorem follows_setLane {r s : State} (h : Follows r s) (l : LaneId) (x : Lane)
    (hx : (s.lane l).Bounded (s.window l) → x.Bounded (s.window l)) : Follows r (s.setLane l x) :=
  h.of_same (by simp) (by simp) (by simp) (by simp) (by simp) (by simp) (by simp) fun hi => hi.setLane (hx (hi.lane l))

theorem follows_updLane {r s : State} (h : Follows r s) (l : LaneId) (g : Lane → Lane)
    (hg : ∀ {n : Nat} (x : Lane), x.Bounded n → (g x).Bounded n := by exact fun _ hx => hx) :
    Follows r (s.updLane l g) :=
  follows_setLane h l _ (hg _)

theorem follows_setTlc {r s : State} (h : Follows r s) (l : LaneId) (t : Tlc) : Follows r (s.setTlc l t) :=
  h.of_same (by simp) (by simp) (by simp) (by simp) (by simp) (by simp) (by simp) fun hi => by
    cases l <;> exact ⟨hi.memory, hi.cells, hi.settings, hi.laneA, hi.laneB, hi.queue, hi.commits⟩

theorem follows_updTlc {r s : State} (h : Follows r s) (l : LaneId) (g : Tlc → Tlc) : Follows r (s.updTlc l g) :=
  follows_setTlc h l _

theorem follows_updLoader {r s : State} (h : Follows r s) (g : Loader → Loader)
    (hg : ∀ d : Loader, d.QueueBounded → (g d).QueueBounded := by exact fun _ hd => hd) : Follows r (s.updLoader g) :=
  h.of_same rfl rfl rfl rfl rfl rfl rfl fun hi => ⟨hi.memory, hi.cells, hi.settings, hi.laneA, hi.laneB, hg _ hi.queue, hi.commits⟩

theorem follows_splice {r s : State} (h : Follows r s) (u : Splice) : Follows r { s with splice := u } :=
  h.of_same rfl rfl rfl rfl rfl rfl rfl fun hi => ⟨hi.memory, hi.cells, hi.settings, hi.laneA, hi.laneB, hi.queue, hi.commits⟩

theorem follows_store {r s : State} (h : Follows r s) (c : List StoreCell) (hc : CellsRise s.store → CellsRise c) :
    Follows r { s with store := c } :=
  h.of_same rfl rfl rfl rfl rfl rfl rfl fun hi => ⟨hi.memory, hc hi.cells, hi.settings, hi.laneA, hi.laneB, hi.queue, hi.commits⟩

/-! ### Writes of Exchange Memory -/

/-- A change of consecutive words and of the schedule of accesses. -/
theorem Follows.of_words {r s : State} (h : Follows r s) (a : Nat) (ws : List Word) (o : Overlap)
    (hsize : r.Inv → a + 4 * ws.length ≤ Memory.size)
    (hout : ∀ b, HostOnly b → b < a ∨ a + 4 * ws.length ≤ b)
    (hnews : a + 4 * ws.length ≤ 0x20 ∨ 0x30 ≤ a) (ho : o.within = s.overlap.within) :
    Follows r { s with xm := Memory.write s.xm a (ws.flatMap wordBytes), overlap := o } := by
  have hl := Memory.flatMap_wordBytes_length ws
  refine h.step ⟨rfl, rfl, rfl, rfl, rfl, rfl, fun b hb => ?_⟩ (fun hr hi => ?_) (fun w => ?_)
  · exact Memory.byte_write_out _ _ _ _ (by have := hout b hb; omega)
  · exact ⟨Memory.wf_write _ _ _ hi.memory (by have := hsize hr; omega), hi.cells, hi.settings, hi.laneA, hi.laneB,
      hi.queue, by rw [show State.overlap { s with xm := _, overlap := o } = o from rfl, ho]; exact hi.commits⟩
  · have : State.news { s with xm := Memory.write s.xm a (ws.flatMap wordBytes), overlap := o } w = s.news w := by
      refine Memory.word_write_out _ _ _ _ ?_
      have : w.offset + 4 ≤ 0x30 ∧ 0x20 ≤ w.offset := by cases w <;> simp [NewsWord.offset]
      omega
    rw [this]; exact BitVec.or_self

theorem Follows.of_write {r s : State} (h : Follows r s) (a : Nat) (ws : List Word)
    (hsize : r.Inv → a + 4 * ws.length ≤ Memory.size)
    (hout : ∀ b, HostOnly b → b < a ∨ a + 4 * ws.length ≤ b)
    (hnews : a + 4 * ws.length ≤ 0x20 ∨ 0x30 ≤ a) : Follows r (s.setWords a ws) :=
  h.of_words a ws _ hsize hout hnews (Overlap.within_wroteWords ..)

theorem follows_countReads {r s : State} (h : Follows r s) (n : Nat) : Follows r (s.countReads n) :=
  h.of_same rfl rfl rfl rfl rfl rfl rfl fun hi =>
    ⟨hi.memory, hi.cells, hi.settings, hi.laneA, hi.laneB, hi.queue, hi.commits⟩

theorem news_setNews (s : State) (w n : NewsWord) (b : Word) :
    (s.setNews n b).news w = if w = n then s.news w ||| b else s.news w := by
  unfold State.news State.word
  rw [State.xm_setNews]
  unfold State.news State.word
  split
  · rename_i he
    subst he
    have := Memory.word_write_in s.xm w.offset [Memory.word s.xm w.offset ||| b] 0 (by simp)
    simpa using this
  · rename_i hne
    refine Memory.word_write_out _ _ _ _ ?_
    have hl := Memory.wordBytes_length (Memory.word s.xm n.offset ||| b)
    cases w <;> cases n <;> first | exact absurd rfl hne | (simp only [NewsWord.offset] at hl ⊢; omega)

theorem follows_setNews {r s : State} (h : Follows r s) (n : NewsWord) (b : Word) : Follows r (s.setNews n b) := by
  have hn : 0x20 ≤ n.offset ∧ n.offset + 4 ≤ 0x30 := by cases n <;> simp [NewsWord.offset]
  have hl := Memory.wordBytes_length (s.news n ||| b)
  refine h.trans ⟨⟨rfl, rfl, rfl, rfl, rfl, rfl, fun a ha => ?_⟩, fun hi => ?_, fun w => ?_⟩
  · refine Memory.byte_write_out _ _ _ _ ?_
    unfold HostOnly at ha
    omega
  · refine ⟨Memory.wf_write _ _ _ hi.memory ?_, hi.cells, hi.settings, hi.laneA, hi.laneB, hi.queue,
      hi.commits⟩
    have : Memory.size = 0x8000 := rfl
    omega
  · rw [news_setNews]
    split
    · rename_i he
      subst he
      rw [BitVec.or_assoc, BitVec.or_comm b, ← BitVec.or_assoc, BitVec.or_self]
    · exact BitVec.or_self

/-! ### The shock store -/

theorem putCell_mem (c : StoreCell) (l : List StoreCell) (d : StoreCell) (h : d ∈ putCell c l) : d = c ∨ d ∈ l := by
  induction l with
  | nil => simpa [putCell] using h
  | cons e l ih =>
    unfold putCell at h
    split at h
    · simpa using h
    · split at h
      · rcases List.mem_cons.1 h with h | h
        · exact Or.inl h
        · exact Or.inr (by simp [h])
      · rcases List.mem_cons.1 h with h | h
        · exact Or.inr (by simp [h])
        · rcases ih h with h | h
          · exact Or.inl h
          · exact Or.inr (by simp [h])

theorem putCell_rise (c : StoreCell) (l : List StoreCell) (h : CellsRise l) : CellsRise (putCell c l) := by
  induction l with
  | nil => simp [putCell, CellsRise]
  | cons e l ih =>
    unfold CellsRise at h ih ⊢
    have hp := List.pairwise_cons.1 h
    unfold putCell
    split
    · rename_i hlt
      refine List.pairwise_cons.2 ⟨fun d hd => ?_, h⟩
      rcases List.mem_cons.1 hd with rfl | hd
      · exact hlt
      · exact Nat.lt_trans hlt (hp.1 d hd)
    · split
      · rename_i he
        exact List.pairwise_cons.2 ⟨fun d hd => by rw [he]; exact hp.1 d hd, hp.2⟩
      · refine List.pairwise_cons.2 ⟨fun d hd => ?_, ih hp.2⟩
        rcases putCell_mem c l d hd with rfl | hd
        · omega
        · exact hp.1 d hd

theorem follows_firstWrite {r s : State} (h : Follows r s) (l : LaneId) (i : Index) (a : Nat) (m : MarkSet)
    (p : List Pair) : Follows r (s.firstWrite l i a m p) :=
  follows_store h _ (putCell_rise _ _)

theorem follows_rewrite {r s : State} (h : Follows r s) (c : StoreCell) (m : MarkSet) (p : List Pair) :
    Follows r (s.rewrite c m p) :=
  follows_store h _ (putCell_rise _ _)

theorem follows_release {r s : State} (h : Follows r s) (l : LaneId) (p : StoreCell → Bool) :
    Follows r (s.release l p) :=
  follows_store h _ fun hc => List.Pairwise.filter _ hc

theorem follows_countStoreFault {r s : State} (h : Follows r s) (l : LaneId) : Follows r (s.countStoreFault l) :=
  follows_updLane h l _ fun _ hx => hx

theorem follows_noteStoreFault {r s : State} (h : Follows r s) (l : LaneId) : Follows r (s.noteStoreFault l) :=
  follows_setNews (follows_countStoreFault h l) _ _

/-! ### Runs -/

theorem follows_due {r s : State} (h : Follows r s) (l : LaneId) : Follows r (s.due l) :=
  follows_updLane h l _ fun _ hx => hx

theorem follows_setLaneState {r s : State} (h : Follows r s) (l : LaneId) (t : LaneState) :
    Follows r (s.setLaneState l t) :=
  follows_updLane h l _ fun x hx => by dsimp only; split <;> exact hx

theorem follows_withdrawCheck {r s : State} (h : Follows r s) (l : LaneId) : Follows r (s.withdrawCheck l) :=
  follows_splice h _

theorem follows_endRun {r s : State} (h : Follows r s) (l : LaneId) : Follows r (s.endRun l) := by
  unfold State.endRun
  split
  · exact follows_withdrawCheck (follows_updLane h l _ fun _ hx => hx.finishRun) l
  · exact h

/-! ### Transport link controllers -/

theorem follows_putTlc {r s : State} (h : Follows r s) (l : LaneId) (t : Tlc) : Follows r (s.putTlc l t) := by
  have h1 := follows_setTlc h l t
  have h2 := follows_endRun h1 l
  unfold State.putTlc
  dsimp only
  repeat' split
  all_goals first | exact h1 | exact h2 | exact follows_due h1 l | exact follows_due h2 l

theorem follows_changeTlc {r s : State} (h : Follows r s) (l : LaneId) (g : Tlc → Tlc) : Follows r (s.changeTlc l g) :=
  follows_putTlc h l _

theorem follows_badEvent {r s : State} (h : Follows r s) (l : LaneId) : Follows r (s.badEvent l).2 :=
  follows_putTlc h l _

theorem follows_goodEvent {r s : State} (h : Follows r s) (l : LaneId) : Follows r (s.goodEvent l) :=
  follows_changeTlc h l _

theorem follows_halt {r s : State} (h : Follows r s) (l : LaneId) : Follows r (s.halt l) := by
  unfold State.halt
  split
  · exact follows_changeTlc (follows_endRun h l) l _
  · exact h

/-! ### The repair scheduler -/

theorem follows_sendSeek {r s : State} (h : Follows r s) (l : LaneId) (k : RunKind) (g : SegRef) (t : Index) (v : Speed)
    (b : Bool) : Follows r (s.sendSeek l k g t v b) := by
  unfold State.sendSeek
  exact follows_updLane (follows_changeTlc (follows_endRun h l) l _) l _ fun _ hx =>
    ⟨hx.1, hx.2.1, Nat.zero_le _, hx.2.2.2⟩

theorem follows_fillDecision {r s : State} (h : Follows r s) (l : LaneId) (b : Bool) :
    Follows r (s.fillDecision l b) := by
  unfold State.fillDecision
  have h1 := follows_updLane h l (fun x => x.updateRefill (s.settings l)) fun _ hx => hx.updateRefill _
  dsimp only
  generalize s.updLane l (fun x => x.updateRefill (s.settings l)) = q at h1 ⊢
  repeat' split
  · exact follows_updLane (follows_halt h1 l) l _ fun _ hx => hx
  · exact follows_updLane h1 l _ fun _ hx => hx
  · refine follows_sendSeek (follows_updLane h1 l _ ?_) ..
    exact fun _ hx => hx
  · exact follows_updLane h1 l _ fun _ hx => hx

theorem follows_startAttempt {r s : State} (h : Follows r s) (l : LaneId) {n : Nat} {y : Span} {x : Lane}
    {p : Span → Bool} (hy : (s.lane l).spans.find? p = some y) (hx : (s.lane l).startAttempt n y = some x) :
    Follows r (s.setLane l x) :=
  follows_setLane h l x fun hb => hb.startAttempt (List.mem_of_find?_eq_some hy) hx

theorem follows_startRepair {r s t : State} (h : Follows r s) (l : LaneId) (ht : s.startRepair l = some t) :
    Follows r t := by
  unfold State.startRepair at ht
  dsimp only at ht
  split at ht
  · split at ht
    · cases ht
    · rename_i y hy
      cases hx : (s.lane l).startAttempt (s.settings l).readSpeed y with
      | none => simp [hx] at ht
      | some x =>
        simp only [hx, Option.map_some, Option.some.injEq] at ht
        subst ht
        exact follows_sendSeek (follows_startAttempt h l hy hx) ..
  · cases ht

theorem follows_chainRepair {r s t : State} (h : Follows r s) (l : LaneId) (c : Option Index)
    (ht : s.chainRepair l c = some t) : Follows r t := by
  unfold State.chainRepair at ht
  dsimp only at ht
  split at ht
  · cases ht
  · split at ht
    · split at ht
      · cases ht
      · rename_i y hy
        cases hx : (s.lane l).startAttempt (s.settings l).readSpeed y with
        | none => simp [hx] at ht
        | some x =>
          simp only [hx, Option.map_some, Option.some.injEq] at ht
          subst ht
          exact follows_startAttempt h l hy hx
    · cases ht

theorem follows_reseekRepair {r s : State} (h : Follows r s) (l : LaneId) : Follows r (s.reseekRepair l) := by
  unfold State.reseekRepair
  dsimp only
  split
  · exact follows_sendSeek h ..
  · exact h

theorem follows_nextWork {r s : State} (h : Follows r s) (l : LaneId) (q : Point) : Follows r (s.nextWork l q) := by
  unfold State.nextWork
  split
  · rename_i t ht
    split at ht
    · exact follows_chainRepair h l _ ht
    · cases ht
  · split
    · rename_i t ht
      split at ht
      · cases ht
      · exact follows_startRepair h l ht
    · exact follows_fillDecision h l _

theorem follows_workDecision {r s : State} (h : Follows r s) (l : LaneId) (q : Point) :
    Follows r (s.workDecision l q) := by
  unfold State.workDecision
  dsimp only
  repeat' split
  · refine follows_fillDecision (follows_updLane h l _ ?_) l _
    exact fun _ hx => hx.abortAttempt
  · exact follows_reseekRepair h l
  · exact h
  · exact follows_nextWork h l q

theorem follows_standDown {r s : State} (h : Follows r s) (l : LaneId) (m : WorkMode) (b : Option RestReason) :
    Follows r (s.standDown l m b) :=
  follows_updLane h l _ fun _ hx => hx.abortAttempt

theorem follows_overtake {r s : State} (h : Follows r s) (l : LaneId) (q : Point) :
    Follows r (s.overtake l q).1 := by
  unfold State.overtake
  dsimp only
  split
  · dsimp only
    refine follows_updLane h l _ ?_
    exact fun _ hx => hx.of_eq rfl rfl rfl rfl rfl
  · exact h

theorem follows_schedule {r s : State} (h : Follows r s) (l : LaneId) (q : Point) : Follows r (s.schedule l q) := by
  unfold State.schedule
  have h1 := follows_updLane h l (fun x => { x with marks := { x.marks with schedule := false } }) fun _ hx => hx
  dsimp only
  generalize s.updLane l (fun x => { x with marks := { x.marks with schedule := false } }) = u at h1 ⊢
  have h2 := follows_overtake h1 l q
  generalize u.overtake l q = v at h2 ⊢
  obtain ⟨s', q'⟩ := v
  dsimp only at h2 ⊢
  repeat' split
  all_goals first
    | with_reducible exact follows_halt (follows_standDown h2 l _ _) l
    | with_reducible exact follows_standDown h2 l _ _
    | with_reducible exact follows_workDecision h2 l _

theorem follows_takeResult {r s : State} (h : Follows r s) (l : LaneId) (q : IntakeResult) :
    Follows r (s.takeResult l q) := by
  unfold State.takeResult
  have h1 := follows_updLane h l (fun x =>
      match q.position with
      | some i => { x with rsc := { x.rsc with runPosition := some i } }
      | none => x) fun x hx => by dsimp only; split <;> exact hx
  dsimp only
  split
  · generalize s.updLane l _ = u at h1 ⊢
    repeat' split
    all_goals first
      | with_reducible exact follows_schedule h1 l _
      | (with_reducible refine follows_schedule (follows_updLane h1 l _ ?_) l _
         first | exact fun _ hx => hx.endAttempt _ | exact fun _ hx => hx)
  · exact follows_schedule h l _

end Sys2Proof.Machine
end

