-- ==== Sys2Proof/Laws/FollowsPlay.lean ====
section
/-! SUPPORT. `Follows` for the records, the loader queue, the playout units and the lane sequencers. -/

namespace Sys2Proof.Machine

set_option Elab.async false

/-! ### Records -/

theorem padWords_length (n : Nat) (l : List Word) : (padWords n l).length = n := by
  simp [padWords]

theorem statusWords_length (x : Lane) : x.statusWords.length = 256 := by
  simp only [Lane.statusWords, List.length_append, padWords_length, List.length_cons, List.length_nil]

theorem recordWords_length (t : Tlc) : t.recordWords.length = 16 := by
  simp only [Tlc.recordWords, Tlc.fieldWords, List.length_append, padWords_length, List.length_cons, List.length_nil]

theorem loaderWords_length (s : State) : s.loaderWords.length = 32 := by
  simp only [State.loaderWords, State.loaderFields, List.length_append, padWords_length, List.length_cons,
    List.length_nil]

theorem slotWords_length (e : SlotEntry) : (slotWords e).length = 3 := by
  unfold slotWords
  split <;> rfl

theorem tocWords_length (t : Option Toc) : (tocWords t).length = 128 := by
  unfold tocWords
  split <;> exact padWords_length _ _

theorem size_eq : Memory.size = 0x8000 := rfl

theorem follows_writeStatus {r s : State} (h : Follows r s) (l : LaneId) : Follows r (s.writeStatus l) := by
  unfold State.writeStatus
  have h1 := follows_updLane h l (fun x => { x with seq := { x.seq with refresh := x.seq.refresh + 1 } }) fun _ hx => hx
  refine h1.of_write _ _ ?_ ?_ ?_ <;> rw [statusWords_length] <;> cases l <;>
    simp only [statusOffset, HostOnly, size_eq] <;> omega

theorem follows_writeTransport {r s : State} (h : Follows r s) (l : LaneId) : Follows r (s.writeTransport l) := by
  unfold State.writeTransport
  have h1 := follows_updTlc h l fun t => { t with refresh := t.refresh + 1 }
  refine h1.of_write _ _ ?_ ?_ ?_ <;> rw [recordWords_length] <;> cases l <;>
    simp only [transportOffset, HostOnly, size_eq] <;> omega

theorem follows_writeLoader {r s : State} (h : Follows r s) : Follows r s.writeLoader := by
  unfold State.writeLoader
  have h1 := follows_updLoader h (fun d => { d with refresh := d.refresh + 1 }) fun _ hd => hd
  refine h1.of_write _ _ ?_ ?_ ?_ <;> rw [loaderWords_length] <;>
    simp only [loaderOffset, HostOnly, size_eq] <;> omega

theorem follows_writeToc {r s : State} (h : Follows r s) (n : Loc) (e : SlotEntry) : Follows r (s.writeToc n e) := by
  have hn := n.isLt
  unfold State.writeToc
  refine h.of_write _ _ ?_ ?_ ?_ <;> rw [tocWords_length] <;> simp only [tocOffset, HostOnly, size_eq] <;> omega

theorem follows_writeSlot {r s : State} (h : Follows r s) (n : Loc) (e : SlotEntry) : Follows r (s.writeSlot n e) := by
  have hn := n.isLt
  unfold State.writeSlot
  refine follows_setNews (Follows.of_write (follows_writeToc (follows_updLoader h _) n e) _ _ ?_ ?_ ?_) _ _ <;>
    rw [slotWords_length] <;> simp only [slotOffset, HostOnly, size_eq] <;> omega

theorem byteOf_word_zero (s : State) (a : Nat) : byteOf (s.word a) 0 = (Memory.byte s.xm a).toNat := by
  have : (Memory.word s.xm a).extractLsb' 0 8 = Memory.byte s.xm a := by
    apply BitVec.eq_of_getLsbD_eq
    intro i hi
    simp only [Memory.word, BitVec.getLsbD_extractLsb', BitVec.getLsbD_append, Nat.zero_add, hi, decide_true,
      Bool.true_and, if_true]
  simp [byteOf, State.word, this]

theorem cueOffset_mod (l : LaneId) (k : Nat) : cueOffset l k % 32 = 0 ∧ 0x1000 ≤ cueOffset l k := by
  cases l <;> simp only [cueOffset] <;> omega

/-- An armed entry lies in Exchange Memory. -/
theorem armed_inside (s : State) (l : LaneId) (k i : Nat) (hi : s.Inv) (h : s.armed l k i = true) :
    cueOffset l k + 32 ≤ Memory.size := by
  have hm := cueOffset_mod l k
  rcases s.seenWord_cases i (cueOffset l k) with hw | ⟨x, hx, c, hc, he⟩
  · by_contra hc
    have hz := Memory.byte_past_end s.xm (cueOffset l k) hi.memory (by simp only [size_eq] at hc ⊢; omega)
    simp [State.armed, hw, byteOf_word_zero, hz] at h
  · have hc := hi.commits x hx c hc
    rw [he] at hc
    simp only [size_eq] at hc ⊢
    omega

theorem follows_writeResult {r s : State} (h : Follows r s) (l : LaneId) (c : TakenCue) (p : Nat) (o : CueOutcome)
    (k : Nat) (ha : r.Inv → cueOffset l c.entry + 32 ≤ Memory.size) : Follows r (s.writeResult l c p o k) := by
  unfold State.writeResult
  have hm := cueOffset_mod l c.entry
  refine Follows.of_write (Follows.of_write h _ _ ?_ ?_ ?_) _ _ ?_ ?_ ?_ <;>
    simp only [List.length_cons, List.length_nil]
  · intro hw
    have := ha hw
    omega
  · intro b hb
    unfold HostOnly at hb
    omega
  · omega
  · intro hw
    have := ha hw
    omega
  · intro b hb
    unfold HostOnly at hb
    omega
  · omega

/-! ### The loader queue -/

theorem follows_recordOutcome {r s : State} (h : Follows r s) (q : LoaderRequest) (o : LoaderOutcome) :
    Follows r (s.recordOutcome q o) :=
  follows_setNews (follows_writeLoader (follows_updLoader h _)) _ _

theorem filter_requests (q : List Waiting) (f : LoaderRequest → Bool) :
    (q.filter (fun w => f w.request)).length = ((q.map Waiting.request).filter f).length := by
  rw [List.filter_map, List.length_map]
  rfl

/-- A queue whose requests are some of those of a bounded queue, in their order, is bounded. -/
theorem Loader.QueueBounded.of_requests {d e : Loader} (h : d.QueueBounded)
    (hs : (e.queue.map Waiting.request).Sublist (d.queue.map Waiting.request)) : e.QueueBounded := by
  have hl : ∀ f : LoaderRequest → Bool, (e.queue.filter (fun w => f w.request)).length ≤
      (d.queue.filter (fun w => f w.request)).length := fun f => by
    rw [filter_requests, filter_requests]
    exact (hs.filter f).length_le
  exact ⟨Nat.le_trans (hl fun r => r.kind != 1) h.1, fun l => Nat.le_trans (hl fun r => r.ofLane l) (h.2 l)⟩

theorem Loader.QueueBounded.of_sublist {d e : Loader} (h : d.QueueBounded) (hs : e.queue.Sublist d.queue) :
    e.QueueBounded := h.of_requests (hs.map _)

theorem follows_enqueueBind {r s : State} (h : Follows r s) (l : LaneId) (k : Nat) (t : Byte)
    (hb : s.loader.binds l = 0) : Follows r (s.enqueue (.bind l k t)) := by
  refine h.of_same rfl rfl rfl rfl rfl rfl rfl fun hi =>
    ⟨hi.memory, hi.cells, hi.settings, hi.laneA, hi.laneB, ⟨?_, fun m => ?_⟩, hi.commits⟩
  · have := hi.queue.1
    simpa [State.enqueue, State.updLoader, Loader.cellRequests, List.filter_append, LoaderRequest.kind] using this
  · have hm := hi.queue.2 m
    unfold Loader.binds at hb hm ⊢
    simp only [State.enqueue, State.updLoader, List.filter_append, List.length_append, List.filter_cons,
      List.filter_nil]
    by_cases he : l = m
    · subst he
      rw [hb]
      split <;> simp
    · rw [if_neg (by simpa [LoaderRequest.ofLane] using he)]
      simpa using hm

theorem follows_postBind {r s : State} (h : Follows r s) (l : LaneId) (k : Nat) (t : Byte) :
    Follows r (s.postBind l k t) := by
  unfold State.postBind
  split
  · exact follows_updLane h l _
  · split
    · exact follows_enqueueBind h l k t (by assumption)
    · exact h

theorem follows_withdrawBind {r s : State} (h : Follows r s) (l : LaneId) (t : Byte) :
    Follows r (s.withdrawBind l t) := by
  unfold State.withdrawBind
  split
  · exact h
  · refine follows_recordOutcome (follows_updLoader h _ fun d hd => ?_) _ _
    exact hd.of_sublist List.filter_sublist

/-! ### Loss episodes -/

theorem follows_endEpisode {r s : State} (h : Follows r s) (l : LaneId) : Follows r (s.endEpisode l) := by
  unfold State.endEpisode
  split
  · exact h
  · exact follows_updLane (follows_countReads h 1) l _

/-! ### The lane sequencer -/

/-- The cues of a sequencer are kept as a lane's bounds ask. -/
def Sequencer.Kept (q : Sequencer) : Prop := CuesKept q.segments q.pendingCue q.entryPasses

/-- A change of the sequencer context of one state that leaves its cues within their bounds. -/
theorem follows_updSeqAt {r s : State} (h : Follows r s) (l : LaneId) (g : Sequencer → Sequencer)
    (hg : (s.lane l).seq.Kept → (g (s.lane l).seq).Kept) : Follows r (s.updSeq l g) :=
  follows_setLane h l _ fun hx => ⟨hx.1, hg hx.2.1, hx.2.2⟩

/-- A change of the sequencer context that leaves its cues within their bounds. -/
theorem follows_updSeq {r s : State} (h : Follows r s) (l : LaneId) (g : Sequencer → Sequencer)
    (hg : ∀ q : Sequencer, q.Kept → (g q).Kept := by exact fun _ hq => hq) :
    Follows r (s.updSeq l g) :=
  follows_updLane h l _ fun _ hx => ⟨hx.1, hg _ hx.2.1, hx.2.2⟩

theorem follows_closeReading {r s : State} (h : Follows r s) (l : LaneId) : Follows r (s.closeReading l) :=
  follows_due (follows_updSeq h l _) l

theorem follows_openReading {r s : State} (h : Follows r s) (l : LaneId) : Follows r (s.openReading l) :=
  follows_due (follows_updSeq h l _) l

theorem follows_retire {r s : State} (h : Follows r s) (l : LaneId) (c : TakenCue) (o : CueOutcome) :
    Follows r (s.retire l c o) := by
  refine h.trans ?_
  unfold State.retire
  dsimp only
  have h1 := follows_countReads (Follows.refl s) 1
  generalize hu : (s.countReads 1).updSeq l _ = u
  have h2 : Follows s u := by
    rw [← hu]
    refine follows_updSeq h1 l _ ?_
    exact fun q hq => ⟨hq.few, hq.segmentEntry, hq.pendingEntry, by simpa using hq.passes⟩
  split
  · rename_i ha
    exact follows_setNews (follows_writeResult h2 l c _ o _ fun hi => armed_inside s l c.entry 0 hi ha) _ _
  · exact h2

theorem follows_retireAll {r s : State} (h : Follows r s) (l : LaneId) (o : CueOutcome) (cs : List TakenCue) :
    Follows r (s.retireAll l o cs) := by
  induction cs generalizing s with
  | nil => exact h
  | cons c cs ih => exact ih (follows_retire h l c o)

theorem follows_retireNormal {r s : State} (h : Follows r s) (l : LaneId) (cs : List TakenCue) :
    Follows r (s.retireNormal l cs) := by
  induction cs generalizing s with
  | nil => exact h
  | cons c cs ih => exact ih (follows_retire h l c _)

theorem follows_establish {r s : State} (h : Follows r s) (l : LaneId) : Follows r (s.establish l) := by
  unfold State.establish
  split
  · exact h
  · exact follows_updSeq h l _

theorem follows_prime {r s : State} (h : Follows r s) (l : LaneId) : Follows r (s.prime l).1 := by
  unfold State.prime
  dsimp only
  repeat' split
  · exact h
  · rename_i c _ hc _ _ _ _
    refine follows_openReading (follows_updSeqAt h l _ fun hq => ⟨?_, fun g hg => ?_, fun _ hn => ?_, hq.passes⟩) l
    · simp [Config.maxSegments]
    · rw [List.mem_singleton.1 hg]
      exact hq.pendingEntry _ hc
    · cases hn
  · exact h

theorem follows_enterPriming {r s : State} (h : Follows r s) (l : LaneId) : Follows r (s.enterPriming l).1 := by
  unfold State.enterPriming
  dsimp only
  refine follows_prime ?_ l
  split
  · exact follows_establish (follows_setLaneState h l _) l
  · exact follows_setLaneState h l _

theorem follows_sendBind {r s : State} (h : Follows r s) (l : LaneId) (k : Nat) : Follows r (s.sendBind l k) :=
  follows_postBind (follows_updSeq h l _) l _ _

theorem follows_findDisc {r s : State} (h : Follows r s) (l : LaneId) (c : TakenCue) :
    Follows r (s.findDisc l c).1 := by
  unfold State.findDisc
  dsimp only
  repeat' split
  all_goals first
    | exact h
    | with_reducible exact follows_enterPriming h l
    | exact follows_setLaneState h l _
    | exact follows_sendBind (follows_setLaneState h l _) l _
    | exact follows_enterPriming (follows_updSeq h l _) l

theorem follows_moveWalk {r s : State} (h : Follows r s) (l : LaneId) (k : Nat) (w : Bool) :
    Follows r (s.moveWalk l k w) :=
  follows_updSeq h l _

theorem follows_walkClose {r s : State} (h : Follows r s) (l : LaneId) : Follows r (s.walkClose l) :=
  follows_updSeq (follows_closeReading h l) l _ fun _ hq => hq.dropPending

theorem follows_stopPlayout {r s : State} (h : Follows r s) (l : LaneId) : Follows r (s.stopPlayout l) :=
  follows_updLane (follows_endEpisode h l) l _ fun x hx => hx.setUnit ((x.plu.drop_bounded).of_eq rfl rfl)

theorem follows_takePending {r s : State} (h : Follows r s) (l : LaneId) (c : TakenCue)
    (hc : c.entry < Config.cueEntries) : Follows r (s.takePending l c).1 := by
  unfold State.takePending
  split
  · refine follows_findDisc (follows_updSeq h l _ ?_) l c
    exact fun q hq => ⟨hq.few, hq.segmentEntry, by rintro _ ⟨⟩; exact hc, hq.passes⟩
  · exact h

/-- An entry that a walk step finds is one of the cue table. -/
def WalkStep.InTable (w : WalkStep) : Prop := ∀ k b, w = .entry k b → k < Config.cueEntries

theorem walkStep_inTable (s : State) (l : LaneId) : (s.walkStep l).InTable := by
  intro k b h
  unfold State.walkStep at h
  dsimp only at h
  split at h
  · cases h
  · split at h
    · split at h
      · cases h
      · split at h
        · cases h; omega
        · cases h
    · split at h
      · rename_i hj
        cases h; exact hj.1
      · generalize s.armed l 0 _ = b at h
        cases b
        · cases h
        · cases h; decide

theorem follows_stepRead {r s : State} (h : Follows r s) (l : LaneId) : Follows r (s.stepRead l) :=
  follows_countReads h _

theorem follows_walk {r : State} (n : Nat) : ∀ (w : WalkStep) (_ : w.InTable) {s : State} (_ : Follows r s) (l : LaneId),
    Follows r (State.walk n w s l) := by
  induction n with
  | zero =>
    intro w _ s h l
    cases w with
    | endOfWalk => exact follows_updSeq (follows_release (follows_setLaneState h l _) l _) l _
    | starved => exact follows_setLaneState h l _
    | entry k w => exact h
  | succ n ih =>
    intro w hw s h l
    cases w with
    | endOfWalk => exact follows_updSeq (follows_release (follows_setLaneState h l _) l _) l _
    | starved => exact follows_setLaneState h l _
    | entry k w =>
      have h1 := follows_takePending (follows_moveWalk (follows_countReads h hostFieldWords) l k w) l (s.readCue l k)
        (hw k w rfl)
      unfold State.walk
      dsimp only
      split
      · exact ih _ (walkStep_inTable _ l) (follows_stepRead (follows_walkClose (follows_retire h1 l _ _) l) l) l
      · exact h1

theorem follows_walkOn {r s : State} (h : Follows r s) (l : LaneId) : Follows r (s.walkOn l) := by
  unfold State.walkOn
  exact follows_walk _ _ (walkStep_inTable _ l) (follows_stepRead (follows_stopPlayout (follows_walkClose h l) l) l) l

theorem follows_retirePending {r s : State} (h : Follows r s) (l : LaneId) (o : CueOutcome) :
    Follows r (s.retirePending l o) := by
  unfold State.retirePending
  split
  · exact h
  · exact follows_walkOn (follows_retire h l _ o) l

theorem follows_primeOrRetire {r s : State} (h : Follows r s) (l : LaneId) : Follows r (s.primeOrRetire l) := by
  unfold State.primeOrRetire
  dsimp only
  split
  · exact follows_retirePending (follows_prime h l) l _
  · exact follows_prime h l

theorem follows_primingOrRetire {r s : State} (h : Follows r s) (l : LaneId) : Follows r (s.primingOrRetire l) := by
  unfold State.primingOrRetire
  dsimp only
  split
  · exact follows_retirePending (follows_enterPriming h l) l _
  · exact follows_enterPriming h l

/-- The segment of a prefetched cue is that cue's. -/
theorem prefetchSegment_cue {s : State} {l : LaneId} {d : Identity} {b : Index} {c : TakenCue} {g : Segment}
    (h : s.prefetchSegment l d b c = some g) : g.cue = c := by
  unfold State.prefetchSegment at h
  split at h
  · obtain ⟨a, _, rfl⟩ := Option.map_eq_some_iff.1 h
    rfl
  · cases h

theorem follows_prefetch {r : State} (n : Nat) : ∀ {s : State} (_ : Follows r s) (l : LaneId),
    Follows r (State.prefetch n s l) := by
  induction n with
  | zero => exact fun h _ => h
  | succ n ih =>
    intro s h l
    unfold State.prefetch
    dsimp only
    split
    · rename_i k w d last hw _ _
      have h0 := follows_countReads (follows_stepRead h l) hostFieldWords
      have hk := walkStep_inTable s l k w hw
      split
      · rename_i hc
        have h1 := follows_moveWalk h0 l k w
        split
        · rename_i g hg
          refine follows_due (follows_setLane h1 l _ ?_) l
          refine fun hb => ⟨hb.1, ⟨?_, fun q hq => ?_, hb.2.1.pendingEntry, hb.2.1.passes⟩, hb.2.2⟩
          · have hm : ((((s.stepRead l).countReads hostFieldWords).moveWalk l k w).lane l).seq.segments =
                (s.lane l).seq.segments := by
              simp [State.moveWalk, State.updSeq, State.stepRead]
            simp only [hm, List.length_append, List.length_cons, List.length_nil]
            have := hc.2.1
            omega
          · rcases List.mem_append.1 hq with hq | hq
            · exact hb.2.1.segmentEntry q hq
            · rw [List.mem_singleton.1 hq, prefetchSegment_cue hg]
              exact hk
        · exact ih (follows_retire h1 l _ _) l
      · exact h0
    · exact follows_stepRead h l

theorem follows_prefetchAtEnd {r s : State} (h : Follows r s) (l : LaneId) : Follows r (s.prefetchAtEnd l) := by
  unfold State.prefetchAtEnd
  split
  · exact follows_prefetch _ h l
  · exact h

theorem follows_crossing {r s : State} (h : Follows r s) (l : LaneId) (g : Segment) (b : Bool) :
    Follows r (s.crossing l g b) := by
  unfold State.crossing
  dsimp only
  refine follows_updLane (follows_retireNormal h l _) l _ ?_
  intro n x hx
  refine Lane.Bounded.updCue ?_ _ _
  exact ⟨hx.1, hx.2.1.sublist (List.dropWhile_sublist _), hx.2.2⟩

theorem dropCurrent_kept (q : Sequencer) (h : q.Kept) : q.dropCurrent.Kept := by
  unfold Sequencer.dropCurrent
  split
  · exact h
  · exact CuesKept.sublist h List.filter_sublist

theorem follows_retireCurrent {r s : State} (h : Follows r s) (l : LaneId) : Follows r (s.retireCurrent l) := by
  unfold State.retireCurrent
  split
  · exact h
  · exact follows_updSeq (follows_retire h l _ _) l _ dropCurrent_kept

theorem follows_holdReached {r s : State} (h : Follows r s) (l : LaneId) : Follows r (s.holdReached l) := by
  have h1 := follows_updLane (follows_retireCurrent (follows_setLaneState h l .held) l) l
    (fun x => { x with plu := { x.plu with holdPoint := none } })
  unfold State.holdReached
  dsimp only
  split
  · exact follows_closeReading h1 l
  · exact h1

theorem follows_streamEnd {r s : State} (h : Follows r s) (l : LaneId) : Follows r (s.streamEnd l) := by
  unfold State.streamEnd
  dsimp only
  refine follows_walkOn (follows_updSeq (follows_retireNormal h l _) l _ ?_) l
  exact fun _ hq => hq.sublist (List.nil_sublist _)

theorem follows_cutStream {r s : State} (h : Follows r s) (l : LaneId) : Follows r (s.cutStream l) := by
  unfold State.cutStream
  refine follows_release (follows_updLane h l _ ?_) l _
  exact fun _ hx => ⟨hx.cutToFill.1, .clear hx.2.1.passes, hx.2.2⟩

theorem follows_playOutCut {r s : State} (h : Follows r s) (l : LaneId) : Follows r (s.playOutCut l) := by
  unfold State.playOutCut
  split
  · exact h
  · exact follows_walkOn (follows_cutStream (follows_retireAll h l _ _) l) l

theorem follows_identityFailure {r s : State} (h : Follows r s) (l : LaneId) (m : PlayOutMark) :
    Follows r (s.identityFailure l m) := by
  unfold State.identityFailure
  exact follows_closeReading (follows_updSeq (follows_setNews h _ _) l _) l

theorem follows_takeToc {r s : State} (h : Follows r s) (l : LaneId) (t : Toc) : Follows r (s.takeToc l t) := by
  unfold State.takeToc
  dsimp only
  repeat' split
  all_goals first
    | exact h
    | with_reducible exact follows_primeOrRetire (follows_establish h l) l
    | with_reducible exact follows_identityFailure h l _

theorem follows_discAbsent {r s : State} (h : Follows r s) (l : LaneId) : Follows r (s.discAbsent l) := by
  unfold State.discAbsent
  dsimp only
  split
  · exact h
  · exact follows_identityFailure h l _

theorem follows_trayChanged {r s : State} (h : Follows r s) (l : LaneId) : Follows r (s.trayChanged l) := by
  unfold State.trayChanged
  dsimp only
  repeat' split
  all_goals first
    | exact h
    | with_reducible exact follows_primingOrRetire h l
    | with_reducible exact follows_retirePending h l _

theorem follows_setSlot {r s : State} (h : Follows r s) (n : Loc) (e : SlotEntry) : Follows r (s.setSlot n e) := by
  unfold State.setSlot
  dsimp only
  repeat' split
  · exact follows_writeToc h n e
  · exact follows_trayChanged (follows_writeSlot h n e) _
  · exact follows_trayChanged (follows_writeSlot h n e) _
  · exact follows_writeSlot h n e

theorem follows_bindOutcome {r s : State} (h : Follows r s) (l : LaneId) (t : Byte) (o : LoaderOutcome) :
    Follows r (s.bindOutcome l t o) := by
  unfold State.bindOutcome
  split
  · exact h
  · split
    · exact h
    · dsimp only
      generalize hu : s.updSeq l _ = u
      have h1 : Follows r u := by
        rw [← hu]
        exact follows_updSeq h l _
      split
      all_goals first
        | exact h1
        | with_reducible exact follows_retirePending h1 l _
        | exact follows_updSeq h1 l _
        | exact follows_primingOrRetire (follows_updSeq h1 l _) l

theorem follows_recoveryEnded {r s : State} (h : Follows r s) (l : LaneId) : Follows r (s.recoveryEnded l) := by
  unfold State.recoveryEnded
  dsimp only
  split
  · have h1 := follows_updSeq h l (fun q => { q with reRequest := false })
    split
    · exact follows_sendBind h1 l _
    · exact h1
  · exact h

/-! ### Playout with the lane sequencer -/

theorem follows_readForPlay {r s : State} (h : Follows r s) (l : LaneId) : Follows r (s.readForPlay l).1 := by
  unfold State.readForPlay
  dsimp only
  repeat' split
  all_goals first | exact h | exact follows_noteStoreFault h l

theorem follows_readNext {r s : State} (h : Follows r s) (l : LaneId) : Follows r (s.readNext l).1 := by
  unfold State.readNext
  dsimp only
  repeat' split
  all_goals first | exact h | exact follows_noteStoreFault h l

theorem follows_countLoss {r s : State} (h : Follows r s) (l : LaneId) (a m : Nat) (c : LossCause) :
    Follows r (s.countLoss l a m c) := by
  unfold State.countLoss
  split
  · exact follows_endEpisode h l
  · exact follows_updLane h l _

theorem follows_takeUp {r s : State} (h : Follows r s) (l : LaneId) (b : Bool) : Follows r (s.takeUp l b) := by
  unfold State.takeUp
  dsimp only
  have h1 := follows_readForPlay h l
  generalize s.readForPlay l = v at h1 ⊢
  obtain ⟨u, q⟩ := v
  dsimp only at h1 ⊢
  generalize hv : (if q.form = .copy ∧ needsNext (s.settings l).interpLimit q.marks then u.readNext l
    else (u, none)) = v
  have h2 : Follows r v.1 := by
    rw [← hv]
    split
    · exact follows_readNext h1 l
    · exact h1
  obtain ⟨w, next⟩ := v
  dsimp only at h2 ⊢
  refine follows_countLoss (follows_updLane ?_ l _ ?_) l _ _ _
  · split
    · exact follows_crossing h2 l _ _
    · exact h2
  · exact fun x hx => (hx.playBlock _).countBlock _ _ _

theorem follows_enterUnderrun {r s : State} (h : Follows r s) (l : LaneId) : Follows r (s.enterUnderrun l) := by
  unfold State.enterUnderrun
  dsimp only
  have h1 := follows_setLaneState (follows_endEpisode h l) l .underrun
  generalize (s.endEpisode l).setLaneState l .underrun = u at h1 ⊢
  have h2 : Follows r (u.updLane l fun x => { x with
      plu := { x.plu.drop with cause := some (underrunCause (u.tlc l).state) } }) :=
    follows_updLane h1 l _ fun x hx => hx.setUnit ((x.plu.drop_bounded).of_eq rfl rfl)
  split
  · exact follows_streamEnd h2 l
  · exact h2

theorem follows_startPlay {r s : State} (h : Follows r s) (l : LaneId) : Follows r (s.startPlay l) := by
  unfold State.startPlay
  dsimp only
  have h1 := follows_updLane (follows_setLaneState h l .playing) l
    (fun x => { x with plu := { x.plu with cause := none } })
  split
  · exact follows_enterUnderrun h1 l
  · exact follows_takeUp h1 l _

theorem follows_dropAndStart {r s : State} (h : Follows r s) (l : LaneId) : Follows r (s.dropAndStart l) :=
  follows_startPlay (follows_updLane h l _ fun x hx => hx.setUnit x.plu.drop_bounded) l

theorem follows_claimAdvance {r s : State} (h : Follows r s) (l : LaneId) : Follows r (s.claimAdvance l) := by
  unfold State.claimAdvance
  refine follows_release (follows_updLane h l _ ?_) l _
  intro n x hx
  dsimp only
  have hb := hx.advanceMap (s.settings l).guard
  generalize x.advanceMap (s.settings l).guard = y at hb ⊢
  exact hb

theorem follows_advance {r s : State} (h : Follows r s) (l : LaneId) : Follows r (s.advance l) := by
  unfold State.advance
  dsimp only
  have h1 := follows_claimAdvance h l
  generalize s.claimAdvance l = u at h1 ⊢
  refine follows_prefetchAtEnd ?_ l
  have h2 : Follows r (u.updLane l fun x => { x with plu := x.plu.drop }) :=
    follows_updLane h1 l _ fun x hx => hx.setUnit x.plu.drop_bounded
  repeat' split
  · exact h2
  · exact follows_holdReached (follows_endEpisode h2 l) l
  · exact follows_enterUnderrun h1 l
  · exact follows_takeUp h1 l _

theorem follows_endFall {r s : State} (h : Follows r s) (l : LaneId) : Follows r (s.endFall l) :=
  follows_setLaneState (follows_updLane h l _ fun x hx => hx.setUnit x.plu.drop_bounded) l _

theorem follows_endBlock {r s : State} (h : Follows r s) (l : LaneId) : Follows r (s.endBlock l) := by
  unfold State.endBlock
  split
  · exact follows_dropAndStart h l
  · exact follows_endFall h l
  · exact h
  all_goals exact follows_updLane h l _ fun x hx => hx.setUnit x.plu.drop_bounded

theorem follows_resume {r s : State} (h : Follows r s) (l : LaneId) : Follows r (s.resume l) := by
  unfold State.resume
  dsimp only
  have h1 := follows_setLaneState h l .playing
  split
  · exact follows_startPlay h l
  · repeat' split
    · exact follows_dropAndStart h l
    · refine follows_updLane h1 l _ ?_
      exact fun x hx => hx.setUnit ((x.plu.silence_bounded).of_eq rfl rfl)
    · refine follows_advance (follows_updLane h1 l _ ?_) l
      exact fun x hx => hx.setUnit ((x.plu.silence_bounded).of_eq rfl rfl)
    · refine follows_updLane h1 l _ ?_
      exact fun x hx => hx.setUnit ((x.plu.resumeGain_bounded _ _ _).of_eq rfl rfl)

end Sys2Proof.Machine
end

