-- ==== Sys2Proof/Laws/FollowsIntake.lean ====
section
/-! SUPPORT. `Follows` for block intake and the Splice Unit. -/

namespace Sys2Proof.Machine

set_option Elab.async false

/-! ### Block intake -/

theorem follows_breakRun {r s : State} (h : Follows r s) (l : LaneId) : Follows r (s.updLane l Lane.breakRun) :=
  follows_updLane h l _

theorem follows_countInOrder {r s : State} (h : Follows r s) (l : LaneId) : Follows r (s.countInOrder l) := by
  unfold State.countInOrder
  split
  · exact follows_goodEvent (follows_breakRun h l) l
  · exact follows_updLane h l _

theorem follows_report {r s : State} (h : Follows r s) (l : LaneId) (q : IntakeResult) :
    Follows r (s.report l q) := by
  unfold State.report
  refine follows_takeResult ?_ l _
  split
  · exact follows_prefetchAtEnd h l
  · exact h

theorem follows_deliver {r s : State} (h : Follows r s) (l : LaneId) (i : Index) (a : Arrival) :
    Follows r (s.deliver l i a).1 := by
  unfold State.deliver
  repeat' split
  · exact h
  · exact h
  · exact follows_countStoreFault h l

/-- A delivery changes at most the lane's store fault counter. -/
theorem deliver_keeps (s : State) (l : LaneId) (i : Index) (a : Arrival) :
    ((s.deliver l i a).1.lane l).p = (s.lane l).p ∧ ((s.deliver l i a).1.lane l).f = (s.lane l).f ∧
      (s.deliver l i a).1.window l = s.window l := by
  unfold State.deliver
  repeat' split
  · exact ⟨rfl, rfl, rfl⟩
  · exact ⟨rfl, rfl, rfl⟩
  · simp [State.countStoreFault, State.window, State.share]

theorem follows_writeDelivery {r s : State} (h : Follows r s) (l : LaneId) (g : SegRef) (i : Index) (a : Arrival)
    (d : Delivery) : Follows r (s.writeDelivery l g i a d) := by
  unfold State.writeDelivery
  split
  · exact h
  · exact follows_firstWrite h ..

theorem follows_atWindow {r s : State} (h : Follows r s) (l : LaneId) (a : Arrival) : Follows r (s.atWindow l a) := by
  unfold State.atWindow
  split
  · exact follows_breakRun h l
  · exact h

theorem follows_takeAtFill {r s : State} (h : Follows r s) (l : LaneId) (g : SegRef) (a : Arrival) :
    Follows r (s.takeAtFill l g a) := by
  unfold State.takeAtFill
  dsimp only
  split
  · exact follows_report (follows_atWindow h l a) l _
  · rename_i hw
    have h1 := follows_deliver h l (s.lane l).f a
    have hk := deliver_keeps s l (s.lane l).f a
    generalize s.deliver l (s.lane l).f a = v at h1 hk ⊢
    obtain ⟨u, d⟩ := v
    dsimp only at h1 hk ⊢
    split
    · exact follows_report (follows_breakRun h1 l) l _
    · rename_i x hx
      have h2 := follows_writeDelivery (follows_setLane h1 l x fun hb => hb.append (by
        have hl := hb.1.form.lead
        rw [hk.2.2] at hl ⊢
        unfold Lane.bufferedLead State.window at *
        rw [hk.1, hk.2.1] at hl ⊢
        omega) hx) l g (s.lane l).f a d
      refine follows_report ?_ l _
      split
      · exact follows_countInOrder h2 l
      · exact follows_breakRun h2 l

theorem follows_takeFar {r s : State} (h : Follows r s) (l : LaneId) (g : SegRef) (i : Index) (o : IntakeOutcome)
    (c : Option CopyClass) : Follows r (s.takeFar l g i o c) :=
  follows_report (follows_updLane h l _ (by exact fun _ hx => hx.countSkip g)) l _

/-- An arrival kept ahead of f, at a position within the window (R53). -/
theorem follows_takeKept {r s : State} (h : Follows r s) (l : LaneId) (g : SegRef) (i : Index) (a : Arrival)
    (hw : ahead (s.lane l).f (s.lane l).p ≤ s.window l → s.window l ≤ Config.storeCells →
      ahead i (s.lane l).p < s.window l ∧ ahead (s.lane l).f (s.lane l).p ≤ ahead i (s.lane l).p) :
    Follows r (s.takeKept l g i a) := by
  unfold State.takeKept
  dsimp only
  have h1 := follows_deliver h l i a
  have hk := deliver_keeps s l i a
  generalize s.deliver l i a = v at h1 hk ⊢
  obtain ⟨u, d⟩ := v
  dsimp only at h1 hk ⊢
  split
  · exact follows_takeFar h1 l g i _ _
  · rename_i x hx
    rw [← hk.1, ← hk.2.1, ← hk.2.2] at hw
    exact follows_report (follows_writeDelivery (follows_setLane h1 l _ (by
      exact fun hb => (hb.aheadHole (hw hb.1.form.lead hb.1.form.window).1 (hw hb.1.form.lead hb.1.form.window).2 hx).countSkip g))
      l g i a d) l _

/-- A position after f, seen from p (00 section 6.2). -/
theorem ahead_of_before {p f i : Index} (hb : before f i = true) (hl : ahead f p ≤ Config.storeCells) :
    ahead i p = ahead i f + ahead f p ∧ 0 < ahead i f := by
  have hm : (f - i).toNat ≥ 2 ^ 31 := by
    have : (f - i).msb = true := hb
    rw [BitVec.msb_eq_decide] at this
    simpa using this
  have hif : (i - f).toNat = (2 ^ 32 - (f - i).toNat) % 2 ^ 32 := by
    simp only [BitVec.toNat_sub]
    omega
  have hlt : (f - i).toNat < 2 ^ 32 := (f - i).isLt
  have hsum : i - p = (i - f) + (f - p) := by
    apply BitVec.eq_of_toNat_eq
    simp only [BitVec.toNat_add, BitVec.toNat_sub]
    omega
  simp only [Config.storeCells] at hl
  unfold ahead at *
  rw [hsum, BitVec.toNat_add, hif]
  omega

theorem follows_takeAhead {r s : State} (h : Follows r s) (l : LaneId) (g : SegRef) (i : Index) (a : Arrival)
    (hb : before (s.lane l).f i = true) : Follows r (s.takeAhead l g i a) := by
  unfold State.takeAhead
  dsimp only
  split
  · exact follows_takeFar h l g i _ _
  · split
    · exact follows_takeFar h l g i _ _
    · rename_i hw
      split
      · exact follows_takeFar h l g i _ _
      · refine follows_takeKept h l g i a fun hl hn => ?_
        have hs := ahead_of_before hb (Nat.le_trans hl hn)
        unfold State.window State.share at *
        omega

theorem follows_absorbMerged {r s : State} (h : Follows r s) (l : LaneId) (i : Index) (a : Arrival) (m : MarkSet) :
    Follows r (s.absorbMerged l i a m).1 := by
  unfold State.absorbMerged
  dsimp only
  split
  · rename_i q _
    generalize hv : (s.lane l).absorb i _ _ = v
    have hb : (s.lane l).Bounded (s.window l) → v.2.Bounded (s.window l) := fun hx => by rw [← hv]; exact hx.absorb
    have h1 := follows_setLane h l v.2 hb
    split
    · dsimp only
      split
      · exact h1
      · exact follows_rewrite h1 ..
    · exact h
    · exact h
  · exact follows_noteStoreFault h l
  · exact follows_noteStoreFault h l

theorem follows_absorbFirst {r s : State} (h : Follows r s) (l : LaneId) (g : SegRef) (i : Index) (a : Arrival)
    (d : Delivery) : Follows r (s.absorbFirst l g i a d).1 := by
  unfold State.absorbFirst
  dsimp only
  generalize hv : (s.lane l).absorb i _ _ = v
  have hb : (s.lane l).Bounded (s.window l) → v.2.Bounded (s.window l) := fun hx => by rw [← hv]; exact hx.absorb
  split
  · exact follows_writeDelivery (follows_setLane h l v.2 hb) ..
  · exact h
  · exact h

theorem follows_takeBehind {r s : State} (h : Follows r s) (l : LaneId) (g : SegRef) (i : Index) (a : Arrival)
    (b : Bool) : Follows r (s.takeBehind l g i a b) := by
  unfold State.takeBehind
  dsimp only
  refine follows_report (follows_breakRun ?_ l) l _
  repeat' split
  all_goals first
    | with_reducible exact follows_absorbFirst h ..
    | with_reducible exact follows_absorbMerged h ..
    | with_reducible exact follows_absorbFirst (follows_deliver h l i a) ..

theorem follows_takePassed {r s : State} (h : Follows r s) (l : LaneId) (i : Index) (d : PassedSide)
    (b : Bool) : Follows r (s.takePassed l i d b) :=
  follows_report (follows_breakRun h l) l _

theorem follows_takeOutside {r s : State} (h : Follows r s) (l : LaneId) (label : BitVec 24) :
    Follows r (s.takeOutside l label) := by
  unfold State.takeOutside
  exact follows_report (follows_breakRun h l) l _

theorem follows_judge {r s : State} (h : Follows r s) (l : LaneId) (a : Arrival) : Follows r (s.judge l a) := by
  unfold State.judge
  dsimp only
  split
  · exact follows_takeOutside h l _
  · rename_i g i _
    generalize hu : s.updLane l _ = u
    have h1 : Follows r u := by
      rw [← hu]
      exact follows_updLane h l _
    have hf : (u.lane l).f = (s.lane l).f := by
      rw [← hu, State.lane_updLane]
    split
    · exact follows_takePassed h1 l _ _ _
    · split
      · exact follows_takeAtFill h1 l _ a
      · split
        · exact follows_takeAhead h1 l _ _ a (by rw [hf]; assumption)
        · split
          · exact follows_takeBehind h1 l _ _ a _
          · exact follows_takePassed h1 l _ _ _

theorem follows_releaseBlocks {r : State} (l : LaneId) (as : List Arrival) : ∀ {s : State} (_ : Follows r s),
    Follows r (State.releaseBlocks l as s) := by
  induction as with
  | nil => exact fun h => h
  | cons a as ih =>
    intro s h
    unfold State.releaseBlocks
    split
    · exact ih (follows_judge h l a)
    · exact h

theorem follows_releaseHeld {r s : State} (h : Follows r s) (l : LaneId) (a : Arrival) (e : Int) (c : CheckState) :
    Follows r (s.releaseHeld l a e c) := by
  unfold State.releaseHeld
  dsimp only
  refine follows_releaseBlocks l _ (follows_updLane h l _ ?_)
  exact fun _ hx => ⟨hx.1, hx.2.1, Nat.zero_le _, hx.2.2.2⟩

theorem follows_overrun {r s : State} (h : Follows r s) (l : LaneId) : Follows r (s.overrun l) := by
  unfold State.overrun
  exact follows_report (follows_endRun (follows_updLane h l _) l) l _

theorem follows_takeStray {r s : State} (h : Follows r s) (l : LaneId) : Follows r (s.takeStray l) := by
  unfold State.takeStray
  exact follows_report (follows_updTlc (follows_updLane h l _) l _) l _

/-! ### The Splice Unit -/

theorem follows_readCandidate {r s : State} (h : Follows r s) (l : LaneId) (q : CheckRequest) (e : Int) :
    Follows r (s.readCandidate l q e).1 := by
  unfold State.readCandidate
  dsimp only
  repeat' split
  all_goals first | exact h | exact follows_noteStoreFault h l

theorem follows_readCandidates {r : State} (l : LaneId) (q : CheckRequest) (es : List Int) :
    ∀ {s : State} (_ : Follows r s), Follows r (State.readCandidates l q es s).1 := by
  induction es with
  | nil => exact fun h => h
  | cons e es ih =>
    intro s h
    unfold State.readCandidates
    exact ih (follows_readCandidate h l q e)

theorem follows_noAnchor {r s : State} (h : Follows r s) (l : LaneId) (q : CheckRequest) : Follows r (s.noAnchor l q) := by
  unfold State.noAnchor
  exact follows_releaseHeld (follows_updLane h l _) l _ _ _

theorem follows_matchFound {r s : State} (h : Follows r s) (l : LaneId) (q : CheckRequest) (e : Int) :
    Follows r (s.matchFound l q e) := by
  unfold State.matchFound
  refine follows_releaseHeld (follows_updLane h l _ ?_) l _ _ _
  intro n x hx
  dsimp only
  split
  · exact hx
  · exact (Lane.Bounded.updCue hx q.seg.base fun c => { c with slips := bump c.slips }).of_eq rfl rfl rfl rfl rfl

theorem follows_noMatch {r s : State} (h : Follows r s) (l : LaneId) : Follows r (s.noMatch l) := by
  unfold State.noMatch
  exact follows_report (follows_badEvent (follows_endRun (follows_updLane h l _) l) l) l _

theorem follows_deliverCheck {r s : State} (h : Follows r s) (c : RunningCheck) : Follows r (s.deliverCheck c) := by
  unfold State.deliverCheck
  repeat' split
  · exact h
  · exact follows_matchFound h ..
  · exact follows_noMatch h _

theorem follows_takeCheck {r s : State} (h : Follows r s) (l : LaneId) (q : CheckRequest) :
    Follows r (s.takeCheck l q) := by
  unfold State.takeCheck
  dsimp only
  have h1 := follows_readCandidates l q candidates (follows_splice h (s.splice.setPlace l none))
  generalize State.readCandidates l q candidates { s with splice := s.splice.setPlace l none } = v at h1 ⊢
  obtain ⟨u, rs⟩ := v
  dsimp only at h1 ⊢
  split
  · exact follows_noAnchor h1 l q
  · exact follows_splice h1 _

theorem follows_nextCheck {r : State} (n : Nat) : ∀ {s : State} (_ : Follows r s), Follows r (State.nextCheck n s) := by
  induction n with
  | zero => exact fun h => h
  | succ n ih =>
    intro s h
    unfold State.nextCheck
    split
    · exact ih (follows_takeCheck h _ _)
    · exact ih (follows_takeCheck h _ _)
    · exact h

theorem follows_requestCheck {r s : State} (h : Follows r s) (l : LaneId) (q : CheckRequest) :
    Follows r (s.requestCheck l q) := by
  unfold State.requestCheck
  exact follows_nextCheck _ (follows_splice h _)

theorem follows_completeCheck {r s : State} (h : Follows r s) (c : RunningCheck) : Follows r (s.completeCheck c) := by
  unfold State.completeCheck
  exact follows_nextCheck _ (follows_deliverCheck (follows_splice h _) c)

theorem follows_hold {r s : State} (h : Follows r s) (l : LaneId) (a : Arrival) : Follows r (s.hold l a) := by
  unfold State.hold
  dsimp only
  split
  · exact follows_overrun h l
  · rename_i hc
    split
    · exact follows_requestCheck (follows_updLane h l _) l _
    · refine follows_setLane h l _ ?_
      refine fun hb => ⟨hb.1, hb.2.1, ?_, hb.2.2.2⟩
      simp only [List.length_append, List.length_cons, List.length_nil]
      omega

theorem follows_arrive {r s : State} (h : Follows r s) (l : LaneId) (a : Arrival) : Follows r (s.arrive l a) := by
  unfold State.arrive
  dsimp only
  repeat' split
  · exact follows_report h l _
  · exact follows_takeStray h l
  · exact follows_hold h l a
  · exact follows_judge h l a

end Sys2Proof.Machine
end

