-- ==== Sys2Proof/Laws/FollowsLoader.lean ====
section
/-! SUPPORT. `Follows` for the loader controller, and for an event taken whole. -/

namespace Sys2Proof.Machine

set_option Elab.async false

theorem follows_command {r s : State} (h : Follows r s) (c : StageCommand) : Follows r (s.command c) :=
  follows_updLoader h _

theorem follows_beginQuiet {r s : State} (h : Follows r s) (l : LaneId) : Follows r (s.beginQuiet l) := by
  unfold State.beginQuiet
  exact follows_halt (follows_due (follows_updLane h l _) l) l

theorem follows_endQuiet {r s : State} (h : Follows r s) (l : LaneId) : Follows r (s.endQuiet l) := by
  unfold State.endQuiet
  split
  · exact follows_due (follows_updLane h l _) l
  · exact h

theorem follows_releaseQuiet {r s : State} (h : Follows r s) : Follows r s.releaseQuiet :=
  follows_endQuiet (follows_endQuiet h .a) .b

theorem follows_beginStage {r s : State} (h : Follows r s) (g : Stage) (c : StageCommand) (b : Bool) :
    Follows r (s.beginStage g c b) := by
  unfold State.beginStage
  exact follows_command (follows_updLoader h _) c

theorem follows_setStopped {r s : State} (h : Follows r s) (l : LaneId) (b : Bool) :
    Follows r (s.updLoader fun d => d.setStopped l b) :=
  follows_updLoader h _ (by intro d hd; cases l <;> exact hd)

theorem follows_endOutcome {r s : State} (h : Follows r s) (q : LoaderRequest) (o : LoaderOutcome) :
    Follows r (s.endOutcome q o) := by
  unfold State.endOutcome
  refine follows_recordOutcome ?_ q o
  split
  · exact follows_bindOutcome h ..
  all_goals exact h

theorem follows_endOutcomes {r : State} (o : LoaderOutcome) (qs : List LoaderRequest) :
    ∀ {s : State} (_ : Follows r s), Follows r (State.endOutcomes o qs s) := by
  induction qs with
  | nil => exact fun h => h
  | cons q qs ih => exact fun h => ih (follows_endOutcome h q o)

theorem follows_spinUpStopped {r s : State} (h : Follows r s) (l : LaneId) : Follows r (s.spinUpStopped l) := by
  unfold State.spinUpStopped
  split
  · exact follows_setStopped (follows_changeTlc h l _) l _
  · exact h

theorem follows_endRequest {r s : State} (h : Follows r s) (o : LoaderOutcome) : Follows r (s.endRequest o) := by
  unfold State.endRequest
  split
  · exact h
  · exact follows_updLoader (follows_endOutcome (follows_spinUpStopped (follows_spinUpStopped h .a) .b) _ o) _

theorem follows_beginTake {r s : State} (h : Follows r s) : Follows r s.beginTake := by
  unfold State.beginTake
  split
  · exact follows_beginStage h ..
  · exact h

theorem follows_moveToArm {r s : State} (h : Follows r s) (n : Loc) : Follows r (s.moveToArm n) := by
  unfold State.moveToArm
  exact follows_setSlot (follows_setSlot h _ _) _ _

theorem follows_moveFromArm {r s : State} (h : Follows r s) (n : Loc) : Follows r (s.moveFromArm n) := by
  unfold State.moveFromArm
  exact follows_setSlot (follows_setSlot h _ _) _ _

theorem follows_nextLeg {r s : State} (h : Follows r s) : Follows r s.nextLeg := by
  unfold State.nextLeg
  split
  · exact follows_beginTake (follows_updLoader h _)
  · exact follows_endRequest h _

theorem serveRescans_requests (q : List Waiting) :
    (serveRescans q).map Waiting.request = q.map Waiting.request := by
  unfold serveRescans
  rw [List.map_map]
  refine List.map_congr_left fun w _ => ?_
  dsimp only [Function.comp]
  split <;> rfl

theorem follows_beginHoming {r s : State} (h : Follows r s) (k : HomingKind) : Follows r (s.beginHoming k) := by
  unfold State.beginHoming
  refine follows_beginStage (follows_beginQuiet (follows_beginQuiet (follows_updLoader h _ ?_) .a) .b) ..
  intro d hd
  refine hd.of_requests ?_
  dsimp only
  split
  · rw [serveRescans_requests]
  · exact List.Sublist.refl _

theorem follows_spinUpHeld {r s : State} (h : Follows r s) (l : LaneId) : Follows r (s.spinUpHeld l) := by
  unfold State.spinUpHeld
  refine follows_setStopped ?_ l _
  split
  · exact follows_changeTlc h l _
  · exact h

theorem follows_endHoming {r s : State} (h : Follows r s) (k : HomingKind) (o : LoaderOutcome) :
    Follows r (s.endHoming k o) := by
  unfold State.endHoming
  dsimp only
  generalize hu : s.updLoader _ = u
  have h1 : Follows r u := by
    rw [← hu]
    exact follows_updLoader h _
  have h2 := follows_spinUpHeld (follows_spinUpHeld h1 .a) .b
  generalize (u.spinUpHeld .a).spinUpHeld .b = v at h2 ⊢
  generalize hw : v.updLoader _ = w
  have h3 : Follows r w := by
    rw [← hw]
    refine follows_updLoader h2 _ ?_
    intro d hd
    refine hd.of_sublist ?_
    dsimp only
    split
    · exact List.filter_sublist
    · exact List.Sublist.refl _
  have h4 := follows_endOutcomes o (v.loader.rescansEnded k) h3
  generalize State.endOutcomes o (v.loader.rescansEnded k) w = x at h4 ⊢
  split
  · exact follows_updLoader (follows_changeTlc (follows_changeTlc h4 .a _) .b _) _
  · exact follows_updLoader h4 _

theorem follows_afterSenses {r s : State} (h : Follows r s) (m : Homing) : Follows r (s.afterSenses m) := by
  unfold State.afterSenses
  dsimp only
  repeat' split
  all_goals first
    | with_reducible exact follows_endHoming h _ _
    | (with_reducible refine follows_beginStage (follows_updLoader h _ ?_) ..
       intro d hd; exact hd)

theorem follows_writeSensed {r s : State} (h : Follows r s) (n : Loc) (b : Bool) : Follows r (s.writeSensed n b) := by
  unfold State.writeSensed
  dsimp only
  split
  · exact h
  · exact follows_setSlot h n _

theorem follows_senseEnd {r s : State} (h : Follows r s) (m : Homing) (b : Bool) : Follows r (s.senseEnd m b) := by
  unfold State.senseEnd
  dsimp only
  have h1 := follows_writeSensed h m.sensing b
  split
  · exact follows_beginStage (follows_updLoader h1 _) ..
  · exact follows_afterSenses h1 m

theorem follows_forget {r : State} (ns : List Loc) : ∀ {s : State} (_ : Follows r s), Follows r (s.forget ns) := by
  induction ns with
  | nil => exact fun h => h
  | cons n ns ih => exact fun h => ih (follows_setSlot h n _)

theorem follows_haltStage {r s : State} (h : Follows r s) : Follows r s.haltStage := by
  unfold State.haltStage
  split
  · exact follows_command h _
  · exact h

theorem follows_answerWaiting {r : State} (n : Nat) :
    ∀ {s : State}, Follows r s → Follows r (State.answerWaiting n s) := by
  induction n with
  | zero => exact fun h => h
  | succ n ih =>
    intro s h
    unfold State.answerWaiting
    split
    · exact h
    · exact ih (follows_endOutcome (follows_updLoader h _ (fun d hd => hd.of_sublist List.erase_sublist)) _ _)

theorem follows_jam {r s : State} (h : Follows r s) : Follows r s.jam := by
  unfold State.jam
  dsimp only
  have h1 := follows_forget s.loader.stageLocations (follows_haltStage h)
  split
  · refine follows_endHoming (follows_updLoader (follows_answerWaiting _ (follows_updLoader ?_ _)) _) _ _
    split
    · exact follows_endOutcome h1 _ _
    · exact h1
  · refine follows_updLoader (follows_answerWaiting _ (follows_updLoader ?_ _)) _
    split
    · exact follows_endOutcome h1 _ _
    · exact h1

theorem follows_prepareLane {r s : State} (h : Follows r s) (q : LoaderRequest) (legs : List Leg) (l : LaneId) :
    Follows r (s.prepareLane q legs l) := by
  have h1 := follows_setStopped (follows_changeTlc h l (fun t => t.spindleStop.1)) l true
  unfold State.prepareLane
  dsimp only
  repeat' split
  all_goals first
    | with_reducible exact h1
    | with_reducible exact h
    | with_reducible exact follows_beginQuiet h1 l
    | with_reducible exact follows_beginQuiet h l

theorem follows_bindBegun {r s : State} (h : Follows r s) (q : LoaderRequest) : Follows r (s.bindBegun q) := by
  cases q with
  | bind l k t =>
    unfold State.bindBegun
    exact follows_updSeq h l _
  | eject n => exact h
  | insert k => exact h
  | rescan => exact h

theorem follows_startLegs {r s : State} (h : Follows r s) (q : LoaderRequest) (legs : List Leg) :
    Follows r (s.startLegs q legs) := by
  unfold State.startLegs
  dsimp only
  generalize hu : s.updLoader _ = u
  have h1 : Follows r u := by
    rw [← hu]
    exact follows_updLoader h _
  have h2 := follows_prepareLane (follows_prepareLane (follows_bindBegun h1 q) q legs .a) q legs .b
  split
  · exact follows_beginTake h2
  · exact h2

theorem follows_startRequest {r s : State} (h : Follows r s) (w : Waiting) : Follows r (s.startRequest w) := by
  unfold State.startRequest
  dsimp only
  generalize hu : (if w.due && !s.gateOpen w.request then
      s.updLoader fun d => { d with count := { d.count with forced := bump d.count.forced } } else s) = u
  have h1 : Follows r u := by
    rw [← hu]
    split
    · exact follows_updLoader h _
    · exact h
  split
  · exact follows_endOutcome h1 _ _
  · exact follows_startLegs h1 _ _
  · exact follows_beginHoming (follows_updLoader h1 _) _

theorem follows_arbitrate {r s : State} (h : Follows r s) (w : Waiting) : Follows r (s.arbitrate w) := by
  unfold State.arbitrate
  refine follows_startRequest (follows_updLoader h _ ?_) w
  exact fun d hd => hd.of_sublist List.erase_sublist

theorem follows_spindleAnswered {r s : State} (h : Follows r s) (o : SpindleOutcome) :
    Follows r (s.spindleAnswered o) := by
  unfold State.spindleAnswered
  repeat' split
  all_goals first
    | with_reducible exact h
    | with_reducible exact follows_beginTake h
    | with_reducible exact follows_jam h
    | with_reducible exact follows_endRequest h _

theorem follows_trayAbsent {r s : State} (h : Follows r s) (l : LaneId) : Follows r (s.trayAbsent l) :=
  follows_setSlot h _ _

theorem follows_trayToc {r s : State} (h : Follows r s) (l : LaneId) (t : Toc) : Follows r (s.trayToc l t) :=
  follows_setSlot h _ _

theorem follows_interrupt {r s : State} (h : Follows r s) : Follows r s.interrupt := by
  unfold State.interrupt
  dsimp only
  split
  · refine follows_forget _ ?_
    split
    · exact follows_updLoader (follows_endOutcome (follows_haltStage h) _ _) _
    · exact follows_haltStage h
  · exact h

theorem follows_stopMechanism {r s : State} (h : Follows r s) : Follows r s.stopMechanism := by
  unfold State.stopMechanism
  dsimp only
  exact follows_setNews (follows_updLoader (follows_changeTlc (follows_changeTlc
    (follows_updLoader (follows_interrupt h) _) .a _) .b _) _) _ _

theorem follows_returnMechanism {r s : State} (h : Follows r s) : Follows r s.returnMechanism := by
  unfold State.returnMechanism
  exact follows_beginHoming (follows_updLoader h _) _

theorem follows_settled {r s : State} (h : Follows r s) : Follows r s.settled := by
  unfold State.settled
  dsimp only
  refine follows_updLoader (follows_releaseQuiet (follows_updLoader h _)) _ ?_
  intro d hd
  repeat' split
  all_goals exact hd

theorem follows_endRecovery {r s : State} (h : Follows r s) : Follows r s.endRecovery := by
  unfold State.endRecovery
  exact follows_recoveryEnded (follows_recoveryEnded (follows_updLoader h _) .a) .b

/-! ### An event taken whole -/

theorem follows_handJammed {r s t : State} (h : Follows r s) (l : LaneId) (ht : s.handJammed l = some t) :
    Follows r t := by
  unfold State.handJammed at ht
  split at ht
  · cases ht
  · cases ht
    exact follows_endOutcome (follows_updLane h l _) _ _

theorem follows_followLane {r s t : State} (h : Follows r s) (l : LaneId) (ht : s.followLane l = some t) :
    Follows r t := by
  unfold State.followLane at ht
  split at ht
  · rename_i u hu
    cases ht
    exact follows_handJammed h l hu
  · repeat' split at ht
    all_goals cases ht
    · exact follows_playOutCut h l
    · exact follows_schedule h l _
    · exact follows_startPlay h l

theorem follows_follow {r s t : State} (h : Follows r s) (ht : s.follow = some t) : Follows r t := by
  unfold State.follow at ht
  split at ht
  · rename_i u hu
    cases ht
    exact follows_followLane h .a hu
  · split at ht
    · rename_i u hu
      cases ht
      exact follows_followLane h .b hu
    · repeat' split at ht
      all_goals cases ht
      · exact follows_endRecovery h
      · exact follows_arbitrate h _

theorem follows_settle {r : State} (n : Nat) : ∀ {s : State} (_ : Follows r s), Follows r (State.settle n s) := by
  induction n with
  | zero => exact fun h => h
  | succ n ih =>
    intro s h
    unfold State.settle
    split
    · exact h
    · rename_i t ht
      exact ih (follows_follow h ht)

theorem follows_clearOutputs {r s : State} (h : Follows r s) (own : Option CellId := none) :
    Follows r (s.clearOutputs own) :=
  h.of_same rfl rfl rfl rfl rfl rfl rfl fun hi =>
    ⟨hi.memory, hi.cells, hi.settings, hi.laneA, hi.laneB, hi.queue, accessesWithin_inside _ _ _ _ _ _⟩

theorem follows_finishLane {r s : State} (h : Follows r s) (l : LaneId) : Follows r (s.finishLane l) := by
  have h1 := follows_updLane h l (fun x => { x with marks := .clear })
  have h2 := follows_writeStatus h1 l
  unfold State.finishLane
  dsimp only
  repeat' split
  all_goals first
    | with_reducible exact h1
    | with_reducible exact h2
    | with_reducible exact follows_setNews h1 _ _
    | with_reducible exact follows_setNews h2 _ _
    | with_reducible exact follows_setNews (follows_setNews h1 _ _) _ _
    | with_reducible exact follows_setNews (follows_setNews h2 _ _) _ _

theorem follows_finishTransport {r s : State} (h : Follows r s) (b : State) (l : LaneId) :
    Follows r (s.finishTransport b l) := by
  unfold State.finishTransport
  split
  · exact h
  · exact follows_writeTransport h l

theorem follows_finishLoader {r s : State} (h : Follows r s) (b : State) : Follows r (s.finishLoader b) := by
  unfold State.finishLoader
  split
  · exact h
  · exact follows_writeLoader h

theorem follows_finish {r s : State} (h : Follows r s) (b : State) : Follows r (s.finish b) := by
  unfold State.finish
  exact follows_finishLoader (follows_finishTransport (follows_finishTransport
    (follows_finishLane (follows_finishLane h .a) .b) b .a) b .b) b

theorem follows_carryOut {r s : State} {f : State → State} (h : Follows r (f s)) : Follows r (s.carryOut f) :=
  follows_settle _ h

/-- An event whose own effect keeps the rules keeps them whole. -/
theorem follows_event (s : State) (f : State → State) (hf : Follows s (f s.clearOutputs)) : Follows s (s.event f) := by
  unfold State.event
  exact follows_finish (follows_carryOut hf) _

theorem follows_onEvent (s : State) (b : Bool) (f : State → State)
    (hf : ∀ r s : State, Follows r s → Follows r (f s)) : Follows s (s.onEvent b f) := by
  unfold State.onEvent
  split
  · exact follows_event s f (hf _ _ (follows_clearOutputs (Follows.refl s)))
  · exact Follows.refl s

end Sys2Proof.Machine
end

