-- ==== Sys2Proof/Laws/Calm.lean ====
section
/-! SUPPORT. What follows within an event leaves alone. `Calm e c b r s` relates the state `r` of an event after its own
effect to a state `s` reached by what follows in it: `e` names the lanes whose sequencer and playout unit may act, `c`
those whose stream may be cut, `b` says whether the loader controller may start a request or end its recovery. -/

namespace Sys2Proof.Machine

set_option Elab.async false

/-! ### What stays -/

/-- The part of a transport link controller that only events of its own link, its timers and the loader mechanism
change; of its state, whether it is OFFLINE or MECH_HELD. -/
def Tlc.steady (t : Tlc) : Tlc :=
  { t with
    state := match t.state with
      | .offline => .offline
      | .mechHeld => .mechHeld
      | .starting | .empty | .toc | .ready | .seeking | .reading => .ready
    seek := none
    loaderHold := false
    stopPending := false
    assembly := .empty
    timers := .none
    count := { t.count with seeks := 0, halts := 0 }
    refresh := 0
    sent := [] }

/-- The part of a lane that only its own events change. -/
structure LaneSteady where
  f : Index
  mode : WalkMode
  refresh : BitVec 16
  out : Pair
  skips : Nat
  strays : Nat
  overruns : Nat
  noMatches : Nat
  unanchored : Nat
  slips : Nat
  repaired : Nat
  due : Bool

/-- The steady part of a lane. -/
def Lane.steady (x : Lane) : LaneSteady :=
  { f := x.f, mode := x.seq.mode, refresh := x.seq.refresh, out := x.plu.out, skips := x.count.skips,
    strays := x.count.strays, overruns := x.count.overruns, noMatches := x.count.noMatches,
    unanchored := x.count.unanchored, slips := x.count.slips, repaired := x.count.repaired, due := x.marks.refresh }

/-- The part of the loader controller that only its own events change. -/
structure LoaderSteady where
  slots : Vector SlotEntry 10
  mechStopped : Bool
  faultMark : Bool
  toRecovery : Bool
  settleTimer : Option Nat
  moves : Nat
  jams : Nat
  interruptions : Nat
  withdrawals : Nat
  homings : Nat

/-- The steady part of the loader controller. -/
def Loader.steady (d : Loader) : LoaderSteady :=
  { slots := d.slots, mechStopped := d.mechStopped, faultMark := d.faultMark, toRecovery := d.toRecovery,
    settleTimer := d.settleTimer, moves := d.count.moves, jams := d.count.jams,
    interruptions := d.count.interruptions, withdrawals := d.count.withdrawals, homings := d.count.homings }

/-- The loader controller without its queue, its last outcome and the refresh count of its record. -/
def Loader.works (d : Loader) : Loader := { d with queue := [], last := none, refresh := 0 }

/-- What follows within an event leaves these alone. -/
structure Calm (e c : LaneId → Prop) (b : Prop) (r s : State) : Prop where
  tlc : ∀ l, (s.tlc l).steady = (r.tlc l).steady
  lane : ∀ l, (s.lane l).steady = (r.lane l).steady
  loader : s.loader.steady = r.loader.steady
  works : ¬ b → s.loader.works = r.loader.works ∧ r.loader.queue <+: s.loader.queue
  still : ¬ b → ∀ l, (r.tlc l).state.usable = false → s.tlc l = r.tlc l
  quiet : ∀ l, ¬ e l → (s.lane l).seq = (r.lane l).seq ∧ (s.lane l).plu = (r.lane l).plu
  uncut : ∀ l, ¬ c l → (s.lane l).p = (r.lane l).p ∧
    ((r.lane l).seq.mark = none → (s.lane l).seq.mark = none)
  store : List.Sublist s.store r.store
  recovery : r.loader.recoveryTimer = none → s.loader.recoveryTimer = none
  free : r.splice.running = none → s.splice.running = none

theorem Calm.refl (e c : LaneId → Prop) (b : Prop) (s : State) : Calm e c b s s :=
  ⟨fun _ => rfl, fun _ => rfl, rfl, fun _ => ⟨rfl, List.prefix_refl _⟩, fun _ _ _ => rfl, fun _ _ => ⟨rfl, rfl⟩,
    fun _ _ => ⟨rfl, id⟩, List.Sublist.refl _, id, id⟩

section
variable {e c : LaneId → Prop} {b : Prop} {r s : State}

/-- A change that leaves all of this alone. -/
theorem Calm.of_same {t : State} (h : Calm e c b r s) (tlc : ∀ l, t.tlc l = s.tlc l) (lane : ∀ l, t.lane l = s.lane l)
    (loader : t.loader.steady = s.loader.steady)
    (works : ¬ b → t.loader.works = s.loader.works ∧ s.loader.queue <+: t.loader.queue)
    (store : List.Sublist t.store s.store)
    (recovery : s.loader.recoveryTimer = none → t.loader.recoveryTimer = none := by exact id)
    (free : s.splice.running = none → t.splice.running = none := by exact id) : Calm e c b r t :=
  ⟨fun l => by rw [tlc, h.tlc], fun l => by rw [lane, h.lane], loader.trans h.loader,
    fun hb => ⟨(works hb).1.trans (h.works hb).1, (h.works hb).2.trans (works hb).2⟩,
    fun hb l hu => by rw [tlc]; exact h.still hb l hu, fun l hl => by rw [lane]; exact h.quiet l hl,
    fun l hl => by rw [lane]; exact h.uncut l hl, store.trans h.store, fun hr => recovery (h.recovery hr),
    fun hr => free (h.free hr)⟩

theorem lane_updLane_ne (s : State) {k l : LaneId} (h : k ≠ l) (g : Lane → Lane) : (s.updLane l g).lane k = s.lane k := by
  cases k <;> cases l <;> first | exact absurd rfl h | rfl

theorem tlc_setTlc_ne (s : State) {k l : LaneId} (h : k ≠ l) (t : Tlc) : (s.setTlc l t).tlc k = s.tlc k := by
  cases k <;> cases l <;> first | exact absurd rfl h | rfl

theorem lane_setLane_ne (s : State) {k l : LaneId} (h : k ≠ l) (x : Lane) : (s.setLane l x).lane k = s.lane k := by
  cases k <;> cases l <;> first | exact absurd rfl h | rfl

/-- A lane replaced. -/
theorem calm_setLane (h : Calm e c b r s) (l : LaneId) (x : Lane) (hs : x.steady = (s.lane l).steady)
    (he : e l ∨ (x.seq = (s.lane l).seq ∧ x.plu = (s.lane l).plu))
    (hc : c l ∨ (x.p = (s.lane l).p ∧ ((s.lane l).seq.mark = none → x.seq.mark = none))) :
    Calm e c b r (s.setLane l x) := by
  refine ⟨fun k => by simpa using h.tlc k, fun k => ?_, by simpa using h.loader, fun hb => by simpa using h.works hb,
    fun hb k hu => by simpa using h.still hb k hu, fun k hk => ?_, fun k hk => ?_, by simpa using h.store,
    by simpa using h.recovery, by simpa using h.free⟩
  · by_cases hkl : k = l
    · subst hkl; rw [State.lane_setLane, hs, h.lane]
    · rw [lane_setLane_ne _ hkl, h.lane]
  · by_cases hkl : k = l
    · subst hkl
      rw [State.lane_setLane]
      rcases he with he | he
      · exact absurd he hk
      · rw [he.1, he.2]; exact h.quiet k hk
    · rw [lane_setLane_ne _ hkl]; exact h.quiet k hk
  · by_cases hkl : k = l
    · subst hkl
      rw [State.lane_setLane]
      rcases hc with hc | hc
      · exact absurd hc hk
      · exact ⟨hc.1.trans (h.uncut k hk).1, fun hm => hc.2 ((h.uncut k hk).2 hm)⟩
    · rw [lane_setLane_ne _ hkl]; exact h.uncut k hk

/-- A lane changed in its sequencer or its playout unit. -/
theorem calm_updLane (h : Calm e c b r s) (l : LaneId) (g : Lane → Lane) (he : e l)
    (hs : ∀ x : Lane, (g x).steady = x.steady := by exact fun _ => rfl)
    (hc : ∀ x : Lane, (g x).p = x.p ∧ (x.seq.mark = none → (g x).seq.mark = none) := by
      exact fun _ => ⟨rfl, fun hm => hm⟩) :
    Calm e c b r (s.updLane l g) :=
  calm_setLane h l _ (hs _) (Or.inl he) (Or.inr (hc _))

/-- A lane changed elsewhere. -/
theorem calm_updRest (h : Calm e c b r s) (l : LaneId) (g : Lane → Lane)
    (hs : ∀ x : Lane, (g x).steady = x.steady ∧ (g x).seq = x.seq ∧ (g x).plu = x.plu ∧ (g x).p = x.p := by
      exact fun _ => ⟨rfl, rfl, rfl, rfl⟩) :
    Calm e c b r (s.updLane l g) :=
  calm_setLane h l _ (hs _).1 (Or.inr ⟨(hs _).2.1, (hs _).2.2.1⟩)
    (Or.inr ⟨(hs _).2.2.2, fun hm => by rw [(hs _).2.1]; exact hm⟩)

theorem calm_setTlc (h : Calm e c b r s) (l : LaneId) (t : Tlc) (ht : t.steady = (s.tlc l).steady)
    (hu : b ∨ ((s.tlc l).state.usable = false → t = s.tlc l)) : Calm e c b r (s.setTlc l t) := by
  refine ⟨fun k => ?_, fun k => by simpa using h.lane k, by simpa using h.loader, fun hb => by simpa using h.works hb,
    fun hb k hk => ?_, fun k hk => by simpa using h.quiet k hk, fun k hk => by simpa using h.uncut k hk, by simpa using h.store,
    by simpa using h.recovery, by simpa using h.free⟩
  · by_cases hkl : k = l
    · subst hkl; rw [State.tlc_setTlc, ht, h.tlc]
    · rw [tlc_setTlc_ne _ hkl, h.tlc]
  · have hs := h.still hb k hk
    by_cases hkl : k = l
    · subst hkl
      rw [State.tlc_setTlc, hu.resolve_left hb (by rw [hs]; exact hk), hs]
    · rw [tlc_setTlc_ne _ hkl, hs]

theorem calm_updLoader (h : Calm e c b r s) (g : Loader → Loader) (hb : b)
    (hs : ∀ d : Loader, (g d).steady = d.steady := by exact fun _ => rfl)
    (hr : ∀ d : Loader, d.recoveryTimer = none → (g d).recoveryTimer = none := by
      first | exact fun _ hd => hd | exact fun _ _ => rfl) : Calm e c b r (s.updLoader g) :=
  h.of_same (fun l => by cases l <;> rfl) (fun l => by cases l <;> rfl) (hs _) (fun hn => absurd hb hn)
    (List.Sublist.refl _) (hr _)

/-- The loader controller changed in its queue or its last outcome. -/
theorem calm_updQueue (h : Calm e c b r s) (g : Loader → Loader)
    (hs : ∀ d : Loader, (g d).steady = d.steady ∧ (g d).works = d.works ∧ d.queue <+: (g d).queue := by
      exact fun _ => ⟨rfl, rfl, List.prefix_refl _⟩) :
    Calm e c b r (s.updLoader g) :=
  h.of_same (fun l => by cases l <;> rfl) (fun l => by cases l <;> rfl) (hs _).1 (fun _ => (hs _).2)
    (List.Sublist.refl _) fun hn => by
      have hw : (g s.loader).works.recoveryTimer = s.loader.works.recoveryTimer := by rw [(hs s.loader).2.1]
      exact Eq.trans hw hn

theorem calm_splice (h : Calm e c b r s) (u : Splice) (hu : s.splice.running = none → u.running = none) :
    Calm e c b r { s with splice := u } :=
  h.of_same (fun l => by cases l <;> rfl) (fun l => by cases l <;> rfl) rfl (fun _ => ⟨rfl, List.prefix_refl _⟩)
    (List.Sublist.refl _) id hu

theorem calm_setWords (h : Calm e c b r s) (a : Nat) (ws : List Word) : Calm e c b r (s.setWords a ws) :=
  h.of_same (fun l => by cases l <;> rfl) (fun l => by cases l <;> rfl) rfl (fun _ => ⟨rfl, List.prefix_refl _⟩) (List.Sublist.refl _)

theorem calm_setNews (h : Calm e c b r s) (n : NewsWord) (m : Word) : Calm e c b r (s.setNews n m) :=
  h.of_same (fun l => by cases l <;> rfl) (fun l => by cases l <;> rfl) rfl (fun _ => ⟨rfl, List.prefix_refl _⟩) (List.Sublist.refl _)

theorem calm_release (h : Calm e c b r s) (l : LaneId) (p : StoreCell → Bool) : Calm e c b r (s.release l p) :=
  h.of_same (fun l => by cases l <;> rfl) (fun l => by cases l <;> rfl) rfl (fun _ => ⟨rfl, List.prefix_refl _⟩) List.filter_sublist

/-! ### Runs and transport link controllers -/

theorem calm_noteStoreFault (h : Calm e c b r s) (l : LaneId) : Calm e c b r (s.noteStoreFault l) :=
  calm_setNews (calm_updRest h l _) _ _

theorem calm_due (h : Calm e c b r s) (l : LaneId) : Calm e c b r (s.due l) := calm_updRest h l _

theorem calm_setLaneState (h : Calm e c b r s) (l : LaneId) (t : LaneState) (he : e l) :
    Calm e c b r (s.setLaneState l t) :=
  calm_updLane h l _ he (by intro x; dsimp only; split <;> rfl)
    (by intro x; dsimp only; split <;> exact ⟨rfl, fun hm => hm⟩)

theorem calm_withdrawCheck (h : Calm e c b r s) (l : LaneId) : Calm e c b r (s.withdrawCheck l) :=
  calm_splice h _ fun hn => by cases l <;> simp [hn]

theorem calm_endRun (h : Calm e c b r s) (l : LaneId) : Calm e c b r (s.endRun l) := by
  unfold State.endRun
  split
  · exact calm_withdrawCheck (calm_updRest h l _) l
  · exact h

theorem calm_putTlc (h : Calm e c b r s) (l : LaneId) (t : Tlc) (ht : t.steady = (s.tlc l).steady)
    (hu : b ∨ ((s.tlc l).state.usable = false → t = s.tlc l)) : Calm e c b r (s.putTlc l t) := by
  have h1 := calm_setTlc h l t ht hu
  have h2 := calm_endRun h1 l
  unfold State.putTlc
  dsimp only
  repeat' split
  all_goals first
    | with_reducible exact h1
    | with_reducible exact h2
    | with_reducible exact calm_due h1 l
    | with_reducible exact calm_due h2 l

theorem calm_changeTlc (h : Calm e c b r s) (l : LaneId) (g : Tlc → Tlc) (hg : ∀ t : Tlc, (g t).steady = t.steady)
    (hu : b ∨ ∀ t : Tlc, t.state.usable = false → g t = t) : Calm e c b r (s.changeTlc l g) :=
  calm_putTlc h l _ (hg _) (hu.imp_right fun hu => hu _)

theorem takeSeek_steady (t : Tlc) (k : Seek) (n : Nat) : (t.takeSeek k n).steady = t.steady := by
  unfold Tlc.takeSeek
  cases hs : t.state <;> simp [TlcState.usable, Tlc.steady, Tlc.send, hs]

theorem takeHalt_steady (t : Tlc) : t.takeHalt.steady = t.steady := by
  unfold Tlc.takeHalt
  cases hs : t.state <;> simp [TlcState.busy, Tlc.steady, Tlc.sendHalt, Tlc.send, hs]

theorem takeSeek_still (t : Tlc) (k : Seek) (n : Nat) (h : t.state.usable = false) : t.takeSeek k n = t := by
  simp [Tlc.takeSeek, h]

theorem takeHalt_still (t : Tlc) (h : t.state.usable = false) : t.takeHalt = t := by
  unfold Tlc.takeHalt
  cases hs : t.state <;> simp [TlcState.busy, TlcState.usable, hs] at h ⊢

theorem spindleStop_steady (t : Tlc) : t.spindleStop.1.steady = t.steady := by
  unfold Tlc.spindleStop
  cases hs : t.state <;> simp [Tlc.haltIfBusy, TlcState.busy, Tlc.steady, Tlc.sendHalt, Tlc.send, hs]

theorem calm_halt (h : Calm e c b r s) (l : LaneId) : Calm e c b r (s.halt l) := by
  unfold State.halt
  split
  · exact calm_changeTlc (calm_endRun h l) l _ takeHalt_steady (Or.inr takeHalt_still)
  · exact h

/-! ### The repair scheduler -/

/-- A lane that differs from another only in its repair scheduler, its run and its spans. -/
def Lane.Alike (x y : Lane) : Prop := y.steady = x.steady ∧ y.seq = x.seq ∧ y.plu = x.plu ∧ y.p = x.p

theorem withSpans_alike (x : Lane) (l : List Span) : x.Alike (x.withSpans l) := by
  unfold Lane.withSpans
  dsimp only
  split <;> exact ⟨rfl, rfl, rfl, rfl⟩

theorem abortAttempt_alike (x : Lane) : x.Alike x.abortAttempt := by
  unfold Lane.abortAttempt
  split <;> exact ⟨rfl, rfl, rfl, rfl⟩

theorem updateRefill_alike (x : Lane) (v : LaneSettings) : x.Alike (x.updateRefill v) := by
  unfold Lane.updateRefill
  split <;> exact ⟨rfl, rfl, rfl, rfl⟩

theorem startAttempt_alike {x y : Lane} {n : Nat} {q : Span} (h : x.startAttempt n q = some y) : x.Alike y := by
  unfold Lane.startAttempt Lane.activate at h
  repeat' split at h
  all_goals simp only [Option.map_none, Option.map_some, Option.some.injEq, reduceCtorEq] at h
  subst h
  exact ⟨rfl, rfl, rfl, rfl⟩

theorem calm_sendSeek (h : Calm e c b r s) (l : LaneId) (k : RunKind) (g : SegRef) (t : Index) (v : Speed) (w : Bool) :
    Calm e c b r (s.sendSeek l k g t v w) := by
  unfold State.sendSeek
  exact calm_updRest (calm_changeTlc (calm_endRun h l) l _ (fun t => takeSeek_steady t _ _)
    (Or.inr fun t => takeSeek_still t _ _)) l _

theorem calm_fillDecision (h : Calm e c b r s) (l : LaneId) (w : Bool) : Calm e c b r (s.fillDecision l w) := by
  unfold State.fillDecision
  dsimp only
  generalize hu : s.updLane l _ = u
  have h1 : Calm e c b r u := by
    rw [← hu]
    exact calm_updRest h l _ (fun x => updateRefill_alike x _)
  repeat' split
  · exact calm_updRest (calm_halt h1 l) l _
  · exact calm_updRest h1 l _
  · exact calm_sendSeek (calm_updRest h1 l _) ..
  · exact calm_updRest h1 l _

theorem calm_startAttempt (h : Calm e c b r s) (l : LaneId) {n : Nat} {y : Span} {x : Lane}
    (hx : (s.lane l).startAttempt n y = some x) : Calm e c b r (s.setLane l x) := by
  have ha := startAttempt_alike hx
  exact calm_setLane h l x ha.1 (Or.inr ⟨ha.2.1, ha.2.2.1⟩) (Or.inr ⟨ha.2.2.2, fun hm => by rw [ha.2.1]; exact hm⟩)

theorem calm_startRepair {t : State} (h : Calm e c b r s) (l : LaneId) (ht : s.startRepair l = some t) :
    Calm e c b r t := by
  unfold State.startRepair at ht
  dsimp only at ht
  split at ht
  · split at ht
    · cases ht
    · rename_i y _
      cases hx : (s.lane l).startAttempt (s.settings l).readSpeed y with
      | none => simp [hx] at ht
      | some x =>
        simp only [hx, Option.map_some, Option.some.injEq] at ht
        subst ht
        exact calm_sendSeek (calm_startAttempt h l hx) ..
  · cases ht

theorem calm_chainRepair {t : State} (h : Calm e c b r s) (l : LaneId) (q : Option Index)
    (ht : s.chainRepair l q = some t) : Calm e c b r t := by
  unfold State.chainRepair at ht
  dsimp only at ht
  split at ht
  · cases ht
  · split at ht
    · split at ht
      · cases ht
      · rename_i y _
        cases hx : (s.lane l).startAttempt (s.settings l).readSpeed y with
        | none => simp [hx] at ht
        | some x =>
          simp only [hx, Option.map_some, Option.some.injEq] at ht
          subst ht
          exact calm_startAttempt h l hx
    · cases ht

theorem calm_reseekRepair (h : Calm e c b r s) (l : LaneId) : Calm e c b r (s.reseekRepair l) := by
  unfold State.reseekRepair
  dsimp only
  split
  · exact calm_sendSeek h ..
  · exact h

theorem calm_nextWork (h : Calm e c b r s) (l : LaneId) (q : Point) : Calm e c b r (s.nextWork l q) := by
  unfold State.nextWork
  split
  · rename_i t ht
    split at ht
    · exact calm_chainRepair h l _ ht
    · cases ht
  · split
    · rename_i t ht
      split at ht
      · cases ht
      · exact calm_startRepair h l ht
    · exact calm_fillDecision h l _

theorem calm_workDecision (h : Calm e c b r s) (l : LaneId) (q : Point) : Calm e c b r (s.workDecision l q) := by
  unfold State.workDecision
  dsimp only
  repeat' split
  · refine calm_fillDecision (calm_updRest h l _ ?_) l _
    exact fun x => abortAttempt_alike x
  · exact calm_reseekRepair h l
  · exact h
  · exact calm_nextWork h l q

theorem calm_standDown (h : Calm e c b r s) (l : LaneId) (m : WorkMode) (w : Option RestReason) :
    Calm e c b r (s.standDown l m w) := by
  unfold State.standDown
  exact calm_updRest h l _ fun x => abortAttempt_alike x

theorem calm_overtake (h : Calm e c b r s) (l : LaneId) (q : Point) : Calm e c b r (s.overtake l q).1 := by
  unfold State.overtake
  dsimp only
  split
  · dsimp only
    exact calm_updRest h l _
  · exact h

theorem calm_schedule (h : Calm e c b r s) (l : LaneId) (q : Point) : Calm e c b r (s.schedule l q) := by
  unfold State.schedule
  dsimp only
  generalize hu : s.updLane l _ = u
  have h1 : Calm e c b r u := by
    rw [← hu]
    exact calm_updRest h l _
  have h2 := calm_overtake h1 l q
  generalize u.overtake l q = v at h2 ⊢
  obtain ⟨s', q'⟩ := v
  dsimp only at h2 ⊢
  repeat' split
  all_goals first
    | with_reducible exact calm_halt (calm_standDown h2 l _ _) l
    | with_reducible exact calm_standDown h2 l _ _
    | with_reducible exact calm_workDecision h2 l _

/-! ### The loader queue -/

theorem calm_recordOutcome (h : Calm e c b r s) (q : LoaderRequest) (o : LoaderOutcome) :
    Calm e c b r (s.recordOutcome q o) := by
  unfold State.recordOutcome State.writeLoader
  exact calm_setNews (calm_setWords (calm_updQueue (calm_updQueue h _) _) _ _) _ _

theorem calm_postBind (h : Calm e c b r s) (l : LaneId) (k : Nat) (t : Byte) : Calm e c b r (s.postBind l k t) := by
  unfold State.postBind
  split
  · exact calm_updRest h l _
  · split
    · unfold State.enqueue
      exact calm_updQueue h _ fun d => ⟨rfl, rfl, List.prefix_append _ _⟩
    · exact h

/-! ### The lane sequencer -/

theorem calm_countReads (h : Calm e c b r s) (n : Nat) : Calm e c b r (s.countReads n) :=
  h.of_same (fun l => by simp) (fun l => by simp) rfl (fun _ => ⟨rfl, List.prefix_refl _⟩) (List.Sublist.refl _)

theorem calm_endEpisode (h : Calm e c b r s) (l : LaneId) (he : e l) : Calm e c b r (s.endEpisode l) := by
  unfold State.endEpisode
  split
  · exact h
  · exact calm_updLane (calm_countReads h 1) l _ he

theorem calm_updSeq (h : Calm e c b r s) (l : LaneId) (g : Sequencer → Sequencer) (he : e l)
    (hs : ∀ q : Sequencer, (g q).mode = q.mode ∧ (g q).refresh = q.refresh ∧ (q.mark = none → (g q).mark = none) := by
      exact fun _ => ⟨rfl, rfl, fun hm => hm⟩) :
    Calm e c b r (s.updSeq l g) := by
  unfold State.updSeq
  refine calm_updLane h l _ he ?_ ?_
  · intro x
    simp only [Lane.steady, (hs x.seq).1, (hs x.seq).2.1]
  · exact fun x => ⟨rfl, (hs x.seq).2.2⟩

theorem calm_closeReading (h : Calm e c b r s) (l : LaneId) (he : e l) : Calm e c b r (s.closeReading l) :=
  calm_due (calm_updSeq h l _ he) l

theorem calm_openReading (h : Calm e c b r s) (l : LaneId) (he : e l) : Calm e c b r (s.openReading l) :=
  calm_due (calm_updSeq h l _ he) l

theorem calm_retire (h : Calm e c b r s) (l : LaneId) (q : TakenCue) (o : CueOutcome) (he : e l) :
    Calm e c b r (s.retire l q o) := by
  unfold State.retire
  dsimp only
  generalize hu : (s.countReads 1).updSeq l _ = u
  have h1 : Calm e c b r u := by
    rw [← hu]
    exact calm_updSeq (calm_countReads h 1) l _ he
  split
  · exact calm_setNews (calm_setWords (calm_setWords h1 _ _) _ _) _ _
  · exact h1

theorem calm_retireAll (l : LaneId) (o : CueOutcome) (hl : e l) (cs : List TakenCue) :
    ∀ {s : State} (_ : Calm e c b r s), Calm e c b r (s.retireAll l o cs) := by
  induction cs with
  | nil => exact fun h => h
  | cons q cs ih => exact fun h => ih (calm_retire h l q o hl)

theorem calm_retireNormal (l : LaneId) (hl : e l) (cs : List TakenCue) :
    ∀ {s : State} (_ : Calm e c b r s), Calm e c b r (s.retireNormal l cs) := by
  induction cs with
  | nil => exact fun h => h
  | cons q cs ih => exact fun h => ih (calm_retire h l q _ hl)

theorem calm_establish (h : Calm e c b r s) (l : LaneId) (he : e l) : Calm e c b r (s.establish l) := by
  unfold State.establish
  split
  · exact h
  · exact calm_updSeq h l _ he

theorem calm_prime (h : Calm e c b r s) (l : LaneId) (he : e l) : Calm e c b r (s.prime l).1 := by
  unfold State.prime
  dsimp only
  repeat' split
  · exact h
  · exact calm_openReading (calm_updSeq h l _ he) l he
  · exact h

theorem calm_enterPriming (h : Calm e c b r s) (l : LaneId) (he : e l) : Calm e c b r (s.enterPriming l).1 := by
  unfold State.enterPriming
  dsimp only
  refine calm_prime ?_ l he
  split
  · exact calm_establish (calm_setLaneState h l _ he) l he
  · exact calm_setLaneState h l _ he

theorem calm_sendBind (h : Calm e c b r s) (l : LaneId) (k : Nat) (he : e l) : Calm e c b r (s.sendBind l k) := by
  unfold State.sendBind
  exact calm_postBind (calm_updSeq h l _ he) l _ _

theorem calm_findDisc (h : Calm e c b r s) (l : LaneId) (q : TakenCue) (he : e l) : Calm e c b r (s.findDisc l q).1 := by
  unfold State.findDisc
  dsimp only
  repeat' split
  all_goals first
    | exact h
    | with_reducible exact calm_enterPriming h l he
    | exact calm_setLaneState h l _ he
    | exact calm_sendBind (calm_setLaneState h l _ he) l _ he
    | exact calm_enterPriming (calm_updSeq h l _ he) l he

theorem calm_moveWalk (h : Calm e c b r s) (l : LaneId) (k : Nat) (w : Bool) (he : e l) :
    Calm e c b r (s.moveWalk l k w) := by
  unfold State.moveWalk
  exact calm_updSeq h l _ he

theorem calm_walkClose (h : Calm e c b r s) (l : LaneId) (he : e l) : Calm e c b r (s.walkClose l) := by
  unfold State.walkClose
  exact calm_updSeq (calm_closeReading h l he) l _ he (fun q => ⟨rfl, rfl, fun _ => rfl⟩)

theorem calm_stopPlayout (h : Calm e c b r s) (l : LaneId) (he : e l) : Calm e c b r (s.stopPlayout l) := by
  unfold State.stopPlayout
  exact calm_updLane (calm_endEpisode h l he) l _ he

theorem calm_takePending (h : Calm e c b r s) (l : LaneId) (q : TakenCue) (he : e l) :
    Calm e c b r (s.takePending l q).1 := by
  unfold State.takePending
  split
  · exact calm_findDisc (calm_updSeq h l _ he) l q he
  · exact h

theorem calm_endOfWalk (h : Calm e c b r s) (l : LaneId) (he : e l) :
    Calm e c b r (((s.setLaneState l .idle).releaseAll l).updSeq l fun q => { q with identity := none }) :=
  calm_updSeq (calm_release (calm_setLaneState h l _ he) l _) l _ he

theorem calm_walk (l : LaneId) (he : e l) (n : Nat) : ∀ (w : WalkStep) {s : State} (_ : Calm e c b r s),
    Calm e c b r (State.walk n w s l) := by
  induction n with
  | zero =>
    intro w s h
    cases w with
    | endOfWalk => exact calm_endOfWalk h l he
    | starved => exact calm_setLaneState h l _ he
    | entry k w => exact h
  | succ n ih =>
    intro w s h
    cases w with
    | endOfWalk => exact calm_endOfWalk h l he
    | starved => exact calm_setLaneState h l _ he
    | entry k w =>
      have h1 := calm_takePending (calm_moveWalk (calm_countReads h hostFieldWords) l k w he) l (s.readCue l k) he
      unfold State.walk
      dsimp only
      split
      · exact ih _ (calm_countReads (calm_walkClose (calm_retire h1 l _ _ he) l he) _)
      · exact h1

theorem calm_walkOn (h : Calm e c b r s) (l : LaneId) (he : e l) : Calm e c b r (s.walkOn l) := by
  unfold State.walkOn
  exact calm_walk l he _ _ (calm_countReads (calm_stopPlayout (calm_walkClose h l he) l he) _)

theorem calm_retirePending (h : Calm e c b r s) (l : LaneId) (o : CueOutcome) (he : e l) :
    Calm e c b r (s.retirePending l o) := by
  unfold State.retirePending
  split
  · exact h
  · exact calm_walkOn (calm_retire h l _ o he) l he

theorem calm_primingOrRetire (h : Calm e c b r s) (l : LaneId) (he : e l) : Calm e c b r (s.primingOrRetire l) := by
  unfold State.primingOrRetire
  dsimp only
  split
  · exact calm_retirePending (calm_enterPriming h l he) l _ he
  · exact calm_enterPriming h l he

theorem calm_crossing (h : Calm e c b r s) (l : LaneId) (g : Segment) (w : Bool) (he : e l) :
    Calm e c b r (s.crossing l g w) := by
  unfold State.crossing
  exact calm_updLane (calm_retireNormal l he _ h) l _ he

theorem calm_streamEnd (h : Calm e c b r s) (l : LaneId) (he : e l) : Calm e c b r (s.streamEnd l) := by
  unfold State.streamEnd
  exact calm_walkOn (calm_updSeq (calm_retireNormal l he _ h) l _ he) l he

theorem calm_cutStream (h : Calm e c b r s) (l : LaneId) (he : e l) (hc : c l) : Calm e c b r (s.cutStream l) := by
  unfold State.cutStream
  refine calm_release (calm_setLane h l _ ?_ (Or.inl he) (Or.inl hc)) l _
  rfl

theorem calm_playOutCut (h : Calm e c b r s) (l : LaneId) (he : e l) (hc : c l) : Calm e c b r (s.playOutCut l) := by
  unfold State.playOutCut
  split
  · exact h
  · exact calm_walkOn (calm_cutStream (calm_retireAll l _ he _ h) l he hc) l he

theorem calm_bindOutcome (h : Calm e c b r s) (l : LaneId) (t : Byte) (o : LoaderOutcome)
    (he : e l ∨ (s.lane l).seq.bind = none) : Calm e c b r (s.bindOutcome l t o) := by
  unfold State.bindOutcome
  split
  · exact h
  · rename_i q hq
    have he : e l := by
      rcases he with he | he
      · exact he
      · rw [he] at hq; cases hq
    split
    · exact h
    · dsimp only
      generalize hu : s.updSeq l _ = u
      have h1 : Calm e c b r u := by
        rw [← hu]
        exact calm_updSeq h l _ he
      split
      all_goals first
        | exact h1
        | with_reducible exact calm_retirePending h1 l _ he
        | exact calm_updSeq h1 l _ he
        | exact calm_primingOrRetire (calm_updSeq h1 l _ he) l he

theorem calm_recoveryEnded (h : Calm e c b r s) (l : LaneId) (he : e l ∨ (s.lane l).seq.reRequest = false) :
    Calm e c b r (s.recoveryEnded l) := by
  unfold State.recoveryEnded
  dsimp only
  split
  · rename_i hq
    have he : e l := by
      rcases he with he | he
      · exact he
      · rw [he] at hq; cases hq
    have h1 := calm_updSeq h l (fun q => { q with reRequest := false }) he
    split
    · exact calm_sendBind h1 l _ he
    · exact h1
  · exact h

/-! ### Playout -/

theorem calm_readForPlay (h : Calm e c b r s) (l : LaneId) : Calm e c b r (s.readForPlay l).1 := by
  unfold State.readForPlay
  dsimp only
  repeat' split
  all_goals first | exact h | exact calm_noteStoreFault h l

theorem calm_readNext (h : Calm e c b r s) (l : LaneId) : Calm e c b r (s.readNext l).1 := by
  unfold State.readNext
  dsimp only
  repeat' split
  all_goals first | exact h | exact calm_noteStoreFault h l

theorem calm_countLoss (h : Calm e c b r s) (l : LaneId) (a m : Nat) (q : LossCause) (he : e l) :
    Calm e c b r (s.countLoss l a m q) := by
  unfold State.countLoss
  split
  · exact calm_endEpisode h l he
  · exact calm_updLane h l _ he

theorem playBlock_steady (x : Lane) (q : PlayBlock) :
    (x.playBlock q).steady = x.steady ∧ (x.playBlock q).p = x.p ∧ (x.playBlock q).seq = x.seq := by
  unfold Lane.playBlock
  split
  · dsimp only
    split <;> exact ⟨rfl, rfl, rfl⟩
  · exact ⟨rfl, rfl, rfl⟩
  · exact ⟨rfl, rfl, rfl⟩

theorem countBlock_steady (x : Lane) (q : Option Index) (m n : Nat) :
    (x.countBlock q m n).steady = x.steady ∧ (x.countBlock q m n).p = x.p ∧
      (x.countBlock q m n).seq.mark = x.seq.mark := by
  cases q <;> exact ⟨rfl, rfl, rfl⟩

theorem calm_takeUp (h : Calm e c b r s) (l : LaneId) (w : Bool) (he : e l) : Calm e c b r (s.takeUp l w) := by
  unfold State.takeUp
  dsimp only
  have h1 := calm_readForPlay h l
  generalize s.readForPlay l = v at h1 ⊢
  obtain ⟨u, q⟩ := v
  dsimp only at h1 ⊢
  generalize hv : (if q.form = .copy ∧ needsNext (s.settings l).interpLimit q.marks then u.readNext l
    else (u, none)) = v
  have h2 : Calm e c b r v.1 := by
    rw [← hv]
    split
    · exact calm_readNext h1 l
    · exact h1
  obtain ⟨w', next⟩ := v
  dsimp only at h2 ⊢
  refine calm_countLoss (calm_updLane ?_ l _ he ?_ ?_) l _ _ _ he
  · split
    · exact calm_crossing h2 l _ _ he
    · exact h2
  · intro x
    generalize hy : Lane.playBlock x _ = y
    have hb : y.steady = x.steady := by rw [← hy]; exact (playBlock_steady _ _).1
    rw [← hb]
    exact (countBlock_steady y _ _ _).1
  · intro x
    dsimp only
    generalize hy : Lane.playBlock x _ = y
    have hp : y.p = x.p := by rw [← hy]; exact (playBlock_steady _ _).2.1
    have hm : y.seq = x.seq := by rw [← hy]; exact (playBlock_steady _ _).2.2
    rw [← hp, ← hm]
    have hk := countBlock_steady y
    exact ⟨(hk _ _ _).2.1, fun hm => by rw [(hk _ _ _).2.2]; exact hm⟩

theorem calm_enterUnderrun (h : Calm e c b r s) (l : LaneId) (he : e l) : Calm e c b r (s.enterUnderrun l) := by
  unfold State.enterUnderrun
  dsimp only
  have h1 := calm_setLaneState (calm_endEpisode h l he) l .underrun he
  generalize (s.endEpisode l).setLaneState l .underrun = u at h1 ⊢
  generalize hv : u.updLane l _ = v
  have h2 : Calm e c b r v := by
    rw [← hv]
    exact calm_updLane h1 l _ he
  split
  · exact calm_streamEnd h2 l he
  · exact h2

theorem calm_startPlay (h : Calm e c b r s) (l : LaneId) (he : e l) : Calm e c b r (s.startPlay l) := by
  unfold State.startPlay
  dsimp only
  generalize hu : State.updLane _ l _ = u
  have h1 : Calm e c b r u := by
    rw [← hu]
    exact calm_updLane (calm_setLaneState h l .playing he) l _ he
  split
  · exact calm_enterUnderrun h1 l he
  · exact calm_takeUp h1 l _ he

/-! ### The loader controller -/

theorem calm_command (h : Calm e c b r s) (q : StageCommand) (hb : b) : Calm e c b r (s.command q) := by
  unfold State.command
  exact calm_updLoader h _ hb

theorem calm_beginQuiet (h : Calm e c b r s) (l : LaneId) : Calm e c b r (s.beginQuiet l) := by
  unfold State.beginQuiet
  exact calm_halt (calm_due (calm_updRest h l _) l) l

theorem calm_beginStage (h : Calm e c b r s) (g : Stage) (q : StageCommand) (w : Bool) (hb : b) :
    Calm e c b r (s.beginStage g q w) := by
  unfold State.beginStage
  exact calm_command (calm_updLoader h _ hb) q hb

theorem calm_beginTake (h : Calm e c b r s) (hb : b) : Calm e c b r s.beginTake := by
  unfold State.beginTake
  split
  · exact calm_beginStage h _ _ _ hb
  · exact h

theorem calm_endOutcome (h : Calm e c b r s) (q : LoaderRequest) (o : LoaderOutcome)
    (he : ∀ l, e l ∨ (s.lane l).seq.bind = none) : Calm e c b r (s.endOutcome q o) := by
  unfold State.endOutcome
  refine calm_recordOutcome ?_ q o
  split
  · exact calm_bindOutcome h _ _ _ (he _)
  all_goals exact h

theorem calm_beginHoming (h : Calm e c b r s) (k : HomingKind) (hb : b) : Calm e c b r (s.beginHoming k) := by
  unfold State.beginHoming
  exact calm_beginStage (calm_beginQuiet (calm_beginQuiet (calm_updLoader h _ hb) .a) .b) _ _ _ hb

theorem setStopped_steady (d : Loader) (l : LaneId) (w : Bool) : (d.setStopped l w).steady = d.steady := by
  cases l <;> rfl

theorem calm_prepareLane (h : Calm e c b r s) (q : LoaderRequest) (legs : List Leg) (l : LaneId) (hb : b) :
    Calm e c b r (s.prepareLane q legs l) := by
  have h1 : Calm e c b r ((s.changeTlc l fun t => t.spindleStop.1).updLoader fun d => d.setStopped l true) :=
    calm_updLoader (calm_changeTlc h l _ spindleStop_steady (Or.inl hb)) _ hb (fun d => setStopped_steady d l true)
      (fun d hd => by cases l <;> exact hd)
  unfold State.prepareLane
  dsimp only
  repeat' split
  all_goals first
    | with_reducible exact h1
    | with_reducible exact h
    | with_reducible exact calm_beginQuiet h1 l
    | with_reducible exact calm_beginQuiet h l

theorem calm_bindBegun (h : Calm e c b r s) (q : LoaderRequest) (he : ∀ l, e l ∨ (s.lane l).seq.bind = none) :
    Calm e c b r (s.bindBegun q) := by
  cases q with
  | bind l k t =>
    unfold State.bindBegun
    rcases he l with he | he
    · exact calm_updSeq h l _ he
    · refine calm_setLane h l _ rfl (Or.inr ⟨?_, rfl⟩) (Or.inr ⟨rfl, fun hm => hm⟩)
      dsimp only
      rw [he]
      have : ∀ q : Sequencer, q.bind = none → { q with bind := none } = q := fun q hq => by cases q; cases hq; rfl
      exact this _ he
  | eject n => exact h
  | insert k => exact h
  | rescan => exact h

theorem calm_startLegs (h : Calm e c b r s) (q : LoaderRequest) (legs : List Leg) (hb : b)
    (he : ∀ l, e l ∨ (s.lane l).seq.bind = none) : Calm e c b r (s.startLegs q legs) := by
  unfold State.startLegs
  dsimp only
  generalize hu : s.updLoader _ = u
  have h1 : Calm e c b r u := by
    rw [← hu]
    exact calm_updLoader h _ hb
  have he' : ∀ l, e l ∨ (u.lane l).seq.bind = none := by
    intro l
    rw [← hu]
    simpa using he l
  have h2 := calm_prepareLane (calm_prepareLane (calm_bindBegun h1 q he') q legs .a hb) q legs .b hb
  split
  · exact calm_beginTake h2 hb
  · exact h2

theorem calm_startRequest (h : Calm e c b r s) (w : Waiting) (hb : b) (he : ∀ l, e l ∨ (s.lane l).seq.bind = none) :
    Calm e c b r (s.startRequest w) := by
  unfold State.startRequest
  dsimp only
  generalize hu : (if w.due && !s.gateOpen w.request then
      s.updLoader fun d => { d with count := { d.count with forced := bump d.count.forced } } else s) = u
  have h1 : Calm e c b r u := by
    rw [← hu]
    split
    · exact calm_updLoader h _ hb
    · exact h
  have he' : ∀ l, e l ∨ (u.lane l).seq.bind = none := by
    intro l
    rw [← hu]
    split
    · simpa using he l
    · exact he l
  split
  · exact calm_endOutcome h1 _ _ he'
  · exact calm_startLegs h1 _ _ hb he'
  · exact calm_beginHoming (calm_updLoader h1 _ hb) _ hb

theorem calm_arbitrate (h : Calm e c b r s) (w : Waiting) (hb : b) (he : ∀ l, e l ∨ (s.lane l).seq.bind = none) :
    Calm e c b r (s.arbitrate w) := by
  unfold State.arbitrate
  refine calm_startRequest (calm_updLoader h _ hb) w hb ?_
  intro l
  simpa using he l

theorem lane_postBind_other (s : State) {l k : LaneId} (hk : k ≠ l) (n : Nat) (t : Byte) :
    (s.postBind l n t).lane k = s.lane k := by
  unfold State.postBind State.enqueue
  split
  · rw [lane_updLane_ne _ hk]
  · split
    · simp
    · rfl

theorem lane_recoveryEnded_other (s : State) {l k : LaneId} (hk : k ≠ l) : (s.recoveryEnded l).lane k = s.lane k := by
  unfold State.recoveryEnded State.sendBind State.updSeq
  dsimp only
  repeat' split
  · rw [lane_postBind_other _ hk, lane_updLane_ne _ hk, lane_updLane_ne _ hk]
  · rw [lane_updLane_ne _ hk]
  · rfl

theorem calm_endRecovery (h : Calm e c b r s) (hb : b) (he : ∀ l, e l ∨ (s.lane l).seq.reRequest = false) :
    Calm e c b r s.endRecovery := by
  unfold State.endRecovery
  generalize hu : s.updLoader _ = u
  have h1 : Calm e c b r u := by
    rw [← hu]
    exact calm_updLoader h _ hb
  have he' : ∀ l, e l ∨ (u.lane l).seq.reRequest = false := by
    intro l
    rw [← hu]
    simpa using he l
  refine calm_recoveryEnded (calm_recoveryEnded h1 .a (he' .a)) .b ?_
  rw [lane_recoveryEnded_other u (by simp)]
  exact he' .b

end

/-! ### An event taken whole -/

/-- A lane whose sequencer has nothing to do with what follows in an event: not in PRIMING or UNDERRUN, in PLAYING
without a play-out mark, with no BIND and no re-request. -/
def Lane.AtEase (x : Lane) : Prop :=
  (x.seq.state ≠ .priming ∧ (x.seq.state = .playing → x.seq.mark = none) ∧ x.seq.state ≠ .underrun) ∧
    x.seq.bind = none ∧ x.seq.reRequest = false

/-- The loader controller neither starts a request nor ends a recovery in this state. -/
def Loader.Busy (d : Loader) : Prop := d.state ≠ .idle ∧ d.state ≠ .faulted ∧ d.state ≠ .recovering

/-- What follows in an event, step by step. -/
theorem calm_follow {e c : LaneId → Prop} {b : Prop} {r s t : State} (he : ∀ l, e l ∨ (r.lane l).AtEase)
    (hc : ∀ l, c l ∨ (r.lane l).seq.mark = none ∨ ¬ e l) (hb : b ∨ r.loader.Busy) (h : Calm e c b r s)
    (ht : s.follow = some t) : Calm e c b r t := by
  have he' : ∀ l, e l ∨ (s.lane l).AtEase := fun l => by
    rcases he l with hl | hl
    · exact Or.inl hl
    · by_cases hn : e l
      · exact Or.inl hn
      · right
        unfold Lane.AtEase
        rw [(h.quiet l hn).1]; exact hl
  have hc' : ∀ l, c l ∨ (s.lane l).seq.mark = none ∨ ¬ e l := fun l => by
    by_cases hn : c l
    · exact Or.inl hn
    · exact Or.inr ((hc l).resolve_left hn |>.imp_left (h.uncut l hn).2)
  have hb' : b ∨ s.loader.Busy := by
    rcases hb with hb | hb
    · exact Or.inl hb
    · by_cases hn : b
      · exact Or.inl hn
      · right
        have := (h.works hn).1
        have hs : s.loader.works.state = r.loader.works.state := by rw [this]
        have hs : s.loader.state = r.loader.state := hs
        unfold Loader.Busy
        rw [hs]; exact hb
  have hbind : ∀ l, e l ∨ (s.lane l).seq.bind = none := fun l => (he' l).imp_right fun ha => ha.2.1
  have hlane : ∀ l t, s.followLane l = some t → Calm e c b r t := by
    intro l t ht
    unfold State.followLane at ht
    split at ht
    · rename_i u hu
      cases ht
      unfold State.handJammed at hu
      split at hu
      · cases hu
      · cases hu
        refine calm_endOutcome (calm_updRest h l _) _ _ fun k => ?_
        by_cases hk : k = l
        · subst hk
          rw [State.lane_updLane]
          exact hbind k
        · rw [lane_updLane_ne _ hk]
          exact hbind k
    · split at ht
      · rename_i hcut
        cases ht
        simp only [Lane.cutDue, Bool.and_eq_true, Bool.or_eq_true, beq_iff_eq] at hcut
        have h1 : e l := by
          rcases he' l with hl | hl
          · exact hl
          · rcases hcut.2 with hs | hs
            · exact absurd hs hl.1.1
            · rcases hs.1 with hs | hs
              · rw [hl.1.2.1 hs] at hcut
                simp at hcut
              · exact absurd hs hl.1.2.2
        have h2 : c l := by
          rcases hc' l with hl | hl | hl
          · exact hl
          · rw [hl] at hcut; simp at hcut
          · exact absurd h1 hl
        exact calm_playOutCut h l h1 h2
      · split at ht
        · cases ht
          exact calm_schedule h l _
        · split at ht
          · rename_i hp
            cases ht
            have h1 : e l := by
              rcases he' l with hl | hl
              · exact hl
              · have hs1 : ((s.lane l).seq.state == .priming) = false := by simpa using hl.1.1
                have hs2 : ((s.lane l).seq.state == .underrun) = false := by simpa using hl.1.2.2
                simp [Lane.playDue, hs1, hs2] at hp
            exact calm_startPlay h l h1
          · cases ht
  unfold State.follow at ht
  split at ht
  · rename_i u hu
    cases ht
    exact hlane .a _ hu
  · split at ht
    · rename_i u hu
      cases ht
      exact hlane .b _ hu
    · split at ht
      · rename_i hr
        cases ht
        have h1 : b := by
          rcases hb' with hb | hb
          · exact hb
          · have := hb.2.2
            simp only [State.recovered, Bool.and_eq_true, beq_iff_eq] at hr
            exact absurd hr.1.1.1.1 this
        exact calm_endRecovery h h1 fun l => (he' l).imp_right fun ha => ha.2.2
      · split at ht
        · rename_i w hw
          cases ht
          have h1 : b := by
            rcases hb' with hb | hb
            · exact hb
            · exfalso
              unfold State.choose Loader.startable at hw
              cases hs : s.loader.state <;> simp only [hs] at hw
              · exact hb.1 hs
              all_goals first | cases hw | exact hb.2.1 hs
          exact calm_arbitrate h w h1 hbind
        · cases ht

/-- What follows in an event leaves these alone: lanes at ease keep sequencer and playout unit, lanes without a
play-out mark keep p, a loader controller that is busy keeps its work. -/
theorem calm_settle {e c : LaneId → Prop} {b : Prop} {r : State} (he : ∀ l, e l ∨ (r.lane l).AtEase)
    (hc : ∀ l, c l ∨ (r.lane l).seq.mark = none ∨ ¬ e l) (hb : b ∨ r.loader.Busy) (n : Nat) :
    ∀ {s : State} (_ : Calm e c b r s), Calm e c b r (State.settle n s) := by
  induction n with
  | zero => exact fun h => h
  | succ n ih =>
    intro s h
    unfold State.settle
    split
    · exact h
    · rename_i t ht
      exact ih (calm_follow he hc hb h ht)

/-- An event but for its answer and its records leaves them alone too. -/
theorem calm_carryOut {e c : LaneId → Prop} {b : Prop} {s : State} {f : State → State}
    (he : ∀ l, e l ∨ ((f s).lane l).AtEase) (hc : ∀ l, c l ∨ ((f s).lane l).seq.mark = none ∨ ¬ e l)
    (hb : b ∨ (f s).loader.Busy) : Calm e c b (f s) (s.carryOut f) :=
  calm_settle he hc hb settleFuel (Calm.refl e c b _)

end Sys2Proof.Machine
end

