-- ==== Sys2Proof/Laws/Event.lean ====
section
/-! SUPPORT. The records at the end of an event change nothing but Exchange Memory, the refresh counts and the marks of
the event; what an event taken whole leaves of its own effect. -/

namespace Sys2Proof.Machine

set_option Elab.async false

/-! ### The records -/

/-- A lane after the records: the marks cleared, the refresh count raised when the record was written (R171). -/
def Lane.finished (x : Lane) : Lane :=
  { x with
    seq := { x.seq with
      refresh := if x.marks.refresh || x.marks.stateChanged then x.seq.refresh + 1 else x.seq.refresh }
    marks := .clear }

theorem lane_finishLane (s : State) (l : LaneId) : (s.finishLane l).lane l = (s.lane l).finished := by
  unfold State.finishLane Lane.finished
  dsimp only
  cases h1 : (s.lane l).marks.refresh <;> cases h2 : (s.lane l).marks.stateChanged <;>
    cases h3 : (s.lane l).marks.loss <;> simp [State.writeStatus, LaneMarks.clear]

theorem lane_finishLane_ne (s : State) {k l : LaneId} (h : k ≠ l) : (s.finishLane l).lane k = s.lane k := by
  unfold State.finishLane State.writeStatus
  dsimp only
  repeat' split
  all_goals simp [lane_updLane_ne _ h]

theorem lane_finishTransport (s b : State) (l k : LaneId) : (s.finishTransport b l).lane k = s.lane k := by
  unfold State.finishTransport State.writeTransport
  split <;> simp

theorem lane_finishLoader (s b : State) (k : LaneId) : (s.finishLoader b).lane k = s.lane k := by
  unfold State.finishLoader State.writeLoader
  split <;> simp

/-- A lane after the records of an event. -/
theorem lane_finish (s b : State) (l : LaneId) : (s.finish b).lane l = (s.lane l).finished := by
  unfold State.finish
  rw [lane_finishLoader, lane_finishTransport, lane_finishTransport]
  cases l
  · rw [lane_finishLane_ne _ (by simp), lane_finishLane]
  · rw [lane_finishLane, lane_finishLane_ne _ (by simp)]

theorem tlc_finishLane (s : State) (l k : LaneId) : (s.finishLane l).tlc k = s.tlc k := by
  unfold State.finishLane State.writeStatus
  dsimp only
  repeat' split
  all_goals simp

theorem tlc_finishLoader (s b : State) (k : LaneId) : (s.finishLoader b).tlc k = s.tlc k := by
  unfold State.finishLoader State.writeLoader
  split <;> simp

theorem tlc_finishTransport (s b : State) (l k : LaneId) :
    ∃ n, (s.finishTransport b l).tlc k = { s.tlc k with refresh := n } := by
  unfold State.finishTransport State.writeTransport
  split
  · exact ⟨(s.tlc k).refresh, rfl⟩
  · by_cases h : k = l
    · subst h
      exact ⟨(s.tlc k).refresh + 1, by simp⟩
    · exact ⟨(s.tlc k).refresh, by cases k <;> cases l <;> first | exact absurd rfl h | rfl⟩

/-- A transport link controller after the records of an event: only its refresh count may differ. -/
theorem tlc_finish (s b : State) (l : LaneId) : ∃ n, (s.finish b).tlc l = { s.tlc l with refresh := n } := by
  unfold State.finish
  rw [tlc_finishLoader]
  obtain ⟨n, hn⟩ := tlc_finishTransport (((s.finishLane .a).finishLane .b).finishTransport b .a) b .b l
  obtain ⟨m, hm⟩ := tlc_finishTransport ((s.finishLane .a).finishLane .b) b .a l
  exact ⟨n, by rw [hn, hm, tlc_finishLane, tlc_finishLane]⟩

theorem loader_finishLane (s : State) (l : LaneId) : (s.finishLane l).loader = s.loader := by
  unfold State.finishLane State.writeStatus
  dsimp only
  repeat' split
  all_goals simp

theorem loader_finishTransport (s b : State) (l : LaneId) : (s.finishTransport b l).loader = s.loader := by
  unfold State.finishTransport State.writeTransport
  split <;> simp

/-- The loader controller after the records of an event: only its refresh count may differ. -/
theorem loader_finish (s b : State) : ∃ n, (s.finish b).loader = { s.loader with refresh := n } := by
  unfold State.finish State.finishLoader State.writeLoader
  split
  · exact ⟨s.loader.refresh, by simp [loader_finishTransport, loader_finishLane]⟩
  · exact ⟨s.loader.refresh + 1, by simp [loader_finishTransport, loader_finishLane]⟩

theorem store_finishLane (s : State) (l : LaneId) :
    (s.finishLane l).store = s.store ∧ (s.finishLane l).splice = s.splice := by
  unfold State.finishLane State.writeStatus
  dsimp only
  repeat' split
  all_goals simp

theorem store_finishTransport (s b : State) (l : LaneId) :
    (s.finishTransport b l).store = s.store ∧ (s.finishTransport b l).splice = s.splice := by
  unfold State.finishTransport State.writeTransport
  split <;> simp

theorem store_finishLoader (s b : State) :
    (s.finishLoader b).store = s.store ∧ (s.finishLoader b).splice = s.splice := by
  unfold State.finishLoader State.writeLoader
  split <;> simp

theorem store_finish (s b : State) : (s.finish b).store = s.store ∧ (s.finish b).splice = s.splice := by
  unfold State.finish
  simp only [store_finishLoader, store_finishTransport,
    store_finishLane, and_self]

/-! ### An event taken whole -/

/-- What an event leaves of the state `u` after its own effect. -/
structure Leaves (e c : LaneId → Prop) (b : Prop) (u t : State) : Prop where
  tlc : ∀ l, (t.tlc l).steady = (u.tlc l).steady
  still : ¬ b → ∀ l, (u.tlc l).state.usable = false → ∃ n, t.tlc l = { u.tlc l with refresh := n }
  f : ∀ l, (t.lane l).f = (u.lane l).f
  mode : ∀ l, (t.lane l).seq.mode = (u.lane l).seq.mode
  out : ∀ l, (t.lane l).plu.out = (u.lane l).plu.out
  skips : ∀ l, (t.lane l).count.skips = (u.lane l).count.skips
  strays : ∀ l, (t.lane l).count.strays = (u.lane l).count.strays
  overruns : ∀ l, (t.lane l).count.overruns = (u.lane l).count.overruns
  noMatches : ∀ l, (t.lane l).count.noMatches = (u.lane l).count.noMatches
  unanchored : ∀ l, (t.lane l).count.unanchored = (u.lane l).count.unanchored
  slips : ∀ l, (t.lane l).count.slips = (u.lane l).count.slips
  repaired : ∀ l, (t.lane l).count.repaired = (u.lane l).count.repaired
  refresh : ∀ l, (u.lane l).marks.refresh = true → (t.lane l).seq.refresh = (u.lane l).seq.refresh + 1
  loader : t.loader.steady = u.loader.steady
  works : ¬ b → t.loader.works = u.loader.works ∧ u.loader.queue <+: t.loader.queue
  seq : ∀ l, ¬ e l → ∃ n, (t.lane l).seq = { (u.lane l).seq with refresh := n }
  plu : ∀ l, ¬ e l → (t.lane l).plu = (u.lane l).plu
  p : ∀ l, ¬ c l → (t.lane l).p = (u.lane l).p
  store : List.Sublist t.store u.store
  recovery : u.loader.recoveryTimer = none → t.loader.recoveryTimer = none
  free : u.splice.running = none → t.splice.running = none

theorem steady_refresh (t : Tlc) (n : BitVec 16) : Tlc.steady { t with refresh := n } = t.steady := rfl

theorem calm_leaves {e c : LaneId → Prop} {b : Prop} {u v : State} (h : Calm e c b u v) (w : State) :
    Leaves e c b u (v.finish w) := by
  have hl := fun l => h.lane l
  have hlane : ∀ l, ((v.finish w).lane l) = (v.lane l).finished := fun l => lane_finish v w l
  refine
    { tlc := fun l => ?_, still := fun hb l hu => ?_, f := fun l => ?_, mode := fun l => ?_, out := fun l => ?_,
      skips := fun l => ?_, strays := fun l => ?_, overruns := fun l => ?_, noMatches := fun l => ?_,
      unanchored := fun l => ?_, slips := fun l => ?_, repaired := fun l => ?_, refresh := fun l hr => ?_,
      loader := ?_, works := fun hb => ?_, seq := fun l he => ?_, plu := fun l he => ?_, p := fun l hc => ?_,
      store := ?_, recovery := fun hr => ?_,
      free := fun hr => ?_ }
  · obtain ⟨n, hn⟩ := tlc_finish v w l
    rw [hn, steady_refresh, h.tlc]
  · obtain ⟨n, hn⟩ := tlc_finish v w l
    exact ⟨n, by rw [hn, h.still hb l hu]⟩
  · rw [hlane]; exact congrArg LaneSteady.f (hl l)
  · rw [hlane]; exact congrArg LaneSteady.mode (hl l)
  · rw [hlane]; exact congrArg LaneSteady.out (hl l)
  · rw [hlane]; exact congrArg LaneSteady.skips (hl l)
  · rw [hlane]; exact congrArg LaneSteady.strays (hl l)
  · rw [hlane]; exact congrArg LaneSteady.overruns (hl l)
  · rw [hlane]; exact congrArg LaneSteady.noMatches (hl l)
  · rw [hlane]; exact congrArg LaneSteady.unanchored (hl l)
  · rw [hlane]; exact congrArg LaneSteady.slips (hl l)
  · rw [hlane]; exact congrArg LaneSteady.repaired (hl l)
  · have h1 : (v.lane l).marks.refresh = (u.lane l).marks.refresh := congrArg LaneSteady.due (hl l)
    have h2 : (v.lane l).seq.refresh = (u.lane l).seq.refresh := congrArg LaneSteady.refresh (hl l)
    rw [hlane]
    unfold Lane.finished
    rw [h1, hr, Bool.true_or, if_pos rfl, h2]
  · obtain ⟨n, hn⟩ := loader_finish v w
    rw [hn]; exact h.loader
  · obtain ⟨n, hn⟩ := loader_finish v w
    have hw := h.works hb
    rw [hn]
    exact hw
  · rw [hlane, ← (h.quiet l he).1]
    exact ⟨_, rfl⟩
  · rw [hlane]; exact (h.quiet l he).2
  · rw [hlane]; exact (h.uncut l hc).1
  · rw [(store_finish v w).1]; exact h.store
  · obtain ⟨n, hn⟩ := loader_finish v w
    rw [hn]; exact h.recovery hr
  · rw [(store_finish v w).2]; exact h.free hr

/-- What an event taken whole leaves of its own effect. -/
theorem event_leaves {e c : LaneId → Prop} {b : Prop} (s : State) (f : State → State)
    (he : ∀ l, e l ∨ ((f s.clearOutputs).lane l).AtEase)
    (hc : ∀ l, c l ∨ ((f s.clearOutputs).lane l).seq.mark = none ∨ ¬ e l)
    (hb : b ∨ (f s.clearOutputs).loader.Busy) : Leaves e c b (f s.clearOutputs) (s.event f) :=
  calm_leaves (calm_carryOut he hc hb) _

/-- The same with nothing known of the lanes and the loader controller. -/
theorem event_leaves_any (s : State) (f : State → State) :
    Leaves (fun _ => True) (fun _ => True) True (f s.clearOutputs) (s.event f) :=
  event_leaves s f (fun _ => Or.inl trivial) (fun _ => Or.inl trivial) (Or.inl trivial)

section
variable (s : State) (own : Option CellId)

@[simp] theorem tlc_clearOutputs (l : LaneId) : (s.clearOutputs own).tlc l = { s.tlc l with sent := [] } := by
  cases l <;> rfl
@[simp] theorem lane_clearOutputs (l : LaneId) : (s.clearOutputs own).lane l = s.lane l := by cases l <;> rfl
@[simp] theorem loader_clearOutputs : (s.clearOutputs own).loader = { s.loader with commands := [] } := rfl
@[simp] theorem applied_clearOutputs : (s.clearOutputs own).applied = s.applied := rfl
@[simp] theorem store_clearOutputs : (s.clearOutputs own).store = s.store := rfl
@[simp] theorem splice_clearOutputs : (s.clearOutputs own).splice = s.splice := rfl
@[simp] theorem xm_clearOutputs : (s.clearOutputs own).xm = s.xm := rfl
@[simp] theorem pins_clearOutputs : (s.clearOutputs own).pins = s.pins := rfl

end

theorem onEvent_of {s : State} {b : Bool} (hr : s.released = true) (hb : b = true) (f : State → State) :
    s.onEvent b f = s.event f := by
  simp [State.onEvent, hr, hb]

end Sys2Proof.Machine
end

