-- ==== Sys2Proof/Laws/Answer.lean ====
section
/-! SUPPORT. An attention event that names a command: what its answer writes, and what a taken command leaves of its own
effect. -/

namespace Sys2Proof.Machine

set_option Elab.async false

/-! ### Words of Exchange Memory -/

theorem byte_setWord_out (s : State) (a b : Nat) (w : Word) (h : b < a ∨ a + 4 ≤ b) :
    Memory.byte (s.setWord a w).xm b = Memory.byte s.xm b := by
  rw [State.xm_setWord]
  exact Memory.byte_write_out _ _ _ _ (by rw [Memory.wordBytes_length]; exact h)

theorem word_setWord_same (s : State) (a : Nat) (w : Word) :
    (s.setWord a w).word a = w := by
  have := Memory.word_write_in s.xm a [w] 0 (by simp)
  simpa [State.word] using this

theorem word_setWord_out (s : State) (a b : Nat) (w : Word) (h : b + 4 ≤ a ∨ a + 4 ≤ b) :
    (s.setWord a w).word b = s.word b := by
  unfold State.word
  rw [State.xm_setWord]
  exact Memory.word_write_out _ _ _ _ (by rw [Memory.wordBytes_length]; exact h)

theorem word_of_bytes {s t : State} {a : Nat} (h : ∀ k, k < 4 → Memory.byte t.xm (a + k) = Memory.byte s.xm (a + k)) :
    t.word a = s.word a := by
  unfold State.word Memory.word
  have h0 := h 0 (by omega)
  simp only [Nat.add_zero] at h0
  rw [h0, h 1 (by omega), h 2 (by omega), h 3 (by omega)]

theorem byte_setNews_out (s : State) (n : NewsWord) (b : Word) (a : Nat) (h : a < n.offset ∨ n.offset + 4 ≤ a) :
    Memory.byte (s.setNews n b).xm a = Memory.byte s.xm a :=
  Memory.byte_write_out _ _ _ _ (by rw [Memory.wordBytes_length]; exact h)

theorem word_setNews_out (s : State) (n : NewsWord) (b : Word) (a : Nat) (h : a + 4 ≤ n.offset ∨ n.offset + 4 ≤ a) :
    (s.setNews n b).word a = s.word a :=
  word_of_bytes fun k hk => byte_setNews_out s n b _ (by omega)

theorem or_and_same (x z : Word) : (x ||| z) &&& z = z := by
  ext i hi
  simp
  intro hz
  simp [hz]

theorem or_or_and_same (x y z : Word) : (x ||| (y ||| z)) &&& z = z := by
  ext i hi
  simp
  intro hz
  simp [hz]

/-! ### The answer -/

theorem cell_bounds (c : CellId) : cellOffset c + 4 ≤ 0x10 ∧ answerOffset c = 0x10 + cellOffset c := by
  cases c <;> simp [cellOffset, answerOffset]

theorem answerNews_bounds (c : CellId) : 0x20 ≤ (answerNews c).1.offset ∧ (answerNews c).1.offset + 4 ≤ 0x30 := by
  cases c <;> simp [answerNews, NewsWord.offset]

/-- What an answer writes. -/
theorem answer_spec (s : State) (c : CellId) (k : Nat) (r : ResultCode) (d : Nat) :
    (s.answer c k r d).word (answerOffset c) = answerWord k r.code d ∧
      (s.answer c k r d).cellWord c = 0 ∧
      (s.answer c k r d).attention = (s.setAttention c false).attention ∧
      (s.answer c k r d).news (answerNews c).1 = s.news (answerNews c).1 ||| (answerNews c).2 ∧
      ∀ a, ¬ answerBytes c a → Memory.byte (s.answer c k r d).xm a = Memory.byte s.xm a := by
  have hc := cell_bounds c
  have hn := answerNews_bounds c
  unfold State.answer
  dsimp only
  refine ⟨?_, ?_, ?_, ?_, ?_⟩
  · rw [word_setNews_out _ _ _ _ (by omega)]
    have : ∀ u : State, (u.setAttention c false).word (answerOffset c) = u.word (answerOffset c) := fun u => by
      simp [State.word]
    rw [this, word_setWord_out _ _ _ _ (by omega), word_setWord_same]
  · unfold State.cellWord
    rw [word_setNews_out _ _ _ _ (by omega)]
    have : ∀ u : State, (u.setAttention c false).word (cellOffset c) = u.word (cellOffset c) := fun u => by
      simp [State.word]
    rw [this, word_setWord_same]
  · rw [State.attention_setNews]
    cases c <;> rfl
  · rw [news_setNews, if_pos rfl]
    have : ∀ u : State, (u.setAttention c false).news (answerNews c).1 = u.news (answerNews c).1 := fun u => by
      simp [State.news, State.word]
    rw [this]
    unfold State.news
    rw [word_setWord_out _ _ _ _ (by omega), word_setWord_out _ _ _ _ (by omega)]
  · intro a ha
    unfold answerBytes at ha
    rw [byte_setNews_out _ _ _ _ (by omega), State.xm_setAttention, byte_setWord_out _ _ _ _ (by omega),
      byte_setWord_out _ _ _ _ (by omega)]

theorem answer_rest (s : State) (c : CellId) (k : Nat) (r : ResultCode) (d : Nat) :
    s.answer c k r d = { s with
      xm := (s.answer c k r d).xm, attention := (s.answer c k r d).attention,
      overlap := (s.answer c k r d).overlap } := by
  cases c <;> rfl

@[simp] theorem within_answer (s : State) (c : CellId) (k : Nat) (r : ResultCode) (d : Nat) :
    (s.answer c k r d).overlap.within = s.overlap.within := by
  simp [State.answer]

/-- An answer changes nothing but Exchange Memory and attention pending. -/
theorem calm_answer {e c : LaneId → Prop} {b : Prop} {r s : State} (h : Calm e c b r s) (w : CellId) (k : Nat)
    (q : ResultCode) (d : Nat) : Calm e c b r (s.answer w k q d) := by
  have hr := answer_rest s w k q d
  rw [hr]
  exact h.of_same (fun l => by cases l <;> rfl) (fun l => by cases l <;> rfl) rfl (fun _ => ⟨rfl, List.prefix_refl _⟩)
    (List.Sublist.refl _)

theorem detail_answer (s : State) (c w : CellId) (k : Nat) (q : ResultCode) (d : Nat) :
    (s.answer c k q d).detail w = s.detail w := by
  have hr := answer_rest s c k q d
  rw [hr]
  unfold State.detail
  cases w <;> rfl

theorem detail_finish (s b : State) (w : CellId) : (s.finish b).detail w = s.detail w := by
  unfold State.detail
  have hg : (s.finish b).generation = s.generation := (follows_finish (Follows.refl s) b).outside.generation
  obtain ⟨n, hn⟩ := loader_finish s b
  split
  · rw [lane_finish]; rfl
  · split
    · rw [hn]
    · rw [hg]

/-! ### Refused and taken commands -/

/-- A refused command changes nothing but its answer. -/
theorem attend_refused (s : State) (c : CellId) (k : Nat) (r : ResultCode) (d : Option Nat) (m : Nat) :
    s.RefusedOnly ((s.taking c).attend c k (.refused r d m)) c (answerWord k r.code (d.getD (s.detail c))) := by
  have hd : (s.taking c).detail c = s.detail c := by
    unfold State.detail
    cases c <;> rfl
  unfold State.attend
  dsimp only
  rw [hd]
  generalize d.getD (s.detail c) = n
  have h := answer_spec ((s.taking c).countReads m) c k r n
  have hr := answer_rest ((s.taking c).countReads m) c k r n
  have hb : ∀ a, ¬ answerBytes c a →
      Memory.byte (((s.taking c).countReads m).answer c k r n).xm a = Memory.byte s.xm a := h.2.2.2.2
  refine ⟨⟨h.1, h.2.1, ?_, ?_, ?_, ?_, ?_, fun a _ ha => hb a ha⟩, ?_, hb, h.2.2.2.1⟩
  · rw [h.2.2.1]
    cases c <;> rfl
  · exact (congrArg (· &&& (answerNews c).2) h.2.2.2.1).trans (or_and_same _ _)
  · rw [hr]; rfl
  · rw [hr]; rfl
  · rw [hr]; rfl
  · rw [hr]; rfl

/-- What a taken command must leave alone in its own effect for its answer to read as the spec says. -/
structure OwnEffect (s u : State) : Prop where
  host : u.host = s.host
  pins : u.pins = s.pins
  attention : u.attention = s.attention
  pending : u.pending = s.pending
  bytes : ∀ a, HostOnly a → Memory.byte u.xm a = Memory.byte s.xm a

theorem Follows.ownEffect {s u : State} (h : Follows s u) : OwnEffect s u :=
  ⟨h.outside.host, h.outside.pins, h.outside.attention, h.outside.pending, h.outside.bytes⟩

/-- A taken command is answered TAKEN with the detail of the state it leads to. -/
theorem attend_taken (s : State) (c : CellId) (k : Nat) (f : State → State) (hf : OwnEffect s (f (s.taking c))) :
    s.Answered ((s.taking c).attend c k (.taken f)) c
      (answerWord k 1 (((s.taking c).attend c k (.taken f)).detail c)) := by
  unfold State.attend
  dsimp only
  have hs := follows_carryOut (s := s.taking c) (f := f) (Follows.refl (f (s.taking c)))
  generalize (s.taking c).carryOut f = v at hs ⊢
  rw [detail_finish, detail_answer]
  have ha := answer_spec v c k .taken (v.detail c)
  have hr := answer_rest v c k .taken (v.detail c)
  generalize v.answer c k .taken (v.detail c) = w at ha hr ⊢
  have hfin := follows_finish (Follows.refl w) (s.taking c)
  have hc := cell_bounds c
  have hword : ∀ a, a + 4 ≤ 0x20 → (w.finish (s.taking c)).word a = w.word a := fun a hle =>
    word_of_bytes fun j hj => hfin.outside.bytes _ (Or.inl (by omega))
  refine ⟨?_, ?_, ?_, ?_, ?_, ?_, ?_, fun a hb hna => ?_⟩
  · rw [hword _ (by omega)]; exact ha.1
  · unfold State.cellWord
    rw [hword _ (by omega)]; exact ha.2.1
  · rw [hfin.outside.attention, ha.2.2.1]
    have : v.attention = s.attention := hs.outside.attention.trans hf.attention
    cases c <;> simp [State.setAttention, this]
  · have hn := hfin.news (answerNews c).1
    rw [← hn, ha.2.2.2.1]
    exact or_or_and_same _ _ _
  · rw [hfin.outside.host, hr]; exact hs.outside.host.trans hf.host
  · rw [hfin.outside.pins, hr]; exact hs.outside.pins.trans hf.pins
  · rw [hfin.outside.pending, hr]; exact hs.outside.pending.trans hf.pending
  · rw [hfin.outside.bytes a hb, ha.2.2.2.2 a hna, hs.outside.bytes a hb]; exact hf.bytes a hb

/-- What a taken command leaves of its own effect. -/
theorem attend_leaves {e c : LaneId → Prop} {b : Prop} (s : State) (w : CellId) (k : Nat) (f : State → State)
    (he : ∀ l, e l ∨ ((f s).lane l).AtEase)
    (hc : ∀ l, c l ∨ ((f s).lane l).seq.mark = none ∨ ¬ e l)
    (hb : b ∨ (f s).loader.Busy) : Leaves e c b (f s) (s.attend w k (.taken f)) :=
  calm_leaves (calm_answer (calm_carryOut he hc hb) _ _ _ _) _

/-- The same with nothing known of the lanes and the loader controller. -/
theorem attend_leaves_any (s : State) (w : CellId) (k : Nat) (f : State → State) :
    Leaves (fun _ => True) (fun _ => True) True (f s) (s.attend w k (.taken f)) :=
  attend_leaves s w k f (fun _ => Or.inl trivial) (fun _ => Or.inl trivial) (Or.inl trivial)

theorem onCommand_of {s : State} {c : CellId} {k : Nat} (h : s.attends c k = true) (j : State → Verdict) :
    s.onCommand c k j = (s.taking c).attend c k (j (s.taking c)) := by
  simp [State.onCommand, h]

/-- A taken command keeps the invariant when its own effect does. -/
theorem attend_inv (s : State) (c : CellId) (k : Nat) (v : Verdict) (hi : s.Inv)
    (hf : ∀ f, v = .taken f → (f s).Inv) : (s.attend c k v).Inv := by
  have hc := cell_bounds c
  have hn := answerNews_bounds c
  have hanswer : ∀ (u : State) (r : ResultCode) (d : Nat), u.Inv → (u.answer c k r d).Inv := by
    intro u r d hu
    have hr := answer_rest u c k r d
    have hw := within_answer u c k r d
    rw [hr]
    refine ⟨?_, hu.cells, hu.settings, hu.laneA, hu.laneB, hu.queue, by dsimp only; rw [hw]; exact hu.commits⟩
    unfold State.answer
    dsimp only
    rw [State.xm_setNews, State.xm_setAttention, State.xm_setWord, State.xm_setWord]
    have hs : Memory.size = 0x8000 := rfl
    exact Memory.wf_write _ _ _ (Memory.wf_write _ _ _ (Memory.wf_write _ _ _ hu.memory
      (by rw [Memory.wordBytes_length]; omega)) (by rw [Memory.wordBytes_length]; omega))
      (by rw [Memory.wordBytes_length]; omega)
  unfold State.attend
  cases v with
  | refused r d n => exact hanswer _ r _ ((follows_countReads (Follows.refl s) n).inv hi)
  | taken f =>
    have h1 := (follows_carryOut (s := s) (Follows.refl _)).inv (hf f rfl)
    exact (follows_finish (Follows.refl _) _).inv (hanswer _ _ _ h1)

/-- A command of a cell keeps the invariant when its own effect does. -/
theorem onCommand_inv (s : State) (c : CellId) (k : Nat) (j : State → Verdict) (hi : s.Inv)
    (hf : ∀ f, j (s.taking c) = .taken f → (s.taking c).Inv → (f (s.taking c)).Inv) : (s.onCommand c k j).Inv := by
  have h0 := (follows_clearOutputs (Follows.refl s) (some c)).inv hi
  unfold State.onCommand
  split
  · exact attend_inv _ c k _ h0 fun f he => hf f he h0
  · exact hi

end Sys2Proof.Machine
end

