-- ==== Sys2Proof/Laws/FollowsCommands.lean ====
section
/-! SUPPORT. What the own effect of each command and each event keeps (`Follows`, Laws/Follows.lean). -/

namespace Sys2Proof.Machine

set_option Elab.async false

/-! ### Lane commands -/

theorem follows_startLane {r s : State} (h : Follows r s) (l : LaneId) (k m : Nat) (hk : k ≤ 23) :
    Follows r (s.startLane l k m) := by
  unfold State.startLane
  dsimp only
  exact follows_walk _ _ (by rintro _ _ ⟨⟩; exact Nat.lt_succ_of_le hk) (follows_updLane (follows_release h l _) l _ fun _ hx => hx.restart _ _) l

theorem follows_stopReading {r s : State} (h : Follows r s) (l : LaneId) : Follows r (s.stopReading l) := by
  unfold State.stopReading
  dsimp only
  refine follows_updLane (follows_endRun (follows_halt (follows_updLane h l _ ?_) l) l) l _ ?_
  · exact fun x hx => hx.abortAttempt.of_eq rfl rfl rfl rfl rfl
  · exact fun x hx => (hx.clearMap hx.1.form.window).clearRun

theorem follows_dropBind {r s : State} (h : Follows r s) (l : LaneId) : Follows r (s.dropBind l) := by
  unfold State.dropBind
  dsimp only
  refine follows_updSeq ?_ l _
  split
  · split
    · exact h
    · exact follows_withdrawBind h l _
  · exact h

theorem beginFall_bounded {n : Nat} (x : Lane) (hx : x.Bounded n) :
    Lane.Bounded n { x with plu := { x.plu.beginFall with cause := none } } :=
  hx.setUnit (hx.unit.beginFall.of_eq rfl rfl)

theorem follows_enterStopping {r s : State} (h : Follows r s) (l : LaneId) : Follows r (s.enterStopping l) := by
  have h1 := follows_updLane (follows_setLaneState (follows_endEpisode h l) l .stopping) l
    (fun x => { x with plu := { x.plu.beginFall with cause := none } }) beginFall_bounded
  unfold State.enterStopping
  dsimp only
  split
  · exact follows_endFall h1 l
  · exact h1

theorem follows_stopLane {r s : State} (h : Follows r s) (l : LaneId) : Follows r (s.stopLane l) := by
  unfold State.stopLane
  split
  · exact h
  · dsimp only
    refine follows_enterStopping (follows_release (follows_closeReading (follows_updLane (follows_retireAll
      (follows_dropBind (follows_stopReading h l) l) l _ _) l _ ?_) l) l _) l
    exact fun x hx => ⟨hx.1, .clear hx.2.1.passes, hx.2.2⟩

theorem follows_pauseLane {r s : State} (h : Follows r s) (l : LaneId) : Follows r (s.pauseLane l) := by
  unfold State.pauseLane
  exact follows_updLane (follows_setLaneState (follows_endEpisode h l) l _) l _ beginFall_bounded

theorem follows_goLane {r s : State} (h : Follows r s) (l : LaneId) : Follows r (s.goLane l) := by
  have h1 := follows_updSeq h l fun q => { q with unplayed := 0 }
  have h2 := follows_updLane h1 l fun x => { x with plu := { x.plu with holdPoint := none } }
  unfold State.goLane
  dsimp only
  refine follows_prefetchAtEnd ?_ l
  split
  · exact follows_resume h1 l
  · split
    · exact follows_startPlay h2 l
    · exact follows_walkOn h2 l
  · exact follows_walkOn h1 l
  all_goals exact h1

theorem follows_skipEnds {r s : State} (h : Follows r s) (l : LaneId) : Follows r (s.skipEnds l) := by
  unfold State.skipEnds
  exact follows_updLane (follows_endEpisode (follows_endRun (follows_updLane h l _ fun x hx => hx.abortAttempt) l) l) l _

theorem follows_skipTo {r s : State} (h : Follows r s) (l : LaneId) (g k : Segment) : Follows r (s.skipTo l g k) := by
  unfold State.skipTo
  dsimp only
  refine follows_release (follows_updLane (follows_retire h l _ _) l _ ?_) l _
  intro n x hx
  have hc := hx.cutTo k.base ((s.retire l g.cue .cutByHost).settings l).guard
  exact Lane.Bounded.skipPlayout ⟨hc.1, hc.2.1.sublist List.filter_sublist, hc.2.2⟩

theorem follows_skipToFill {r s : State} (h : Follows r s) (l : LaneId) (g : Option Segment) :
    Follows r (s.skipToFill l g) := by
  unfold State.skipToFill
  dsimp only
  refine follows_walkOn (follows_cutStream ?_ l) l
  split
  · exact follows_retire h l _ _
  · exact h

theorem follows_skipLane {r s : State} (h : Follows r s) (l : LaneId) : Follows r (s.skipLane l) := by
  have h1 := follows_skipEnds h l
  unfold State.skipLane
  dsimp only
  refine follows_updLane ?_ l _ ?_
  · split
    · exact follows_skipToFill h1 l none
    · split
      · exact follows_skipTo h1 l _ _
      · exact follows_skipToFill h1 l _
  · exact fun x hx => hx.clearHold

/-! ### Mechanism and settings commands -/

theorem judgePlace_taken {s : State} {q : LoaderRequest} {f : State → State} (h : s.judgePlace q = .taken f) :
    s.loader.cellRequests < 2 ∧ f = fun s => s.enqueue q := by
  unfold State.judgePlace at h
  split at h
  · cases h
  · cases h
    exact ⟨by omega, rfl⟩

theorem cellRequests_append (d : Loader) (w : Waiting) :
    Loader.cellRequests { d with queue := d.queue ++ [w] } ≤ d.cellRequests + 1 := by
  simp only [Loader.cellRequests, List.filter_append, List.length_append]
  have := List.length_filter_le (fun w : Waiting => w.request.kind != 1) [w]
  simp only [List.length_singleton] at this
  omega

/-- A request of the mechanism cell put at the end of the queue where a place is free. -/
theorem follows_enqueue {r s : State} (h : Follows r s) (q : LoaderRequest) (hq : s.loader.cellRequests < 2)
    (hk : q.kind ≠ 1) :
    Follows r (s.enqueue q) := by
  unfold State.enqueue
  have hn := cellRequests_append s.loader
    { request := q, timer := some s.applied.loaderWaitLimit, due := false, served := false }
  refine h.of_same rfl rfl rfl rfl rfl rfl rfl fun hi => ⟨hi.memory, hi.cells, hi.settings, hi.laneA, hi.laneB,
    ⟨Nat.le_trans hn (by omega), fun l => ?_⟩, hi.commits⟩
  have hb := hi.queue.2 l
  have : q.ofLane l = false := by
    cases q with
    | bind m k t => exact absurd rfl hk
    | eject | insert | rescan => rfl
  simpa [State.updLoader, Loader.binds, List.filter_append, this] using hb

/-! ### Link events -/

theorem follows_badThen {r s : State} (h : Follows r s) (l : LaneId) {f : State → State}
    (hf : ∀ s : State, Follows r s → Follows r (f s)) : Follows r (s.badThen l f) := by
  have h1 := follows_badEvent h l
  unfold State.badThen
  dsimp only
  split
  · exact h1
  · exact hf _ h1

theorem follows_discGone {r s : State} (h : Follows r s) (l : LaneId) : Follows r (s.discGone l) :=
  follows_trayAbsent (follows_discAbsent (follows_changeTlc h l _) l) l

theorem follows_takeStatus {r s : State} (h : Follows r s) (l : LaneId) (a b : Bool) :
    Follows r (s.takeStatus l a b) := by
  have h1 := fun g => follows_changeTlc h l g
  have h2 := follows_discGone h l
  have h3 : Follows r (s.statusInEmpty l a b) := by
    unfold State.statusInEmpty
    dsimp only
    repeat' split
    · exact follows_spindleAnswered (h1 _) _
    · exact h1 _
    · exact h
  unfold State.takeStatus
  repeat' split
  all_goals first
    | with_reducible exact h
    | with_reducible exact h2
    | with_reducible exact h3
    | with_reducible exact h1 _

theorem follows_completeToc {r s : State} (h : Follows r s) (l : LaneId) (c : Toc) : Follows r (s.completeToc l c) := by
  unfold State.completeToc
  exact follows_due (follows_takeToc (follows_changeTlc (follows_trayToc h l c) l _) l c) l

/-! ### Splice Unit, playout and loader events -/

theorem follows_takeEnd {r s : State} (h : Follows r s) (b : Bool) : Follows r (s.takeEnd b) := by
  unfold State.takeEnd
  repeat' split
  · exact follows_beginStage (follows_moveToArm h _) _ _ _
  · exact follows_endRequest (follows_setSlot h _ _) _
  · exact h

theorem follows_carryEnd {r s : State} (h : Follows r s) : Follows r s.carryEnd := by
  unfold State.carryEnd
  split
  · exact h
  · exact follows_beginStage h _ _ _

theorem follows_placeEnd {r s : State} (h : Follows r s) : Follows r s.placeEnd := by
  unfold State.placeEnd
  split
  · exact h
  · rename_i n _
    have h1 : Follows r ((s.moveFromArm n).updLoader Loader.legDone) :=
      follows_updLoader (follows_moveFromArm h n) _ fun _ hd => hd
    dsimp only
    split
    · exact follows_endHoming h1 _ _
    · exact follows_nextLeg h1

theorem markDue_requests (q : List Waiting) (place : Nat) :
    (markDue q place).map Waiting.request = q.map Waiting.request := by
  unfold markDue
  induction q generalizing place with
  | nil => simp
  | cons w rest ih => cases place <;> simp [ih]

theorem follows_markDue {r s : State} (h : Follows r s) (place : Nat) :
    Follows r (s.updLoader fun d => { d with queue := markDue d.queue place }) :=
  follows_updLoader h _ fun _ hd => hd.of_requests (by rw [markDue_requests])

/-! ### Every event of the part -/

/-- No event of the part itself touches the outside, breaks the invariant or clears news. -/
theorem partEvent_follows (c : Instr) (s : State) (hc : partEvent c = true) :
    ∃ t, exec c s = .next t ∧ Follows s t := by
  cases c <;> cases hc
  case block t label marks pairs =>
    refine ⟨_, rfl, follows_onEvent s _ _ fun r s h => ?_⟩
    split
    · exact follows_arrive (follows_updTlc h _ _) _ _
    · exact follows_updTlc h _ _
  case seekDone t address =>
    refine ⟨_, rfl, follows_onEvent s _ _ fun r s h => ?_⟩
    split
    · exact follows_due (follows_updLane (follows_changeTlc h _ _) _ _ fun x hx => hx.openRun) _
    · exact follows_updTlc h _ _
  case seekFail t reason =>
    refine ⟨_, rfl, follows_onEvent s _ _ fun r s h => ?_⟩
    split
    · exact follows_badThen (follows_changeTlc h _ _) _ fun s h => follows_schedule h _ _
    · exact follows_updTlc h _ _
  case status t a b =>
    exact ⟨_, rfl, follows_onEvent s _ _ fun r s h => follows_takeStatus (follows_updTlc h _ _) _ _ _⟩
  case tocEntry t a b => exact ⟨_, rfl, follows_onEvent s _ _ fun r s h => follows_updTlc h _ _⟩
  case tocEnd t a b =>
    refine ⟨_, rfl, follows_onEvent s _ _ fun r s h => ?_⟩
    dsimp only
    repeat' split
    · exact follows_completeToc h _ _
    · exact follows_updTlc h _ _
    · exact follows_updTlc h _ _
  case frameCheckError t bs => exact ⟨_, rfl, follows_onEvent s _ _ fun r s h => follows_updTlc h _ _⟩
  case frameKindInvalid t bs => exact ⟨_, rfl, follows_onEvent s _ _ fun r s h => follows_updTlc h _ _⟩
  case linkIdleInFrame t bs => exact ⟨_, rfl, follows_onEvent s _ _ fun r s h => follows_updTlc h _ _⟩
  case startupWindowExpiry t =>
    exact ⟨_, rfl, follows_onEvent s _ _ fun r s h => follows_setNews (follows_changeTlc h _ _) _ _⟩
  case tocLimitExpiry t =>
    exact ⟨_, rfl, follows_onEvent s _ _ fun r s h => follows_badThen (follows_updTlc h _ _) _ fun s h =>
      follows_changeTlc h _ _⟩
  case seekTimerExpiry t =>
    exact ⟨_, rfl, follows_onEvent s _ _ fun r s h => follows_badThen (follows_updTlc h _ _) _ fun s h =>
      follows_changeTlc h _ _⟩
  case stall t =>
    exact ⟨_, rfl, follows_onEvent s _ _ fun r s h => follows_badThen (follows_updTlc h _ _) _ fun s h =>
      follows_schedule h _ _⟩
  case spindleStopLimitExpiry t =>
    exact ⟨_, rfl, follows_onEvent s _ _ fun r s h => follows_spindleAnswered (follows_changeTlc h _ _) _⟩
  case checkCompletion =>
    refine ⟨_, rfl, ?_⟩
    split
    · exact Follows.refl s
    · exact follows_onEvent s _ _ fun r s h => follows_completeCheck h _
  case playoutAdvance l => exact ⟨_, rfl, follows_onEvent s _ _ fun r s h => follows_advance h l⟩
  case blockEndNotPlaying l => exact ⟨_, rfl, follows_onEvent s _ _ fun r s h => follows_endBlock h l⟩
  case fallEnd l => exact ⟨_, rfl, follows_onEvent s _ _ fun r s h => follows_endFall h l⟩
  case waitTimerExpiry place => exact ⟨_, rfl, follows_onEvent s _ _ fun r s h => follows_markDue h place⟩
  case stageEndTake b => exact ⟨_, rfl, follows_onEvent s _ _ fun r s h => follows_takeEnd h b⟩
  case stageEndCarry => exact ⟨_, rfl, follows_onEvent s _ _ fun r s h => follows_carryEnd h⟩
  case stageEndPlace => exact ⟨_, rfl, follows_onEvent s _ _ fun r s h => follows_placeEnd h⟩
  case stageEndSense b =>
    refine ⟨_, rfl, ?_⟩
    split
    · exact Follows.refl s
    · exact follows_onEvent s _ _ fun r s h => follows_senseEnd h _ _
  case moveLimitExpiry => exact ⟨_, rfl, follows_onEvent s _ _ fun r s h => follows_jam h⟩
  case settleTimerExpiry => exact ⟨_, rfl, follows_onEvent s _ _ fun r s h => follows_settled h⟩
  case recoveryTimerExpiry => exact ⟨_, rfl, follows_onEvent s _ _ fun r s h => follows_endRecovery h⟩
  case audioPortFrame l =>
    refine ⟨_, rfl, ?_⟩
    split
    · exact follows_updLane (follows_clearOutputs (Follows.refl s)) l _ fun x hx => hx.frame
    · exact Follows.refl s

end Sys2Proof.Machine
end

