-- ==== Sys2Proof/Laws/Changes.lean ====
section
/-! SUPPORT. What the small operations inside an event change of a lane, of a transport link controller and of the loader
controller, one lemma per operation and part. -/

namespace Sys2Proof.Machine.State

set_option Elab.async false

section
variable (s : State) (l k : LaneId)

@[simp] theorem tlc_due : (s.due l).tlc k = s.tlc k := by simp [due]
@[simp] theorem loader_due : (s.due l).loader = s.loader := by simp [due]
@[simp] theorem store_due : (s.due l).store = s.store := by simp [due]
@[simp] theorem splice_due : (s.due l).splice = s.splice := by simp [due]
@[simp] theorem applied_due : (s.due l).applied = s.applied := by simp [due]
@[simp] theorem seq_due : ((s.due l).lane k).seq = (s.lane k).seq := by
  cases l <;> cases k <;> rfl
@[simp] theorem plu_due : ((s.due l).lane k).plu = (s.lane k).plu := by
  cases l <;> cases k <;> rfl
@[simp] theorem steady_due : ((s.due l).lane k).steady = (s.lane k).steady := by
  cases l <;> cases k <;> rfl
@[simp] theorem p_due : ((s.due l).lane k).p = (s.lane k).p := by
  cases l <;> cases k <;> rfl

@[simp] theorem tlc_withdrawCheck : (s.withdrawCheck l).tlc k = s.tlc k := by cases k <;> rfl
@[simp] theorem lane_withdrawCheck : (s.withdrawCheck l).lane k = s.lane k := by cases k <;> rfl

@[simp] theorem tlc_endRun : (s.endRun l).tlc k = s.tlc k := by unfold endRun; split <;> simp
@[simp] theorem loader_endRun : (s.endRun l).loader = s.loader := by
  unfold endRun; split <;> simp [withdrawCheck]
@[simp] theorem store_endRun : (s.endRun l).store = s.store := by
  unfold endRun; split <;> simp [withdrawCheck]
@[simp] theorem applied_endRun : (s.endRun l).applied = s.applied := by
  unfold endRun; split <;> simp [withdrawCheck]
@[simp] theorem seq_endRun : ((s.endRun l).lane k).seq = (s.lane k).seq := by
  unfold endRun; split <;> cases l <;> cases k <;> rfl
@[simp] theorem plu_endRun : ((s.endRun l).lane k).plu = (s.lane k).plu := by
  unfold endRun; split <;> cases l <;> cases k <;> rfl
@[simp] theorem steady_endRun : ((s.endRun l).lane k).steady = (s.lane k).steady := by
  unfold endRun; split <;> cases l <;> cases k <;> rfl
@[simp] theorem p_endRun : ((s.endRun l).lane k).p = (s.lane k).p := by
  unfold endRun; split <;> cases l <;> cases k <;> rfl

variable (t : Tlc) (g : Tlc → Tlc)

@[simp] theorem tlc_putTlc : (s.putTlc l t).tlc l = t := by
  unfold putTlc; dsimp only; repeat' split
  all_goals simp
@[simp] theorem tlc_putTlc_other : (s.putTlc l t).tlc (LaneId.other l) = s.tlc (LaneId.other l) := by
  unfold putTlc; dsimp only; repeat' split
  all_goals simp
@[simp] theorem loader_putTlc : (s.putTlc l t).loader = s.loader := by
  unfold putTlc; dsimp only; repeat' split
  all_goals simp
@[simp] theorem store_putTlc : (s.putTlc l t).store = s.store := by
  unfold putTlc; dsimp only; repeat' split
  all_goals simp
@[simp] theorem applied_putTlc : (s.putTlc l t).applied = s.applied := by
  unfold putTlc; dsimp only; repeat' split
  all_goals simp
@[simp] theorem seq_putTlc : ((s.putTlc l t).lane k).seq = (s.lane k).seq := by
  unfold putTlc; dsimp only; repeat' split
  all_goals simp
@[simp] theorem plu_putTlc : ((s.putTlc l t).lane k).plu = (s.lane k).plu := by
  unfold putTlc; dsimp only; repeat' split
  all_goals simp
@[simp] theorem steady_putTlc : ((s.putTlc l t).lane k).steady = (s.lane k).steady := by
  unfold putTlc; dsimp only; repeat' split
  all_goals simp
@[simp] theorem p_putTlc : ((s.putTlc l t).lane k).p = (s.lane k).p := by
  unfold putTlc; dsimp only; repeat' split
  all_goals simp

@[simp] theorem tlc_changeTlc : (s.changeTlc l g).tlc l = g (s.tlc l) := tlc_putTlc s l _
@[simp] theorem tlc_changeTlc_other : (s.changeTlc l g).tlc (LaneId.other l) = s.tlc (LaneId.other l) :=
  tlc_putTlc_other s l _
@[simp] theorem tlc_changeTlc_ab : (s.changeTlc .a g).tlc .b = s.tlc .b := tlc_putTlc_other s .a _
@[simp] theorem tlc_changeTlc_ba : (s.changeTlc .b g).tlc .a = s.tlc .a := tlc_putTlc_other s .b _
@[simp] theorem loader_changeTlc : (s.changeTlc l g).loader = s.loader := loader_putTlc s l _
@[simp] theorem store_changeTlc : (s.changeTlc l g).store = s.store := store_putTlc s l _
@[simp] theorem applied_changeTlc : (s.changeTlc l g).applied = s.applied := applied_putTlc s l _
@[simp] theorem seq_changeTlc : ((s.changeTlc l g).lane k).seq = (s.lane k).seq := seq_putTlc s l k _
@[simp] theorem plu_changeTlc : ((s.changeTlc l g).lane k).plu = (s.lane k).plu := plu_putTlc s l k _
@[simp] theorem steady_changeTlc : ((s.changeTlc l g).lane k).steady = (s.lane k).steady := steady_putTlc s l k _
@[simp] theorem p_changeTlc : ((s.changeTlc l g).lane k).p = (s.lane k).p := p_putTlc s l k _

end

end Sys2Proof.Machine.State

namespace Sys2Proof.Machine

/-! ### Slots -/

/-- A tray's change reported to its lane is calm: it touches the lane's sequencer and playout unit only. -/
theorem calm_trayChanged {e c : LaneId → Prop} {b : Prop} {r s : State} (h : Calm e c b r s) (l : LaneId) (he : e l) :
    Calm e c b r (s.trayChanged l) := by
  unfold State.trayChanged
  dsimp only
  repeat' split
  · exact calm_primingOrRetire h l he
  · exact calm_retirePending h l _ he
  all_goals exact h

/-- The slot table with one entry replaced, in the table alone. -/
def State.withSlot (s : State) (n : Loc) (e : SlotEntry) : State :=
  s.updLoader fun d => { d with slots := d.slots.set n.val e }

theorem slot_withSlot (s : State) (n m : Loc) (e : SlotEntry) : (s.withSlot n e).slot m = if m = n then e else s.slot m := by
  unfold State.withSlot State.slot State.updLoader
  dsimp only
  by_cases h : m = n
  · subst h
    rw [if_pos rfl]
    exact Vector.getElem_set_self _
  · rw [if_neg h]
    exact Vector.getElem_set_ne _ _ (fun hv => h (Fin.ext hv.symm))

theorem withSlot_same (s : State) (n : Loc) : s.withSlot n (s.slot n) = s := by
  have h : s.loader.slots.set n.val (s.slot n) = s.loader.slots := by
    unfold State.slot
    ext i hi
    by_cases h : i = n.val
    · subst h
      simp
    · rw [Vector.getElem_set_ne _ _ (fun hv => h hv.symm)]
  show { s with loader := { s.loader with slots := s.loader.slots.set n.val (s.slot n) } } = s
  rw [h]

/-- A slot table entry replaced: the table with that entry, and what the change makes of the lane whose tray it is. -/
theorem calm_setSlot (s : State) (n : Loc) (x : SlotEntry) :
    Calm (fun _ => True) (fun _ => False) False (s.withSlot n x) (s.setSlot n x) := by
  unfold State.setSlot
  split
  · rename_i h
    rw [← h, withSlot_same]
    exact calm_setWords (Calm.refl _ _ _ _) _ _
  · have h1 : Calm (fun _ => True) (fun _ => False) False (s.withSlot n x) (s.writeSlot n x) := by
      unfold State.writeSlot
      exact calm_setNews (calm_setWords (calm_setWords (Calm.refl _ _ _ _) _ _) _ _) _ _
    dsimp only
    split
    · exact calm_trayChanged h1 .a trivial
    · split
      · exact calm_trayChanged h1 .b trivial
      · exact h1

end Sys2Proof.Machine
end

