-- ==== Sys2Proof/Laws/PerInstr.lean ====
section
/-! SUPPORT. Facts of every command as a term. HostAccess: the host offset that a
well-formed command names is an even offset of the 8 KiB host space (R196). -/

namespace Sys2Proof.Laws

set_option Elab.async false

/-- The host offset a command names, when it is a host access that carries one. -/
def hostOffset : Instr → Option Nat
  | .hostXmRead o => some o
  | .hostXmWriteLow o _ => some o
  | .hostXmWriteHigh o _ => some o
  | .registerWriteIgnored o _ => some o
  | .hostRegisterRead o => some o
  | _ => none

/-- A well-formed command's host offset is even and in the host space. -/
def HostAccess.Statement (i : Instr) : Prop :=
  ∀ o, hostOffset i = some o → WellFormed i = true → o % 2 = 0 ∧ o < 0x2000

theorem HostAccess.hostXmRead (offset : Nat) : HostAccess.Statement (.hostXmRead offset) := by
  intro o h w
  cases h
  simp [WellFormed, hostOffsetOk] at w
  omega

theorem HostAccess.hostXmWriteLow (offset : Nat) (value : Half) :
    HostAccess.Statement (.hostXmWriteLow offset value) := by
  intro o h w
  cases h
  simp [WellFormed, hostOffsetOk] at w
  omega

theorem HostAccess.hostXmWriteHigh (offset : Nat) (value : Half) :
    HostAccess.Statement (.hostXmWriteHigh offset value) := by
  intro o h w
  cases h
  simp [WellFormed, hostOffsetOk] at w
  omega

theorem HostAccess.enableWrite (value : Half) : HostAccess.Statement (.enableWrite value) := by
  intro o h
  cases h

theorem HostAccess.pageWrite (value : Half) : HostAccess.Statement (.pageWrite value) := by
  intro o h
  cases h

theorem HostAccess.controlReset (value : Half) : HostAccess.Statement (.controlReset value) := by
  intro o h
  cases h

theorem HostAccess.registerWriteIgnored (offset : Nat) (value : Half) :
    HostAccess.Statement (.registerWriteIgnored offset value) := by
  intro o h w
  cases h
  simp [WellFormed, hostOffsetOk] at w
  omega

theorem HostAccess.resetNAssert : HostAccess.Statement .resetNAssert := by
  intro o h
  cases h

theorem HostAccess.resetNRelease : HostAccess.Statement .resetNRelease := by
  intro o h
  cases h

theorem HostAccess.xmInitialisationDone : HostAccess.Statement .xmInitialisationDone := by
  intro o h
  cases h

theorem HostAccess.attentionEmpty (cell : CellId) : HostAccess.Statement (.attentionEmpty cell) := by
  intro o h
  cases h

theorem HostAccess.unknownCommand (cell : CellId) : HostAccess.Statement (.unknownCommand cell) := by
  intro o h
  cases h

theorem HostAccess.start (lane : LaneId) : HostAccess.Statement (.start lane) := by
  intro o h
  cases h

theorem HostAccess.stop (lane : LaneId) : HostAccess.Statement (.stop lane) := by
  intro o h
  cases h

theorem HostAccess.pause (lane : LaneId) : HostAccess.Statement (.pause lane) := by
  intro o h
  cases h

theorem HostAccess.go (lane : LaneId) : HostAccess.Statement (.go lane) := by
  intro o h
  cases h

theorem HostAccess.skip (lane : LaneId) : HostAccess.Statement (.skip lane) := by
  intro o h
  cases h

theorem HostAccess.eject : HostAccess.Statement .eject := by
  intro o h
  cases h

theorem HostAccess.insert : HostAccess.Statement .insert := by
  intro o h
  cases h

theorem HostAccess.rescan : HostAccess.Statement .rescan := by
  intro o h
  cases h

theorem HostAccess.revive : HostAccess.Statement .revive := by
  intro o h
  cases h

theorem HostAccess.apply : HostAccess.Statement .apply := by
  intro o h
  cases h

theorem HostAccess.block (transport : TransportId) (label : BitVec 24) (marks : MarkReport) (pairs : List Pair) :
    HostAccess.Statement (.block transport label marks pairs) := by
  intro o h
  cases h

theorem HostAccess.seekDone (transport : TransportId) (address : BitVec 24) :
    HostAccess.Statement (.seekDone transport address) := by
  intro o h
  cases h

theorem HostAccess.seekFail (transport : TransportId) (reason : SeekReason) :
    HostAccess.Statement (.seekFail transport reason) := by
  intro o h
  cases h

theorem HostAccess.status (transport : TransportId) (spinning : Bool) (present : Bool) :
    HostAccess.Statement (.status transport spinning present) := by
  intro o h
  cases h

theorem HostAccess.tocEntry (transport : TransportId) (track : Byte) (address : BitVec 24) :
    HostAccess.Statement (.tocEntry transport track address) := by
  intro o h
  cases h

theorem HostAccess.tocEnd (transport : TransportId) (count : Byte) (leadOut : BitVec 24) :
    HostAccess.Statement (.tocEnd transport count leadOut) := by
  intro o h
  cases h

theorem HostAccess.frameCheckError (transport : TransportId) (bytes : List Byte) :
    HostAccess.Statement (.frameCheckError transport bytes) := by
  intro o h
  cases h

theorem HostAccess.frameKindInvalid (transport : TransportId) (bytes : List Byte) :
    HostAccess.Statement (.frameKindInvalid transport bytes) := by
  intro o h
  cases h

theorem HostAccess.linkIdleInFrame (transport : TransportId) (bytes : List Byte) :
    HostAccess.Statement (.linkIdleInFrame transport bytes) := by
  intro o h
  cases h

theorem HostAccess.startupWindowExpiry (transport : TransportId) :
    HostAccess.Statement (.startupWindowExpiry transport) := by
  intro o h
  cases h

theorem HostAccess.tocLimitExpiry (transport : TransportId) : HostAccess.Statement (.tocLimitExpiry transport) := by
  intro o h
  cases h

theorem HostAccess.seekTimerExpiry (transport : TransportId) : HostAccess.Statement (.seekTimerExpiry transport) := by
  intro o h
  cases h

theorem HostAccess.stall (transport : TransportId) : HostAccess.Statement (.stall transport) := by
  intro o h
  cases h

theorem HostAccess.spindleStopLimitExpiry (transport : TransportId) :
    HostAccess.Statement (.spindleStopLimitExpiry transport) := by
  intro o h
  cases h

theorem HostAccess.checkCompletion : HostAccess.Statement .checkCompletion := by
  intro o h
  cases h

theorem HostAccess.playoutAdvance (lane : LaneId) : HostAccess.Statement (.playoutAdvance lane) := by
  intro o h
  cases h

theorem HostAccess.blockEndNotPlaying (lane : LaneId) : HostAccess.Statement (.blockEndNotPlaying lane) := by
  intro o h
  cases h

theorem HostAccess.fallEnd (lane : LaneId) : HostAccess.Statement (.fallEnd lane) := by
  intro o h
  cases h

theorem HostAccess.waitTimerExpiry (place : Nat) : HostAccess.Statement (.waitTimerExpiry place) := by
  intro o h
  cases h

theorem HostAccess.stageEndTake (taken : Bool) : HostAccess.Statement (.stageEndTake taken) := by
  intro o h
  cases h

theorem HostAccess.stageEndCarry : HostAccess.Statement .stageEndCarry := by
  intro o h
  cases h

theorem HostAccess.stageEndPlace : HostAccess.Statement .stageEndPlace := by
  intro o h
  cases h

theorem HostAccess.stageEndSense (present : Bool) : HostAccess.Statement (.stageEndSense present) := by
  intro o h
  cases h

theorem HostAccess.moveLimitExpiry : HostAccess.Statement .moveLimitExpiry := by
  intro o h
  cases h

theorem HostAccess.settleTimerExpiry : HostAccess.Statement .settleTimerExpiry := by
  intro o h
  cases h

theorem HostAccess.recoveryTimerExpiry : HostAccess.Statement .recoveryTimerExpiry := by
  intro o h
  cases h

theorem HostAccess.mechanismStop (flapClosed : Bool) (supplyGood : Bool) :
    HostAccess.Statement (.mechanismStop flapClosed supplyGood) := by
  intro o h
  cases h

theorem HostAccess.mechanismReturn : HostAccess.Statement .mechanismReturn := by
  intro o h
  cases h

theorem HostAccess.audioPortFrame (lane : LaneId) : HostAccess.Statement (.audioPortFrame lane) := by
  intro o h
  cases h

theorem HostAccess.mechanismLineChange (flapClosed : Bool) (supplyGood : Bool) :
    HostAccess.Statement (.mechanismLineChange flapClosed supplyGood) := by
  intro o h
  cases h

theorem HostAccess.hostRegisterRead (offset : Nat) : HostAccess.Statement (.hostRegisterRead offset) := by
  intro o h w
  cases h
  simp [WellFormed, hostOffsetOk] at w
  omega

end Sys2Proof.Laws
end

