-- ==== Sys2Proof/Laws/Records.lean ====
section
/-! SUPPORT. What the records of an event leave in Exchange Memory: each record that it writes, whole. -/

namespace Sys2Proof.Machine
set_option Elab.async false

/-! ### What Exchange Memory holds -/

/-- Words written by the part stand. -/
theorem holdsWords_setWords (s : State) (a : Nat) (ws : List Word) : (s.setWords a ws).HoldsWords a ws :=
  fun i hi => Memory.word_write_in s.xm a ws i hi

theorem holdsWords_setWords_out {s : State} {a b : Nat} {ws vs : List Word} (h : s.HoldsWords a ws)
    (hd : a + 4 * ws.length ≤ b ∨ b + 4 * vs.length ≤ a) : (s.setWords b vs).HoldsWords a ws := by
  intro i hi
  rw [← h i hi]
  refine Memory.word_write_out _ _ _ _ ?_
  rw [Memory.flatMap_wordBytes_length]
  omega

theorem holds_setNews_out {s : State} {n : NewsWord} {w : Word} {a : Nat} {ws : List Word} (h : s.HoldsWords a ws)
    (hn : 0x30 ≤ a) : (s.setNews n w).HoldsWords a ws := by
  intro i hi
  rw [← h i hi]
  refine Memory.word_write_out _ _ _ _ (Or.inr ?_)
  rw [Memory.wordBytes_length]
  cases n <;> simp only [NewsWord.offset] <;> omega

theorem fieldWords_length (t : Tlc) : t.fieldWords.length = 14 := by simp [Tlc.fieldWords, padWords]

theorem pins_finishLane (s : State) (l : LaneId) : (s.finishLane l).pins = s.pins := by
  unfold State.finishLane State.writeStatus
  dsimp only
  repeat' split
  all_goals simp

theorem pins_finishTransport (s b : State) (l : LaneId) : (s.finishTransport b l).pins = s.pins := by
  unfold State.finishTransport State.writeTransport
  split <;> simp

/-- The loader record as the end of an event leaves it (R194). -/
theorem holds_finishLoader {s b : State} (h : s.loaderFields ≠ b.loaderFields) :
    (s.finishLoader b).HoldsWords loaderOffset (s.finishLoader b).loaderWords := by
  unfold State.finishLoader
  rw [if_neg h]
  exact holdsWords_setWords _ _ _

/-- A transport record as the end of an event leaves it (R147). -/
theorem holds_finishTransport {s b : State} {l : LaneId} (h : (s.tlc l).fieldWords ≠ (b.tlc l).fieldWords) :
    (s.finishTransport b l).HoldsWords (transportOffset l) ((s.finishTransport b l).tlc l).recordWords := by
  unfold State.finishTransport
  rw [if_neg h]
  exact holdsWords_setWords _ _ _

theorem holds_finishLoader_out {s b : State} {a : Nat} {ws : List Word} (h : s.HoldsWords a ws)
    (hd : a + 4 * ws.length ≤ loaderOffset ∨ loaderOffset + 128 ≤ a) : (s.finishLoader b).HoldsWords a ws := by
  unfold State.finishLoader
  split
  · exact h
  · exact holdsWords_setWords_out (s := s.updLoader _) h (by rw [loaderWords_length]; exact hd)

theorem holds_finishTransport_out {s b : State} {l : LaneId} {a : Nat} {ws : List Word} (h : s.HoldsWords a ws)
    (hd : a + 4 * ws.length ≤ transportOffset l ∨ transportOffset l + 64 ≤ a) :
    (s.finishTransport b l).HoldsWords a ws := by
  unfold State.finishTransport
  split
  · exact h
  · refine holdsWords_setWords_out (s := s.updTlc l _) ?_ (by rw [recordWords_length]; exact hd)
    intro i hi
    rw [← h i hi]
    simp [State.word]

/-- The records of the transports and of the loader that an event has changed (R147, R194). -/
theorem records_finish {s : State} (b : State) :
    (∀ l, (s.tlc l).fieldWords ≠ (b.tlc l).fieldWords →
      (s.finish b).HoldsWords (transportOffset l) ((s.finish b).tlc l).recordWords) ∧
    (s.loaderFields ≠ b.loaderFields → (s.finish b).HoldsWords loaderOffset (s.finish b).loaderWords) := by
  have hl : ∀ k, ((s.finishLane .a).finishLane .b).tlc k = s.tlc k := fun k => by
    rw [tlc_finishLane, tlc_finishLane]
  refine ⟨fun l h => ?_, fun h => ?_⟩
  · unfold State.finish
    rw [tlc_finishLoader]
    cases l
    · have h1 := holds_finishTransport (s := (s.finishLane .a).finishLane .b) (b := b) (l := .a) (by rw [hl]; exact h)
      have h2 : ∀ u : State, ((u.finishTransport b .b).tlc .a) = u.tlc .a := fun u => by
        unfold State.finishTransport; split <;> rfl
      rw [h2]
      exact holds_finishLoader_out (holds_finishTransport_out h1
        (by rw [recordWords_length]; simp [transportOffset])) (by rw [recordWords_length]; simp [transportOffset, loaderOffset])
    · have h1 := holds_finishTransport (s := ((s.finishLane .a).finishLane .b).finishTransport b .a) (b := b) (l := .b)
        (by
          have : ∀ u : State, ((u.finishTransport b .a).tlc .b) = u.tlc .b := fun u => by
            unfold State.finishTransport; split <;> rfl
          rw [this, hl]; exact h)
      exact holds_finishLoader_out h1 (by rw [recordWords_length]; simp [transportOffset, loaderOffset])
  · refine holds_finishLoader ?_
    have hp : ((((s.finishLane .a).finishLane .b).finishTransport b .a).finishTransport b .b).loaderFields =
        s.loaderFields := by
      unfold State.loaderFields
      rw [loader_finishTransport, loader_finishTransport, loader_finishLane, loader_finishLane]
      have : ((((s.finishLane .a).finishLane .b).finishTransport b .a).finishTransport b .b).pins = s.pins := by
        rw [pins_finishTransport, pins_finishTransport, pins_finishLane, pins_finishLane]
      rw [this]
    rw [hp]; exact h

/-- The lane status record as the end of an event leaves it, where the event refreshes it (R171). -/
theorem holds_finishLane {s : State} {l : LaneId} (h : ((s.lane l).marks.refresh || (s.lane l).marks.stateChanged) = true) :
    (s.finishLane l).HoldsWords (statusOffset l) ((s.finishLane l).lane l).statusWords := by
  unfold State.finishLane
  dsimp only
  rw [if_pos h]
  have h1 : ((s.updLane l fun x => { x with marks := LaneMarks.clear }).writeStatus l).HoldsWords (statusOffset l)
      (((s.updLane l fun x => { x with marks := LaneMarks.clear }).writeStatus l).lane l).statusWords := by
    unfold State.writeStatus
    rw [show (∀ u : State, ∀ a ws, (u.setWords a ws).lane l = u.lane l) from fun u a ws => by cases l <;> rfl]
    exact holdsWords_setWords _ _ _
  have h2 : ∀ u : State, ∀ w, u.HoldsWords (statusOffset l) (u.lane l).statusWords →
      (u.setNews (newsOf l) w).HoldsWords (statusOffset l) ((u.setNews (newsOf l) w).lane l).statusWords := fun u w hu => by
    rw [State.lane_setNews]
    exact holds_setNews_out hu (by cases l <;> simp [statusOffset])
  repeat' split
  · exact h2 _ _ (h2 _ _ h1)
  · exact h2 _ _ h1
  · exact h2 _ _ h1
  · exact h1

theorem holds_writeStatus_out {s : State} {l : LaneId} {a : Nat} {ws : List Word} (h : s.HoldsWords a ws)
    (hd : a + 4 * ws.length ≤ statusOffset l ∨ statusOffset l + 1024 ≤ a) : (s.writeStatus l).HoldsWords a ws := by
  unfold State.writeStatus
  dsimp only
  refine holdsWords_setWords_out (s := s.updLane l _) ?_ (by rw [statusWords_length]; exact hd)
  intro i hi
  rw [← h i hi]
  simp [State.word]

theorem holds_finishLane_out {s : State} {l : LaneId} {a : Nat} {ws : List Word} (h : s.HoldsWords a ws)
    (hd : a + 4 * ws.length ≤ statusOffset l ∨ statusOffset l + 1024 ≤ a) (hn : 0x30 ≤ a) :
    (s.finishLane l).HoldsWords a ws := by
  have h0 : ∀ m, (s.updLane l fun x => { x with marks := m }).HoldsWords a ws := by
    intro m i hi
    rw [← h i hi]
    simp [State.word]
  unfold State.finishLane
  dsimp only
  repeat' split
  all_goals first
    | with_reducible exact h0 _
    | with_reducible exact holds_writeStatus_out (h0 _) hd
    | with_reducible exact holds_setNews_out (h0 _) hn
    | with_reducible exact holds_setNews_out (holds_writeStatus_out (h0 _) hd) hn
    | with_reducible exact holds_setNews_out (holds_setNews_out (h0 _) hn) hn
    | with_reducible exact holds_setNews_out (holds_setNews_out (holds_writeStatus_out (h0 _) hd) hn) hn

/-- The lane status records that an event refreshes (R171, R207). -/
theorem status_finish {s : State} (b : State) {l : LaneId}
    (h : ((s.lane l).marks.refresh || (s.lane l).marks.stateChanged) = true) :
    (s.finish b).HoldsWords (statusOffset l) ((s.finish b).lane l).statusWords := by
  unfold State.finish
  rw [lane_finishLoader, lane_finishTransport, lane_finishTransport]
  refine holds_finishLoader_out (holds_finishTransport_out (holds_finishTransport_out ?_ ?_) ?_) ?_
  · cases l
    · rw [lane_finishLane_ne _ (by simp)]
      exact holds_finishLane_out (holds_finishLane h) (by rw [statusWords_length]; simp [statusOffset]) (by simp [statusOffset])
    · exact holds_finishLane (by rw [lane_finishLane_ne _ (by simp)]; exact h)
  all_goals rw [statusWords_length]; cases l <;> simp [statusOffset, transportOffset, loaderOffset]

end Sys2Proof.Machine
end

