-- ==== Sys2Proof/Tests/Slice0.lean ====
section
/-! SUPPORT. Small tests of the definitions, and for each statement with hypotheses a concrete state and operands that
meet them, at boundary values of its clauses. -/

namespace Sys2Proof.Tests

set_option Elab.async false

open Machine

/-! ### States -/

/-- The part released from reset, nothing yet sent. -/
def up : State := { State.reset with pins := { State.reset.pins with xmReady := true } }

/-- The state a command leaves. -/
def after (c : Instr) (s : State) : State :=
  match exec c s with
  | .next t => t
  | .fault _ => s
  | .refused _ => s

/-- The state with a word in an attention cell and its attention pending. -/
def asked (c : CellId) (w : Word) (s : State) : State := (s.setWord (cellOffset c) w).setAttention c true

/-- The state with lane A's sequencer in a lane state. -/
def inState (t : LaneState) (s : State) : State := s.updSeq .a fun q => { q with state := t }

/-- The state with lane A's playout unit changed. -/
def withPlu (g : Playout → Playout) (s : State) : State := s.updLane .a fun x => { x with plu := g x.plu }

/-- The state with T0's controller in a state. -/
def tlcIn (t : TlcState) (s : State) : State := s.updTlc .a fun u => { u with state := t }

/-- A taken cue of entry 0. -/
def cue : TakenCue :=
  { entry := 0, slot := 1, track := 1, start := 0, stop := 0, holdAfter := false, counts := .zero }

/-- A segment of 1000 positions at base 0. -/
def seg : Segment := { cue := cue, base := 0, first := 1000, stop := 2000, disc := some 1 }

/-- The segment after it. -/
def seg2 : Segment := { cue := cue, base := 1000, first := 2000, stop := 2500, disc := some 1 }

/-- Pairs of a block. -/
def pairs : List Pair := List.replicate 588 { left := 100, right := 200 }

/-- A block in play at position 0. -/
def block (next : Nat) : PlayBlock :=
  { position := 0, form := .copy, pairs := pairs, marks := 0, plan := [], next := next, plannedFall := false,
    fell := false }

/-- Lane A over one segment with 40 positions stored, the block of position 0 at a pair, the gain as given. -/
def playing (t : LaneState) (next : Nat) (g : GainState) (level : Nat) (s : State) : State :=
  withPlu (fun u => { u with block := some (block next), gain := g, level := level })
    (s.updLane .a fun x => { x with
      f := 40
      spans := [{ first := 0, count := 40, seg := seg.ref, cond := .good, repair := none }]
      seq := { x.seq with state := t, segments := [seg], current := some 0, reading := true } })

/-- Lane A with an OPEN unanchored run through the segment at f. -/
def reading (s : State) : State :=
  tlcIn .reading ((playing .playing 0 .full 128 s).updLane .a fun x => { x with
    run := { x.run with state := .opened, seg := some seg.ref, target := 40, seekPosition := 40 }
    rsc := { x.rsc with mode := .fill } })

/-- A slot table entry of a disc. -/
def disc (home : Option Nat) : SlotEntry := { occupancy := .yes, toc := none, home := home }

/-- The loader controller changed. -/
def ldr (g : Loader → Loader) (s : State) : State := s.updLoader g

/-- The slot table with entries put in. -/
def slots (es : List (Loc × SlotEntry)) (s : State) : State :=
  ldr (fun d => { d with slots := es.foldl (fun v e => v.set e.1.val e.2) d.slots }) s

/-- The settings block holding a list of values. -/
def settingsAre (v : List Nat) (s : State) : State := s.setWords 0xC00 (v.map wordOf)

/-- A move of a disc from slot 1 to T0 in a stage. -/
def moving (g : Stage) (s : State) : State :=
  slots [(0, disc (some 1)), (8, disc (some 1)), (6, .absent)] (ldr (fun d => { d with
    state := .moving, stage := some g, moveLimit := some 6000,
    current := some { request := .bind .a 1 1, legs := [{ source := 0, dest := 6 }], leg := 1 } }) s)

/-- A homing that senses a location. -/
def sensing (n : Loc) (s : State) : State :=
  ldr (fun d => { d with
    state := .homing, stage := some .sense, moveLimit := some 6000,
    homing := some { kind := .afterReset, sensing := n, putAway := none } }) s

/-- The mechanism stopped. -/
def stopped (s : State) : State :=
  tlcIn .mechHeld (ldr (fun d => { d with state := .stopped, mechStopped := true }) s)

/-- A waiting RESCAN. -/
def waiting : Waiting := { request := .rescan, timer := some 10, due := false, served := false }

/-! ### The invariant of these states -/

theorem up_settings : ∀ i, i < 32 → 1 ≤ i → fieldOk up.applied i = true := by decide +kernel

theorem kept_none : CuesKept [] none (List.replicate Config.cueEntries 0) :=
  ⟨by decide, (fun _ h => nomatch h), (fun _ h => nomatch h), rfl⟩

theorem kept_one : CuesKept [seg] none (List.replicate Config.cueEntries 0) :=
  ⟨by decide, fun g h => by rw [List.mem_singleton.1 h]; decide, (fun _ h => nomatch h), rfl⟩

theorem bounded_up (l : LaneId) : (up.lane l).Bounded (up.window l) := by
  cases l <;> exact ⟨⟨MapFormed.empty (by decide), .none⟩, kept_none, by decide, by decide, trivial⟩

theorem bounded_playing (t : LaneState) (next : Nat) (g : GainState) (level : Nat) (h : level ≤ 128) :
    (playing t next g level up).laneA.Bounded (up.window .a) := by
  refine ⟨⟨⟨by decide +kernel, ?_, Nat.le_of_ble_eq_true rfl, fun y hy => ?_, ⟨rfl, rfl⟩, trivial,
    (show 40 + 0 = ahead 40 0 by decide)⟩, .none⟩, kept_one, Nat.zero_le _, h, trivial⟩
  · exact (show ahead 40 0 ≤ up.window .a by decide +kernel)
  · rw [List.mem_singleton.mp (show y ∈ [_] from hy)]
    exact ⟨Nat.succ_pos 39, rfl⟩

/-- A state of the part with an empty store, the default settings and no request waiting. -/
theorem inv_of {s : State} (hm : Memory.wf s.xm = true) (hs : s.store = []) (ht : s.applied = up.applied)
    (ha : s.laneA.Bounded (up.window .a)) (hb : s.laneB.Bounded (up.window .b)) (hq : s.loader.queue = [])
    (hf : s.overlap.within = []) : s.Inv := by
  have hw : ∀ l, s.window l = up.window l := fun l => by
    cases l <;> simp only [State.window, State.share, State.settings, ht]
  refine ⟨hm, by rw [hs]; exact List.Pairwise.nil, fun i h1 h2 => by rw [ht]; exact up_settings i (by omega) h1,
    by rw [hw]; exact ha, by rw [hw]; exact hb, ⟨?_, fun l => ?_⟩,
    by simp [hf]⟩
  · simp [Loader.cellRequests, hq]
  · simp [Loader.binds, hq]

/-! ### WellFormed refuses what no command can carry -/

theorem test_wellFormed_offset_odd : WellFormed (.hostXmRead 0x1001) = false := by decide
theorem test_wellFormed_read_area : WellFormed (.hostXmRead 0x1F00) = false := by decide
theorem test_wellFormed_write_low_half : WellFormed (.hostXmWriteLow 0x1002 0) = false := by decide
theorem test_wellFormed_write_low_area : WellFormed (.hostXmWriteLow 0x1F00 0) = false := by decide
theorem test_wellFormed_write_high_half : WellFormed (.hostXmWriteHigh 0x1004 0) = false := by decide
theorem test_wellFormed_write_high_area : WellFormed (.hostXmWriteHigh 0x1F02 0) = false := by decide
theorem test_wellFormed_control_reset_bit : WellFormed (.controlReset 0xFFFE) = false := by decide
theorem test_wellFormed_ignored_enable : WellFormed (.registerWriteIgnored 0x1F06 0) = false := by decide
theorem test_wellFormed_ignored_control : WellFormed (.registerWriteIgnored 0x1F0A 1) = false := by decide
theorem test_wellFormed_ignored_offset : WellFormed (.registerWriteIgnored 0x2000 0) = false := by decide
theorem test_wellFormed_block_runs :
    WellFormed (.block .t0 0 (.runs (List.replicate 9 (0, 1))) pairs) = false := by decide +kernel
theorem test_wellFormed_block_pairs : WellFormed (.block .t0 0 .overmarked [Pair.silent]) = false := by decide +kernel
theorem test_wellFormed_frame_check : WellFormed (.frameCheckError .t0 []) = false := by decide
theorem test_wellFormed_frame_kind : WellFormed (.frameKindInvalid .t0 []) = false := by decide
theorem test_wellFormed_link_idle : WellFormed (.linkIdleInFrame .t0 []) = false := by decide
theorem test_wellFormed_wait_place : WellFormed (.waitTimerExpiry 4) = false := by decide
theorem test_wellFormed_stop_lines : WellFormed (.mechanismStop true true) = false := by decide
theorem test_wellFormed_register_area : WellFormed (.hostRegisterRead 0x1EFE) = false := by decide
theorem test_wellFormed_register_space : WellFormed (.hostRegisterRead 0x2000) = false := by decide

/-! ### The checks of R211, over the bytes of "123456789" -/

/-- The nine bytes 0x31 to 0x39. -/
def nine : List Byte := [0x31, 0x32, 0x33, 0x34, 0x35, 0x36, 0x37, 0x38, 0x39]

theorem test_crc8 : frameCheck nine = 0xF4 := by decide +kernel
theorem test_crc16 : crc 16 0x1021 nine 0xFFFF = 0x29B1 := by decide +kernel
theorem test_crc32 : ~~~ BitVec.ofNat 32 (crc 32 0x04C11DB7 nine 0xFFFFFFFF) = 0xFC891918 := by decide +kernel

/-! ### Frames -/

theorem test_frame_seek :
    (DownFrame.seek { address := 0x012345, speed := .x4, steady := true }).bytes.take 6 =
      [0xA5, 0x81, 0x45, 0x23, 0x01, 0x06] := by decide +kernel
theorem test_frame_status : parsePayload 0x04 [0x03] = some (.status true true) := by decide
theorem test_frame_bad_reason : parsePayload 0x03 [0x03] = none := by decide

/-! ### Each statement's hypotheses are met: steps, host port, reset -/

theorem witness_StepRunsFrontCommand : { up with pending := [Instr.eject] }.pending = .eject :: [] := rfl
theorem witness_StepRunsFrontCommand_empty : up.pending = [] := rfl
theorem witness_StepKeepsInvariant :
    up.Inv ∧ step { up with pending := [.resetNAssert] } = .next { State.reset with
      pins := { up.pins with resetN := true, xmReady := false }, pending := [] } := by
  exact ⟨inv_of (by decide) rfl rfl (bounded_up .a) (bounded_up .b) rfl rfl, rfl⟩
theorem witness_StepKeepsInvariant_unmarked : up.Unmarked := fun l => by cases l <;> rfl
theorem witness_RecordsRewritten_loader : recordEvent (.stageEndTake true) = true ∧
    (after (.stageEndTake true) (moving .take up)).loaderFields ≠ (moving .take up).loaderFields := by decide +kernel
theorem witness_RecordsRewritten_transport : recordEvent (.status .t0 true true) = true ∧
    ((after (.status .t0 true true) up).tlc .a).fieldWords ≠ (up.tlc .a).fieldWords := by decide +kernel
theorem witness_RecordsRewritten_command : recordEvent (.pause .a) = true ∧
    (after (.pause .a) (asked .laneA 3 (inState .underrun up))).laneA.seq.refresh ≠ up.laneA.seq.refresh := by
  decide +kernel
theorem witness_RecordsRewritten_state :
    (after (.pause .a) (asked .laneA 3 (inState .underrun up))).laneA.seq.state ≠ .underrun := by decide +kernel
theorem witness_RecordsRewritten_advance : (playing .playing 588 .full 128 up).AdvanceDue .a :=
  ⟨rfl, rfl, by decide +kernel, block 588, rfl, rfl, rfl⟩
theorem witness_RecordsRewritten_initialisation : recordEvent .xmInitialisationDone = true ∧
    (after .xmInitialisationDone State.reset).loaderFields ≠ State.reset.loaderFields := by decide +kernel
theorem test_transportRecord : (after (.status .t0 true true) up).word 0x104 = 0x00020203 := by decide +kernel
theorem witness_PartEventFrame : partEvent (.audioPortFrame .b) = true := rfl

theorem witness_XmReads_low : xmOffset 0x1404 = true ∧ hostOffsetOk 0x1404 = true ∧ up.released = true ∧
    up.xmReached 0x1404 % 4 = 0 := by decide
theorem test_XmReads_window_end : xmOffset 0x0FFC = true ∧ hostOffsetOk 0x0FFC = true ∧
    { up with host := { up.host with page := 7 } }.xmReached 0x0FFC = 0x7FFC := by decide

/-- The port after a read of the low half of word 0x101. -/
def halfRead : State := { up with host := { up.host with readHold := some (0x101, 7) } }

theorem witness_XmReads_held : xmOffset 0x1406 = true ∧ hostOffsetOk 0x1406 = true ∧ halfRead.released = true ∧
    halfRead.xmReached 0x1406 % 4 = 2 ∧
    halfRead.host.readHold = some (halfRead.xmReached 0x1406 / 4, 7) := by decide
theorem witness_XmReads_other : xmOffset 0x1402 = true ∧ halfRead.released = true ∧
    halfRead.xmReached 0x1402 % 4 = 2 ∧ ∀ h, halfRead.host.readHold ≠ some (halfRead.xmReached 0x1402 / 4, h) := by
  refine ⟨by decide, by decide, by decide, fun h he => ?_⟩
  have : (0x101 : Nat) = halfRead.xmReached 0x1402 / 4 := congrArg Prod.fst (Option.some.inj he)
  revert this
  decide

/-- The part with a host access to fall after the first `n` words that are written next. -/
def overlapped (n : Nat) (s : State) : State :=
  { s with overlap := { s.overlap with within := [{ moment := { reads := 0, writes := n }, commit := none }] } }

/-- The state with host accesses directly behind the next event, each at its moment of it. -/
def accessed (l : List (Moment × Instr)) (s : State) : State :=
  { s with overlap := { s.overlap with schedule := l.map Prod.fst }, pending := l.map Prod.snd }

/-- A host commit of the high half of a word to an XM address of the page in the window. -/
def commitAt (a : Nat) (w : Word) : Instr := .hostXmWriteHigh (a % 4096 + 2) (w.extractLsb' 16 16)

/-- The host commits a word to an address directly behind the next event, at a moment of it. -/
def falls (a : Nat) (w : Word) (m : Moment) (s : State) : State :=
  accessed [(m, commitAt a w)] { s with host := { s.host with
    page := BitVec.ofNat 3 (a / 4096), writeHold := some (a / 4, w.extractLsb' 0 16) } }

theorem test_XmReads_between :
    (after (.hostXmRead 0x1C04) ((overlapped 1 up).setWords 0xC00 [1, 2, 3])).host.data = 0 ∧
    (after (.hostXmRead 0x1C00) ((overlapped 1 up).setWords 0xC00 [1, 2, 3])).host.data = 1 ∧
    (after (.hostXmRead 0x1C04) (up.setWords 0xC00 [1, 2, 3])).host.data = 2 := by decide +kernel

theorem witness_AccessesWithoutCommit_reset : hostOffsetOk 0x1FFE = true ∧ (after .resetNAssert up).pins.resetN = true ∧
    xmOffset 0x1FFE = false := by decide
theorem witness_AccessesWithoutCommit_read : hostOffsetOk 0x1EFE = true ∧ State.reset.released = false ∧
    xmOffset 0x1EFE = true := by decide
theorem witness_AccessesWithoutCommit_low : WellFormed (.hostXmWriteLow 0x1EFC 5) = true := by decide

/-- The port with the low half 9 of a word held. -/
def halfWritten (n : Nat) : State := { up with host := { up.host with writeHold := some (n, 9) } }

theorem witness_XmWriteHighCommits_held : WellFormed (.hostXmWriteHigh 0x1032 5) = true ∧ up.released = true ∧
    (∀ c, (halfWritten 12).xmReached 0x1032 / 4 * 4 ≠ cellOffset c) ∧
    (∀ w : NewsWord, (halfWritten 12).xmReached 0x1032 / 4 * 4 ≠ w.offset) ∧
    (halfWritten 12).CommitsLow 0x1032 9 :=
  ⟨by decide, by decide, fun c => by cases c <;> decide, fun w => by cases w <;> decide, Or.inl (by decide)⟩
theorem witness_XmWriteHighCommits_alone : WellFormed (.hostXmWriteHigh 0x1012 5) = true ∧
    (∀ c, up.xmReached 0x1012 / 4 * 4 ≠ cellOffset c) ∧ (∀ w : NewsWord, up.xmReached 0x1012 / 4 * 4 ≠ w.offset) ∧
    up.CommitsLow 0x1012 0 :=
  ⟨by decide, fun c => by cases c <;> decide, fun w => by cases w <;> decide,
    Or.inr ⟨fun _ h => (nomatch h), by decide +kernel⟩⟩
theorem test_XmWriteHighCommits_between :
    let s := (halfWritten 0x301).setWords 0xC00 [1, 2, 3]
    let t := after (.hostXmWriteHigh 0x1C06 5) ((overlapped 1 (halfWritten 0x301)).setWords 0xC00 [1, 2, 3])
    (after (.hostXmWriteHigh 0x1C06 5) s).word 0xC04 = 0x00050009 ∧ t.word 0xC04 = 2 ∧ t.hostWord 0xC04 = 0x00050009 := by
  decide +kernel
theorem witness_CommitRaisesAttention : WellFormed (.hostXmWriteHigh 0x100E 5) = true ∧
    (halfWritten 3).xmReached 0x100E / 4 * 4 = cellOffset .settings ∧ (halfWritten 3).CommitsLow 0x100E 9 :=
  ⟨by decide, by decide, Or.inl (by decide)⟩
theorem witness_CommitRaisesAttention_page : WellFormed (.hostXmWriteHigh 0x0006 5) = true ∧
    up.xmReached 0x0006 / 4 * 4 = cellOffset .laneB ∧ up.CommitsLow 0x0006 0 :=
  ⟨by decide, by decide, Or.inr ⟨fun _ h => (nomatch h), by decide +kernel⟩⟩
theorem test_CommitRaisesAttention :
    (after (.hostXmWriteHigh 0x100E 5) (halfWritten 3)).attention = { up.attention with settings := true } ∧
    (after (.hostXmWriteHigh 0x100E 5) (halfWritten 3)).cellWord .settings = 0x00050009 := by decide +kernel
theorem witness_CommitClearsNews : WellFormed (.hostXmWriteHigh 0x102A 5) = true ∧ up.released = true ∧
    (halfWritten 10).xmReached 0x102A / 4 * 4 = NewsWord.mech.offset ∧
    (halfWritten 10).host.writeHold = some (NewsWord.mech.offset / 4, 9) := by decide
theorem witness_CommitClearsNews_page : WellFormed (.hostXmWriteHigh 0x002E 5) = true ∧
    up.xmReached 0x002E / 4 * 4 = NewsWord.part.offset ∧ ∀ h, up.host.writeHold ≠ some (NewsWord.part.offset / 4, h) :=
  ⟨by decide, by decide, fun _ h => (nomatch h)⟩
theorem test_CommitClearsNews_high_alone :
    (after (.hostXmWriteHigh 0x002E 0xFFFF) (up.setWord 0x2C 0x00010003)).word 0x2C = 3 := by decide +kernel
theorem test_CommitClearsNews_sticky :
    (after (.hostXmWriteHigh 0x102A 0) { stopped ((halfWritten 10).setWord 0x28 0x0F) with
      host := { up.host with writeHold := some (10, 0xFFFF) } }).word 0x28 = 4 := by decide +kernel
theorem witness_AccessesWithoutCommit_high : WellFormed (.hostXmWriteHigh 0x0002 5) = true ∧
    State.reset.released = false := by decide
theorem witness_RegisterAccesses_ignored : WellFormed (.registerWriteIgnored 0x1F0A 0xFFFE) = true ∧
    WellFormed (.registerWriteIgnored 0x1F00 0) = true ∧ WellFormed (.registerWriteIgnored 0x1FFE 1) = true := by
  decide
theorem witness_RegisterAccesses_read : WellFormed (.hostRegisterRead 0x1F00) = true ∧
    WellFormed (.hostRegisterRead 0x1F0A) = true ∧ WellFormed (.hostRegisterRead 0x1FFE) = true ∧
    up.pins.resetN = false := by decide
theorem test_enableWrite : (after (.enableWrite 0xFFF5) up).host.enable = 5 := by decide
theorem test_pageWrite : (after (.pageWrite 0xFFFE) up).host.page = 6 := by decide
theorem witness_NewsDrivesAttn : ∃ t, exec (.hostXmRead 0x1000) up = .next t := ⟨_, rfl⟩
theorem test_attn : { up.setNews .part 2 with host := { up.host with enable := 8 } }.attnAsserted = true := by
  decide +kernel
theorem witness_ResetEnteredAndReleased : (0x0001 : Half).getLsbD 0 = true ∧ up.pins.resetN = false ∧
    (after .resetNAssert up).pins.resetN = true := by decide
theorem witness_InitialisationEnds_good : (up.enterReset false).linesGood = true := by decide
theorem witness_InitialisationEnds_bad :
    ({ up with pins := { up.pins with flapClosed := false } }.enterReset false).linesGood = false := by decide
theorem test_initialised : (after .xmInitialisationDone State.reset).word 0x400 = 0 ∧
    (after .xmInitialisationDone State.reset).word 0x180 = 1 := by decide +kernel

/-! ### Attention and lane commands -/

theorem witness_CellsWithoutCommand_empty : (asked .mech 0 up).released = true ∧
    (asked .mech 0 up).attentionOf .mech = true ∧ (asked .mech 0 up).cellWord .mech = 0 := by decide +kernel
theorem witness_CellsWithoutCommand_unknown : (asked .laneB 0x21 up).attentionOf .laneB = true ∧
    (asked .laneB 0x21 up).cellWord .laneB ≠ 0 ∧ (asked .laneB 0x21 up).cellCode .laneB ∉ cellCodes .laneB := by
  decide +kernel
theorem test_unknownCommand : (after (.unknownCommand .laneB) (asked .laneB 0x21 up)).word 0x14 = 0x0521 := by
  decide +kernel
theorem witness_LaneCommandsRefused_state : (Instr.pause .a, 0x03, [LaneState.playing, .underrun]) ∈ laneCommands .a ∧
    (asked .laneA 3 up).attends (laneCell .a) 3 = true ∧
    ((asked .laneA 3 up).lane .a).seq.state ∉ [LaneState.playing, .underrun] := by decide +kernel
theorem witness_LaneCommandsRefused_disabled :
    (asked .laneA 2 { inState .playing up with applied := .ofList [] }).share .a = 0 ∧
    (asked .laneA 2 { inState .playing up with applied := .ofList [] }).attends (laneCell .a) 2 = true := by
  decide +kernel
theorem witness_LaneCommandsRefused_entry : (asked .laneA 0x00001801 up).attends (laneCell .a) codeStart = true ∧
    (asked .laneA 0x00001801 up).share .a ≠ 0 ∧ 23 < (asked .laneA 0x00001801 up).cellArg1 (laneCell .a) := by
  decide +kernel
theorem witness_LaneCommandsRefused_unarmed :
    ((asked .laneA 0x00001701 up).taking (laneCell .a)).armed .a ((asked .laneA 0x00001701 up).cellArg1 (laneCell .a)) = false := by
  decide +kernel
theorem witness_LaneCommandsRefused_mode : 1 < (asked .laneA 0x00020001 up).cellArg2 (laneCell .a) := by decide +kernel

/-- Lane A's entry 23 ARMED for the disc of slot 2, and START(23, CYCLE) placed. -/
def starting (t : LaneState) : State :=
  asked .laneA 0x00011701 (((slots [(1, disc (some 2)), (6, .absent)] (inState t up)).setWord (cueOffset .a 23)
    1).setWord (cueOffset .a 23 + 4) 0x0102)

theorem witness_StartTaken : (starting .starved).attends (laneCell .a) codeStart = true ∧
    (starting .starved).share .a ≠ 0 ∧ (starting .starved).laneA.seq.state = .starved ∧
    (starting .starved).cellArg1 (laneCell .a) ≤ 23 ∧
    ((starting .starved).taking (laneCell .a)).armed .a ((starting .starved).cellArg1 (laneCell .a)) = true ∧
    (starting .starved).cellArg2 (laneCell .a) ≤ 1 := by decide +kernel

/-- The same with the loader controller busy, the entry's first host word and T0's controller as given. -/
def startingAt (host : Word) (tray : SlotEntry) (t : TlcState) : State :=
  sensing 0 (tlcIn t (slots [(6, tray)] ((starting .idle).setWord (cueOffset .a 23 + 4) host)))

/-- The cue that START takes. -/
def started (host : Word) (tray : SlotEntry) (t : TlcState) : TakenCue :=
  (((startingAt host tray t).taking (laneCell .a)).countReads 1).readCue .a 23

/-- A disc of slot 2 with one track. -/
def oneTrack : SlotEntry :=
  { occupancy := .yes, toc := some { starts := [1000], leadOut := 2000, fingerprint := 0 }, home := some 2 }

theorem witness_StartTaken_fate (host : Word) (tray : SlotEntry) (t : TlcState) :
    (startingAt host tray t).LoaderBusy ∧ (startingAt host tray t).Unmarked ∧
      (startingAt host tray t).laneA.seq.bind = none ∧ (startingAt host tray t).overlap.schedule = [] ∧
      (startingAt host tray t).slot (trayOf .a) = tray ∧ (startingAt host tray t).loader.binds .a = 0 :=
  ⟨⟨nofun, nofun, nofun⟩, fun l => by cases l <;> rfl, rfl, rfl, rfl, rfl⟩
theorem witness_StartTaken_inv : (startingAt 0x0107 .absent .ready).Inv ∧ (startingAt 0x0102 oneTrack .ready).Inv ∧
    (startingAt 0x0202 oneTrack .ready).Inv :=
  ⟨inv_of (by decide +kernel) rfl rfl (bounded_up .a) (bounded_up .b) rfl rfl,
    inv_of (by decide +kernel) rfl rfl (bounded_up .a) (bounded_up .b) rfl rfl,
    inv_of (by decide +kernel) rfl rfl (bounded_up .a) (bounded_up .b) rfl rfl⟩
theorem witness_StartTaken_structural : ((startingAt 0x0107 .absent .ready).taking (laneCell .a)).armed .a 23 = true ∧
    (((startingAt 0x0107 .absent .ready).taking (laneCell .a)).countReads 4).armed .a 23 = true ∧
    6 < (started 0x0107 .absent .ready).slot ∧ 99 < (started 0x6402 .absent .ready).track ∧
    (started 2 .absent .ready).track = 0 ∧ (started 2 .absent .ready).stop ≤ (started 2 .absent .ready).start ∧
    (started 0x0100 .absent .ready).slot = 0 ∧ SlotEntry.absent.occupancy = .no := by decide +kernel
theorem witness_StartTaken_found : (started 0x0102 oneTrack .ready).slot ≤ 6 ∧
    (started 0x0102 oneTrack .ready).track = 1 ∧ oneTrack.home = some (started 0x0102 oneTrack .ready).slot ∧
    SlotEntry.unknown.occupancy = .unknown ∧ TlcState.usable .ready = true ∧ TlcState.usable .toc = false ∧
    oneTrack.toc.map (resolve · (started 0x0102 oneTrack .ready)) = some (some (1000, 2000)) ∧
    oneTrack.toc.map (resolve · (started 0x0202 oneTrack .ready)) = some none ∧
    ¬(SlotEntry.absent.occupancy = .yes ∧ SlotEntry.absent.home = some (started 0x0102 .absent .ready).slot) := by
  decide +kernel
theorem test_startFates : (after (.start .a) (startingAt 0x0107 .absent .ready)).word 0x12E0 = 0x0701 ∧
    (after (.start .a) (startingAt 0x0102 oneTrack .ready)).laneA.seq.segments.map Segment.first = [1000] ∧
    (after (.start .a) (startingAt 0x0202 oneTrack .ready)).word 0x12E0 = 0x0701 := by decide +kernel
theorem test_start : (after (.start .a) (starting .idle)).laneA.seq.state = .binding ∧
    (after (.start .a) (starting .idle)).word 0x10 = 0x00010101 ∧
    (after (.start .a) (starting .idle)).laneA.seq.bind = some { tag := 1, slot := 2, moving := true } := by
  decide +kernel

theorem witness_StopTaken : (asked .laneA 2 (playing .playing 0 .full 128 up)).attends (laneCell .a) codeStop = true ∧
    (asked .laneA 2 (playing .playing 0 .full 128 up)).share .a ≠ 0 ∧
    (asked .laneA 2 (playing .playing 0 .full 128 up)).laneA.seq.state = .playing := by decide +kernel
theorem witness_StopTaken_stopping : (asked .laneA 2 (inState .stopping up)).laneA.seq.state = .stopping ∧
    (asked .laneA 2 (inState .stopping up)).laneA.Settled := by
  refine ⟨by decide +kernel, ?_⟩
  unfold Lane.Settled
  decide +kernel
theorem test_stop : (after (.stop .a) (asked .laneA 2 (playing .playing 0 .full 128 up))).laneA.seq.state = .stopping ∧
    (after (.stop .a) (asked .laneA 2 (playing .paused 0 .silent 0 up))).laneA.seq.state = .idle := by decide +kernel

/-- Lane A PLAYING one cue of entry 0, ARMED, and STOP placed. -/
def retiring (n : Word) : State := (asked .laneA 2 (playing .playing 0 .full 128 up)).setWord (cueOffset .a 0) n

theorem witness_CueRetired : (retiring 1).attends (laneCell .a) codeStop = true ∧ (retiring 1).share .a ≠ 0 ∧
    (retiring 1).laneA.seq.cues = [cue] ∧
    ((retiring 1).taking (laneCell .a)).armed .a cue.entry = true ∧
    ((retiring 0).taking (laneCell .a)).armed .a cue.entry = false := by decide +kernel
theorem witness_CueRetired_inv : (retiring 1).Inv ∧ (retiring 0).Inv :=
  ⟨inv_of (by decide +kernel) rfl rfl (bounded_playing _ _ _ _ (by decide)) (bounded_up .b) rfl rfl,
    inv_of (by decide +kernel) rfl rfl (bounded_playing _ _ _ _ (by decide)) (bounded_up .b) rfl rfl⟩
theorem test_retire : (after (.stop .a) (retiring 1)).word 0x1000 = 0x0300 ∧
    (after (.stop .a) (retiring 1)).word 0x1010 = 1 ∧ (after (.stop .a) (retiring 0)).word 0x1010 = 0 := by
  decide +kernel

/-- The host FREEs entry 0, after so many words that the STOP reads. -/
def freed (k : Nat) : State := falls 0x1000 0x0500 { reads := k, writes := 0 } (retiring 1)

/-- What XM holds at an address after the STOP and the commit. -/
def stopThenCommit (a w : Nat) (s : State) (b : Nat) : Word :=
  (after (commitAt a (BitVec.ofNat 32 w)) (after (.stop .a) s)).word b

theorem witness_CueRetired_within : ((freed 0).taking .laneA).armed .a 0 = false ∧
    ((freed 1).taking .laneA).armed .a 0 = true ∧ ((retiring 1).taking .laneA).armed .a 0 = true ∧
    ((retiring 0).taking .laneA).armed .a 0 = false := by decide +kernel
theorem witness_CueRetired_within_inv : (freed 1).Inv :=
  inv_of (by decide +kernel) rfl rfl (bounded_playing _ _ _ _ (by decide)) (bounded_up .b) rfl rfl
theorem test_retire_within : stopThenCommit 0x1000 0x0500 (freed 0) 0x1000 = 0x0500 ∧
    stopThenCommit 0x1000 0x0500 (freed 0) 0x1010 = 0 ∧ stopThenCommit 0x1000 0x0500 (freed 1) 0x1000 = 0x0300 ∧
    stopThenCommit 0x1000 0x0500 (freed 2) 0x1000 = 0x0500 ∧ stopThenCommit 0x1000 0x0500 (freed 2) 0x1010 = 1 := by
  decide +kernel

/-- The host commits 0x77 to entry 0's passes word, after so many words that the STOP reads, and writes after the last of
them. -/
def counted (k n : Nat) : State := falls 0x1010 0x77 { reads := k, writes := n } (retiring 1)

theorem test_retire_result_within : stopThenCommit 0x1010 0x77 (counted 1 0) 0x1010 = 1 ∧
    stopThenCommit 0x1010 0x77 (counted 1 1) 0x1010 = 0x77 := by decide +kernel

/-- Lane A PLAYING the cue of entry 0, ARMED, in ONCE, entry 1 FREE, its cue one of any disc; SKIP placed, and behind it the
host reads the passes and the state of entry 0, then ARMs entry 1, the first read at its moment and the rest at theirs. -/
def handshake (m n : Moment) : State :=
  let s := asked .laneA 5 (((playing .playing 0 .full 128 up).setWord 0x1000 1).setWord 0x1024 0x0100)
  accessed [(m, .hostXmRead 0x010), (n, .hostXmRead 0x000), (n, .hostXmWriteLow 0x020 1), (n, .hostXmWriteHigh 0x022 0)]
    { s with host := { s.host with page := 1 } }

/-- The SKIP reads entry 0's state, writes its four result words and its first word, sets CUE_DONE and reads entry 1's
state. The host finds the result words new and the state word old, and ARMs entry 1 before the walk's read, which takes it.
-/
theorem test_walk_within :
    let t := after (.skip .a) (handshake { reads := 1, writes := 4 } { reads := 1, writes := 4 })
    let r := after (.hostXmRead 0x010) t
    let q := after (.hostXmRead 0x000) r
    let w := after (.hostXmWriteHigh 0x022 0) (after (.hostXmWriteLow 0x020 1) q)
    t.laneA.seq.pendingCue.map TakenCue.entry = some 1 ∧ t.laneA.seq.state = .binding ∧
    t.word 0x1000 = 0x0300 ∧ r.host.data = 1 ∧ q.host.data = 1 ∧ w.word 0x1020 = 1 ∧ w.hostWord 0x1000 = 1 := by
  decide +kernel

/-- The same with the host's accesses after the event. -/
theorem test_walk_after :
    let t := after (.skip .a) (handshake { reads := 3, writes := 0 } { reads := 3, writes := 0 })
    t.laneA.seq.state = .starved ∧ (after (.hostXmRead 0x000) (after (.hostXmRead 0x010) t)).host.data = 0x0300 := by
  decide +kernel

theorem witness_PauseTaken : (asked .laneA 3 (playing .playing 587 .full 128 up)).attends (laneCell .a) codePause = true ∧
    (asked .laneA 3 (playing .playing 587 .full 128 up)).laneA.seq.bind = none ∧
    (asked .laneA 3 (playing .playing 587 .full 128 up)).laneA.seq.reRequest = false ∧
    (asked .laneA 3 (playing .playing 587 .full 128 up)).laneA.plu.block = some (block 587) := by decide +kernel
theorem test_pause : (after (.pause .a) (asked .laneA 3 (playing .playing 587 .full 128 up))).laneA.plu.fall =
    .short 128 1 0 ∧ (after (.pause .a) (asked .laneA 3 (playing .playing 588 .full 128 up))).laneA.plu.gain = .silent := by
  decide +kernel

/-- Lane A PLAYING with a loss episode open, LOSS clear, and PAUSE placed. -/
def losing : State :=
  asked .laneA 3 (withPlu (fun u => { u with
    episode := some { first := 5, address := 1005, blocks := 1, muted := 588, cause := .gap } })
    (playing .playing 0 .full 128 up))

/-- The same with LOSS set and a host clear of it at a moment of the PAUSE. -/
def lossCleared (m : Moment) : State := falls 0x20 lossBit m (losing.setWord 0x20 lossBit)

theorem test_loss_within :
    (after (.hostXmRead 0x1020) (after (.pause .a) (accessed [({ reads := 1, writes := 1 }, .hostXmRead 0x1020)]
      losing))).host.data = 0 ∧ (after (.pause .a) losing).word 0x20 &&& lossBit = lossBit ∧
    (after (.pause .a) (lossCleared { reads := 0, writes := 0 })).laneA.plu.note.overwritten = 0 ∧
    (after (.pause .a) (lossCleared { reads := 1, writes := 0 })).laneA.plu.note.overwritten = 1 ∧
    (after (commitAt 0x20 lossBit) (after (.pause .a) (lossCleared { reads := 1, writes := 0 }))).word 0x20 &&& lossBit =
      lossBit ∧
    (after (commitAt 0x20 lossBit) (after (.pause .a) (lossCleared { reads := 2, writes := 0 }))).word 0x20 &&& lossBit = 0 := by
  decide +kernel

theorem witness_GoTaken : (asked .laneA 4 (playing .paused 587 .silent 0 up)).attends (laneCell .a) codeGo = true ∧
    (asked .laneA 4 (playing .paused 587 .silent 0 up)).laneA.seq.state = .paused ∧
    (asked .laneA 4 (playing .paused 587 .silent 0 up)).laneA.Settled ∧
    (asked .laneA 4 (playing .paused 587 .silent 0 up)).laneA.plu.block = some (block 587) ∧
    (block 587).position = (asked .laneA 4 (playing .paused 587 .silent 0 up)).laneA.p ∧
    (block 587).next + (asked .laneA 4 (playing .paused 587 .silent 0 up)).laneA.plu.fallLeft < 588 := by
  refine ⟨by decide +kernel, by decide +kernel, ?_, by decide +kernel, by decide +kernel, by decide +kernel⟩
  unfold Lane.Settled
  decide +kernel
theorem test_go : (after (.go .a) (asked .laneA 4 (playing .paused 587 .silent 0 up))).laneA.plu.gain = .rising ∧
    (after (.go .a) (asked .laneA 4 (playing .paused 588 .silent 0 up))).laneA.p = 1 := by decide +kernel

/-- Lane A playing the first of two segments, f inside the second. -/
def twoSegments : State :=
  (playing .playing 0 .full 128 up).updLane .a fun x => { x with
    f := 1000, seq := { x.seq with segments := [seg, seg2] } }

theorem witness_SkipTaken_next : (asked .laneA 5 twoSegments).attends (laneCell .a) codeSkip = true ∧
    (asked .laneA 5 twoSegments).laneA.skipped = some seg ∧
    segmentAfter (asked .laneA 5 twoSegments).laneA.seq.segments seg = some seg2 ∧
    (asked .laneA 5 twoSegments).laneA.seq.mark = none ∧
    ahead seg2.base (asked .laneA 5 twoSegments).laneA.p ≤ (asked .laneA 5 twoSegments).laneA.bufferedLead := by
  decide +kernel
theorem witness_RecordsRewritten_skip : (asked .laneA 5 twoSegments).SkipAdmitted .a :=
  ⟨by decide +kernel, by decide +kernel, Or.inl rfl⟩
theorem witness_SkipTaken_last : (asked .laneA 5 (playing .held 0 .silent 0 up)).laneA.skipped = some seg ∧
    segmentAfter (asked .laneA 5 (playing .held 0 .silent 0 up)).laneA.seq.segments seg = none := by decide +kernel
theorem test_skip : (after (.skip .a) (asked .laneA 5 twoSegments)).laneA.p = 1000 ∧
    (after (.skip .a) (asked .laneA 5 (playing .held 0 .silent 0 up))).laneA.p = 40 := by decide +kernel

/-! ### Mechanism and settings commands -/

/-- The loader at rest: discs in slots 1 to 6 as listed, FRONT and the trays as listed, a command in the MECH cell. -/
def mech (w : Word) (es : List (Loc × SlotEntry)) : State := asked .mech w (slots es up)

/-- Two requests of the mechanism cell wait. -/
def full (s : State) : State := ldr (fun d => { d with queue := [waiting, waiting] }) s

theorem witness_MechanismRequestsTaken_eject :
    let s := mech 0x0711 [(7, disc none), (9, .absent)]
    s.loader.cellRequests < 2 ∧ s.attends .mech codeEject = true ∧ s.cellArg1 .mech ≤ 7 ∧ s.loaderClosed = false ∧
      (s.slot (locOf (s.cellArg1 .mech))).occupancy = .yes ∧ (s.slot frontLoc).occupancy = .no ∧
      ∀ l, s.cellArg1 .mech = (trayOf l).val → s.laneAtRest l = true := by
  refine ⟨by decide +kernel, by decide +kernel, by decide +kernel, by decide +kernel, by decide +kernel,
    by decide +kernel, fun l _ => ?_⟩
  cases l <;> decide +kernel
theorem witness_MechanismRequestsTaken_insert :
    let s := mech 0x0612 [(9, disc none), (5, .absent)]
    s.attends .mech codeInsert = true ∧ 1 ≤ s.cellArg1 .mech ∧ s.cellArg1 .mech ≤ 6 ∧ s.loaderClosed = false ∧
      (s.slot frontLoc).occupancy = .yes ∧ (s.slot (slotLoc (s.cellArg1 .mech))).occupancy = .no := by decide +kernel
theorem witness_MechanismRequestsTaken_rescan :
    (mech 0x0013 []).loader.cellRequests < 2 ∧ (mech 0x0013 []).attends .mech codeRescan = true := by decide +kernel
theorem test_eject : (after .eject (mech 0x0711 [(7, disc none), (9, .absent)])).loader.state = .moving ∧
    (after .eject (mech 0x0711 [(7, disc none), (9, .absent)])).tlc1.sent = [.spin false] := by decide +kernel
theorem test_insert : (after .insert (mech 0x0612 [(9, disc none), (5, .absent)])).loader.commands = [.take 9] := by
  decide +kernel
theorem test_rescan : (after .rescan (mech 0x0013 [])).loader.commands = [.sense 0] := by decide +kernel

theorem witness_MechanismRequestsRefused_argument : 7 < (mech 0x0811 []).cellArg1 .mech ∧
    (mech 0x0811 []).attends .mech codeEject = true ∧ (mech 0x0012 []).cellArg1 .mech = 0 ∧
    (mech 0x0012 []).attends .mech codeInsert = true ∧ 6 < (mech 0x0712 []).cellArg1 .mech := by decide +kernel
theorem witness_MechanismRequestsRefused_state :
    (mech 0x0711 []).cellArg1 .mech ≤ 7 ∧ ((mech 0x0711 []).slot (locOf ((mech 0x0711 []).cellArg1 .mech))).occupancy ≠
      .yes ∧ (stopped (mech 0x0112 [])).loaderClosed = true := by decide +kernel
theorem witness_MechanismRequestsRefused_lane :
    (mech 0x0611 []).cellArg1 .mech = (trayOf .a).val ∧
    (inState .held (mech 0x0611 [])).laneAtRest .a = false := by decide +kernel
theorem witness_MechanismRequestsRefused_eject_busy :
    let s := full (mech 0x0011 [(0, disc (some 1)), (9, .absent)])
    s.attends .mech codeEject = true ∧ s.cellArg1 .mech ≤ 7 ∧ s.loaderClosed = false ∧
      (s.slot (locOf (s.cellArg1 .mech))).occupancy = .yes ∧ (s.slot frontLoc).occupancy = .no ∧
      (∀ l, s.cellArg1 .mech = (trayOf l).val → s.laneAtRest l = true) ∧ 2 ≤ s.loader.cellRequests := by
  refine ⟨by decide +kernel, by decide +kernel, by decide +kernel, by decide +kernel, by decide +kernel,
    fun l _ => ?_, by decide +kernel⟩
  cases l <;> decide +kernel
theorem witness_MechanismRequestsRefused_insert_busy :
    let s := full (mech 0x0112 [(9, disc none), (0, .absent)])
    s.attends .mech codeInsert = true ∧ 1 ≤ s.cellArg1 .mech ∧ s.cellArg1 .mech ≤ 6 ∧ s.loaderClosed = false ∧
      (s.slot frontLoc).occupancy = .yes ∧ (s.slot (slotLoc (s.cellArg1 .mech))).occupancy = .no ∧
      2 ≤ s.loader.cellRequests := by decide +kernel
theorem witness_MechanismRequestsRefused_rescan_busy : (full (mech 0x0013 [])).attends .mech codeRescan = true ∧
    2 ≤ (full (mech 0x0013 [])).loader.cellRequests := by decide +kernel

theorem witness_ReviveTakenAndRefused_refused : (mech 0x0214 []).attends .mech codeRevive = true ∧
    1 < (mech 0x0214 []).cellArg1 .mech ∧ (mech 0x0114 []).attends .mech codeRevive = true ∧
    (mech 0x0114 []).cellArg1 .mech = 1 ∧ (mech 0x0114 []).tlc1.state ≠ .offline := by decide +kernel
theorem witness_ReviveTakenAndRefused_taken :
    (tlcIn .offline (sensing 3 (mech 0x0014 []))).attends .mech codeRevive = true ∧
    (tlcIn .offline (sensing 3 (mech 0x0014 []))).cellArg1 .mech = 0 ∧
    (tlcIn .offline (sensing 3 (mech 0x0014 []))).tlc0.state = .offline ∧
    (tlcIn .offline (sensing 3 (mech 0x0014 []))).tlc0.mechStopped = false ∧
    (tlcIn .offline (sensing 3 (mech 0x0014 []))).LoaderBusy := by
  refine ⟨by decide +kernel, by decide +kernel, by decide +kernel, by decide +kernel, ?_⟩
  unfold State.LoaderBusy
  decide +kernel
theorem test_revive : (after .revive (tlcIn .offline (mech 0x0014 []))).tlc0.sent = [.reset] := by decide +kernel

/-- APPLY of a settings block whose share A is the least with its other fields fitting it. -/
def applying (t : LaneState) : State :=
  asked .settings 0x21 (settingsAre
    ([256, 1, 8, 8, 6, 45, 100, 32, 16, 1, 1, 0, 0] ++ [2816, 4, 38, 38, 6, 45, 768, 384, 150, 3, 8, 150, 75] ++
      [100, 20, 1, 254, 60]) (inState t (up.updTlc .a fun u => { u with violation := 3 })))

theorem witness_ApplyTaken : (applying .idle).attends .settings codeApply = true ∧
    (∀ i, i < 31 → fieldOk (.ofList ((applying .idle).taking .settings).settingsBlock) (i + 1) = true) ∧
    (applying .idle).laneA.seq.state = .idle ∧ (applying .idle).laneB.seq.state = .idle := by decide +kernel
theorem test_apply : (after .apply (applying .idle)).share .b = 2816 ∧
    (after .apply (applying .idle)).word 0x1C = 0x00010121 ∧
    (after .apply (applying .idle)).tlc0.violation = 0 := by decide +kernel
theorem witness_ApplyRefused_state : (applying .starved).attends .settings codeApply = true ∧
    (∀ i, i < 31 → fieldOk (.ofList ((applying .starved).taking .settings).settingsBlock) (i + 1) = true) ∧
    (applying .starved).laneA.seq.state ≠ .idle ∧
    (Settings.ofList ((applying .starved).taking .settings).settingsBlock).laneA.share ≠ (applying .starved).share .a := by
  decide +kernel
/-- APPLY with a host commit to the first setting, or of a second APPLY to its cell, at a moment of it. -/
def applyWithin (a : Nat) (w : Word) (n : Nat) : State := falls a w { reads := n, writes := 0 } (applying .starved)

theorem test_apply_within : ((applyWithin 0xC00 257 0).taking .settings).settingsBlock.head? = some 257 ∧
    ((applyWithin 0xC00 257 1).taking .settings).settingsBlock.head? = some 256 ∧
    (after .apply (applyWithin 0xC00 257 0)).word 0x1C = 0x00010321 ∧
    (after .apply (applyWithin 0xC00 257 1)).word 0x1C = 0x00010221 := by decide +kernel
theorem test_cell_within : let t := after (commitAt 0xC 0x21) (after .apply (applyWithin 0xC 0x21 0))
    t.cellWord .settings = 0x21 ∧ t.attention.settings = true ∧ t.word 0x1C = 0x00010221 := by decide +kernel
theorem witness_ApplyRefused_share_b :
    let s := asked .settings 0x21 (settingsAre (Config.defaultSettings.set 13 0) (inState .held up))
    (∀ i, i < 31 → fieldOk (.ofList (s.taking .settings).settingsBlock) (i + 1) = true) ∧
    (Settings.ofList (s.taking .settings).settingsBlock).laneA.share = s.share .a ∧
    (Settings.ofList (s.taking .settings).settingsBlock).laneB.share ≠ s.share .b := by decide +kernel
theorem witness_ApplyRefused_argument :
    let s := asked .settings 0x21 (settingsAre (Config.defaultSettings.set 30 61) up)
    fieldOk (.ofList (s.taking .settings).settingsBlock) 31 = false ∧
    ∀ j, j < 30 → fieldOk (.ofList (s.taking .settings).settingsBlock) (j + 1) = true := by decide +kernel
theorem witness_ApplyRefused_first_field :
    fieldOk (.ofList ((asked .settings 0x21 (settingsAre [257] up)).taking .settings).settingsBlock) 1 = false := by
  decide +kernel

/-! ### Transport links -/

theorem witness_StrayBlockCounted : WellFormed (.block .t1 5 .overmarked pairs) = true ∧ up.released = true ∧
    up.laneB.run.state ≠ .opened ∧ up.lateArrival .b 5 = false := by decide +kernel
theorem test_stray : (after (.block .t1 5 .overmarked pairs) up).laneB.count.strays = 1 := by decide +kernel
theorem witness_StrayBlockCounted_rest : up.AtRest ∧ up.ReadingClosed .b := by
  unfold State.AtRest State.ReadingClosed
  decide +kernel

/-- Lane A's reading state, with copies of a position and a mark set in the store. -/
def stored (i : Index) (m : MarkSet) : State := (reading up).firstWrite .a i (1000 + i.toNat) m pairs

/-- A span of 10 positions of a condition. -/
def tail (n : Nat) (c : Condition) : Span :=
  { first := BitVec.ofNat 32 n, count := 10, seg := seg.ref, cond := c, repair := repairOf c none }

/-- Lane A's reading state with n positions GOOD and 10 more of a condition. -/
def tailFrom (n : Nat) (c : Condition) : State :=
  (reading up).updLane .a fun x => { x with
    f := BitVec.ofNat 32 (n + 10)
    spans := [{ first := 0, count := n, seg := seg.ref, cond := .good, repair := none }, tail n c] }

/-- Lane A's reading state with positions 30 to 39 of a condition. -/
def tailIs (c : Condition) : State := tailFrom 30 c

/-- The same with the tail under repair, by an OPEN REPAIR run. -/
def repairing (n : Nat) (c : Condition) : State :=
  (tailFrom n c).updLane .a fun x => { x with
    spans := x.spans.map fun y => if y.cond = c then y.setActive true else y
    run := { x.run with kind := .repair, target := BitVec.ofNat 32 n, targetSeg := some seg.ref }
    rsc := { x.rsc with
      mode := .repair
      target := some { first := BitVec.ofNat 32 n, last := BitVec.ofNat 32 (n + 9), seg := seg.ref }
      attempt := some { number := 1, speed := .x2, steady := false } } }

theorem witness_Inv_reading : (reading up).Inv :=
  inv_of (by decide +kernel) rfl rfl (bounded_playing .playing 0 .full 128 (by decide)) (bounded_up .b) rfl
    rfl
theorem witness_Inv_stored : (stored 10 0xF0).Inv :=
  { witness_Inv_reading with
    memory := by decide +kernel
    cells := List.pairwise_singleton _ _
    settings := fun i h1 h2 => up_settings i (by omega) h1 }
theorem witness_Inv_tailFrom (n : Nat) (c : Condition) (hn : 0 < n) (hm : n < 1000) (h : c ≠ .good) :
    (tailFrom n c).Inv := by
  have hl : ahead (BitVec.ofNat 32 (n + 10)) 0 = n + 10 := by
    simp [ahead, BitVec.toNat_ofNat]
    omega
  refine { witness_Inv_reading with
    laneA := ⟨⟨{ witness_Inv_reading.laneA.1.form with
      lead := ?_
      few := show 2 ≤ 32 by decide
      filled := fun y hy => ?_
      cover := ⟨rfl, ?_, ?_⟩
      apart := ⟨?_, trivial⟩
      total := show n + (10 + 0) = _ from hl.symm }, .none⟩, witness_Inv_reading.laneA.2⟩ }
  · rw [show (tailFrom n c).laneA.f = BitVec.ofNat 32 (n + 10) from rfl, show (tailFrom n c).laneA.p = 0 from rfl, hl]
    exact Nat.le_trans (show n + 10 ≤ 1534 by omega) (show 1534 ≤ up.window .a by decide +kernel)
  · rcases List.mem_cons.mp (show y ∈ [_, _] from hy) with rfl | hy
    · exact ⟨hn, rfl⟩
    · rw [List.mem_singleton.mp hy]
      exact ⟨Nat.succ_pos 9, by cases c <;> rfl⟩
  · show BitVec.ofNat 32 n = plus 0 n
    simp [plus]
  · show plus (plus 0 n) 10 = BitVec.ofNat 32 (n + 10)
    simp [plus, BitVec.ofNat_add]
  · cases c <;> first | rfl | exact absurd rfl h
theorem witness_Inv_tailIs (c : Condition) (h : c ≠ .good) : (tailIs c).Inv :=
  witness_Inv_tailFrom 30 c (by decide) (by decide) h
theorem witness_JudgesOnArrival_tailIs (c : Condition) : (tailIs c).JudgesOnArrival .a ∧ (tailIs c).laneA.Settled ∧
    (stored 10 0xF0).JudgesOnArrival .a ∧ (stored 10 0xF0).laneA.Settled := by
  unfold State.JudgesOnArrival Lane.Settled
  cases c <;> decide +kernel
theorem witness_JudgesOnArrival : (reading up).JudgesOnArrival .a ∧ (reading up).laneA.Settled ∧
    (reading up).laneA.run.kind = .fill := by
  unfold State.JudgesOnArrival Lane.Settled
  decide +kernel
theorem witness_BlockAtFillAppended : WellFormed (.block .t0 1040 (.runs []) pairs) = true ∧
    (reading up).laneA.mapArrival 1040 = some (seg.ref, (reading up).laneA.f) ∧
    (reading up).laneA.bufferedLead < 0x80000000 ∧ (reading up).laneA.bufferedLead ≠ (reading up).share .a - 2 ∧
    (reading up).laneA.append seg.ref (copyClass ((reading up).settings .a).interpLimit (some 0)) ≠ none ∧
    MarkReport.marks (.runs []) = some 0 ∧ (reading up).canAssign .a 40 = true := by decide +kernel
theorem test_block : (after (.block .t0 1040 (.runs [(3, 9)]) pairs) (reading up)).laneA.spans.map Span.cond =
    [.good, .weak] ∧ (after (.block .t0 1040 .overmarked pairs) (reading up)).laneA.spans.map Span.cond =
    [.good, .hole] := by decide +kernel
theorem witness_repairRun : (repairing 30 .hole).JudgesOnArrival .a ∧ (repairing 30 .hole).laneA.Settled ∧
    (repairing 30 .hole).laneA.mapArrival 1039 = some (seg.ref, 39) ∧ (repairing 30 .hole).laneA.EndsAttemptAt 39 ∧
    ¬(repairing 30 .hole).laneA.EndsAttemptAt 38 := by
  refine ⟨?_, ?_, by decide +kernel, ⟨rfl, rfl, _, rfl, by decide⟩, fun h => ?_⟩
  · unfold State.JudgesOnArrival
    decide +kernel
  · unfold Lane.Settled
    decide +kernel
  · obtain ⟨-, -, t, ht, hb⟩ := h
    cases ht
    exact absurd hb (by decide)
theorem witness_BlockAheadKept : WellFormed (.block .t0 1045 (.runs []) pairs) = true ∧
    (reading up).laneA.mapArrival 1045 = some (seg.ref, 45) ∧ before 45 (reading up).laneA.p = false ∧
    before (reading up).laneA.f 45 = true ∧ ahead 45 (reading up).laneA.f ≤ ((reading up).settings .a).keepLimit ∧
    ahead 45 (reading up).laneA.p ≤ (reading up).share .a - 3 ∧
    ((reading up).laneA.segmentAt (reading up).laneA.f).map Segment.base = some seg.ref.base ∧
    (reading up).laneA.aheadHole seg.ref 45 (copyClass ((reading up).settings .a).interpLimit (some 0)) ≠ none := by
  decide +kernel
theorem test_aheadKept : (after (.block .t0 1045 (.runs []) pairs) (reading up)).laneA.spans.map Span.cond =
    [.good, .hole, .good] ∧ (after (.block .t0 1045 (.runs []) pairs) (reading up)).laneA.f = 46 := by decide +kernel
theorem witness_BlockAbsorbed_merge : WellFormed (.block .t0 1010 (.runs [(2, 4)]) pairs) = true ∧
    (stored 10 0xF0).laneA.mapArrival 1010 = some (seg.ref, 10) ∧ before 10 (stored 10 0xF0).laneA.p = false ∧
    (10 : Index) ≠ (stored 10 0xF0).laneA.f ∧ before (stored 10 0xF0).laneA.f 10 = false ∧
    ahead (stored 10 0xF0).laneA.f 10 ≤ ((stored 10 0xF0).settings .a).absorbLimit ∧
    (stored 10 0xF0).laneA.conditionAt 10 = some .good ∧
    (∃ q, (stored 10 0xF0).readCell .a 10 ((stored 10 0xF0).laneA.addressIn 10) = .copy q ∧ q.marks = 0xF0) ∧
    ∀ copy, ((stored 10 0xF0).laneA.absorb 10 copy (stored 10 0xF0).laneA.playTaken).1 ≠ .full := by
  refine ⟨by decide +kernel, by decide +kernel, by decide +kernel, by decide +kernel, by decide +kernel,
    by decide +kernel, by decide +kernel, ⟨freshCell 10 10 1010 0xF0 pairs, by decide +kernel, rfl⟩, fun copy => ?_⟩
  cases copy <;> decide +kernel
theorem witness_BlockAbsorbed_first : (tailIs .hole).laneA.conditionAt 35 = some .hole ∧
    (tailIs .lost).laneA.conditionAt 35 = some .lost ∧ (tailIs .hole).canAssign .a 35 = true ∧
    (tailIs .hole).laneA.mapArrival 1035 = some (seg.ref, 35) := by decide +kernel
theorem test_absorbed : (after (.block .t0 1010 (.runs [(2, 4)]) pairs) (stored 10 0xF0)).store.map StoreCell.marks =
    [0x30] ∧ (after (.block .t0 1035 (.runs []) pairs) (tailIs .hole)).laneA.conditionAt 35 = some .good ∧
    (after (.block .t0 1035 (.runs [(0, 400)]) pairs) (tailIs .lost)).laneA.conditionAt 35 = some .settled ∧
    (after (.block .t0 1035 .overmarked pairs) (tailIs .weak)).laneA.conditionAt 35 = some .weak := by
  decide +kernel
/-- A segment longer than the window. -/
def long : SegRef := { cue := 0, base := 0, first := 1000, stop := 4000, disc := some 1 }

/-- Lane A's reading state with a map of 32 spans, positions 0 to 31 by turns GOOD and SETTLED, then GOOD. -/
def crowded : State :=
  (reading up).updLane .a fun x => { x with
    spans := (List.range 32).map fun k => {
      first := BitVec.ofNat 32 k, count := if k = 31 then 9 else 1, seg := seg.ref
      cond := if k % 2 = 0 then .settled else .good, repair := none } }

/-- A map of 32 spans that still takes an append and an absorption, as its neighbours agree. -/
theorem witness_BlockAppended_crowded : crowded.laneA.spans.length = 32 ∧
    crowded.laneA.append seg.ref (copyClass 8 (some 0)) ≠ none ∧
    (crowded.laneA.absorb 30 .clean crowded.laneA.playTaken).1 = .done := by decide +kernel
theorem witness_BlockDiscarded : (reading up).laneA.mapArrival 999 = none ∧
    (reading up).laneA.mapArrival 1300 = some (seg.ref, 300) ∧
    ((reading up).settings .a).keepLimit < ahead 300 (reading up).laneA.f ∧
    ((reading up).updLane .a fun x => { x with p := 5 }).laneA.mapArrival 1004 = some (seg.ref, 4) ∧
    before 4 ((reading up).updLane .a fun x => { x with p := 5 }).laneA.p = true := by decide +kernel
theorem witness_BlockDiscarded_quiet : (reading up).LaneQuiet .a :=
  ⟨fun l => by cases l <;> rfl, rfl, rfl, rfl, nofun, nofun⟩
theorem witness_BlockDiscarded_window :
    let s := (reading up).updLane .a fun x => { x with f := 1530 }
    s.JudgesOnArrival .a ∧ (s.updLane .a fun x => { x with run := { x.run with seg := some long } }).laneA.mapArrival
      2534 = some (long, 1534) ∧ before s.laneA.f 1534 = true ∧ s.share .a - 3 < ahead 1534 s.laneA.p ∧
    ahead 1534 s.laneA.f ≤ (s.settings .a).keepLimit := by
  unfold State.JudgesOnArrival
  decide +kernel
theorem witness_BlockDiscarded_segment :
    let s := (reading up).updLane .a fun x => { x with f := 995, seq := { x.seq with segments := [seg, seg2] } }
    s.laneA.mapArrival 2003 = some (seg2.ref, 1003) ∧ before s.laneA.f 1003 = true ∧
    (s.laneA.segmentAt s.laneA.f).map Segment.base ≠ some seg2.ref.base := by decide +kernel
theorem witness_BlockDiscarded_full :
    (crowded.laneA.aheadHole seg.ref 45 (copyClass 8 (MarkReport.marks (.runs [])))) = none ∧
    crowded.laneA.mapArrival 1045 = some (seg.ref, 45) ∧ crowded.JudgesOnArrival .a := by
  unfold State.JudgesOnArrival
  decide +kernel
theorem witness_BlockDiscarded_behind :
    let s := (reading up).updLane .a fun x => { x with f := 200 }
    s.laneA.mapArrival 1100 = some (seg.ref, 100) ∧ (s.settings .a).absorbLimit < ahead s.laneA.f 100 ∧
    s.laneA.run.isPreroll 100 = false ∧ s.laneA.run.kind = .fill := by decide +kernel
/-- Lane A's reading state with another map of its 40 positions. -/
def mapped (spans : List Span) : State := (reading up).updLane .a fun x => { x with spans := spans }

/-- A map of 32 spans over 40 positions, by turns SETTLED and GOOD, but for the last 8 positions. -/
def crowdedMap (c : Condition) : List Span :=
  (List.range 32).map fun k => {
    first := BitVec.ofNat 32 (if k = 0 then 0 else k + 1)
    count := if k = 0 then 2 else if k = 31 then 8 else 1
    seg := seg.ref
    cond := if k = 31 then c else if k % 2 = 0 then .settled else .good
    repair := if k = 31 ∧ c.wantsRepair then some { attempts := 0, active := false, aborts := 0 } else none }

/-- The form of R18 of a list of spans from p on, as a check. -/
def mapCheck (f : Index) : Index → List Span → Bool
  | p, [] => p == f
  | p, y :: rest =>
    y.first == p && decide (0 < y.count) && (y.repair.isSome == y.cond.wantsRepair) &&
      (match rest with
       | [] => true
       | z :: _ => !y.joins z) && mapCheck f (plus p y.count) rest

theorem mapCheck_sound {f : Index} : ∀ {p : Index} {spans : List Span}, mapCheck f p spans = true →
    SpansCover p f spans ∧ SpansApart spans ∧ ∀ y ∈ spans, 0 < y.count ∧ y.Formed
  | _, [], h => ⟨by simpa [mapCheck, SpansCover] using h, trivial, nofun⟩
  | p, [y], h => by
    have : ((y.first = p ∧ 0 < y.count) ∧ y.repair.isSome = y.cond.wantsRepair) ∧ plus p y.count = f := by
      simpa [mapCheck] using h
    exact ⟨⟨this.1.1.1, this.2⟩, trivial, fun w hw => List.mem_singleton.mp hw ▸ ⟨this.1.1.2, this.1.2⟩⟩
  | _, y :: z :: rest, h => by
    rw [mapCheck] at h
    simp only [Bool.and_eq_true, beq_iff_eq, decide_eq_true_eq, Bool.not_eq_true'] at h
    obtain ⟨⟨⟨⟨hf, h0⟩, hr⟩, hj⟩, ht⟩ := h
    have k := mapCheck_sound ht
    exact ⟨⟨hf, k.1⟩, ⟨hj, k.2.1⟩, fun w hw => (List.mem_cons.mp hw).elim (fun e => e ▸ ⟨h0, hr⟩) (k.2.2 w)⟩

theorem formed_of_check {p f : Index} {spans : List Span} {n : Nat} (hw : n ≤ Config.storeCells) (hl : ahead f p ≤ n)
    (hc : (mapCheck f p spans && decide (spans.length ≤ Config.maxSpans) &&
      (spans.map Span.count).sum == ahead f p) = true) : MapFormed p f spans n := by
  simp only [Bool.and_eq_true, decide_eq_true_eq, beq_iff_eq] at hc
  have k := mapCheck_sound hc.1.1
  exact { window := hw, lead := hl, few := hc.1.2, filled := k.2.2, cover := k.1, apart := k.2.1, total := hc.2 }

theorem formed_crowdedMap (c : Condition) (h : c ≠ .settled) (n : Nat) (hn : 40 ≤ n) (hs : n ≤ Config.storeCells) :
    MapFormed 0 40 (crowdedMap c) n :=
  formed_of_check hs hn (by cases c <;> first | exact absurd rfl h | decide +kernel)

/-- Lane A's reading state with its window of 1534 positions full, a run in a state. -/
def windowFull (r : RunState) : State :=
  (mapped [{ first := 0, count := 1534, seg := long, cond := .good, repair := none }]).updLane .a fun x => { x with
    f := 1534, run := { x.run with state := r, seg := some long } }

theorem witness_Inv_mapped (spans : List Span) (h : MapFormed 0 40 spans (up.window .a)) : (mapped spans).Inv :=
  { witness_Inv_reading with laneA := ⟨⟨h, .none⟩, witness_Inv_reading.laneA.2⟩ }
theorem witness_BlockDiscarded_windowFull :
    (windowFull .opened).JudgesOnArrival .a ∧ (windowFull .ended).laneA.run.state = .ended ∧
    ∀ r, (windowFull r).laneA.mapArrival 2534 = some (long, (windowFull r).laneA.f) ∧
      before (windowFull r).laneA.f (windowFull r).laneA.p = false ∧ (windowFull r).laneA.run.kind = .fill ∧
      (windowFull r).laneA.bufferedLead = (windowFull r).share .a - 2 ∧ (windowFull r).LaneQuiet .a ∧
      (windowFull r).laneA.Settled ∧ (windowFull r).Inv := by
  have hf : MapFormed 0 1534 [{ first := 0, count := 1534, seg := long, cond := .good, repair := none }] (up.window .a) :=
    formed_of_check (by decide +kernel) (by decide +kernel) (by decide +kernel)
  refine ⟨by unfold State.JudgesOnArrival; decide +kernel, rfl, fun r => ⟨?_, ?_, rfl, ?_, ?_, ⟨rfl, rfl, rfl⟩, ?_⟩⟩
  · cases r <;> decide +kernel
  · cases r <;> decide +kernel
  · cases r <;> decide +kernel
  · exact ⟨fun l => by cases l <;> rfl, rfl, rfl, rfl, nofun, nofun⟩
  · exact { witness_Inv_reading with laneA := ⟨⟨hf, .none⟩, witness_Inv_reading.laneA.2⟩ }
theorem witness_BlockDiscarded_absorb (c : Condition) (h : c ≠ .settled) :
    (mapped (crowdedMap c)).JudgesOnArrival .a ∧ (mapped (crowdedMap c)).LaneQuiet .a ∧
    (mapped (crowdedMap c)).laneA.Settled ∧ (mapped (crowdedMap c)).Inv :=
  ⟨by unfold State.JudgesOnArrival; cases c <;> decide +kernel,
    ⟨fun l => by cases l <;> rfl, rfl, rfl, rfl, nofun, nofun⟩, ⟨rfl, rfl, rfl⟩,
    witness_Inv_mapped _ (formed_crowdedMap c h _ (by decide +kernel) (by decide +kernel))⟩
theorem witness_BlockDiscarded_absorbFull :
    let x := (mapped (crowdedMap .lost)).laneA
    x.mapArrival 1035 = some (seg.ref, 35) ∧ before 35 x.p = false ∧ 35 ≠ x.f ∧ before x.f 35 = false ∧
    x.conditionAt 35 = some .lost ∧ (mapped (crowdedMap .lost)).absorbedClass .a 35 (.runs []) = some .clean ∧
    (x.absorb 35 .clean x.playTaken).1 = .full := by decide +kernel
theorem witness_BlockDiscarded_below :
    let x := (mapped [{ first := 0, count := 40, seg := seg.ref, cond := .lost, repair := none }]).laneA
    x.mapArrival 1000 = some (seg.ref, 0) ∧ before 0 x.p = false ∧ 0 ≠ x.f ∧ before x.f 0 = false ∧ x.p = 0 ∧
    x.conditionAt 0 = some .lost ∧ x.playTaken = true := by decide +kernel
theorem test_absorbFull : (after (.block .t0 1035 (.runs []) pairs) (mapped (crowdedMap .lost))).laneA.spans =
    crowdedMap .lost ∧ (after (.block .t0 2534 (.runs []) pairs) (windowFull .opened)).laneA.f = 1534 := by
  decide +kernel
theorem test_discarded : (after (.block .t0 1300 (.runs []) pairs) (reading up)).laneA.count.skips = 1 ∧
    (after (.block .t0 999 (.runs []) pairs) (reading up)).laneA.count.skips = 0 := by decide +kernel

/-- Lane A's reading state waiting for its check, with so many blocks held. -/
def holding (c : CheckState) (n : Nat) : State :=
  (reading up).updLane .a fun x => { x with run := { x.run with
    check := c, anchored := true, held := List.replicate n { label := 1040, marks := .overmarked, pairs := pairs } } }

/-- The unit running a check of lane B. -/
def unitTaken (s : State) : State :=
  { s with splice := { s.splice with running := some {
    lane := .b, request := { block := { label := 0, marks := .runs [], pairs := pairs }, seg := seg.ref },
    readings := [], reached := 0, discarded := false } } }

theorem witness_BlockHeld_overflow : (holding .awaiting 4).tlc0.state = .reading ∧
    (holding .awaiting 4).laneA.run.state = .opened ∧ (holding .awaiting 4).laneA.run.check = .awaiting ∧
    4 ≤ (holding .awaiting 4).laneA.run.held.length := by decide +kernel
theorem witness_BlockHeld_held : (holding .waiting 3).AtRest ∧ (holding .waiting 3).laneA.run.held.length < 4 ∧
    (holding .waiting 3).laneA.run.check = .waiting := by
  unfold State.AtRest
  decide +kernel
theorem witness_BlockHeld_checked : (unitTaken (holding .waiting 0)).AtRest ∧
    (unitTaken (holding .waiting 0)).laneA.run.seg = some seg.ref ∧
    (unitTaken (holding .waiting 0)).splice.running.map RunningCheck.lane = some .b := by
  unfold State.AtRest
  decide +kernel
/-- Lane A waiting for its check, no block held, its copy of position 39 stored with a mark set. -/
def anchoring (m : MarkSet) : State :=
  { (holding .waiting 0).firstWrite .a 39 1039 m pairs with overlap := up.overlap }

/-- The request of the block of position 39 on it. -/
def request39 : CheckRequest := { block := { label := 1039, marks := .runs [], pairs := pairs }, seg := seg.ref }

/-- The first n pair positions marked: with 294 a block without marks shares just enough pairs with the copy. -/
def manyMarks (n : Nat) : MarkSet := marksOfRuns [(0, BitVec.ofNat 10 n)]

theorem witness_BlockHeld_taken : (anchoring (manyMarks 294)).AtRest ∧
    (anchoring (manyMarks 294)).splice.place (LaneId.other .a) = none ∧
    (anchoring (manyMarks 294)).splice.running = none ∧ (anchoring (manyMarks 294)).laneA.run.check = .waiting ∧
    (anchoring (manyMarks 294)).laneA.run.seg = some seg.ref ∧
    ((anchoring (manyMarks 294)).readings .a request39).map Reading.err = [0] ∧
    (anchoring (manyMarks 295)).readings .a request39 = [] ∧ (anchoring (manyMarks 295)).laneA.run.held = [] := by
  unfold State.AtRest
  decide +kernel
theorem witness_BlockHeld_noFault : (anchoring (manyMarks 295)).ReadsNoFault .a request39 := by
  have h : ∀ e ∈ [0, 1, -1, 2, -2], ((candidatePosition (anchoring (manyMarks 295)).laneA request39 e).all fun i =>
      match (anchoring (manyMarks 295)).readCell .a i ((anchoring (manyMarks 295)).laneA.addressIn i) with
      | .storeFault => false
      | _ => true) = true := by decide +kernel
  intro e he i hi hf
  have := h e he
  rw [show candidatePosition (anchoring (manyMarks 295)).laneA request39 e = some i from hi, Option.all_some] at this
  rw [show (anchoring (manyMarks 295)).readCell .a i ((anchoring (manyMarks 295)).laneA.addressIn i) = .storeFault from
    hf] at this
  cases this
theorem test_taken :
    (after (.block .t0 1039 (.runs []) pairs) (anchoring (manyMarks 294))).splice.running.map RunningCheck.reached = some 0 ∧
    (after (.block .t0 1039 (.runs []) pairs) (anchoring (manyMarks 295))).laneA.count.unanchored = 1 ∧
    (after (.block .t0 1039 (.runs []) pairs) (anchoring (manyMarks 295))).splice.running = none := by decide +kernel

theorem test_held : (after (.block .t0 1040 (.runs []) pairs) (holding .awaiting 4)).laneA.count.overruns = 1 ∧
    (after (.block .t0 1040 .overmarked pairs) (holding .waiting 3)).laneA.run.held.length = 4 ∧
    (after (.block .t0 1040 (.runs []) pairs) (unitTaken (holding .waiting 0))).splice.pendingA.isSome = true := by
  decide +kernel

/-- T0 seeking an address, with so many violations. -/
def seeking (address violation : Nat) (s : State) : State :=
  s.updTlc .a fun u => { u with
    state := .seeking, seek := some { address := address, speed := .x2, steady := false }, violation := violation,
    timers := { u.timers with seek := some 800 } }

theorem witness_SeekAnswersTaken_done : (seeking 1000 0 up).tlc0.state = .seeking ∧
    (seeking 1000 0 up).tlc0.seek.map Seek.address = some (1000 : BitVec 24).toNat ∧
    (seeking 1000 0 up).tlc0.seek.map Seek.address ≠ some (1001 : BitVec 24).toNat := by decide
theorem witness_SeekAnswersTaken_works : let s := (seeking 1000 2 (reading up)).updLane .a fun x => { x with
      run := { x.run with state := .seeking }, seq := { x.seq with reading := true } }
    s.AtRest ∧ s.WorkGoesOn .a := by
  unfold State.AtRest State.WorkGoesOn
  decide +kernel
theorem witness_SeekAnswersTaken_stray : up.AtRest := by
  unfold State.AtRest
  decide +kernel
theorem test_seekDone : (after (.seekDone .t0 1000) (seeking 1000 2 (reading up))).tlc0.state = .reading ∧
    (after (.seekDone .t0 1000) (seeking 1000 2 (reading up))).tlc0.violation = 1 := by decide +kernel
theorem witness_SeekAnswersTaken_fail : (seeking 1000 3 up).tlc0.state = .seeking ∧ up.tlc0.state ≠ .seeking := by decide
theorem test_seekFail : (after (.seekFail .t0 .noFocus) (seeking 1000 3 up)).tlc0.sent = [.reset] ∧
    (after (.seekFail .t0 .noFocus) (seeking 1000 2 up)).tlc0.violation = 3 := by decide +kernel
theorem witness_StatusRecorded : (sensing 0 up).tlc0.state = .starting ∧ (sensing 0 up).released = true ∧
    (sensing 0 up).LoaderBusy := by
  refine ⟨by decide, by decide, ?_⟩
  unfold State.LoaderBusy
  decide +kernel
theorem test_status : (after (.status .t0 true true) up).tlc0.sent = [.readToc] ∧
    (after (.status .t0 false false) up).slot 6 = .absent := by decide +kernel
theorem witness_TocEntryTaken : (tlcIn .toc up).tlc0.state = .toc ∧ (tlcIn .toc up).AtRest ∧
    (99 : Byte).toNat ≤ 99 ∧ 99 < (100 : Byte).toNat := by
  refine ⟨by decide, ?_, by decide⟩
  unfold State.AtRest
  decide +kernel
theorem test_tocEntry : (after (.tocEntry .t0 99 7) (tlcIn .toc up)).tlc0.assembly.entries = [(99, 7)] ∧
    (after (.tocEntry .t0 100 7) (tlcIn .toc up)).tlc0.assembly.invalid = true := by decide +kernel

/-- T0 in TOC with one entry collected. -/
def collecting : State :=
  tlcIn .toc (up.updTlc .a fun u => { u with assembly := { entries := [(1, 150)], invalid := false } })

theorem witness_TocEndJudged : collecting.tlc0.state = .toc ∧
    (collecting.tlc0.assembly.judge (1 : Byte).toNat (151 : BitVec 24).toNat).isSome = true ∧
    collecting.tlc0.assembly.judge (1 : Byte).toNat (150 : BitVec 24).toNat = none := by decide +kernel
theorem witness_TocEndJudged_ready : (sensing 0 collecting).AtRest ∧ (sensing 0 collecting).LoaderBusy ∧
    (sensing 0 collecting).ReadingClosed .a ∧ (sensing 0 collecting).laneA.seq.state = .idle := by
  unfold State.AtRest State.LoaderBusy State.ReadingClosed
  decide +kernel
theorem test_tocEnd : (after (.tocEnd .t0 1 151) collecting).tlc0.state = .ready ∧
    (after (.tocEnd .t0 1 150) collecting).tlc0.count.invalidTocs = 1 := by decide +kernel

/-- A STATUS frame with a wrong check byte. -/
def badFrame : List Byte := [0xA5, 0x04, 0x03, 0x00]

theorem witness_DroppedFramesCounted : (up.tlc0.receiver.feedAll badFrame).2 = .frame none ∧
    (up.tlc0.receiver.feedAll [0xA5, 0x07]).2 = .badKind ∧
    up.tlc0.receiver.feedAll [0xA5, 0x01] = (.inFrame [0x01], .nothing) := by decide +kernel
theorem test_frameCheckError : (after (.frameCheckError .t0 badFrame) up).tlc0.count.checkErrors = 1 := by decide +kernel
theorem test_frameKindInvalid : (after (.frameKindInvalid .t0 [0xA5, 0x07]) up).tlc0.count.checkErrors = 1 := by
  decide +kernel
theorem test_linkIdle : (after (.linkIdleInFrame .t0 [0xA5, 0x01]) up).tlc0.count.checkErrors = 1 := by decide +kernel

/-- T0 in a state with a timer of each kind running and so many violations. -/
def timed (t : TlcState) (violation : Nat) : State :=
  up.updTlc .a fun u => { u with
    state := t, violation := violation, stopPending := true
    timers := { startup := some 1, toc := some 1, seek := some 1, cadence := some 1, spindleStop := some 1 } }

theorem witness_TimeoutsAreBadEvents : (timed .toc 2).tlc0.state = .toc ∧ (timed .toc 2).bears .a = true ∧
    (timed .seeking 3).bears .a = false ∧ (timed .reading 3).tlc0.timers.cadence.isSome = true := by decide
theorem test_tocLimit : (after (.tocLimitExpiry .t0) (timed .toc 2)).tlc0.sent = [.readToc] := by decide +kernel
theorem test_seekTimer : (after (.seekTimerExpiry .t0) (timed .seeking 3)).tlc0.state = .starting := by decide +kernel
theorem test_stall : (after (.stall .t0) (timed .reading 3)).tlc0.sent = [.halt, .reset] := by decide +kernel
theorem witness_StartupAndSpindleLimitsExpire_startup : (timed .starting 0).tlc0.state = .starting ∧
    (timed .starting 0).tlc0.timers.startup.isSome = true ∧ (timed .starting 0).released = true := by decide
theorem test_startupWindow : (after (.startupWindowExpiry .t0) (timed .starting 0)).news .mech = 8 := by decide +kernel

/-- A move that waits for the spindle stop of T0. -/
def awaiting : State :=
  ldr (fun d => { d with stage := none, moveLimit := none, stopped0 := true }) (moving .take (timed .empty 0))

theorem witness_StartupAndSpindleLimitsExpire_stop : awaiting.tlc0.stopPending = true ∧ awaiting.loader.state = .moving ∧
    awaiting.loader.stage = none ∧ (moving .take (timed .empty 0)).loader.stage ≠ none := by decide +kernel
theorem test_spindleStopLimit : (after (.spindleStopLimitExpiry .t0) awaiting).loader.state = .faulted := by
  decide +kernel

/-! ### Splice Unit and playout -/

/-- A held block of lane A and the segment it is checked for. -/
def checked : CheckRequest := { block := { label := 1038, marks := .runs [], pairs := pairs }, seg := seg.ref }

/-- A reading at that label error: of the block checked for, or of one that differs. -/
def readingOf (same : Bool) (e : Int) : Reading := { err := e, marks := 0, pairs := if same then pairs else [] }

/-- A check of lane A with these readings. -/
def check (readings : List Reading) (discarded : Bool) : RunningCheck :=
  { lane := .a, request := checked, readings := readings, reached := 0, discarded := discarded }

/-- The Splice Unit running a check with one reading that differs from the block. -/
def checking (discarded : Bool) : State :=
  { reading up with splice := { up.splice with running := some (check [readingOf false 0] discarded) } }

theorem differs (e : Int) : (readingOf false e).matched checked = false := by
  have h : (readingOf false 0).matched checked = false := by decide +kernel
  exact h

theorem equals (e : Int) : (readingOf true e).matched checked = true := by
  have h : (readingOf true 0).matched checked = true := by decide +kernel
  exact h

theorem witness_CheckCompletes (d : Bool) : ∃ c, (checking d).splice.running = some c ∧ c.discarded = d ∧
    (checking d).released = true ∧ (checking d).splice.pendingA = none ∧ (checking d).splice.pendingB = none ∧
    ∀ r ∈ c.readings, r.matched c.request = false := by
  refine ⟨_, rfl, rfl, rfl, rfl, rfl, fun r hr => ?_⟩
  rw [List.mem_singleton.mp hr]
  exact differs 0
theorem test_check : (after .checkCompletion (checking false)).laneA.count.noMatches = 1 ∧
    (after .checkCompletion (checking true)).splice.running = none := by decide +kernel

/-- A discarded check of lane A at its end, lane B's request waiting for the unit. -/
def handingOver : State :=
  { checking true with splice := { (checking true).splice with pendingB := some request39 } }

theorem witness_CheckCompletes_waiting : handingOver.AtRest ∧ handingOver.splice.place .b = some request39 ∧
    handingOver.splice.pendingA = none ∧ handingOver.readings .b request39 = [] ∧
    ((anchoring 0).readings .a request39).map Reading.err = [0] := by
  unfold State.AtRest
  decide +kernel
theorem test_handingOver : (after .checkCompletion handingOver).laneB.count.unanchored = 1 ∧
    (after .checkCompletion { anchoring 0 with splice := { (checking true).splice with
      pendingA := some request39 } }).splice.running.map RunningCheck.request = some request39 := by decide +kernel

/-- A check of lane A whose second reading matches with a label error, the run OPEN with no other block held. -/
def matching (e : Int) : State :=
  { holding .awaiting 0 with splice := { up.splice with
    running := some (check [readingOf false 1, readingOf true e] false) } }

theorem witness_CheckMatches (e : Int) : ∃ c r, (matching e).splice.running = some c ∧ c.discarded = false ∧
    (matching e).splice.pendingA = none ∧ (matching e).splice.pendingB = none ∧ (matching e).released = true ∧
    c.readings.find? (fun q => q.matched c.request) = some r ∧ r.err = e := by
  refine ⟨_, readingOf true e, rfl, rfl, rfl, rfl, rfl, ?_, rfl⟩
  show List.find? (fun q => Reading.matched q checked) [readingOf false 1, readingOf true e] = _
  simp only [List.find?, differs, equals]

/-- The same with the cadence timer of T0 started afresh. -/
def matchingTimed (e : Int) : State :=
  (matching e).updTlc .a fun u => { u with timers := { u.timers with cadence := some (matching e).applied.cadenceLimit } }

theorem witness_CheckMatches_open : (matchingTimed 1).laneA.run.state = .opened ∧
    (matchingTimed 1).laneA.run.held = [] ∧ (matchingTimed 1).tlc0.state = .reading ∧
    (matchingTimed 1).tlc0.timers.cadence = some (matchingTimed 1).applied.cadenceLimit ∧
    blockOk checked.block.marks checked.block.pairs = true := by decide +kernel
theorem test_match : (after .checkCompletion (matching (-2))).laneA.count.slips = 1 ∧
    (after .checkCompletion (matching (-2))).laneA.f = 41 ∧
    (after .checkCompletion (matching 0)).laneA.count.slips = 0 := by decide +kernel

theorem witness_AudioFrameSent : (playing .playing 587 .rising 127 up).released = true ∧
    (playing .playing 587 .rising 127 up).laneA.plu.block = some (block 587) ∧
    (playing .playing 588 .full 128 up).laneA.plu.block = some (block 588) ∧
    ¬((block 587).plannedFall = true ∧ (block 587).next = 460) ∧ runAt (block 587).plan (block 587).next = none := by
  decide +kernel
/-- A short run of four marked pairs with an end value on its left. -/
def shortRun : ConcealedRun := { first := 10, length := 4, how := .interpolate (some { left := 1, right := 2 }) none }

theorem witness_AudioFrameSent_interpolated : runAt [shortRun] 13 = some shortRun := by decide
theorem test_audioFrame_fall : (after (.audioPortFrame .a) (withPlu (fun u => { u with
      block := some { block 460 with plannedFall := true } }) (playing .playing 460 .rising 1 up))).laneA.plu.gain =
    .silent ∧ (after (.audioPortFrame .a) (withPlu (fun u => { u with fall := .short 100 4 2 })
      (playing .stopping 580 .falling 50 up))).laneA.plu.out = { left := 19, right := 39 } := by decide +kernel
theorem test_audioFrame : (after (.audioPortFrame .a) (playing .playing 587 .rising 127 up)).laneA.plu.gain = .full ∧
    (after (.audioPortFrame .a) (playing .paused 0 .falling 64 up)).laneA.plu.out = { left := 50, right := 100 } := by
  decide +kernel
theorem witness_PlayoutAdvances : (playing .playing 588 .full 128 up).laneA.plu.block = some (block 588) ∧
    (block 588).position = (playing .playing 588 .full 128 up).laneA.p ∧
    (playing .playing 588 .full 128 up).laneA.p ≠ (playing .playing 588 .full 128 up).laneA.f ∧
    (playing .playing 588 .full 128 up).laneA.Settled ∧
    (playing .playing 588 .full 128 up).laneA.p + 1 ≠ (playing .playing 588 .full 128 up).laneA.f ∧
    (playing .playing 588 .full 128 up).laneA.plu.holdPoint ≠ some ((playing .playing 588 .full 128 up).laneA.p + 1) := by
  unfold Lane.Settled
  decide +kernel
theorem test_playoutAdvance : (after (.playoutAdvance .a) (playing .playing 588 .full 128 up)).laneA.p = 1 := by
  decide +kernel
theorem witness_BlockAndFallEnd : (playing .stopping 588 .silent 0 up).laneA.plu.block = some (block 588) ∧
    (playing .stopping 588 .silent 0 up).laneA.Settled ∧ (playing .paused 588 .silent 0 up).laneA.Settled ∧
    (playing .stopping 100 .silent 0 up).laneA.plu.gain = .silent := by
  unfold Lane.Settled
  decide +kernel
/-- Lane A with the block in play at its end and p moved on by a SKIP, to a place before f or to f itself. -/
def skipped (n : Nat) (s : State) : State :=
  (playing .playing 588 .silent 0 s).updLane .a fun x => { x with
    p := BitVec.ofNat 32 n
    spans := if n < 40 then
      [{ first := BitVec.ofNat 32 n, count := 40 - n, seg := seg.ref, cond := .good, repair := none }] else [] }

theorem witness_BlockAndFallEnd_skipped : (block 588).position ≠ (skipped 5 up).laneA.p ∧
    (skipped 5 up).laneA.plu.block = some (block 588) ∧ (skipped 5 up).laneA.Settled ∧
    (skipped 5 up).laneA.p ≠ (skipped 5 up).laneA.f ∧ (block 588).position ≠ (skipped 40 up).laneA.p ∧
    (skipped 40 up).laneA.plu.block = some (block 588) ∧ (skipped 40 up).laneA.Settled ∧
    (skipped 40 up).laneA.p = (skipped 40 up).laneA.f ∧ (skipped 40 up).share .a ≠ 0 ∧
    (∀ g, (skipped 40 up).laneA.lastSegment = some g → (skipped 40 up).laneA.f ≠ g.ref.endIndex) := by
  unfold Lane.Settled
  refine ⟨by decide, rfl, ⟨rfl, rfl, rfl⟩, by decide, by decide, rfl, ⟨rfl, rfl, rfl⟩, rfl, by decide +kernel,
    fun g h => ?_⟩
  cases h
  decide
theorem witness_BlockAndFallEnd_inv : (skipped 40 up).Inv :=
  { witness_Inv_reading with
    laneA := ⟨⟨MapFormed.empty (by decide +kernel), .none⟩, kept_one, Nat.zero_le _, Nat.zero_le _, trivial⟩ }
theorem witness_BlockAndFallEnd_rest : (playing .idle 588 .silent 0 up).laneA.Settled ∧
    (playing .held 588 .silent 0 up).laneA.Settled ∧ (playing .starved 588 .silent 0 up).laneA.Settled :=
  ⟨⟨rfl, rfl, rfl⟩, ⟨rfl, rfl, rfl⟩, ⟨rfl, rfl, rfl⟩⟩
theorem test_blockEnd_skipped : ((after (.blockEndNotPlaying .a) (skipped 5 up)).laneA.plu.block.map PlayBlock.position) =
    some 5 ∧ (after (.blockEndNotPlaying .a) (skipped 40 up)).laneA.seq.state = .underrun := by decide +kernel
theorem test_blockEnd : (after (.blockEndNotPlaying .a) (playing .stopping 588 .silent 0 up)).laneA.seq.state = .idle ∧
    (after (.blockEndNotPlaying .a) (playing .held 588 .silent 0 up)).laneA.plu.block = none := by decide +kernel
theorem test_fallEnd : (after (.fallEnd .a) (playing .stopping 100 .silent 0 up)).laneA.seq.state = .idle := by
  decide +kernel

/-! ### Repair scheduler -/

/-- Quiet about to be released on lane A, its scheduler resting for it with a READY transport. -/
def quieted (s : State) : State :=
  ldr (fun d => { d with state := .faulted, settleTimer := some 300 }) (tlcIn .ready (s.updLane .a fun x => { x with
    run := { x.run with state := .ended }, rsc := { x.rsc with mode := .rest, rest := some .quiet, quiet := true } }))

theorem witness_WorkDecided (n : Nat) (c : Condition) (hn : 0 < n) (hm : n < 1000) (h : c ≠ .good)
    (ha : (tailFrom n c).laneA.activeSpan = none) :
    (quieted (tailFrom n c)).Inv ∧ (quieted (tailFrom n c)).Unmarked ∧ (quieted (tailFrom n c)).RestsForQuiet .a ∧
      (quieted (tailFrom n c)).loader.settleTimer.isSome = true ∧ (quieted (tailFrom n c)).loader.queue = [] ∧
      ∀ m, ((quieted (tailFrom n c)).lane m).Settled ∧ ((quieted (tailFrom n c)).lane m).seq.state ≠ .priming ∧
        ((quieted (tailFrom n c)).lane m).seq.state ≠ .underrun :=
  ⟨{ witness_Inv_tailFrom n c hn hm h with settings := fun i h1 h2 => up_settings i (by omega) h1 },
    fun l => by cases l <;> rfl, ⟨(show up.share .a ≠ 0 by decide), rfl, rfl, rfl, rfl, rfl, ha, rfl⟩, rfl, rfl, fun m => by
      cases m <;> exact ⟨⟨rfl, rfl, rfl⟩, nofun, nofun⟩⟩
theorem witness_WorkDecided_repair : (quieted (tailFrom 800 .hole)).laneA.MayStart (up.settings .a) ∧
    tail 800 .hole ∈ (quieted (tailFrom 800 .hole)).laneA.spans ∧
    (quieted (tailFrom 800 .hole)).laneA.MayRepair (up.settings .a).repairMargin (tail 800 .hole) ∧
    (tail 800 .hole).repair = some freshRepair ∧ (tailFrom 800 .hole).laneA.activeSpan = none := by
  unfold Lane.MayStart Lane.MayRepair
  decide +kernel
theorem witness_WorkDecided_fill : ¬(quieted (tailFrom 30 .hole)).laneA.MayStart (up.settings .a) ∧
    (quieted (tailFrom 30 .hole)).laneA.restReason 1536 150 = none ∧
    (quieted (tailFrom 30 .hole)).laneA.segmentAt 40 = some seg ∧
    (quieted (tailFrom 990 .lost)).laneA.restReason 1536 150 = some .cueEnd := by
  unfold Lane.MayStart
  decide +kernel
theorem test_work : (after .settleTimerExpiry (quieted (tailFrom 800 .hole))).tlc0.sent =
      [.seek { address := 1798, speed := .x2, steady := false }] ∧
    (after .settleTimerExpiry (quieted (tailFrom 30 .hole))).tlc0.sent =
      [.seek { address := 1040, speed := .x2, steady := false }] ∧
    (after .settleTimerExpiry (quieted (tailFrom 990 .lost))).tlc0.sent = [] := by decide +kernel

theorem witness_Inv_repairing : (repairing 30 .hole).Inv := by
  refine { witness_Inv_tailIs .hole (by decide) with
    laneA := ⟨⟨{ (witness_Inv_tailIs .hole (by decide)).laneA.1.form with
      filled := fun y hy => ?_ }, fun t a ht ha => ?_⟩, (witness_Inv_tailIs .hole (by decide)).laneA.2⟩ }
  · rcases List.mem_cons.mp (show y ∈ [_, _] from hy) with rfl | hy
    · exact ⟨by decide, rfl⟩
    · rw [List.mem_singleton.mp hy]
      exact ⟨by decide, rfl⟩
  · cases ht
    have : a = (tail 30 .hole).setActive true := by
      have h : (repairing 30 .hole).laneA.spans.find? Span.active = some ((tail 30 .hole).setActive true) := by
        decide +kernel
      exact (Option.some.inj (h.symm.trans ha)).symm
    subst this
    decide +kernel
theorem witness_MechanismStopAbortsAttempt_unmarked : (repairing 30 .hole).Unmarked := fun l => by cases l <;> rfl
theorem witness_MechanismStopAbortsAttempt : (repairing 30 .hole).loader.mechStopped = false ∧
    (repairing 30 .hole).laneA.Settled ∧ (repairing 30 .hole).laneA.seq.state = .playing ∧
    (repairing 30 .hole).share .a ≠ 0 ∧ (repairing 30 .hole).laneA.seq.reading = true ∧
    (repairing 30 .hole).tlc0.state.usable = true ∧ (repairing 30 .hole).laneA.rsc.mode = .repair ∧
    (repairing 30 .hole).laneA.activeSpan ≠ none := by
  unfold Lane.Settled
  decide +kernel
theorem test_abort : (after (.mechanismStop true false) (repairing 30 .hole)).laneA.spans.map Span.repair =
    [none, some { attempts := 0, active := false, aborts := 1 }] := by decide +kernel
theorem witness_AttemptEnds : WellFormed (.block .t0 1039 (.runs []) pairs) = true ∧
    before 39 (repairing 30 .hole).laneA.p = false ∧ before 39 (repairing 30 .hole).laneA.f = true ∧
    (repairing 30 .hole).laneA.conditionAt (39 + 1) ≠ some .weak ∧ (repairing 30 .hole).laneA.rsc.quiet = false ∧ (repairing 30 .hole).laneA.spanAt 35 =
      some ((tail 30 .hole).setActive true) ∧ (repairing 30 .weak).laneA.conditionAt 39 ≠ some .hole ∧
    (∀ y ∈ (after (.block .t0 1039 .overmarked pairs) (repairing 30 .hole)).laneA.spans,
      ¬(after (.block .t0 1039 .overmarked pairs) (repairing 30 .hole)).laneA.MayRepair 45 y) := by
  unfold Lane.MayRepair
  decide +kernel
theorem test_attemptEnds : (after (.block .t0 1039 (.runs []) pairs) (repairing 30 .hole)).laneA.count.repaired = 1 ∧
    (after (.block .t0 1039 .overmarked pairs) (repairing 30 .hole)).laneA.spans.map Span.repair =
      [none, some { attempts := 1, active := false, aborts := 0 }] ∧
    (after (.block .t0 1039 .overmarked pairs) (repairing 30 .hole)).tlc0.sent =
      [.seek { address := 1040, speed := .x2, steady := false }] := by decide +kernel

/-! ### Loader -/

theorem witness_WaitTimerAndMoveLimitExpire_wait : (ldr (fun d => { d with queue := [waiting] }) (sensing 0 up)).loader.queue[0]? =
    some waiting ∧ waiting.timer.isSome = true := by decide +kernel
theorem test_waitTimer : (after (.waitTimerExpiry 0) (ldr (fun d => { d with queue := [waiting] })
    (sensing 0 up))).loader.queue = [{ waiting with timer := none, due := true }] := by decide +kernel
theorem witness_StagesOfALegEnd_take : (moving .take up).loader.state = .moving ∧ (moving .take up).loader.stage = some .take ∧
    (moving .take up).loader.current =
      some { request := .bind .a 1 1, legs := { source := 0, dest := 6 } :: [], leg := 1 } ∧ (0 : Loc) ≠ armLoc := by
  decide +kernel
theorem test_takeEnd : (after (.stageEndTake true) (moving .take up)).loader.commands = [.carry 6] ∧
    (after (.stageEndTake false) (moving .take up)).loader.state = .settling := by decide +kernel
theorem witness_StagesOfALegEnd_carry : (moving .carry up).loader.destination = some 6 ∧ (6 : Loc) ≠ armLoc ∧
    (moving .carry up).loader.stage = some .carry ∧ (moving .place up).loader.stage = some .place ∧
    (moving .carry up).LoaderBusy := by
  refine ⟨by decide +kernel, by decide +kernel, by decide +kernel, by decide +kernel, ?_⟩
  unfold State.LoaderBusy
  decide +kernel
theorem test_carryEnd : (after .stageEndCarry (moving .carry up)).loader.commands = [.place 6] := by decide +kernel
theorem test_placeEnd : (after .stageEndPlace (moving .place up)).slot 6 = disc (some 1) ∧
    (after .stageEndPlace (moving .place up)).loader.state = .settling := by decide +kernel
theorem test_placeEnd_order :
    let t n := (after .stageEndPlace (accessed [({ reads := 0, writes := n }, .hostXmRead 0x1000)] (moving .place up))).meetHost
    (t 132).hostWord 0x2C00 = (t 132).word 0x2C00 ∧ (t 132).overlap.unlanded.head?.map Unlanded.address = some 0x3000 := by
  decide +kernel
theorem test_outcome_order :
    let t n := (after .stageEndPlace (accessed [({ reads := 0, writes := n }, .hostXmRead 0x1000)] (moving .place up))).meetHost
    (t 296).hostWord 0x28 &&& loaderDoneBit = 0 ∧ (t 296).hostWord 0x1A0 = (t 296).word 0x1A0 ∧
    (t 264).hostWord 0x1A0 ≠ (t 296).word 0x1A0 ∧ (t 297).hostWord 0x28 &&& loaderDoneBit = loaderDoneBit := by
  decide +kernel
theorem witness_SenseEnds : (sensing 8 up).loader.stage = some .sense ∧ (8 : Loc).val < 9 ∧
    (sensing 9 up).loader.homing = some { kind := .afterReset, sensing := frontLoc, putAway := none } := by
  decide +kernel
theorem test_senseEnd : (after (.stageEndSense true) (sensing 5 up)).slot 5 = disc (some 6) ∧
    (after (.stageEndSense false) (sensing 9 up)).loader.state = .settling := by decide +kernel
/-- A homing in its last SENSE, or in its put-away to a location, with the arm's disc as given. -/
def homing (g : Stage) (dest : Option Loc) (arm : SlotEntry) (s : State) : State :=
  slots [(8, arm)] (ldr (fun d => { d with
    state := .homing, stage := some g, moveLimit := some 6000,
    homing := some { kind := .atReturn, sensing := 9, putAway := dest } }) s)

theorem witness_HomingEnds_sense : (homing .sense none (disc none) up).loader.homing =
      some { kind := .atReturn, sensing := frontLoc, putAway := none } ∧
    (homing .sense none (disc none) up).returnSlot ((homing .sense none (disc none) up).slot armLoc).home = none ∧
    ((homing .sense none (disc none) up).slot armLoc).occupancy = .yes ∧
    (slots [(3, .absent)] (homing .sense none (disc (some 4)) up)).returnSlot (some 4) = some 3 ∧
    ((homing .sense none .absent up).slot armLoc).occupancy ≠ .yes := by decide +kernel
theorem witness_HomingEnds_place : (homing .place (some 9) (disc none) up).loader.homing =
      some { kind := .atReturn, sensing := 9, putAway := some 9 } ∧ (9 : Loc) ≠ armLoc ∧
    (homing .place (some 9) (disc none) up).loader.stage = some .place := by decide +kernel
theorem test_homingEnds :
    (after (.stageEndSense false) (homing .sense none (disc none) up)).loader.commands = [.carry 9] ∧
    (after (.stageEndSense true) (homing .sense none (disc none) up)).loader.faultMark = true ∧
    (after .stageEndPlace (homing .place (some 9) (disc none) up)).loader.toRecovery = true := by decide +kernel
theorem witness_WaitTimerAndMoveLimitExpire_move : (moving .place up).loader.moveLimit.isSome = true ∧ up.released = true := by
  decide +kernel
theorem test_moveLimit : (after .moveLimitExpiry (moving .place up)).slot 6 = .unknown ∧
    (after .moveLimitExpiry (moving .place up)).slot 0 = disc (some 1) := by decide +kernel

/-- The loader in a state with its settle and recovery timers running. -/
def resting (t : LoaderState) : State :=
  ldr (fun d => { d with state := t, settleTimer := some 300, recoveryTimer := some 10 }) up

theorem witness_SettleAndRecoveryEnd : (resting .settling).loader.settleTimer.isSome = true ∧
    (resting .recovering).loader.recoveryTimer.isSome = true := by decide +kernel
theorem witness_SettleAndRecoveryEnd_ease (t : LoaderState) : (resting t).loader.queue = [] ∧ (resting t).Unmarked ∧
    ∀ l, ((resting t).lane l).Settled ∧ ((resting t).lane l).seq.state ≠ .priming ∧
      ((resting t).lane l).seq.state ≠ .underrun := by
  refine ⟨rfl, fun l => by cases l <;> rfl, fun l => ?_⟩
  cases l <;> exact ⟨⟨rfl, rfl, rfl⟩, nofun, nofun⟩
/-- The loader settling after a homing at the mechanism's return, both transports in a state. -/
def toRecover (u : TlcState) : State :=
  ((ldr (fun d => { d with toRecovery := true }) (resting .settling)).updTlc .a fun x => { x with state := u }).updTlc .b
    fun x => { x with state := u }

theorem witness_SettleAndRecoveryEnd_recovery (u : TlcState) : (toRecover u).loader.toRecovery = true ∧
    (toRecover u).loader.state = .settling ∧ (toRecover u).loader.settleTimer.isSome = true ∧
    (toRecover u).loader.queue = [] ∧ (toRecover u).Unmarked ∧
    ∀ l, ((toRecover u).tlc l).state = u ∧ ((toRecover u).lane l).Settled ∧
      ((toRecover u).lane l).seq.state ≠ .priming ∧ ((toRecover u).lane l).seq.state ≠ .underrun := by
  refine ⟨rfl, rfl, rfl, rfl, fun l => by cases l <;> rfl, fun l => ?_⟩
  cases l <;> exact ⟨rfl, ⟨rfl, rfl, rfl⟩, nofun, nofun⟩
theorem test_settleToRecovery : (after .settleTimerExpiry (toRecover .starting)).loader.state = .recovering ∧
    (after .settleTimerExpiry (toRecover .ready)).loader.state = .idle := by decide +kernel
theorem test_settleTimer : (after .settleTimerExpiry (resting .settling)).loader.state = .idle := by decide +kernel
theorem test_recoveryTimer : (after .recoveryTimerExpiry (resting .recovering)).loader.state = .idle := by decide +kernel
theorem witness_MechanismStops : up.loader.mechStopped = false ∧ (true && false) = false ∧ up.released = true := by
  decide +kernel
theorem test_mechanismStop : (after (.mechanismStop true false) up).tlc0.state = .mechHeld ∧
    (after (.mechanismStop true false) up).news .mech = 4 := by decide +kernel
theorem witness_MechanismReturns : (stopped up).loader.mechStopped = true ∧ (stopped up).released = true ∧
    (stopped up).LoaderBusy ∧ (stopped up).AtRest ∧ State.reset.released = false := by
  unfold State.LoaderBusy State.AtRest
  decide +kernel
theorem test_mechanismReturn : (after .mechanismReturn (stopped up)).loader.state = .homing := by decide +kernel
theorem test_mechanismLineChange :
    (after (.mechanismLineChange true false) (stopped up)).loader.state = .stopped := by decide +kernel

/-! ### Formats, marks, cells and the map -/

theorem witness_UpFramesReadBack : blockOk (.runs (List.replicate 8 (0x3FF, 0x3FF))) pairs = true := by decide +kernel
theorem test_marks : marksOfRuns [(587, 1023), (0, 1)] = (1#588 <<< 587 ||| 1#588) := by decide +kernel
theorem witness_MarkSetOfRunList : (587 : Nat) < 588 := by decide
theorem witness_CellsReadBackAndMerge :
    let c := freshCell 7 7 1007 0 pairs
    let s := { up with store := [{ c with check := c.check + 1 }] }
    findCell s.store (s.cellNumber .a 7) = some { c with check := c.check + 1 } ∧ c.position = 7 ∧
      c.check + 1 ≠ cellCheck c.tagIndex c.tagAddress c.marks c.pairs ∧ findCell s.store (s.cellNumber .a 8) = none := by
  decide +kernel
theorem witness_AdvanceConvertsGuard : (32 : Nat) < 2 ^ 32 ∧ (reading up).laneA.p ≠ (reading up).laneA.f := by
  decide +kernel
theorem witness_AdvanceConvertsGuard_position :
    MapFormed (mapped (crowdedMap .hole)).laneA.p (mapped (crowdedMap .hole)).laneA.f (crowdedMap .hole) 40 ∧
    ((mapped (crowdedMap .hole)).laneA.spanAt 39).map Span.cond = some .hole ∧
    (39 : Index) ≠ (mapped (crowdedMap .hole)).laneA.p :=
  ⟨formed_crowdedMap .hole (by decide) 40 (by decide) (by decide), by decide +kernel, by decide⟩
theorem test_advanceConverts : ((mapped (crowdedMap .hole)).laneA.advanceMap 31).conditionAt 39 = some .hole ∧
    ((mapped (crowdedMap .hole)).laneA.advanceMap 32).conditionAt 39 = some .lost ∧
    ((tailFrom 30 .weak).laneA.advanceMap 32).conditionAt 32 = some .settled ∧
    ((tailFrom 30 .weak).laneA.advanceMap 32).conditionAt 33 = some .weak := by decide +kernel

end Sys2Proof.Tests
end

section
/-! The reset state, and what every step keeps (O2, O3, O4). -/

namespace Sys2Proof.Machine

set_option Elab.async false

/-! ### The reset state -/

theorem fieldOk_default : ∀ i, 1 ≤ i → i ≤ 31 → fieldOk Settings.default i = true := by
  have h : ∀ i < 32, 1 ≤ i → fieldOk Settings.default i = true := by decide
  exact fun i hi hl => h i (by omega) hi

/-- A lane at reset is bounded for every window that the store has room for. -/
theorem bounded_reset {n : Nat} (hn : n ≤ Config.storeCells) : Lane.reset.Bounded n :=
  ⟨⟨MapFormed.empty hn, .none⟩, CuesKept.clear List.length_replicate, Nat.zero_le _, Nat.zero_le _, trivial⟩

theorem window_reset (l : LaneId) : State.reset.window l = 1534 := by cases l <;> rfl

theorem inv_reset : State.reset.Inv where
  memory := rfl
  cells := List.Pairwise.nil
  settings := fieldOk_default
  laneA := bounded_reset (by rw [window_reset]; decide)
  laneB := bounded_reset (by rw [window_reset]; decide)
  queue := ⟨Nat.zero_le _, fun _ => Nat.zero_le _⟩
  commits := by simp [State.reset, Overlap.whole]

theorem unmarked_reset : State.reset.Unmarked := fun l => by cases l <;> rfl

/-- Settles O3. -/
theorem resetKeepsInvariant : Obligations.ResetKeepsInvariant := ⟨inv_reset, unmarked_reset⟩

/-- Settles O2: each value is read off the reset records, lane by lane and location by location. -/
theorem resetValues : Obligations.ResetValues := by
  refine ⟨fun l => ?_, fun l => ?_, rfl, rfl, fun n => ?_, rfl, rfl, rfl, rfl, rfl, rfl, rfl⟩
  · cases l <;> exact ⟨rfl, rfl, rfl, rfl, rfl, rfl, rfl, rfl, rfl, rfl, rfl, rfl, rfl, rfl, rfl, rfl, rfl⟩
  · cases l <;> exact ⟨rfl, rfl, rfl, rfl, rfl, rfl⟩
  · simp [State.slot, State.reset, Loader.reset]

/-! ### The Host Port keeps the invariant -/

/-- What the host and the pins change on their own side is nothing of the invariant. -/
theorem State.Inv.hostSide {s : State} (h : s.Inv) (host : HostPort) (pins : Pins) (attention : Attention)
    (pending : List Instr) :
    State.Inv { s with host := host, pins := pins, attention := attention, pending := pending } :=
  ⟨h.memory, h.cells, h.settings, h.laneA, h.laneB, h.queue, h.commits⟩

theorem State.Inv.setAttention {s : State} (h : s.Inv) (c : CellId) (on : Bool) : (s.setAttention c on).Inv := by
  cases c <;> exact h.hostSide _ _ _ _

/-- A change of how accesses fall that adds none. -/
theorem State.Inv.withOverlap {s : State} (h : s.Inv) {o : Overlap} (ho : ∀ x ∈ o.within, x ∈ s.overlap.within) :
    State.Inv { s with overlap := o } :=
  ⟨h.memory, h.cells, h.settings, h.laneA, h.laneB, h.queue, fun x hx => h.commits x (ho x hx)⟩

/-- Bytes written inside Exchange Memory. -/
theorem State.Inv.writeBytes {s : State} (h : s.Inv) {a : Nat} {bs : List Byte} (ha : a + bs.length ≤ Memory.size) :
    State.Inv { s with xm := Memory.write s.xm a bs } :=
  ⟨Memory.wf_write _ _ _ h.memory ha, h.cells, h.settings, h.laneA, h.laneB, h.queue, h.commits⟩

theorem State.Inv.putWord {s : State} (h : s.Inv) {a : Nat} (ha : a + 4 ≤ Memory.size) (w : Word) :
    (s.putWord a w).Inv := h.writeBytes ha

/-- Words written by the part inside Exchange Memory. -/
theorem State.Inv.setWords {s : State} (h : s.Inv) {a : Nat} {ws : List Word} (ha : a + 4 * ws.length ≤ Memory.size) :
    (s.setWords a ws).Inv :=
  State.Inv.withOverlap (h.writeBytes (by rwa [Memory.flatMap_wordBytes_length])) fun x hx => by
    rwa [Overlap.within_wroteWords] at hx

theorem State.Inv.meetHost {s : State} (h : s.Inv) : s.meetHost.Inv := by
  refine h.withOverlap fun x hx => ?_
  unfold Overlap.meet at hx
  split at hx
  · exact hx
  · rename_i he
    rw [he]
    exact List.mem_cons_of_mem _ hx

theorem State.Inv.meetCommit {s : State} (h : s.Inv) (a : Nat) : (s.meetCommit a).Inv := by
  unfold State.meetCommit
  dsimp only
  split
  · exact h.meetHost.withOverlap fun _ hx => hx
  · exact h.meetHost

theorem State.Inv.commitWord {s : State} (h : s.Inv) {a : Nat} (ha : a + 4 ≤ Memory.size) (w : Word) :
    (s.commitWord a w).Inv :=
  (h.putWord ha _).withOverlap fun _ hx => hx

theorem State.Inv.commit {s : State} (h : s.Inv) {a : Nat} (ha : a + 4 ≤ Memory.size) (v : Half) (low : Option Half) :
    (s.commit a v low).Inv := by
  unfold State.commit
  dsimp only
  split
  · exact h.commitWord ha _
  · split
    · exact (h.putWord ha _).setAttention _ _
    · exact h.commitWord ha _

theorem State.Inv.drive {s : State} (h : s.Inv) (v : Half) (o : Option (Nat × Half)) : (s.drive v o).Inv :=
  h.hostSide _ _ _ _

theorem State.Inv.touch {s : State} (h : s.Inv) : s.touch.Inv := h.hostSide _ _ _ _

theorem State.Inv.readXm {s : State} (h : s.Inv) (a : Nat) : (s.readXm a).Inv := by
  unfold State.readXm
  dsimp only
  repeat' split
  all_goals exact h.meetHost.drive _ _

theorem State.Inv.hostRead {s : State} (h : s.Inv) (o : Nat) : (s.hostRead o).Inv := by
  unfold State.hostRead
  split
  · exact h.drive _ _
  · split
    · split
      · exact h.readXm _
      · exact h.drive _ _
    · exact h.meetHost.drive _ _
    · exact h.meetHost.drive _ _

theorem State.Inv.writeHigh {s : State} (h : s.Inv) {a : Nat} (ha : 4 * (a / 4) + 4 ≤ Memory.size) (v : Half) :
    (s.writeHigh a v).Inv :=
  ((h.hostSide _ _ _ _).meetCommit _).commit ha _ _

/-- A write to the window or the home area reaches Exchange Memory inside its bounds only (R196). -/
theorem State.Inv.hostWrite {s : State} (h : s.Inv) (o : Nat) {f : State → Nat → State}
    (hf : ∀ a, 4 * (a / 4) + 4 ≤ Memory.size → (f s.touch a).Inv) : (s.hostWrite o f).Inv := by
  unfold State.hostWrite
  split
  · rename_i a ha
    split
    · exact hf a (HostPort.xmTarget_inside (h := s.host) (o := o) (by rw [HostPort.xmTarget, ha]))
    · exact h.touch
  · exact h
  · exact h

theorem State.Inv.registerWrite {s : State} (h : s.Inv) {f : State → State} (hf : (f s.touch).Inv) :
    (s.registerWrite f).Inv := by
  unfold State.registerWrite
  split
  · exact h.touch
  · exact hf

/-! ### Reset and initialisation keep the invariant -/

theorem inv_enterReset (s : State) (b : Bool) : (s.enterReset b).Inv :=
  ⟨inv_reset.memory, inv_reset.cells, inv_reset.settings, inv_reset.laneA, inv_reset.laneB, inv_reset.queue,
    inv_reset.commits⟩

/-- The initialisation writes Exchange Memory whole, inside its bounds (R202). -/
theorem State.Inv.writeXm {s : State} (h : s.Inv) : s.writeXm.Inv := by
  have h0 : State.Inv { s with xm := [] } := ⟨rfl, h.cells, h.settings, h.laneA, h.laneB, h.queue, h.commits⟩
  refine (((h0.setWords ?_).setWords ?_).setWords ?_).setWords ?_
  · decide
  · rw [recordWords_length]; decide
  · rw [recordWords_length]; decide
  · rw [loaderWords_length]; decide

theorem follows_release0 {r s : State} (h : Follows r s) : Follows r s.release0 := by
  have h2 := follows_changeTlc (follows_changeTlc h .a Tlc.sendReset) .b Tlc.sendReset
  unfold State.release0
  dsimp only
  split
  · exact follows_beginHoming h2 _
  · exact follows_stopMechanism h2

/-- An event keeps the invariant when its own effect does. -/
theorem event_inv {s : State} (h : s.Inv) (f : State → State) (hf : ∀ u : State, u.Inv → (f u).Inv) : (s.event f).Inv :=
  (follows_finish (follows_carryOut (Follows.refl _)) _).inv (hf _ ((follows_clearOutputs (Follows.refl s)).inv h))

theorem onEvent_inv {s : State} (h : s.Inv) (b : Bool) (f : State → State) (hf : ∀ u : State, u.Inv → (f u).Inv) :
    (s.onEvent b f).Inv := by
  unfold State.onEvent
  split
  · exact event_inv h f hf
  · exact h

theorem State.Inv.setLines {s : State} (h : s.Inv) (a b : Bool) : (s.setLines a b).Inv := h.hostSide _ _ _ _

/-! ### Commands of attention cells keep the invariant -/

theorem judgeStart_taken {s : State} {l : LaneId} {k m : Nat} {f : State → State} (h : s.judgeStart l k m = .taken f) :
    k ≤ 23 ∧ f = fun s => (s.countReads 1).startLane l k m := by
  unfold State.judgeStart at h
  split at h
  · cases h
  · split at h
    · cases h
    · rename_i hk
      cases h
      simp only [Bool.or_eq_true, decide_eq_true_eq] at hk
      exact ⟨by omega, rfl⟩

theorem judgeByState_taken {s : State} {l : LaneId} {p : LaneState → Bool} {g f : State → State}
    (h : s.judgeByState l p g = .taken f) : f = g := by
  unfold State.judgeByState at h
  split at h
  · cases h
  · cases h; rfl

/-- A command that only a lane state admits keeps the invariant when its effect follows the rules. -/
theorem byState_inv {s : State} (h : s.Inv) (l : LaneId) (k : Nat) (p : LaneState → Bool) {g : State → State}
    (hg : ∀ r s : State, Follows r s → Follows r (g s)) :
    (s.onCommand (laneCell l) k fun u => u.judgeByState l p g).Inv :=
  onCommand_inv s _ _ _ h fun f hf hi => by
    rw [judgeByState_taken hf]
    exact (hg _ _ (Follows.refl _)).inv hi

/-- A taken request of the mechanism cell keeps the invariant: it finds a place free (R177, R178). -/
theorem judgePlace_inv {s : State} {q : LoaderRequest} {f : State → State} (hq : q.kind ≠ 1)
    (h : s.judgePlace q = .taken f) (hi : s.Inv) : (f s).Inv := by
  obtain ⟨hfree, rfl⟩ := judgePlace_taken h
  exact (follows_enqueue (Follows.refl s) q hfree hq).inv hi

theorem judgeEject_taken {s : State} {n : Nat} {f : State → State} (h : s.judgeEject n = .taken f) :
    s.judgePlace (.eject n) = .taken f := by
  unfold State.judgeEject at h
  dsimp only at h
  repeat' split at h
  all_goals first
    | exact h
    | cases h

theorem judgeInsert_taken {s : State} {n : Nat} {f : State → State} (h : s.judgeInsert n = .taken f) :
    s.judgePlace (.insert n) = .taken f := by
  unfold State.judgeInsert at h
  repeat' split at h
  all_goals first
    | exact h
    | cases h

theorem judgeRevive_taken {s : State} {n : Nat} {f : State → State} (h : s.judgeRevive n = .taken f) :
    ∃ l, f = fun s => s.changeTlc l Tlc.revive := by
  unfold State.judgeRevive at h
  repeat' split at h
  all_goals cases h
  exact ⟨_, rfl⟩

theorem judgeApply_taken {s : State} {f : State → State} (h : s.judgeApply = .taken f) :
    ∃ c, firstFailing c = none ∧ f = fun s => (s.countReads settingCount).applySettings c := by
  unfold State.judgeApply at h
  dsimp only at h
  split at h
  · cases h
  · rename_i hc
    split at h
    · cases h
    · cases h
      exact ⟨_, hc, rfl⟩

/-- Where no field fails, every field is in its range (R208). -/
theorem fieldOk_of_firstFailing {c : Settings} (h : firstFailing c = none) (i : Nat) (h1 : 1 ≤ i) (h31 : i ≤ 31) :
    fieldOk c i = true := by
  unfold firstFailing at h
  rw [List.find?_eq_none] at h
  have := h i (List.mem_map.2 ⟨i - 1, List.mem_range.2 (by omega), by omega⟩)
  simpa using this

/-- A share in its range leaves the window room in the store. -/
theorem share_of_shareOk {n : Nat} (h : shareOk n = true) : n - 2 ≤ Config.storeCells := by
  simp only [shareOk, within, Bool.or_eq_true, beq_iff_eq, Bool.and_eq_true, decide_eq_true_eq] at h
  simp only [Config.storeCells]
  omega

/-- A taken APPLY keeps the invariant, for the new settings and the new windows (R208, R209). -/
theorem State.Inv.applySettings {s : State} (h : s.Inv) {c : Settings}
    (hc : ∀ i, 1 ≤ i → i ≤ 31 → fieldOk c i = true) : (s.applySettings c).Inv := by
  have ha : c.laneA.share - 2 ≤ Config.storeCells := share_of_shareOk (hc 1 (by omega) (by omega))
  have hb : c.laneB.share - 2 ≤ Config.storeCells := by
    have h14 : (shareOk c.laneB.share && decide (c.laneA.share + c.laneB.share ≤ Config.storeCells)) = true :=
      hc 14 (by omega) (by omega)
    exact share_of_shareOk (Bool.and_eq_true_iff.1 h14).1
  refine (follows_changeTlc (follows_changeTlc (Follows.refl _) .a _) .b _).inv ?_
  exact ⟨h.memory, h.cells, hc, Lane.Bounded.applied h.laneA ha, Lane.Bounded.applied h.laneB hb, h.queue, h.commits⟩

/-- Every command keeps the invariant. -/
theorem exec_inv (c : Instr) {s : State} (h : s.Inv) : ∃ t, exec c s = .next t ∧ t.Inv := by
  by_cases hc : partEvent c = true
  · obtain ⟨t, ht, hf⟩ := partEvent_follows c s hc
    exact ⟨t, ht, hf.inv h⟩
  cases c <;> first | exact absurd rfl hc | refine ⟨_, rfl, ?_⟩
  case hostXmRead o =>
    split
    · exact h.hostRead o
    · exact h
  case hostXmWriteLow o v =>
    split
    · exact h.hostWrite o fun a _ => h.touch.hostSide _ _ _ _
    · exact h
  case hostXmWriteHigh o v =>
    split
    · exact h.hostWrite o fun a ha => h.touch.writeHigh ha v
    · exact h
  case hostRegisterRead o =>
    split
    · exact h.hostRead o
    · exact h
  case enableWrite v => exact h.registerWrite (h.touch.hostSide _ _ _ _)
  case pageWrite v => exact h.registerWrite (h.touch.hostSide _ _ _ _)
  case controlReset v =>
    refine h.registerWrite ?_
    split
    · exact inv_enterReset _ _
    · exact h.touch
  case registerWriteIgnored o v =>
    split
    · exact h.touch
    · exact h
  case resetNAssert => exact inv_enterReset _ _
  case resetNRelease => exact h.hostSide _ _ _ _
  case xmInitialisationDone =>
    split
    · exact event_inv (h.hostSide _ _ _ _).writeXm _ fun u hu => (follows_release0 (Follows.refl u)).inv hu
    · exact h
  case attentionEmpty c =>
    split
    · exact State.Inv.setAttention ((follows_clearOutputs (Follows.refl s) (some c)).inv h) c false
    · exact h
  case unknownCommand c =>
    split
    · exact attend_inv _ _ _ _ ((follows_clearOutputs (Follows.refl s) (some c)).inv h) fun f hf => by cases hf
    · exact h
  case start l =>
    refine onCommand_inv s _ _ _ h fun f hf hi => ?_
    obtain ⟨hk, rfl⟩ := judgeStart_taken hf
    exact (follows_startLane (follows_countReads (Follows.refl _) 1) l _ _ hk).inv hi
  case stop l => exact byState_inv h l _ _ fun r s hr => follows_stopLane hr l
  case pause l => exact byState_inv h l _ _ fun r s hr => follows_pauseLane hr l
  case go l => exact byState_inv h l _ _ fun r s hr => follows_goLane hr l
  case skip l => exact byState_inv h l _ _ fun r s hr => follows_skipLane hr l
  case eject => exact onCommand_inv s _ _ _ h fun f hf => judgePlace_inv (by simp [LoaderRequest.kind]) (judgeEject_taken hf)
  case insert => exact onCommand_inv s _ _ _ h fun f hf => judgePlace_inv (by simp [LoaderRequest.kind]) (judgeInsert_taken hf)
  case rescan => exact onCommand_inv s _ _ _ h fun f hf => judgePlace_inv (by simp [LoaderRequest.kind]) hf
  case revive =>
    refine onCommand_inv s _ _ _ h fun f hf hi => ?_
    obtain ⟨l, rfl⟩ := judgeRevive_taken hf
    exact (follows_changeTlc (Follows.refl _) l _).inv hi
  case apply =>
    refine onCommand_inv s _ _ _ h fun f hf hi => ?_
    obtain ⟨c, hc, rfl⟩ := judgeApply_taken hf
    exact State.Inv.applySettings ((follows_countReads (Follows.refl _) _).inv hi) (fieldOk_of_firstFailing hc)
  case mechanismStop a b =>
    exact onEvent_inv h _ _ fun u hu => (follows_stopMechanism (Follows.refl _)).inv (hu.setLines a b)
  case mechanismReturn =>
    exact onEvent_inv h _ _ fun u hu => (follows_returnMechanism (Follows.refl _)).inv (hu.setLines true true)
  case mechanismLineChange a b =>
    split
    · exact onEvent_inv h _ _ fun u hu => hu.setLines a b
    · exact h.setLines a b

/-! ### No event leaves a mark (log 8) -/

theorem unmarked_of_lane {s t : State} (h : s.Unmarked) (hl : ∀ l, t.lane l = s.lane l) : t.Unmarked := fun l => by
  rw [hl l]
  exact h l

/-- The records of an event clear its marks. -/
theorem unmarked_finish (s b : State) : (s.finish b).Unmarked := fun l => by
  rw [lane_finish]
  rfl

theorem unmarked_onEvent {s : State} (h : s.Unmarked) (b : Bool) (f : State → State) : (s.onEvent b f).Unmarked := by
  unfold State.onEvent
  split
  · exact unmarked_finish _ _
  · exact h

theorem lane_answer (s : State) (c : CellId) (k : Nat) (r : ResultCode) (d : Nat) (l : LaneId) :
    (s.answer c k r d).lane l = s.lane l := by
  simp [State.answer]

theorem unmarked_attend {s : State} (h : s.Unmarked) (c : CellId) (k : Nat) (v : Verdict) :
    (s.attend c k v).Unmarked := by
  cases v with
  | refused r d n => exact unmarked_of_lane h fun l => by rw [State.attend, lane_answer, State.lane_countReads]
  | taken f => exact unmarked_finish _ _

theorem unmarked_taking {s : State} (h : s.Unmarked) (c : CellId) : (s.taking c).Unmarked :=
  unmarked_of_lane h (lane_clearOutputs s (some c))

theorem unmarked_onCommand {s : State} (h : s.Unmarked) (c : CellId) (k : Nat) (j : State → Verdict) :
    (s.onCommand c k j).Unmarked := by
  unfold State.onCommand
  split
  · exact unmarked_attend (unmarked_taking h c) _ _ _
  · exact h

theorem unmarked_enterReset (s : State) (b : Bool) : (s.enterReset b).Unmarked := fun l => by cases l <;> rfl

/-- A frame of the audio port is no event with marks. -/
theorem marks_frame (x : Lane) : x.frame.marks = x.marks := by
  unfold Lane.frame
  repeat' split
  all_goals rfl

/-- A host access touches no lane. -/
theorem lane_hostRead (s : State) (o : Nat) (l : LaneId) : (s.hostRead o).lane l = s.lane l := by
  unfold State.hostRead State.readXm
  dsimp only
  repeat' split
  all_goals cases l <;> rfl

theorem lane_commit (s : State) (a : Nat) (v : Half) (low : Option Half) (l : LaneId) :
    (s.commit a v low).lane l = s.lane l := by
  unfold State.commit
  dsimp only
  repeat' split
  all_goals simp
  all_goals cases l <;> rfl

theorem lane_meetCommit (s : State) (a : Nat) (l : LaneId) : (s.meetCommit a).lane l = s.lane l := by
  unfold State.meetCommit
  dsimp only
  split <;> cases l <;> rfl

theorem lane_writeHigh (s : State) (a : Nat) (v : Half) (l : LaneId) : (s.writeHigh a v).lane l = s.lane l := by
  unfold State.writeHigh
  dsimp only
  rw [lane_commit, lane_meetCommit]
  cases l <;> rfl

theorem lane_hostWrite (s : State) (o : Nat) (f : State → Nat → State) (l : LaneId)
    (hf : ∀ (u : State) (a : Nat), (f u a).lane l = u.lane l) : (s.hostWrite o f).lane l = s.lane l := by
  have ht : s.touch.lane l = s.lane l := by cases l <;> rfl
  unfold State.hostWrite
  split
  · split
    · rw [hf, ht]
    · exact ht
  · rfl
  · rfl

/-- No command leaves a lane a mark of its event. -/
theorem exec_unmarked (c : Instr) {s : State} (h : s.Unmarked) : ∃ t, exec c s = .next t ∧ t.Unmarked := by
  have same : ∀ t : State, (∀ l, t.lane l = s.lane l) → t.Unmarked := fun t => unmarked_of_lane h
  have touch : ∀ l, s.touch.lane l = s.lane l := fun l => by cases l <;> rfl
  cases c <;> refine ⟨_, rfl, ?_⟩
  case hostXmRead o =>
    split
    · exact same _ (lane_hostRead s o)
    · exact h
  case hostRegisterRead o =>
    split
    · exact same _ (lane_hostRead s o)
    · exact h
  case hostXmWriteLow o v =>
    split
    · exact same _ fun l => lane_hostWrite s o _ l fun u a => by cases l <;> rfl
    · exact h
  case hostXmWriteHigh o v =>
    split
    · exact same _ fun l => lane_hostWrite s o _ l fun u a => lane_writeHigh u a v l
    · exact h
  case enableWrite v =>
    unfold State.registerWrite
    split <;> exact same _ touch
  case pageWrite v =>
    unfold State.registerWrite
    split <;> exact same _ touch
  case controlReset v =>
    unfold State.registerWrite
    split
    · exact same _ touch
    · split
      · exact unmarked_enterReset _ _
      · exact same _ touch
  case registerWriteIgnored o v =>
    split
    · exact same _ touch
    · exact h
  case resetNAssert => exact unmarked_enterReset _ _
  case resetNRelease => exact same _ fun l => by cases l <;> rfl
  case xmInitialisationDone =>
    split
    · exact unmarked_finish _ _
    · exact h
  case attentionEmpty c =>
    split
    · exact unmarked_of_lane (unmarked_taking h c) (State.lane_setAttention _ c false)
    · exact h
  case unknownCommand c =>
    split
    · exact unmarked_attend (unmarked_taking h c) _ _ _
    · exact h
  case start | stop | pause | go | skip | eject | insert | rescan | revive | apply => exact unmarked_onCommand h _ _ _
  case checkCompletion =>
    split
    · exact h
    · exact unmarked_onEvent h _ _
  case stageEndSense b =>
    split
    · exact h
    · exact unmarked_onEvent h _ _
  case audioPortFrame l =>
    split
    · intro k
      by_cases hk : k = l
      · subst hk
        rw [State.lane_updLane, marks_frame, lane_clearOutputs]
        exact h k
      · rw [lane_updLane_ne _ hk, lane_clearOutputs]
        exact h k
    · exact h
  case mechanismLineChange a b =>
    split
    · exact unmarked_onEvent h _ _
    · exact same _ fun l => by cases l <;> rfl
  all_goals exact unmarked_onEvent h _ _

/-- A command taken from the queue is nothing of the invariant or of the marks. -/
theorem step_next {s t : State} (h : step s = .next t) :
    t = s ∨ ∃ c rest, exec c { s with pending := rest } = .next t := by
  unfold step at h
  split at h
  · cases h
    exact .inl rfl
  · exact .inr ⟨_, _, h⟩

/-- Settles O4: on an empty queue nothing changes; else the command at its front keeps the invariant (`exec_inv`) and leaves no
mark (`exec_unmarked`). -/
theorem stepKeepsInvariant : Obligations.StepKeepsInvariant := by
  intro s t h
  obtain rfl | ⟨c, rest, hc⟩ := step_next h
  · exact ⟨id, id⟩
  · refine ⟨fun hi => ?_, fun hm => ?_⟩
    · obtain ⟨u, hu, hk⟩ := exec_inv c (s := { s with pending := rest }) (hi.hostSide _ _ _ _)
      cases hc.symm.trans hu
      exact hk
    · obtain ⟨u, hu, hk⟩ := exec_unmarked c (s := { s with pending := rest })
        (unmarked_of_lane hm fun l => by cases l <;> rfl)
      cases hc.symm.trans hu
      exact hk

end Sys2Proof.Machine
end

section
/-! Mark sets, and the cells of the shock store (O58, O59). -/

namespace Sys2Proof.Machine

set_option Elab.async false

/-! ### Mark sets (R2) -/

/-- A run marks the positions from its first one on, as many as it is long. -/
theorem getLsbD_runMarks (first length k : Nat) (hk : k < 588) :
    (runMarks first length).getLsbD k = true ↔ first ≤ k ∧ k < first + length := by
  simp only [runMarks, BitVec.getLsbD_ofNat, Nat.testBit_shiftLeft, Nat.testBit_two_pow_sub_one, hk, decide_true,
    Bool.true_and, Bool.and_eq_true, decide_eq_true_eq]
  omega

theorem getLsbD_marksOfRuns (runs : List (BitVec 10 × BitVec 10)) (k : Nat) (hk : k < 588) :
    (marksOfRuns runs).getLsbD k = true ↔ ∃ r ∈ runs, r.1.toNat ≤ k ∧ k < r.1.toNat + r.2.toNat := by
  induction runs with
  | nil => simp [marksOfRuns]
  | cons r runs ih =>
    have hcons : marksOfRuns (r :: runs) = runMarks r.1.toNat r.2.toNat ||| marksOfRuns runs := rfl
    rw [hcons, BitVec.getLsbD_or, Bool.or_eq_true, getLsbD_runMarks _ _ _ hk, ih]
    simp only [List.mem_cons, exists_eq_or_imp]

/-- Settles O58, by induction on the run list. -/
theorem markSetOfRunList : Obligations.MarkSetOfRunList :=
  ⟨getLsbD_marksOfRuns, fun _ => rfl, rfl, rfl⟩

/-! ### Cells (R9, R10, R13) -/

theorem findCell_cons (c : StoreCell) (cells : List StoreCell) (n : Nat) :
    findCell (c :: cells) n = if c.number = n then some c else findCell cells n := by
  by_cases h : c.number = n <;> simp [findCell, h]

/-- The cell put into a list is the one found under its number, whatever the list. -/
theorem findCell_putCell_same (c : StoreCell) (cells : List StoreCell) :
    findCell (putCell c cells) c.number = some c := by
  induction cells with
  | nil => simp [putCell, findCell]
  | cons d rest ih =>
    unfold putCell
    split
    · rw [findCell_cons, if_pos rfl]
    · split
      · rw [findCell_cons, if_pos rfl]
      · rename_i hne
        rw [findCell_cons, if_neg (Ne.symm hne), ih]

/-- A cell put into a list leaves those of the other numbers. -/
theorem findCell_putCell_other (c : StoreCell) (cells : List StoreCell) {n : Nat} (hn : n ≠ c.number) :
    findCell (putCell c cells) n = findCell cells n := by
  induction cells with
  | nil => simp [putCell, findCell, Ne.symm hn]
  | cons d rest ih =>
    unfold putCell
    split
    · rw [findCell_cons c, if_neg (Ne.symm hn)]
    · split
      · rename_i he
        rw [findCell_cons, findCell_cons, if_neg (Ne.symm hn), if_neg (he ▸ Ne.symm hn)]
      · rw [findCell_cons, findCell_cons, ih]

/-- A first write leaves shares and cell numbers. -/
theorem cellNumber_firstWrite (s : State) (l k : LaneId) (i j : Index) (a : Nat) (m : MarkSet) (ps : List Pair) :
    (s.firstWrite l i a m ps).cellNumber k j = s.cellNumber k j := by
  cases k <;> rfl

theorem findCell_firstWrite (s : State) (l : LaneId) (i : Index) (a : Nat) (m : MarkSet) (ps : List Pair) :
    findCell (s.firstWrite l i a m ps).store (s.cellNumber l i) = some (freshCell (s.cellNumber l i) i a m ps) :=
  findCell_putCell_same _ _

/-- A read of a free cell. -/
theorem readCell_free {s : State} {l : LaneId} {i : Index} (a : Option Nat)
    (h : findCell s.store (s.cellNumber l i) = none) : s.readCell l i a = .unassigned := by
  simp [State.readCell, h]

/-- A read where the cell is assigned to another position. -/
theorem readCell_elsewhere {s : State} {l : LaneId} {i : Index} {c : StoreCell} (a : Option Nat)
    (h : findCell s.store (s.cellNumber l i) = some c) (hp : c.position ≠ i) : s.readCell l i a = .unassigned := by
  simp [State.readCell, h, hp]

/-- A read of the position's own cell: a copy exactly when tag and check word agree (R13). -/
theorem readCell_own {s : State} {l : LaneId} {i : Index} {c : StoreCell} (a : Nat)
    (h : findCell s.store (s.cellNumber l i) = some c) (hp : c.position = i) :
    s.readCell l i (some a) =
      if c.tagIndex = i ∧ c.tagAddress = a ∧ c.check = cellCheck c.tagIndex c.tagAddress c.marks c.pairs then .copy c
      else .storeFault := by
  simp [State.readCell, h, hp]

/-- A copy written first reads back. -/
theorem readCell_firstWrite (s : State) (l : LaneId) (i : Index) (a : Nat) (m : MarkSet) (ps : List Pair) :
    (s.firstWrite l i a m ps).readCell l i (some a) = .copy (freshCell (s.cellNumber l i) i a m ps) := by
  have h := findCell_firstWrite s l i a m ps
  rw [← cellNumber_firstWrite s l l i i a m ps] at h
  rw [readCell_own a h rfl, if_pos ⟨rfl, rfl, rfl⟩, cellNumber_firstWrite]

/-- A merged pair (R55). -/
theorem pairAt_mergePairs (stored arriving : List Pair) (m n : MarkSet) {k : Nat} (hk : k < 588) :
    pairAt (mergePairs stored arriving m n) k =
      if m.getLsbD k = true ∧ n.getLsbD k = false then pairAt arriving k else pairAt stored k := by
  have hget : ∀ f : Nat → Pair, ((List.range 588).map f).getD k .silent = f k := fun f => by simp [hk]
  rw [mergePairs, pairAt, hget]
  simp

/-- Settles O59. -/
theorem cellsReadBackAndMerge : Obligations.CellsReadBackAndMerge := by
  refine ⟨fun l i a m ps s => ?_, fun l i a c s h => ⟨fun hp => ?_, fun hp hbad => ?_⟩, fun l i a s h => ?_,
    fun stored arriving m n k hk => pairAt_mergePairs stored arriving m n hk⟩
  · exact ⟨_, readCell_firstWrite s l i a m ps, rfl, rfl, rfl, rfl, fun n hn => findCell_putCell_other _ _ hn⟩
  · exact readCell_elsewhere _ h hp
  · rw [readCell_own a h hp, if_neg]
    rintro ⟨hi, ha, hc⟩
    rcases hbad with hb | hb | hb
    · exact hb hi
    · exact hb ha
    · exact hb hc
  · exact readCell_free _ h

end Sys2Proof.Machine
end

section
/-! The STOP of a lane (O19). -/

namespace Sys2Proof.Machine

set_option Elab.async false

/-! ### What the small operations leave of a lane -/

/-- A HALT changes of a lane neither its sequencer nor its playout unit, neither p nor what only its own events change. -/
theorem halt_alike (s : State) (l k : LaneId) : (s.lane k).Alike ((s.halt l).lane k) := by
  unfold State.halt Lane.Alike
  split <;> simp

theorem lane_setLaneState (s : State) (l : LaneId) (t : LaneState) :
    ((s.setLaneState l t).lane l).seq = { (s.lane l).seq with state := t } ∧
      ((s.setLaneState l t).lane l).plu = (s.lane l).plu ∧ ((s.setLaneState l t).lane l).p = (s.lane l).p ∧
      ((s.setLaneState l t).lane l).f = (s.lane l).f ∧ (s.setLaneState l t).store = s.store := by
  unfold State.setLaneState
  rw [State.lane_updLane, State.store_updLane]
  split
  · rename_i h
    subst h
    exact ⟨rfl, rfl, rfl, rfl, rfl⟩
  · exact ⟨rfl, rfl, rfl, rfl, rfl⟩

theorem lane_endEpisode (s : State) (l : LaneId) :
    ((s.endEpisode l).lane l).seq = (s.lane l).seq ∧ ((s.endEpisode l).lane l).p = (s.lane l).p ∧
      ((s.endEpisode l).lane l).f = (s.lane l).f ∧ (s.endEpisode l).store = s.store ∧
      ((s.endEpisode l).lane l).plu =
        { (s.lane l).plu with episode := none, note := ((s.endEpisode l).lane l).plu.note } := by
  unfold State.endEpisode
  split
  · rename_i h
    refine ⟨rfl, rfl, rfl, rfl, ?_⟩
    rw [← h]
  · simp

/-- A retire counts the entry's pass and the unplayed run, nothing else of a lane and nothing of the store. -/
theorem lane_retire (s : State) (l : LaneId) (c : TakenCue) (o : CueOutcome) (k : LaneId) :
    ∃ ps n, (s.retire l c o).lane k =
      { s.lane k with seq := { (s.lane k).seq with entryPasses := ps, unplayed := n } } := by
  by_cases hk : k = l
  · subst hk
    unfold State.retire State.updSeq State.writeResult
    dsimp only
    split <;>
      exact ⟨(s.lane k).seq.entryPasses.set c.entry (bump ((s.lane k).seq.entryPasses.getD c.entry 0)),
        if c.counts.played = 0 then min 24 ((s.lane k).seq.unplayed + 1) else (s.lane k).seq.unplayed, by simp⟩
  · refine ⟨(s.lane k).seq.entryPasses, (s.lane k).seq.unplayed, ?_⟩
    unfold State.retire State.updSeq State.writeResult
    dsimp only
    split <;> simp [lane_updLane_ne _ hk]

theorem store_retire (s : State) (l : LaneId) (c : TakenCue) (o : CueOutcome) : (s.retire l c o).store = s.store := by
  unfold State.retire State.updSeq State.writeResult
  dsimp only
  split <;> simp

theorem lane_retireAll (l : LaneId) (o : CueOutcome) (cs : List TakenCue) (k : LaneId) : ∀ s : State,
    ∃ ps n, (s.retireAll l o cs).lane k =
      { s.lane k with seq := { (s.lane k).seq with entryPasses := ps, unplayed := n } } := by
  induction cs with
  | nil => exact fun s => ⟨_, _, rfl⟩
  | cons c cs ih =>
    intro s
    obtain ⟨ps, n, h⟩ := lane_retire s l c o k
    obtain ⟨qs, m, ht⟩ := ih (s.retire l c o)
    exact ⟨qs, m, by rw [State.retireAll, ht, h]⟩

theorem lane_withdrawBind (s : State) (l : LaneId) (t : Byte) (k : LaneId) :
    (s.withdrawBind l t).lane k = s.lane k ∧ (s.withdrawBind l t).store = s.store := by
  unfold State.withdrawBind State.recordOutcome State.writeLoader
  split <;> simp

/-! ### The parts of a STOP (R165) -/

/-- What a STOP leaves of the sequencer of a lane: nothing to play, to wait for or to read. -/
structure Sequencer.Stopped (q : Sequencer) : Prop where
  state : q.state = .idle ∨ q.state = .stopping
  segments : q.segments = []
  pendingCue : q.pendingCue = none
  current : q.current = none
  identity : q.identity = none
  bind : q.bind = none
  reRequest : q.reRequest = false
  mark : q.mark = none
  reading : q.reading = false

/-- The first part of a STOP: f set to p, the sequencer as it was. -/
theorem lane_stopReading (s : State) (l : LaneId) :
    ((s.stopReading l).lane l).f = (s.lane l).p ∧ ((s.stopReading l).lane l).p = (s.lane l).p := by
  unfold State.stopReading
  dsimp only
  rw [State.lane_updLane]
  have hp : ((((s.updLane l fun x =>
      let x := x.abortAttempt
      { x with rsc := { x.rsc.dropAttempt with rest := none, mapFullHold := false, refillWait := false } }).halt l).endRun
        l).lane l).p = (s.lane l).p := by
    rw [State.p_endRun, (halt_alike _ l l).2.2.2, State.lane_updLane]
    exact (abortAttempt_alike _).2.2.2
  exact ⟨hp, hp⟩

theorem lane_dropBind (s : State) (l : LaneId) :
    (s.dropBind l).lane l = { s.lane l with seq := { (s.lane l).seq with bind := none, reRequest := false } } := by
  unfold State.dropBind State.updSeq
  dsimp only
  rw [State.lane_updLane]
  split
  · split
    · rfl
    · rw [(lane_withdrawBind _ _ _ _).1]
  · rfl

/-- STOPPING entered, or IDLE at once: the episode ended, the hold point, p, f and the store as they were. -/
theorem lane_enterStopping (s : State) (l : LaneId) :
    ∃ t, (t = .idle ∨ t = .stopping) ∧ ((s.enterStopping l).lane l).seq = { (s.lane l).seq with state := t } ∧
      ((s.enterStopping l).lane l).plu.episode = none ∧
      ((s.enterStopping l).lane l).plu.holdPoint = (s.lane l).plu.holdPoint ∧
      ((s.enterStopping l).lane l).p = (s.lane l).p ∧ ((s.enterStopping l).lane l).f = (s.lane l).f ∧
      (s.enterStopping l).store = s.store := by
  have hfall : ∀ u : Playout, u.beginFall.episode = u.episode ∧ u.beginFall.holdPoint = u.holdPoint := by
    intro u
    unfold Playout.beginFall Playout.silence
    dsimp only
    repeat' split
    all_goals exact ⟨rfl, rfl⟩
  obtain ⟨eseq, ep, ef, estore, eplu⟩ := lane_endEpisode s l
  obtain ⟨sseq, splu, sp, sf, sstore⟩ := lane_setLaneState (s.endEpisode l) l .stopping
  have hplu := splu.trans eplu
  unfold State.enterStopping
  dsimp only
  split
  · unfold State.endFall
    obtain ⟨iseq, iplu, ip, jf, istore⟩ := lane_setLaneState
      ((((s.endEpisode l).setLaneState l .stopping).updLane l fun x =>
        { x with plu := { x.plu.beginFall with cause := none } }).updLane l fun x => { x with plu := x.plu.drop }) l .idle
    refine ⟨.idle, .inl rfl, ?_, ?_, ?_, ?_, ?_, ?_⟩
    · rw [iseq]; simp [sseq, eseq]
    · rw [iplu]; simp [Playout.drop, Playout.silence, hfall, hplu]
    · rw [iplu]; simp [Playout.drop, Playout.silence, hfall, hplu]
    · rw [ip]; simp [sp, ep]
    · rw [jf]; simp [sf, ef]
    · rw [istore]; simp [sstore, estore]
  · refine ⟨.stopping, .inr rfl, ?_, ?_, ?_, ?_, ?_, ?_⟩
    · simp [sseq, eseq]
    · simp [hfall, hplu]
    · simp [hfall, hplu]
    · simp [sp, ep]
    · simp [sf, ef]
    · simp [sstore, estore]

/-- No cell of a share is assigned once all of its cells are released. -/
theorem inShare_releaseAll {s : State} {l : LaneId} {c : StoreCell} (h : c ∈ (s.releaseAll l).store) :
    s.inShare l c = false := by
  have := (List.mem_filter.1 h).2
  simpa using this

/-- Which cells are in a share is read off the applied settings. -/
theorem inShare_of_applied {s t : State} (h : t.applied = s.applied) (l : LaneId) (c : StoreCell) :
    t.inShare l c = s.inShare l c := by
  have hs : ∀ k, t.share k = s.share k := fun k => by
    cases k <;> simp [State.share, State.settings, h]
  cases l <;> simp only [State.inShare, State.firstCell, hs] <;> rfl

/-- What a STOP leaves of a lane that is not STOPPING. -/
theorem stopLane_stopped (s : State) (l : LaneId) (hs : (s.lane l).seq.state ≠ .stopping) :
    ((s.stopLane l).lane l).seq.Stopped ∧ ((s.stopLane l).lane l).plu.holdPoint = none ∧
      ((s.stopLane l).lane l).plu.episode = none ∧ ((s.stopLane l).lane l).f = (s.lane l).p ∧
      ((s.stopLane l).lane l).p = (s.lane l).p ∧ ∀ c ∈ (s.stopLane l).store, s.inShare l c = false := by
  have hap : ((s.stopReading l).dropBind l).applied = s.applied :=
    (follows_dropBind (follows_stopReading (Follows.refl s) l) l).outside.applied
  unfold State.stopLane
  rw [if_neg hs]
  dsimp only
  set u := (s.stopReading l).dropBind l with hu
  have hbind : (u.lane l).seq.bind = none ∧ (u.lane l).seq.reRequest = false := by
    rw [hu, lane_dropBind]
    exact ⟨rfl, rfl⟩
  have hp : (u.lane l).f = (s.lane l).p ∧ (u.lane l).p = (s.lane l).p := by
    rw [hu, lane_dropBind]
    exact lane_stopReading s l
  obtain ⟨ps, n, hv⟩ := lane_retireAll l .cutByHost (u.lane l).seq.cues l u
  have hva := (follows_retireAll (Follows.refl u) l .cutByHost (u.lane l).seq.cues).outside.applied.trans hap
  set v := u.retireAll l .cutByHost (u.lane l).seq.cues with hvd
  set w := v.updLane l fun x => { x with
    seq := { x.seq with segments := [], pendingCue := none, current := none, identity := none, mark := none }
    plu := { x.plu with holdPoint := none } } with hw
  have hcut : ((w.closeReading l).releaseAll l).lane l = Lane.due
      { v.lane l with
        seq := { (v.lane l).seq with segments := [], pendingCue := none, current := none, identity := none, mark := none,
                                     reading := false }
        plu := { (v.lane l).plu with holdPoint := none } } := by
    have hr : ∀ x : State, (x.releaseAll l).lane l = x.lane l := fun x => by cases l <;> rfl
    rw [hr, hw]
    simp [State.closeReading, State.updSeq, State.due]
  obtain ⟨t, ht, eseq, eep, ehold, ep, ef, estore⟩ := lane_enterStopping ((w.closeReading l).releaseAll l) l
  rw [hcut, hv] at eseq ehold ep ef
  refine ⟨?_, ehold, eep, ef.trans hp.1, ep.trans hp.2, fun c hc => ?_⟩
  · rw [eseq]
    exact ⟨ht, rfl, rfl, rfl, rfl, hbind.1, hbind.2, rfl, rfl⟩
  · rw [estore] at hc
    rw [← inShare_releaseAll hc]
    refine (inShare_of_applied ?_ l c).symm
    rw [hw]
    simp [State.closeReading, State.updSeq, hva]

/-- A stopped lane is at ease. -/
theorem Sequencer.Stopped.atEase {x : Lane} (h : x.seq.Stopped) : x.AtEase := by
  refine ⟨⟨?_, fun _ => h.mark, ?_⟩, h.bind, h.reRequest⟩ <;>
    rcases h.state with hs | hs <;> simp [hs]

/-- A stopped lane stays so when only its refresh count changes. -/
theorem Sequencer.Stopped.refreshed {q : Sequencer} (h : q.Stopped) (n : BitVec 16) :
    Sequencer.Stopped { q with refresh := n } :=
  ⟨h.state, h.segments, h.pendingCue, h.current, h.identity, h.bind, h.reRequest, h.mark, h.reading⟩

theorem judgeByState_admits {s : State} {l : LaneId} {p : LaneState → Bool} {f : State → State} (hn : s.share l ≠ 0)
    (hp : p (s.lane l).seq.state = true) : (s.taking (laneCell l)).judgeByState l p f = .taken f := by
  have he : (s.taking (laneCell l)).enabled l = true := by
    have : (s.taking (laneCell l)).share l = s.share l := by cases l <;> rfl
    simpa [State.enabled, this] using hn
  unfold State.judgeByState
  rw [he, State.taking, lane_clearOutputs, hp]
  rfl

/-- The detail of an answer from a lane cell is the lane's state. -/
theorem detail_laneCell (s : State) (l : LaneId) : s.detail (laneCell l) = (s.lane l).seq.state.code := by
  cases l <;> rfl

/-- Settles O19. -/
theorem stopTaken : Obligations.StopTaken := by
  intro l s ha hn hidle
  set u := s.taking (laneCell l) with hu
  have hlane : ∀ k, u.lane k = s.lane k := lane_clearOutputs s _
  have ht : exec (.stop l) s = .next (u.attend (laneCell l) codeStop (.taken fun s => s.stopLane l)) := by
    refine congrArg _ ((onCommand_of ha _).trans ?_)
    rw [judgeByState_admits hn (by simpa [LaneState.admitsStop] using hidle)]
  have hown : OwnEffect s (u.stopLane l) :=
    (follows_stopLane (follows_clearOutputs (Follows.refl s) (some (laneCell l))) l).ownEffect
  set t := u.attend (laneCell l) codeStop (.taken fun s => s.stopLane l) with htd
  refine ⟨t, ht, ?_, fun hs => ?_, fun hs hw => ?_⟩
  · rw [← detail_laneCell]
    exact attend_taken s _ _ _ hown
  · obtain ⟨hstop, hhold, hep, hf, hp, hstore⟩ := stopLane_stopped u l (by rwa [hlane])
    have hl : Leaves (· ≠ l) (· ≠ l) True (u.stopLane l) t :=
      attend_leaves u _ _ (fun s => s.stopLane l) (fun k => if h : k = l then .inr (h ▸ hstop.atEase) else .inl h)
        (fun k => if h : k = l then .inr (.inl (h ▸ hstop.mark)) else .inl h) (.inl trivial)
    obtain ⟨n, hseq⟩ := hl.seq l (by simp)
    have hst := hseq ▸ hstop.refreshed n
    rw [hlane] at hf hp
    have hplu := hl.plu l (by simp)
    refine ⟨hst.state, hst.segments, hst.pendingCue, hst.current, hst.identity, hst.bind, hst.reRequest, hst.mark,
      hst.reading, hplu ▸ hhold, hplu ▸ hep, (hl.f l).trans hf, (hl.p l (by simp)).trans hp, fun c hc => ?_⟩
    rw [← hstore c (hl.store.subset hc)]
    exact (inShare_of_applied (by rw [hu]; rfl) l c).symm
  · have hsame : u.stopLane l = u := by
      unfold State.stopLane
      rw [if_pos (by rwa [hlane])]
    obtain ⟨hmark, hbind, hre⟩ := hw
    have hease : ((u.stopLane l).lane l).AtEase := by
      rw [hsame, hlane]
      exact ⟨⟨by simp [hs], fun _ => hmark, by simp [hs]⟩, hbind, hre⟩
    have hl : Leaves (· ≠ l) (fun _ => True) True (u.stopLane l) t :=
      attend_leaves u _ _ (fun s => s.stopLane l) (fun k => if h : k = l then .inr (h ▸ hease) else .inl h)
        (fun _ => .inl trivial) (.inl trivial)
    rw [hsame] at hl
    have hseq := hl.seq l (by simp)
    have hplu := hl.plu l (by simp)
    rw [hlane] at hseq hplu
    exact ⟨hseq, hplu⟩

end Sys2Proof.Machine
end

section
/-! SUPPORT. What an event leaves of a lane that it is not about. `Keeps l r s` relates a state `r` of an event to a state
`s` reached after it, for a lane `l`: its sequencer, its playout unit, p, f, the conditions of its positions, the cells of its
share and its cue table are the same. The repair scheduler, the run and the transport link controller of the lane may act. -/

namespace Sys2Proof.Machine

set_option Elab.async false

/-! ### Conditions by position -/

/-- The conditions that a span list gives its positions, in their order. -/
def condsOf (l : List Span) : List Condition := l.flatMap fun y => List.replicate y.count y.cond

theorem condsOf_cons (y : Span) (l : List Span) : condsOf (y :: l) = List.replicate y.count y.cond ++ condsOf l := rfl

theorem condsOf_append (a b : List Span) : condsOf (a ++ b) = condsOf a ++ condsOf b := List.flatMap_append

theorem condsOf_pushSpan (x : Span) (l : List Span) : condsOf (pushSpan x l) = condsOf (x :: l) := by
  cases l with
  | nil =>
    rw [pushSpan]
    split
    · rename_i h0
      simp [condsOf, h0]
    · rfl
  | cons y l =>
    rw [pushSpan]
    split
    · rename_i h0
      simp [condsOf_cons, h0]
    · split
      · rename_i hj
        have hc : x.cond = y.cond := by
          simp only [Span.joins, Bool.and_eq_true, beq_iff_eq] at hj
          exact hj.2
        simp only [condsOf_cons, hc, List.replicate_add, List.append_assoc]
      · rfl

/-- The form of R18 leaves every position its condition. -/
theorem condsOf_normalize (l : List Span) : condsOf (normalize l) = condsOf l := by
  induction l with
  | nil => rfl
  | cons y l ih =>
    change condsOf (pushSpan y (normalize l)) = _
    rw [condsOf_pushSpan, condsOf_cons, condsOf_cons, ih]

/-- So does a change of spans that leaves their lengths and conditions. -/
theorem condsOf_map {g : Span → Span} (hg : ∀ y, (g y).count = y.count ∧ (g y).cond = y.cond) (l : List Span) :
    condsOf (l.map g) = condsOf l := by
  induction l with
  | nil => rfl
  | cons y l ih => rw [List.map_cons, condsOf_cons, condsOf_cons, ih, (hg y).1, (hg y).2]

theorem abortSpan_cond (t : RepairTarget) (y : Span) : (abortSpan t y).count = y.count ∧ (abortSpan t y).cond = y.cond := by
  unfold abortSpan
  split <;> exact ⟨rfl, rfl⟩

/-! ### What stays of a lane -/

/-- The lane `y` is `x` but for its repair scheduler, its run, the repair parts of its spans, its counts and its marks. -/
structure Lane.Stays (x y : Lane) : Prop where
  seq : y.seq = x.seq
  plu : y.plu = x.plu
  p : y.p = x.p
  f : y.f = x.f
  conds : condsOf y.spans = condsOf x.spans
  jammed : y.marks.jammed = x.marks.jammed

theorem Lane.Stays.refl (x : Lane) : x.Stays x := ⟨rfl, rfl, rfl, rfl, rfl, rfl⟩

theorem Lane.Stays.trans {x y z : Lane} (h : x.Stays y) (k : y.Stays z) : x.Stays z :=
  ⟨k.seq.trans h.seq, k.plu.trans h.plu, k.p.trans h.p, k.f.trans h.f, k.conds.trans h.conds, k.jammed.trans h.jammed⟩

theorem abortAttempt_stays (x : Lane) : x.Stays x.abortAttempt := by
  unfold Lane.abortAttempt
  split
  · exact ⟨rfl, rfl, rfl, rfl, (condsOf_normalize _).trans (condsOf_map (abortSpan_cond _) _), rfl⟩
  · exact .refl x

theorem updateRefill_stays (x : Lane) (v : LaneSettings) : x.Stays (x.updateRefill v) := by
  unfold Lane.updateRefill
  split <;> exact ⟨rfl, rfl, rfl, rfl, rfl, rfl⟩

theorem startAttempt_stays {x y : Lane} {n : Nat} {q : Span} (h : x.startAttempt n q = some y) : x.Stays y := by
  unfold Lane.startAttempt Lane.activate at h
  repeat' split at h
  all_goals simp only [Option.map_none, Option.map_some, Option.some.injEq, reduceCtorEq] at h
  subst h
  refine ⟨rfl, rfl, rfl, rfl, condsOf_map (fun y => ?_) _, rfl⟩
  split <;> exact ⟨rfl, rfl⟩

/-! ### What stays of a lane's part of a state -/

/-- A byte of the cue table of a lane (11 section 11.3). -/
def inTable (l : LaneId) (a : Nat) : Prop := cueOffset l 0 ≤ a ∧ a < cueOffset l Config.cueEntries

/-- The number of a cell in the share of a lane (R8). -/
def State.numberIn (s : State) (l : LaneId) (n : Nat) : Prop := s.firstCell l ≤ n ∧ n < s.firstCell l + s.share l

/-- What is not about lane `l` leaves these alone. -/
structure Keeps (l : LaneId) (r s : State) : Prop where
  lane : (r.lane l).Stays (s.lane l)
  cells : ∀ n, r.numberIn l n → findCell s.store n = findCell r.store n
  table : ∀ a, inTable l a → Memory.byte s.xm a = Memory.byte r.xm a
  applied : s.applied = r.applied

theorem Keeps.refl (l : LaneId) (s : State) : Keeps l s s := ⟨.refl _, fun _ _ => rfl, fun _ _ => rfl, rfl⟩

/-- Shares are read off the applied settings. -/
theorem numberIn_of_applied {s t : State} (h : t.applied = s.applied) (l : LaneId) (n : Nat) :
    t.numberIn l n ↔ s.numberIn l n := by
  have hs : ∀ k, t.share k = s.share k := fun k => by
    cases k <;> simp [State.share, State.settings, h]
  have hf : t.firstCell l = s.firstCell l := by
    cases l
    · rfl
    · exact hs .a
  unfold State.numberIn
  rw [hs, hf]

section
variable {l : LaneId} {r s : State}

theorem Keeps.trans {t : State} (h : Keeps l r s) (k : Keeps l s t) : Keeps l r t :=
  ⟨h.lane.trans k.lane, fun n hn => (k.cells n ((numberIn_of_applied h.applied l n).2 hn)).trans (h.cells n hn),
    fun a ha => (k.table a ha).trans (h.table a ha), k.applied.trans h.applied⟩

/-- A change that leaves lanes, store, Exchange Memory and applied settings alone. -/
theorem Keeps.of_same {t : State} (h : Keeps l r s) (lane : t.lane l = s.lane l) (store : t.store = s.store := by rfl)
    (xm : t.xm = s.xm := by rfl) (applied : t.applied = s.applied := by rfl) : Keeps l r t :=
  h.trans ⟨lane ▸ .refl _, fun _ _ => by rw [store], fun _ _ => by rw [xm], applied⟩

/-- A lane replaced: another one, or one of which these stay. -/
theorem keeps_setLane (h : Keeps l r s) (k : LaneId) (x : Lane) (hx : k ≠ l ∨ (s.lane k).Stays x) :
    Keeps l r (s.setLane k x) := by
  refine h.trans ⟨?_, fun _ _ => by rw [State.store_setLane], fun _ _ => by rw [State.xm_setLane], by simp⟩
  by_cases hk : l = k
  · subst hk
    rw [State.lane_setLane]
    exact hx.resolve_left fun hn => hn rfl
  · rw [lane_setLane_ne _ hk]
    exact .refl _

/-- Another lane changed. -/
theorem keeps_updLane (h : Keeps l r s) (k : LaneId) (g : Lane → Lane) (hk : k ≠ l) : Keeps l r (s.updLane k g) :=
  keeps_setLane h k _ (.inl hk)

/-- A lane of which these stay. -/
theorem keeps_updRest (h : Keeps l r s) (k : LaneId) (g : Lane → Lane)
    (hg : ∀ x : Lane, x.Stays (g x) := by exact fun _ => ⟨rfl, rfl, rfl, rfl, rfl, rfl⟩) : Keeps l r (s.updLane k g) :=
  keeps_setLane h k _ (.inr (hg _))

theorem keeps_setTlc (h : Keeps l r s) (k : LaneId) (t : Tlc) : Keeps l r (s.setTlc k t) :=
  h.of_same (by simp) (by simp) (by simp) (by simp)

theorem keeps_updLoader (h : Keeps l r s) (g : Loader → Loader) : Keeps l r (s.updLoader g) :=
  h.of_same (by simp)

theorem keeps_countReads (h : Keeps l r s) (n : Nat) : Keeps l r (s.countReads n) := h.of_same (by simp)

/-- Bytes written outside the cue table of the lane. -/
theorem keeps_write (h : Keeps l r s) {a : Nat} {bs : List Byte} (o : Overlap)
    (ha : a + bs.length ≤ cueOffset l 0 ∨ cueOffset l Config.cueEntries ≤ a) :
    Keeps l r { s with xm := Memory.write s.xm a bs, overlap := o } := by
  refine h.trans ⟨by cases l <;> exact .refl _, fun _ _ => rfl, fun b hb => Memory.byte_write_out _ _ _ _ ?_, rfl⟩
  obtain ⟨h1, h2⟩ := hb
  omega

theorem keeps_setWords (h : Keeps l r s) (a : Nat) (ws : List Word)
    (ha : a + 4 * ws.length ≤ cueOffset l 0 ∨ cueOffset l Config.cueEntries ≤ a) : Keeps l r (s.setWords a ws) :=
  keeps_write h _ (by rwa [Memory.flatMap_wordBytes_length])

/-- The records and the news words lie below the cue tables. -/
theorem cueOffset_ge (l : LaneId) (k : Nat) : 0x1000 ≤ cueOffset l k := (cueOffset_mod l k).2

theorem keeps_setNews (h : Keeps l r s) (n : NewsWord) (b : Word) : Keeps l r (s.setNews n b) := by
  refine keeps_write h _ (.inl ?_)
  have := cueOffset_ge l 0
  rw [Memory.wordBytes_length]
  cases n <;> simp only [NewsWord.offset] <;> omega

/-- A cell of one lane's share is none of the other's. -/
theorem inShare_other {k : LaneId} (hk : k ≠ l) {c : StoreCell} (hc : s.numberIn l c.number) : s.inShare k c = false := by
  obtain ⟨h1, h2⟩ := hc
  have hd : ¬ (s.firstCell k ≤ c.number ∧ c.number < s.firstCell k + s.share k) := by
    cases l <;> cases k <;> simp only [State.firstCell, ne_eq, not_true, reduceCtorEq] at * <;> omega
  simpa [State.inShare] using hd

/-- Cells of another lane released. -/
theorem keeps_release (h : Keeps l r s) (k : LaneId) (p : StoreCell → Bool) (hk : k ≠ l) : Keeps l r (s.release k p) := by
  refine h.trans ⟨by cases l <;> exact .refl _, fun n hn => ?_, fun _ _ => rfl, rfl⟩
  unfold findCell State.release
  rw [List.find?_filter]
  congr 1
  funext c
  by_cases hc : c.number = n
  · subst hc
    simp [inShare_other hk hn]
  · simp [hc]

/-! ### Runs and transport link controllers -/

theorem keeps_noteStoreFault (h : Keeps l r s) (k : LaneId) : Keeps l r (s.noteStoreFault k) :=
  keeps_setNews (keeps_updRest h k _) _ _

theorem keeps_due (h : Keeps l r s) (k : LaneId) : Keeps l r (s.due k) := keeps_updRest h k _

theorem keeps_withdrawCheck (h : Keeps l r s) (k : LaneId) : Keeps l r (s.withdrawCheck k) := h.of_same (by simp)

theorem keeps_endRun (h : Keeps l r s) (k : LaneId) : Keeps l r (s.endRun k) := by
  unfold State.endRun
  split
  · exact keeps_withdrawCheck (keeps_updRest h k _) k
  · exact h

theorem keeps_putTlc (h : Keeps l r s) (k : LaneId) (t : Tlc) : Keeps l r (s.putTlc k t) := by
  have h1 := keeps_setTlc h k t
  have h2 := keeps_endRun h1 k
  unfold State.putTlc
  dsimp only
  repeat' split
  · exact h2
  · exact h1
  · exact keeps_due h2 k
  · exact keeps_due h1 k

theorem keeps_changeTlc (h : Keeps l r s) (k : LaneId) (g : Tlc → Tlc) : Keeps l r (s.changeTlc k g) := keeps_putTlc h k _

theorem keeps_halt (h : Keeps l r s) (k : LaneId) : Keeps l r (s.halt k) := by
  unfold State.halt
  split
  · exact keeps_changeTlc (keeps_endRun h k) k _
  · exact h

/-! ### The repair scheduler -/

theorem keeps_sendSeek (h : Keeps l r s) (k : LaneId) (j : RunKind) (g : SegRef) (t : Index) (v : Speed) (w : Bool) :
    Keeps l r (s.sendSeek k j g t v w) := by
  unfold State.sendSeek
  exact keeps_updRest (keeps_changeTlc (keeps_endRun h k) k _) k _

theorem keeps_fillDecision (h : Keeps l r s) (k : LaneId) (w : Bool) : Keeps l r (s.fillDecision k w) := by
  have h1 : Keeps l r (s.updLane k fun x => x.updateRefill (s.settings k)) :=
    keeps_updRest h k _ fun x => updateRefill_stays x _
  unfold State.fillDecision
  dsimp only
  repeat' split
  · exact keeps_updRest (keeps_halt h1 k) k _
  · exact keeps_updRest h1 k _
  · exact keeps_sendSeek (keeps_updRest h1 k _) ..
  · exact keeps_updRest h1 k _

theorem keeps_startAttempt (h : Keeps l r s) (k : LaneId) {n : Nat} {y : Span} {x : Lane}
    (hx : (s.lane k).startAttempt n y = some x) : Keeps l r (s.setLane k x) :=
  keeps_setLane h k x (.inr (startAttempt_stays hx))

theorem keeps_startRepair {t : State} (h : Keeps l r s) (k : LaneId) (ht : s.startRepair k = some t) : Keeps l r t := by
  unfold State.startRepair at ht
  dsimp only at ht
  split at ht
  · split at ht
    · cases ht
    · obtain ⟨x, hx, rfl⟩ := Option.map_eq_some_iff.1 ht
      exact keeps_sendSeek (keeps_startAttempt h k hx) ..
  · cases ht

theorem keeps_chainRepair {t : State} (h : Keeps l r s) (k : LaneId) (q : Option Index)
    (ht : s.chainRepair k q = some t) : Keeps l r t := by
  unfold State.chainRepair at ht
  dsimp only at ht
  repeat' split at ht
  all_goals first
    | cases ht
    | (obtain ⟨x, hx, rfl⟩ := Option.map_eq_some_iff.1 ht
       exact keeps_startAttempt h k hx)

theorem keeps_nextWork (h : Keeps l r s) (k : LaneId) (q : Point) : Keeps l r (s.nextWork k q) := by
  unfold State.nextWork
  split
  · rename_i t ht
    split at ht
    · exact keeps_chainRepair h k _ ht
    · cases ht
  · split
    · rename_i t ht
      split at ht
      · cases ht
      · exact keeps_startRepair h k ht
    · exact keeps_fillDecision h k _

theorem keeps_workDecision (h : Keeps l r s) (k : LaneId) (q : Point) : Keeps l r (s.workDecision k q) := by
  have habort : ∀ x : Lane, x.Stays { x.abortAttempt with rsc := { x.abortAttempt.rsc with refillWait := false } } :=
    fun x => (abortAttempt_stays x).trans ⟨rfl, rfl, rfl, rfl, rfl, rfl⟩
  unfold State.workDecision State.reseekRepair
  dsimp only
  repeat' split
  · exact keeps_fillDecision (keeps_updRest h k _ habort) k _
  · exact keeps_sendSeek h ..
  · exact h
  · exact h
  · exact keeps_nextWork h k q

theorem keeps_standDown (h : Keeps l r s) (k : LaneId) (m : WorkMode) (w : Option RestReason) :
    Keeps l r (s.standDown k m w) :=
  keeps_updRest h k _ fun x => (abortAttempt_stays x).trans ⟨rfl, rfl, rfl, rfl, rfl, rfl⟩

theorem keeps_overtake (h : Keeps l r s) (k : LaneId) (q : Point) : Keeps l r (s.overtake k q).1 := by
  unfold State.overtake
  dsimp only
  split
  · dsimp only
    exact keeps_updRest h k _
  · exact h

/-- A scheduling point of any lane. -/
theorem keeps_schedule (h : Keeps l r s) (k : LaneId) (q : Point) : Keeps l r (s.schedule k q) := by
  have h1 := keeps_overtake (keeps_updRest h k fun x => { x with marks := { x.marks with schedule := false } }) k q
  unfold State.schedule
  dsimp only
  split
  · exact keeps_halt (keeps_standDown h1 k _ _) k
  · split
    · exact keeps_standDown h1 k _ _
    · exact keeps_standDown h1 k _ _
    · exact keeps_standDown h1 k _ _
    · exact keeps_standDown h1 k _ _
    · exact keeps_standDown h1 k _ _
    all_goals
      split
      · exact keeps_standDown h1 k _ _
      · exact keeps_workDecision h1 k _

/-! ### The loader queue -/

theorem keeps_recordOutcome (h : Keeps l r s) (q : LoaderRequest) (o : LoaderOutcome) :
    Keeps l r (s.recordOutcome q o) := by
  refine keeps_setNews (keeps_setWords (keeps_updLoader (keeps_updLoader h _) _) _ _ (.inl ?_)) _ _
  rw [loaderWords_length]
  have := cueOffset_ge l 0
  simp only [loaderOffset]
  omega

theorem keeps_postBind (h : Keeps l r s) (k : LaneId) (n : Nat) (t : Byte) (hk : k ≠ l) :
    Keeps l r (s.postBind k n t) := by
  unfold State.postBind
  split
  · exact keeps_updLane h k _ hk
  · split
    · exact keeps_updLoader h _
    · exact h

/-! ### The sequencer of another lane -/

theorem keeps_setLaneState (h : Keeps l r s) (k : LaneId) (t : LaneState) (hk : k ≠ l) :
    Keeps l r (s.setLaneState k t) := keeps_updLane h k _ hk

theorem keeps_endEpisode (h : Keeps l r s) (k : LaneId) (hk : k ≠ l) : Keeps l r (s.endEpisode k) := by
  unfold State.endEpisode
  split
  · exact h
  · exact keeps_updLane (keeps_countReads h 1) k _ hk

theorem keeps_updSeq (h : Keeps l r s) (k : LaneId) (g : Sequencer → Sequencer) (hk : k ≠ l) : Keeps l r (s.updSeq k g) :=
  keeps_updLane h k _ hk

theorem keeps_closeReading (h : Keeps l r s) (k : LaneId) (hk : k ≠ l) : Keeps l r (s.closeReading k) :=
  keeps_due (keeps_updSeq h k _ hk) k

theorem keeps_openReading (h : Keeps l r s) (k : LaneId) (hk : k ≠ l) : Keeps l r (s.openReading k) :=
  keeps_due (keeps_updSeq h k _ hk) k

/-- An entry of another lane's table lies outside the table of the lane. -/
theorem entry_outside {k : LaneId} (hk : k ≠ l) {n : Nat} (hn : n < Config.cueEntries) :
    cueOffset k n + 32 ≤ cueOffset l 0 ∨ cueOffset l Config.cueEntries ≤ cueOffset k n := by
  simp only [Config.cueEntries] at hn ⊢
  cases l <;> cases k <;> simp only [cueOffset, ne_eq, not_true, reduceCtorEq] at * <;> omega

theorem keeps_retire (h : Keeps l r s) (k : LaneId) (q : TakenCue) (o : CueOutcome) (hk : k ≠ l)
    (hq : q.entry < Config.cueEntries) : Keeps l r (s.retire k q o) := by
  have hout := entry_outside hk hq
  unfold State.retire
  dsimp only
  split
  · refine keeps_setNews (keeps_setWords (keeps_setWords (keeps_updSeq (keeps_countReads h 1) k _ hk) _ _ ?_) _ _ ?_) _ _
    · simp only [List.length_cons, List.length_nil]
      omega
    · simp only [List.length_cons, List.length_nil]
      omega
  · exact keeps_updSeq (keeps_countReads h 1) k _ hk

theorem keeps_retireAll (k : LaneId) (o : CueOutcome) (hk : k ≠ l) (cs : List TakenCue) : ∀ {s : State},
    (∀ q ∈ cs, q.entry < Config.cueEntries) → Keeps l r s → Keeps l r (s.retireAll k o cs) := by
  induction cs with
  | nil => exact fun _ h => h
  | cons q cs ih =>
    exact fun hq h => ih (fun c hc => hq c (List.mem_cons_of_mem _ hc)) (keeps_retire h k q o hk (hq q List.mem_cons_self))

theorem keeps_retireNormal (k : LaneId) (hk : k ≠ l) (cs : List TakenCue) : ∀ {s : State},
    (∀ q ∈ cs, q.entry < Config.cueEntries) → Keeps l r s → Keeps l r (s.retireNormal k cs) := by
  induction cs with
  | nil => exact fun _ h => h
  | cons q cs ih =>
    exact fun hq h => ih (fun c hc => hq c (List.mem_cons_of_mem _ hc)) (keeps_retire h k q _ hk (hq q List.mem_cons_self))

theorem keeps_establish (h : Keeps l r s) (k : LaneId) (hk : k ≠ l) : Keeps l r (s.establish k) := by
  unfold State.establish
  split
  · exact h
  · exact keeps_updSeq h k _ hk

theorem keeps_prime (h : Keeps l r s) (k : LaneId) (hk : k ≠ l) : Keeps l r (s.prime k).1 := by
  unfold State.prime
  dsimp only
  repeat' split
  · exact h
  · exact keeps_openReading (keeps_updSeq h k _ hk) k hk
  · exact h

theorem keeps_enterPriming (h : Keeps l r s) (k : LaneId) (hk : k ≠ l) : Keeps l r (s.enterPriming k).1 := by
  unfold State.enterPriming
  dsimp only
  refine keeps_prime ?_ k hk
  split
  · exact keeps_establish (keeps_setLaneState h k _ hk) k hk
  · exact keeps_setLaneState h k _ hk

theorem keeps_sendBind (h : Keeps l r s) (k : LaneId) (n : Nat) (hk : k ≠ l) : Keeps l r (s.sendBind k n) :=
  keeps_postBind (keeps_updSeq h k _ hk) k _ _ hk

theorem keeps_findDisc (h : Keeps l r s) (k : LaneId) (q : TakenCue) (hk : k ≠ l) : Keeps l r (s.findDisc k q).1 := by
  unfold State.findDisc
  dsimp only
  repeat' split
  · exact keeps_enterPriming h k hk
  · exact keeps_setLaneState h k _ hk
  · exact h
  · exact keeps_enterPriming (keeps_updSeq h k _ hk) k hk
  · exact keeps_sendBind (keeps_setLaneState h k _ hk) k _ hk

theorem keeps_walkClose (h : Keeps l r s) (k : LaneId) (hk : k ≠ l) : Keeps l r (s.walkClose k) :=
  keeps_updSeq (keeps_closeReading h k hk) k _ hk

theorem keeps_stopPlayout (h : Keeps l r s) (k : LaneId) (hk : k ≠ l) : Keeps l r (s.stopPlayout k) :=
  keeps_updLane (keeps_endEpisode h k hk) k _ hk

theorem keeps_takePending (h : Keeps l r s) (k : LaneId) (q : TakenCue) (hk : k ≠ l) :
    Keeps l r (s.takePending k q).1 := by
  unfold State.takePending
  split
  · exact keeps_findDisc (keeps_updSeq h k _ hk) k q hk
  · exact h

theorem keeps_endOfWalk (h : Keeps l r s) (k : LaneId) (hk : k ≠ l) :
    Keeps l r (((s.setLaneState k .idle).releaseAll k).updSeq k fun q => { q with identity := none }) :=
  keeps_updSeq (keeps_release (keeps_setLaneState h k _ hk) k _ hk) k _ hk

theorem keeps_walk (k : LaneId) (hk : k ≠ l) (n : Nat) : ∀ (w : WalkStep) (_ : w.InTable) {s : State}, Keeps l r s →
    Keeps l r (State.walk n w s k) := by
  induction n with
  | zero =>
    intro w _ s h
    cases w with
    | endOfWalk => exact keeps_endOfWalk h k hk
    | starved => exact keeps_setLaneState h k _ hk
    | entry j w => exact h
  | succ n ih =>
    intro w hw s h
    cases w with
    | endOfWalk => exact keeps_endOfWalk h k hk
    | starved => exact keeps_setLaneState h k _ hk
    | entry j w =>
      have h1 := keeps_takePending (keeps_updSeq (keeps_countReads h hostFieldWords) k
        (fun q => { q with position := j, lanePasses := if w then bump q.lanePasses else q.lanePasses }) hk) k
        (s.readCue k j) hk
      unfold State.walk
      dsimp only
      split
      · exact ih _ (walkStep_inTable _ k) (keeps_countReads (keeps_walkClose (keeps_retire h1 k _ _ hk (hw j w rfl)) k hk) _)
      · exact h1

theorem keeps_walkOn (h : Keeps l r s) (k : LaneId) (hk : k ≠ l) : Keeps l r (s.walkOn k) :=
  keeps_walk k hk _ _ (walkStep_inTable _ k) (keeps_countReads (keeps_stopPlayout (keeps_walkClose h k hk) k hk) _)

theorem State.Inv.cues {s : State} (h : s.Inv) (k : LaneId) : (s.lane k).seq.Kept := (h.lane k).2.1

/-- Every taken cue of a lane is an entry of its table. -/
theorem Sequencer.Kept.cues_inTable {q : Sequencer} (h : q.Kept) : ∀ c ∈ q.cues, c.entry < Config.cueEntries := by
  intro c hc
  rcases List.mem_append.1 hc with hc | hc
  · obtain ⟨g, hg, rfl⟩ := List.mem_map.1 hc
    exact h.segmentEntry g hg
  · exact h.pendingEntry c (Option.mem_toList.1 hc)

theorem keeps_retirePending (h : Keeps l r s) (k : LaneId) (o : CueOutcome) (hk : k ≠ l) (hi : (s.lane k).seq.Kept) :
    Keeps l r (s.retirePending k o) := by
  unfold State.retirePending
  split
  · exact h
  · rename_i c hc
    exact keeps_walkOn (keeps_retire h k _ o hk (hi.pendingEntry c hc)) k hk

theorem keeps_primingOrRetire (h : Keeps l r s) (k : LaneId) (hk : k ≠ l) (hi : s.Inv) :
    Keeps l r (s.primingOrRetire k) := by
  have hp : (s.enterPriming k).1.Inv := (follows_enterPriming (Follows.refl s) k).inv hi
  unfold State.primingOrRetire
  dsimp only
  split
  · exact keeps_retirePending (keeps_enterPriming h k hk) k _ hk (hp.cues k)
  · exact keeps_enterPriming h k hk

theorem keeps_crossing (h : Keeps l r s) (k : LaneId) (g : Segment) (w : Bool) (hk : k ≠ l) (hi : (s.lane k).seq.Kept) :
    Keeps l r (s.crossing k g w) := by
  unfold State.crossing
  refine keeps_updLane (keeps_retireNormal k hk _ (fun q hq => ?_) h) k _ hk
  obtain ⟨y, hy, rfl⟩ := List.mem_map.1 hq
  exact hi.segmentEntry y ((List.takeWhile_sublist _).subset hy)

theorem keeps_streamEnd (h : Keeps l r s) (k : LaneId) (hk : k ≠ l) (hi : (s.lane k).seq.Kept) :
    Keeps l r (s.streamEnd k) := by
  refine keeps_walkOn (keeps_updSeq (keeps_retireNormal k hk _ (fun q hq => ?_) h) k _ hk) k hk
  obtain ⟨y, hy, rfl⟩ := List.mem_map.1 hq
  exact hi.segmentEntry y hy

theorem keeps_playOutCut (h : Keeps l r s) (k : LaneId) (hk : k ≠ l) (hi : (s.lane k).seq.Kept) :
    Keeps l r (s.playOutCut k) := by
  unfold State.playOutCut
  split
  · exact h
  · exact keeps_walkOn
      (keeps_release (keeps_updLane (keeps_retireAll k _ hk _ hi.cues_inTable h) k _ hk) k _ hk) k hk

/-- An outcome of a BIND: of another lane, or of a lane that has none outstanding. -/
theorem keeps_bindOutcome (h : Keeps l r s) (k : LaneId) (t : Byte) (o : LoaderOutcome)
    (hk : k ≠ l ∨ (s.lane k).seq.bind = none) (hi : s.Inv) : Keeps l r (s.bindOutcome k t o) := by
  unfold State.bindOutcome
  split
  · exact h
  · rename_i q hq
    have hk : k ≠ l := hk.resolve_right fun hn => by rw [hn] at hq; cases hq
    have h1 := keeps_updSeq h k (fun q => { q with bind := none }) hk
    have hi1 : (s.updSeq k fun q => { q with bind := none }).Inv := (follows_updSeq (Follows.refl s) k _).inv hi
    split
    · exact h
    · dsimp only
      split
      · exact keeps_primingOrRetire (keeps_updSeq h1 k _ hk) k hk ((follows_updSeq (Follows.refl _) k _).inv hi1)
      · exact keeps_retirePending h1 k _ hk (hi1.cues k)
      · exact keeps_retirePending h1 k _ hk (hi1.cues k)
      · exact keeps_retirePending h1 k _ hk (hi1.cues k)
      · exact keeps_retirePending h1 k _ hk (hi1.cues k)
      · exact keeps_updSeq h1 k _ hk
      · exact h1

/-- The end of a recovery at a lane: at another one, or at one that has no BIND to send again. -/
theorem keeps_recoveryEnded (h : Keeps l r s) (k : LaneId) (hk : k ≠ l ∨ (s.lane k).seq.reRequest = false) :
    Keeps l r (s.recoveryEnded k) := by
  unfold State.recoveryEnded
  dsimp only
  split
  · rename_i hq
    have hk : k ≠ l := hk.resolve_right fun hn => by rw [hn] at hq; cases hq
    split
    · exact keeps_sendBind (keeps_updSeq h k _ hk) k _ hk
    · exact keeps_updSeq h k _ hk
  · exact h

/-! ### The playout of another lane -/

theorem keeps_readForPlay (h : Keeps l r s) (k : LaneId) : Keeps l r (s.readForPlay k).1 := by
  unfold State.readForPlay
  dsimp only
  repeat' split
  all_goals first | exact h | exact keeps_noteStoreFault h k

theorem keeps_readNext (h : Keeps l r s) (k : LaneId) : Keeps l r (s.readNext k).1 := by
  unfold State.readNext
  dsimp only
  repeat' split
  all_goals first | exact h | exact keeps_noteStoreFault h k

theorem keeps_countLoss (h : Keeps l r s) (k : LaneId) (a m : Nat) (q : LossCause) (hk : k ≠ l) :
    Keeps l r (s.countLoss k a m q) := by
  unfold State.countLoss
  split
  · exact keeps_endEpisode h k hk
  · exact keeps_updLane h k _ hk

theorem keeps_takeUp (h : Keeps l r s) (k : LaneId) (w : Bool) (hk : k ≠ l) (hi : s.Inv) :
    Keeps l r (s.takeUp k w) := by
  unfold State.takeUp
  dsimp only
  have h1 := keeps_readForPlay h k
  have hi1 := (follows_readForPlay (Follows.refl s) k).inv hi
  generalize s.readForPlay k = v at h1 hi1 ⊢
  obtain ⟨u, q⟩ := v
  dsimp only at h1 hi1 ⊢
  generalize hv : (if q.form = .copy ∧ needsNext (s.settings k).interpLimit q.marks then u.readNext k
    else (u, none)) = v
  have h2 : Keeps l r v.1 ∧ v.1.Inv := by
    rw [← hv]
    split
    · exact ⟨keeps_readNext h1 k, (follows_readNext (Follows.refl u) k).inv hi1⟩
    · exact ⟨h1, hi1⟩
  refine keeps_countLoss (keeps_updLane ?_ k _ hk) k _ _ _ hk
  split
  · exact keeps_crossing h2.1 k _ _ hk (h2.2.cues k)
  · exact h2.1

theorem keeps_enterUnderrun (h : Keeps l r s) (k : LaneId) (hk : k ≠ l) (hi : s.Inv) :
    Keeps l r (s.enterUnderrun k) := by
  have hu := follows_setLaneState (follows_endEpisode (Follows.refl s) k) k .underrun
  have h1 := keeps_setLaneState (keeps_endEpisode h k hk) k .underrun hk
  unfold State.enterUnderrun
  dsimp only
  split
  · refine keeps_streamEnd (keeps_updLane h1 k _ hk) k hk ?_
    rw [State.lane_updLane]
    exact (hu.inv hi).cues k
  · exact keeps_updLane h1 k _ hk

theorem keeps_startPlay (h : Keeps l r s) (k : LaneId) (hk : k ≠ l) (hi : s.Inv) : Keeps l r (s.startPlay k) := by
  have h1 := keeps_updLane (keeps_setLaneState h k .playing hk) k
    (fun x => { x with plu := { x.plu with cause := none } }) hk
  have hi1 := (follows_updLane (follows_setLaneState (Follows.refl s) k .playing) k
    (fun x => { x with plu := { x.plu with cause := none } })).inv hi
  unfold State.startPlay
  dsimp only
  split
  · exact keeps_enterUnderrun h1 k hk hi1
  · exact keeps_takeUp h1 k _ hk hi1

/-! ### The loader controller -/

theorem keeps_beginQuiet (h : Keeps l r s) (k : LaneId) : Keeps l r (s.beginQuiet k) :=
  keeps_halt (keeps_due (keeps_updRest h k _) k) k

theorem keeps_beginStage (h : Keeps l r s) (g : Stage) (q : StageCommand) (w : Bool) : Keeps l r (s.beginStage g q w) := by
  unfold State.beginStage State.command
  exact keeps_updLoader (keeps_updLoader h _) _

theorem keeps_beginTake (h : Keeps l r s) : Keeps l r s.beginTake := by
  unfold State.beginTake
  split
  · exact keeps_beginStage h _ _ _
  · exact h

/-- The outcome of a request: not of a BIND of the lane, or the lane has none outstanding. -/
theorem keeps_endOutcome (h : Keeps l r s) (q : LoaderRequest) (o : LoaderOutcome)
    (hq : q.ofLane l = false ∨ (s.lane l).seq.bind = none) (hi : s.Inv) : Keeps l r (s.endOutcome q o) := by
  refine keeps_recordOutcome ?_ q o
  cases q with
  | bind k n t =>
    refine keeps_bindOutcome h k t o ?_ hi
    by_cases hk : k = l
    · subst hk
      exact .inr (hq.resolve_left (by simp [LoaderRequest.ofLane]))
    · exact .inl hk
  | eject n => exact h
  | insert n => exact h
  | rescan => exact h

theorem keeps_beginHoming (h : Keeps l r s) (k : HomingKind) : Keeps l r (s.beginHoming k) :=
  keeps_beginStage (keeps_beginQuiet (keeps_beginQuiet (keeps_updLoader h _) .a) .b) _ _ _

theorem keeps_prepareLane (h : Keeps l r s) (q : LoaderRequest) (legs : List Leg) (k : LaneId) :
    Keeps l r (s.prepareLane q legs k) := by
  have h1 := keeps_updLoader (keeps_changeTlc h k fun t => t.spindleStop.1) fun d => d.setStopped k true
  unfold State.prepareLane
  dsimp only
  repeat' split
  · exact h1
  · exact h
  · exact keeps_beginQuiet h1 k
  · exact keeps_beginQuiet h k

/-- A BIND's move begun: it is told to the lane whose BIND it is, where one is outstanding. -/
theorem keeps_bindBegun (h : Keeps l r s) (q : LoaderRequest) (hb : (s.lane l).seq.bind = none) :
    Keeps l r (s.bindBegun q) := by
  cases q with
  | bind k n t =>
    unfold State.bindBegun
    by_cases hk : k = l
    · subst hk
      refine keeps_setLane h k _ (.inr ⟨?_, rfl, rfl, rfl, rfl, rfl⟩)
      dsimp only
      rw [hb, Option.map_none, ← hb]
    · exact keeps_updSeq h k _ hk
  | eject n => exact h
  | insert n => exact h
  | rescan => exact h

theorem keeps_startLegs (h : Keeps l r s) (q : LoaderRequest) (legs : List Leg) (hb : (s.lane l).seq.bind = none) :
    Keeps l r (s.startLegs q legs) := by
  have h1 := keeps_updLoader h fun d =>
    { d with state := .moving, current := some { request := q, legs := legs, leg := 1 }, stage := none }
  have h2 := keeps_prepareLane (keeps_prepareLane (keeps_bindBegun h1 q (by simpa using hb)) q legs .a) q legs .b
  unfold State.startLegs
  dsimp only
  split
  · exact keeps_beginTake h2
  · exact h2

/-- A request started while the lane has no BIND outstanding. -/
theorem keeps_startRequest (h : Keeps l r s) (w : Waiting) (hb : (s.lane l).seq.bind = none) (hi : s.Inv) :
    Keeps l r (s.startRequest w) := by
  unfold State.startRequest
  dsimp only
  generalize hu : (if w.due && !s.gateOpen w.request then
      s.updLoader fun d => { d with count := { d.count with forced := bump d.count.forced } } else s) = u
  have h1 : Keeps l r u ∧ u.Inv ∧ (u.lane l).seq.bind = none := by
    rw [← hu]
    split
    · exact ⟨keeps_updLoader h _, (follows_updLoader (Follows.refl s) _).inv hi, by simpa using hb⟩
    · exact ⟨h, hi, hb⟩
  obtain ⟨hk, hi1, hb1⟩ := h1
  split
  · exact keeps_endOutcome hk _ _ (.inr hb1) hi1
  · exact keeps_startLegs hk _ _ hb1
  · exact keeps_beginHoming (keeps_updLoader hk _) _

theorem keeps_arbitrate (h : Keeps l r s) (w : Waiting) (hb : (s.lane l).seq.bind = none) (hi : s.Inv) :
    Keeps l r (s.arbitrate w) :=
  keeps_startRequest (keeps_updLoader h _) w (by simpa using hb)
    ((follows_updLoader (Follows.refl s) _ fun _ hd => hd.of_sublist List.erase_sublist).inv hi)

theorem keeps_endRecovery (h : Keeps l r s) (hr : (s.lane l).seq.reRequest = false) : Keeps l r s.endRecovery := by
  have h1 := keeps_updLoader h fun d =>
    { d with recoveryTimer := none, state := if d.faultMark then .faulted else .idle }
  unfold State.endRecovery
  cases l with
  | a => exact keeps_recoveryEnded (keeps_recoveryEnded h1 .a (.inr (by simpa using hr))) .b (.inl (by simp))
  | b =>
    refine keeps_recoveryEnded (keeps_recoveryEnded h1 .a (.inl (by simp))) .b (.inr ?_)
    rw [lane_recoveryEnded_other _ (by simp)]
    simpa using hr

/-! ### What follows on another lane -/

theorem keeps_followLane {t : State} (h : Keeps l r s) (k : LaneId) (hk : k ≠ l) (hi : s.Inv)
    (ht : s.followLane k = some t) : Keeps l r t := by
  unfold State.followLane at ht
  split at ht
  · rename_i u hu
    cases ht
    unfold State.handJammed at hu
    split at hu
    · cases hu
    · cases hu
      refine keeps_endOutcome (keeps_updLane h k _ hk) _ _ (.inl ?_) ((follows_updLane (Follows.refl s) k _).inv hi)
      simpa [LoaderRequest.ofLane] using hk
  · split at ht
    · cases ht
      exact keeps_playOutCut h k hk (hi.cues k)
    · split at ht
      · cases ht
        exact keeps_schedule h k _
      · split at ht
        · cases ht
          exact keeps_startPlay h k hk hi
        · cases ht

end

end Sys2Proof.Machine
end

section
/-! A BLOCK appended at f (O30). -/

namespace Sys2Proof.Machine

set_option Elab.async false

/-! ### Conditions by position, and the claims of a map (R18, R23, R35) -/

/-- In a map that covers its window a position's condition stands in the list at its distance from p. -/
theorem cond_find {f : Index} (i : Index) : ∀ {l : List Span} {p : Index}, SpansCover p f l →
    (l.find? fun y => y.contains i).map Span.cond = (condsOf l)[ahead i p]?
  | [], _, _ => rfl
  | y :: l, p, hc => by
    obtain ⟨rfl, hc⟩ := hc
    rw [condsOf_cons]
    by_cases hi : ahead i y.first < y.count
    · rw [List.getElem?_append_left (by simpa using hi), List.find?_cons_of_pos (by simpa [Span.contains] using hi)]
      simp [hi]
    · have hp : ahead i (plus y.first y.count) = ahead i y.first - y.count := by
        have hlt : ahead i y.first < 2 ^ 32 := (i - y.first).isLt
        unfold ahead plus at *
        bv_omega
      rw [List.getElem?_append_right (by simpa using hi), List.find?_cons_of_neg (by simpa [Span.contains] using hi),
        cond_find i hc, hp, List.length_replicate]

theorem conditionAt_condsOf {x : Lane} {n : Nat} (h : MapFormed x.p x.f x.spans n) (i : Index) :
    x.conditionAt i = (condsOf x.spans)[ahead i x.p]? := cond_find i h.cover

theorem condsOf_length (l : List Span) : (condsOf l).length = (l.map Span.count).sum := by
  induction l with
  | nil => rfl
  | cons y l ih => rw [condsOf_cons, List.length_append, List.length_replicate, ih, List.map_cons, List.sum_cons]

/-- A position put at the end of a map puts its condition at the end. -/
theorem condsOf_growSpans (l : List Span) (n : Span) (hn : n.count = 1) :
    condsOf (growSpans l n) = condsOf l ++ [n.cond] := by
  have hone : condsOf [n] = [n.cond] := by simp [condsOf, hn]
  unfold growSpans
  split
  · rename_i y hy
    obtain ⟨k, rfl⟩ := List.getLast?_eq_some_iff.1 hy
    split
    · rename_i hj
      have hc : y.cond = n.cond := by
        simp only [Span.joins, Bool.and_eq_true, beq_iff_eq] at hj
        exact hj.2
      rw [List.dropLast_concat, condsOf_append, condsOf_append, List.append_assoc]
      simp [condsOf, hn, hc, List.replicate_succ']
    · rw [condsOf_append, hone]
  · rename_i hy
    rw [List.getLast?_eq_none_iff.1 hy, hone]
    rfl

theorem Condition.EndsAs.refl (c : Condition) : c.EndsAs c := .inl rfl

theorem endsAs_givenUp (c : Condition) : c.EndsAs c.givenUp := by
  cases c <;> simp [Condition.EndsAs, Condition.givenUp]

theorem endSpan_count (t : RepairTarget) (m : Nat) (y : Span) : (endSpan t m y).count = y.count := by
  unfold endSpan
  repeat' split
  all_goals rfl

theorem endSpan_cond (t : RepairTarget) (m : Nat) (y : Span) : y.cond.EndsAs (endSpan t m y).cond := by
  unfold endSpan
  repeat' split
  all_goals first
    | exact .refl _
    | exact endsAs_givenUp _

/-- A span that the target does not reach, or that has no repair part, keeps its condition at the end of an attempt. -/
theorem endSpan_cond_outside {t : RepairTarget} {y : Span} (m : Nat) (h : (y.repair.isSome && t.overlaps y) = false) :
    (endSpan t m y).cond = y.cond := by
  unfold endSpan
  split
  · rfl
  · rename_i r hr
    rw [hr] at h
    rw [if_neg (by simpa using h)]

/-- The end of an attempt leaves every position its condition or the one given up (R35). -/
theorem condsOf_endSpan (t : RepairTarget) (m : Nat) (l : List Span) :
    List.Forall₂ Condition.EndsAs (condsOf l) (condsOf (l.map (endSpan t m))) := by
  induction l with
  | nil => exact .nil
  | cons y l ih =>
    rw [List.map_cons, condsOf_cons, condsOf_cons, endSpan_count]
    refine List.rel_append ?_ ih
    exact List.forall₂_iff_get.2 ⟨by simp, fun i _ _ => by simpa using endSpan_cond t m y⟩

/-- The end of an attempt that no span answers any more leaves every condition. -/
theorem condsOf_endSpan_outside {t : RepairTarget} (m : Nat) {l : List Span}
    (h : l.any (fun y => y.repair.isSome && t.overlaps y) = false) :
    condsOf (l.map (endSpan t m)) = condsOf l := by
  induction l with
  | nil => rfl
  | cons y l ih =>
    rw [List.any_cons, Bool.or_eq_false_iff] at h
    rw [List.map_cons, condsOf_cons, condsOf_cons, endSpan_count, endSpan_cond_outside m h.1, ih h.2]

/-! ### The append claim (R23) -/

/-- The span list that an append leaves. -/
def Lane.appended (x : Lane) (g : SegRef) (c : CopyClass) : List Span :=
  growSpans x.spans
    { first := x.f, count := 1, seg := g, cond := x.guarded x.f (appendedCondition c),
      repair := repairOf (x.guarded x.f (appendedCondition c)) none }

theorem append_eq (x : Lane) (g : SegRef) (c : CopyClass) :
    x.append g c =
      if Config.maxSpans < (x.appended g c).length then none
      else some { x.withSpans (x.appended g c) with f := plus x.f 1 } := rfl

/-- The condition of an appended position is that of R23's table. -/
theorem condsOf_appended (x : Lane) (g : SegRef) (c : CopyClass) :
    condsOf (x.appended g c) = condsOf x.spans ++ [conditionOf c (decide (x.bufferedLead < x.guard))] := by
  unfold Lane.appended
  rw [condsOf_growSpans _ _ rfl]
  congr 2
  unfold Lane.guarded Lane.inGuard Lane.bufferedLead
  by_cases h : ahead x.f x.p < x.guard <;> cases c <;>
    simp [h, conditionOf, appendedCondition, Condition.givenUp]

/-- Where an append's map has an active span, the map had one before. -/
theorem quiet_appended {x : Lane} (g : SegRef) (c : CopyClass) (h : Quiet x.spans) : Quiet (x.appended g c) := by
  refine h.growSpans (active_of_repair fun r hr => ?_)
  exact repairOf_quiet (o := none) (by simp) r hr

/-- A target not widened: the lane's spans are put in place and none is active. -/
theorem withSpans_target_quiet {x : Lane} {l : List Span} (h : Quiet l) : (x.withSpans l).rsc.target = x.rsc.target := by
  unfold Lane.withSpans
  dsimp only
  split
  · rename_i ha
    rw [Lane.activeSpan, h.find] at ha
    cases ha
  · rfl

/-- The last position of a target inside the window is not after f. -/
theorem not_before_of_inside {p f t : Index} {n : Nat} (hf : ahead f p ≤ n) (hn : n ≤ Config.storeCells)
    (ht : ahead t p < ahead f p) : before f t = false := by
  simp only [Config.storeCells] at hn
  unfold before ahead at *
  rw [BitVec.msb_eq_decide]
  simp only [decide_eq_false_iff_not, not_le]
  bv_omega

/-! ### What the bookkeeping of an intake leaves of a lane -/

/-- The lane `y` is `x` but for its run, its marks and its sequencer, and the run is of its kind and the sequencer waits for
what it waited for. -/
structure Lane.Noted (x y : Lane) : Prop where
  rest : y = { x with seq := y.seq, run := y.run, marks := y.marks }
  kind : y.run.kind = x.run.kind
  mark : y.seq.mark = x.seq.mark
  bind : y.seq.bind = x.seq.bind
  reRequest : y.seq.reRequest = x.seq.reRequest

theorem Lane.Noted.refl (x : Lane) : x.Noted x := ⟨rfl, rfl, rfl, rfl, rfl⟩

theorem Lane.Noted.trans {x y z : Lane} (h : x.Noted y) (k : y.Noted z) : x.Noted z := by
  refine ⟨?_, k.kind.trans h.kind, k.mark.trans h.mark, k.bind.trans h.bind, k.reRequest.trans h.reRequest⟩
  have hk := k.rest
  rw [h.rest] at hk
  exact hk

/-- The lane `l` of `t` is that of `s` but for such bookkeeping, and the store is the same. -/
structure Notes (l : LaneId) (s t : State) : Prop where
  lane : (s.lane l).Noted (t.lane l)
  store : t.store = s.store

section
variable {l : LaneId} {r s : State}

theorem Notes.refl (l : LaneId) (s : State) : Notes l s s := ⟨.refl _, rfl⟩

theorem notes_updLane (h : Notes l r s) (g : Lane → Lane) (hg : (s.lane l).Noted (g (s.lane l))) :
    Notes l r (s.updLane l g) :=
  ⟨h.lane.trans (by rwa [State.lane_updLane]), by rw [State.store_updLane, h.store]⟩

theorem notes_due (h : Notes l r s) : Notes l r (s.due l) := notes_updLane h _ ⟨rfl, rfl, rfl, rfl, rfl⟩

theorem notes_countReads (h : Notes l r s) (n : Nat) : Notes l r (s.countReads n) :=
  ⟨by rw [State.lane_countReads]; exact h.lane, h.store⟩

theorem notes_endRun (h : Notes l r s) : Notes l r (s.endRun l) := by
  refine ⟨?_, by rw [State.store_endRun, h.store]⟩
  unfold State.endRun
  split
  · rw [State.lane_withdrawCheck]
    exact (notes_updLane h (fun x => { x with run := x.run.finish }) ⟨rfl, rfl, rfl, rfl, rfl⟩).lane
  · exact h.lane

theorem notes_setTlc (h : Notes l r s) (t : Tlc) : Notes l r (s.setTlc l t) :=
  ⟨by rw [State.lane_setTlc]; exact h.lane, by rw [State.store_setTlc, h.store]⟩

theorem notes_changeTlc (h : Notes l r s) (g : Tlc → Tlc) : Notes l r (s.changeTlc l g) := by
  have h1 := notes_setTlc h (g (s.tlc l))
  have h2 := notes_endRun h1
  unfold State.changeTlc State.putTlc
  dsimp only
  repeat' split
  · exact h2
  · exact h1
  · exact notes_due h2
  · exact notes_due h1

theorem notes_countInOrder (h : Notes l r s) : Notes l r (s.countInOrder l) := by
  unfold State.countInOrder State.goodEvent
  split
  · exact notes_changeTlc (notes_updLane h _ ⟨rfl, rfl, rfl, rfl, rfl⟩) _
  · exact notes_updLane h _ ⟨rfl, rfl, rfl, rfl, rfl⟩

theorem notes_breakRun (h : Notes l r s) : Notes l r (s.updLane l Lane.breakRun) :=
  notes_updLane h _ ⟨rfl, rfl, rfl, rfl, rfl⟩

theorem notes_retire (h : Notes l r s) (c : TakenCue) (o : CueOutcome) : Notes l r (s.retire l c o) := by
  obtain ⟨ps, n, hl⟩ := lane_retire s l c o l
  exact ⟨h.lane.trans (by rw [hl]; exact ⟨rfl, rfl, rfl, rfl, rfl⟩), by rw [store_retire, h.store]⟩

theorem notes_updSeq (h : Notes l r s) (g : Sequencer → Sequencer)
    (hg : ∀ q : Sequencer, (g q).mark = q.mark ∧ (g q).bind = q.bind ∧ (g q).reRequest = q.reRequest := by
      exact fun _ => ⟨rfl, rfl, rfl⟩) : Notes l r (s.updSeq l g) :=
  notes_updLane h _ ⟨rfl, rfl, (hg _).1, (hg _).2.1, (hg _).2.2⟩

theorem notes_moveWalk (h : Notes l r s) (k : Nat) (w : Bool) : Notes l r (s.moveWalk l k w) := notes_updSeq h _

/-- A prefetch decision takes and retires cues, nothing more (R158). -/
theorem notes_prefetch (n : Nat) : ∀ {s : State}, Notes l r s → Notes l r (State.prefetch n s l) := by
  induction n with
  | zero => exact fun h => h
  | succ n ih =>
    intro s h
    have h1 : Notes l r (s.stepRead l) := notes_countReads h _
    unfold State.prefetch
    dsimp only
    split
    · have h2 := notes_countReads h1 hostFieldWords
      split
      · have h3 := fun k w => notes_moveWalk h2 k w
        split
        · exact notes_due (notes_updSeq (h3 _ _) _)
        · exact ih (notes_retire (h3 _ _) _ _)
      · exact h2
    · exact h1

theorem notes_prefetchAtEnd (h : Notes l r s) : Notes l r (s.prefetchAtEnd l) := by
  unfold State.prefetchAtEnd
  split
  · exact notes_prefetch _ h
  · exact h

/-! ### The scheduling point of an intake result (R92) -/

/-- What an intake result does to a lane before its scheduling point: nothing that counts arrivals, f and p as they were, and
where it ends an attempt the conditions are those of the end claim. -/
structure Lane.Resulted (x : Lane) (r : IntakeResult) (y : Lane) : Prop where
  p : y.p = x.p
  f : y.f = x.f
  counts : x.SameCounts y
  mark : y.seq.mark = x.seq.mark
  bind : y.seq.bind = x.seq.bind
  reRequest : y.seq.reRequest = x.seq.reRequest
  conds : condsOf y.spans = condsOf x.spans ∨
    ∃ t m, x.run.kind = .repair ∧ x.rsc.mode = .repair ∧ x.rsc.target = some t ∧ x.resultEnds t r = true ∧
      condsOf y.spans = condsOf (x.spans.map (endSpan t m))

theorem setLane_self (s : State) (l : LaneId) : s.setLane l (s.lane l) = s := by
  cases l <;> rfl

/-- A result of the OPEN run, of a block that was not one of an abandoned run. -/
theorem takeResult_eq (s : State) (l : LaneId) (q : IntakeResult) (hr : q.ofRun = true) :
    ∃ y w, s.takeResult l q = (s.setLane l y).schedule l w ∧ (s.lane l).Resulted q y := by
  set x := s.lane l with hx
  unfold State.takeResult
  rw [if_pos hr]
  generalize hu : State.updLane s l _ = u
  obtain ⟨x1, rfl, o, hx1⟩ : ∃ x1, u = s.setLane l x1 ∧
      ∃ o, x1 = { x with rsc := { x.rsc with runPosition := o } } := by
    rw [← hu]
    cases q.position with
    | none => exact ⟨x, rfl, x.rsc.runPosition, rfl⟩
    | some i => exact ⟨_, rfl, some i, rfl⟩
  have hsame : x.Resulted q x1 := by
    subst hx1
    exact ⟨rfl, rfl, ⟨rfl, rfl, rfl, rfl, rfl, rfl⟩, rfl, rfl, rfl, .inl rfl⟩
  have hset : ∀ g : Lane → Lane, (s.setLane l x1).updLane l g = s.setLane l (g x1) := fun g => by cases l <;> rfl
  dsimp only
  rw [State.lane_setLane]
  split
  · rename_i t hk hm ht
    split
    · exact ⟨x1, _, rfl, hsame⟩
    · split
      · rename_i he
        refine ⟨x1.endAttempt ((s.setLane l x1).settings l).maxAttempts, _, by rw [hset], ?_⟩
        unfold Lane.endAttempt
        rw [ht]
        subst hx1
        exact ⟨rfl, rfl, ⟨rfl, rfl, rfl, rfl, rfl, rfl⟩, rfl, rfl, rfl,
          .inr ⟨t, _, hk, hm, ht, he, condsOf_normalize _⟩⟩
      · exact ⟨x1, _, rfl, hsame⟩
  · split
    · refine ⟨_, _, by rw [hset], ?_⟩
      subst hx1
      exact ⟨rfl, rfl, ⟨rfl, rfl, rfl, rfl, rfl, rfl⟩, rfl, rfl, rfl, .inl rfl⟩
    · exact ⟨x1, _, rfl, hsame⟩

end

/-! ### A BLOCK taken at f (R52) -/

/-- The lane `y` is `x` with a copy of a class appended at f and the result taken: f one position further, the counts of
arrivals as they were, the sequencer waiting for what it waited for; the conditions are those of the appended map, or those of
the end of the attempt that the BLOCK ends. -/
structure Lane.Fed (x : Lane) (g : SegRef) (c : CopyClass) (y : Lane) : Prop where
  p : y.p = x.p
  f : y.f = plus x.f 1
  counts : x.SameCounts y
  mark : y.seq.mark = x.seq.mark
  bind : y.seq.bind = x.seq.bind
  reRequest : y.seq.reRequest = x.seq.reRequest
  conds : condsOf y.spans = condsOf (x.appended g c) ∨
    ∃ t m, x.run.kind = .repair ∧ x.rsc.mode = .repair ∧ (x.withSpans (x.appended g c)).rsc.target = some t ∧
      (before x.f t.last = false ∨ (x.appended g c).any (fun y => y.repair.isSome && t.overlaps y) = false) ∧
      condsOf y.spans = condsOf ((x.appended g c).map (endSpan t m))

/-- A BLOCK at a position that ends the attempt reaches the target's last position, or no span of the target is left. -/
theorem resultEnds_atFill {x : Lane} {t : RepairTarget} {q : IntakeResult} {i : Index} (h : x.resultEnds t q = true)
    (hp : q.position = some i) (hc : q.cls = .i0 ∨ q.cls = .i6of0) :
    before i t.last = false ∨ x.spans.any (fun y => y.repair.isSome && t.overlaps y) = false := by
  unfold Lane.resultEnds at h
  rw [hp] at h
  rcases hc with hc | hc <;> simp [hc] at h ⊢ <;> tauto

theorem classOf_atFill (a : Arrival) : a.classOf .i0 .i6of0 = .i0 ∨ a.classOf .i0 .i6of0 = .i6of0 := by
  unfold Arrival.classOf
  split
  · exact .inr rfl
  · exact .inl rfl

/-- What a delivery finds: the arrival's mark set where the store takes its first write. -/
theorem deliver_eq (s : State) (l : LaneId) (i : Index) (a : Arrival) :
    (s.deliver l i a).2.marks = (if s.canAssign l i then a.markSet else none) ∧
      (∃ n, ((s.deliver l i a).1.lane l) = { s.lane l with count := { (s.lane l).count with storeFaults := n } }) ∧
      (s.deliver l i a).1.store = s.store ∧ (s.deliver l i a).1.applied = s.applied := by
  unfold State.deliver State.countStoreFault
  cases a.markSet with
  | none => exact ⟨by simp, ⟨_, rfl⟩, rfl, rfl⟩
  | some m =>
    dsimp only
    split
    · rename_i h
      exact ⟨by simp, ⟨_, rfl⟩, rfl, rfl⟩
    · rename_i h
      exact ⟨by simp, ⟨_, by rw [State.lane_updLane]⟩, by simp, by simp⟩

/-- A lane is read off the settings alike in two states with the same applied settings. -/
theorem settings_of_applied {s t : State} (h : t.applied = s.applied) (l : LaneId) : t.settings l = s.settings l := by
  cases l <;> simp [State.settings, h]

theorem cellNumber_of_applied {s t : State} (h : t.applied = s.applied) (l : LaneId) (i : Index) :
    t.cellNumber l i = s.cellNumber l i := by
  have hs : ∀ k, t.share k = s.share k := fun k => by rw [State.share, State.share, settings_of_applied h]
  cases l <;> simp only [State.cellNumber, State.firstCell, hs]

/-- The store once an arrival's copy is delivered at a position. -/
def State.delivered (s : State) (l : LaneId) (g : SegRef) (i : Index) (a : Arrival) : Option MarkSet → List StoreCell
  | none => s.store
  | some m => putCell (freshCell (s.cellNumber l i) i (g.addressOf i) m a.pairs) s.store

theorem writeDelivery_eq {s t : State} (hs : t.store = s.store) (ha : t.applied = s.applied) (l : LaneId) (g : SegRef)
    (i : Index) (a : Arrival) (d : Delivery) :
    (t.writeDelivery l g i a d).lane l = t.lane l ∧ (t.writeDelivery l g i a d).store = s.delivered l g i a d.marks := by
  unfold State.writeDelivery State.delivered
  cases d.marks with
  | none => exact ⟨rfl, hs⟩
  | some m =>
    refine ⟨by cases l <;> rfl, ?_⟩
    dsimp only [State.firstWrite]
    rw [cellNumber_of_applied ha, hs]

/-- The class of the copy that a BLOCK brings to f. -/
def State.fillClass (s : State) (l : LaneId) (a : Arrival) : CopyClass :=
  copyClass (s.settings l).interpLimit (if s.canAssign l (s.lane l).f then a.markSet else none)

/-- Which target a span list leaves depends on the target before alone. -/
theorem target_withSpans {x y : Lane} (h : x.rsc.target = y.rsc.target) (l : List Span) :
    (x.withSpans l).rsc.target = (y.withSpans l).rsc.target := by
  unfold Lane.withSpans Lane.activeSpan
  dsimp only
  cases hx : x.rsc.target with
  | none => simp [hx, h ▸ hx]
  | some t =>
    have hy : y.rsc.target = some t := h ▸ hx
    cases l.find? Span.active <;> simp [hx, hy]

/-- A lane with its spans replaced: nothing changes but the spans and the repair target. -/
theorem withSpans_rest (x : Lane) (l : List Span) :
    (x.withSpans l).spans = l ∧ (x.withSpans l).p = x.p ∧ (x.withSpans l).seq = x.seq ∧ (x.withSpans l).run = x.run ∧
      (x.withSpans l).count = x.count ∧ (x.withSpans l).rsc.mode = x.rsc.mode := by
  unfold Lane.withSpans
  dsimp only
  split <;> exact ⟨rfl, rfl, rfl, rfl, rfl, rfl⟩

/-- A BLOCK taken at f with room in the window and in the map ends in a scheduling point of the lane with the copy appended. -/
theorem takeAtFill_eq (s : State) (l : LaneId) (g : SegRef) (a : Arrival)
    (hw : (s.lane l).bufferedLead ≠ s.share l - 2)
    (hm : ¬ Config.maxSpans < ((s.lane l).appended g (s.fillClass l a)).length) :
    ∃ (v : State) (y : Lane) (w : Point), s.takeAtFill l g a = (v.setLane l y).schedule l w ∧
      (s.lane l).Fed g (s.fillClass l a) y ∧
      v.store = s.delivered l g (s.lane l).f a (if s.canAssign l (s.lane l).f then a.markSet else none) := by
  obtain ⟨hmarks, ⟨n, hlane⟩, hstore, happ⟩ := deliver_eq s l (s.lane l).f a
  unfold State.takeAtFill
  dsimp only
  rw [if_neg hw]
  unfold State.fillClass at hm ⊢
  generalize s.deliver l (s.lane l).f a = v at hmarks hlane hstore happ ⊢
  obtain ⟨s2, d⟩ := v
  dsimp only at hmarks hlane hstore happ ⊢
  rw [settings_of_applied happ, ← hmarks]
  rw [← hmarks] at hm
  generalize copyClass (s.settings l).interpLimit d.marks = c at hm ⊢
  generalize hx : s.lane l = x at hlane hm ⊢
  have happended : (s2.lane l).append g c =
      some { (s2.lane l).withSpans (x.appended g c) with f := plus x.f 1 } := by
    rw [append_eq, hlane]
    exact if_neg hm
  rw [happended]
  dsimp only
  generalize hz : ({ (s2.lane l).withSpans (x.appended g c) with f := plus x.f 1 } : Lane) = z
  obtain ⟨h3, h3s⟩ := writeDelivery_eq (s := s) (t := s2.setLane l z) (by simp [hstore]) (by simp [happ]) l g x.f a d
  rw [State.lane_setLane] at h3
  generalize (s2.setLane l z).writeDelivery l g x.f a d = s3 at h3 h3s ⊢
  have h4 : Notes l s3 (if d.marks.isSome then s3.countInOrder l else s3.updLane l Lane.breakRun) := by
    split
    · exact notes_countInOrder (.refl l s3)
    · exact notes_breakRun (.refl l s3)
  generalize (if d.marks.isSome then s3.countInOrder l else s3.updLane l Lane.breakRun) = s4 at h4 ⊢
  unfold State.report
  dsimp only
  generalize hq : Lane.measured (s4.lane l) _ = q
  have hcls : q.cls = .i0 ∨ q.cls = .i6of0 := by
    rw [← hq]
    exact classOf_atFill a
  have hpos : q.position = some x.f := by rw [← hq]; rfl
  have hof : q.ofRun = true := by rw [← hq]; rfl
  have h5 : Notes l s3 (if g.isLast x.f then s4.prefetchAtEnd l else s4) := by
    split
    · exact notes_prefetchAtEnd h4
    · exact h4
  change ∃ v y w, (if g.isLast x.f then s4.prefetchAtEnd l else s4).takeResult l q = _ ∧ _
  generalize (if g.isLast x.f then s4.prefetchAtEnd l else s4) = s5 at h5 ⊢
  obtain ⟨y, w, hy, hres⟩ := takeResult_eq s5 l q hof
  refine ⟨s5, y, w, hy, ?_, h5.store.trans h3s⟩
  have hnote := h5.lane
  rw [h3, ← hz, hlane] at hnote
  have htarget := target_withSpans (x := { x with count := { x.count with storeFaults := n } }) (y := x) rfl (x.appended g c)
  obtain ⟨hspans, hp, hseq, hrun, hcount, hmode⟩ :=
    withSpans_rest { x with count := { x.count with storeFaults := n } } (x.appended g c)
  generalize ({ x with count := { x.count with storeFaults := n } } : Lane).withSpans (x.appended g c) = x2 at *
  dsimp only at hp hseq hrun hcount hmode
  obtain ⟨hrest, hkind, hmark, hbind, hre⟩ := hnote
  dsimp only at hkind hmark hbind hre
  obtain ⟨rp, rf, rcounts, rmark, rbind, rre, rconds⟩ := hres
  rw [hrest] at rp rf rcounts rconds
  dsimp only [Lane.SameCounts] at rp rf rcounts rconds
  rw [hcount] at rcounts
  rw [hspans] at rconds
  refine ⟨rp.trans hp, rf, rcounts, rmark.trans (hmark.trans (by rw [hseq])), rbind.trans (hbind.trans (by rw [hseq])),
    rre.trans (hre.trans (by rw [hseq])), rconds.imp id ?_⟩
  rintro ⟨t, m, hk, hm, ht, he, hc⟩
  refine ⟨t, m, ?_, hmode ▸ hm, htarget ▸ ht, ?_, hc⟩
  · rw [← hk, hkind, hrun]
  · exact resultEnds_atFill he hpos hcls

/-! ### The conditions after the append (R35, R92) -/

/-- The conditions of an appended map stand, but where the BLOCK reaches the last position of the target in flight: then those
of HOLE and WEAK may be the ones given up. -/
theorem Lane.Fed.conditions {x y : Lane} {g : SegRef} {c : CopyClass} {n : Nat} (h : x.Fed g c y)
    (hx : MapKept x.p x.f x.spans x.rsc.target n) :
    condsOf y.spans = condsOf (x.appended g c) ∨
      x.EndsAttemptAt x.f ∧ List.Forall₂ Condition.EndsAs (condsOf (x.appended g c)) (condsOf y.spans) := by
  rcases h.conds with hc | ⟨t, m, hkind, hmode, ht, hends, hc⟩
  · exact .inl hc
  · rcases hends with hb | hnone
    · refine .inr ⟨⟨hkind, hmode, ?_⟩, hc ▸ condsOf_endSpan t m _⟩
      by_cases hq : Quiet x.spans
      · exact ⟨t, by rwa [← withSpans_target_quiet (quiet_appended g c hq)], hb⟩
      · cases htx : x.rsc.target with
        | none =>
          unfold Lane.withSpans at ht
          simp only [htx] at ht
          exact absurd ht (by simp)
        | some u => exact ⟨u, rfl, not_before_of_inside hx.form.lead hx.form.window (hx.aimed.inside hq u htx)⟩
    · exact .inl (hc.trans (condsOf_endSpan_outside m hnone))

/-- The entry of a list that another one matches entry by entry. -/
theorem getElem?_of_forall₂ {α β : Type} {p : α → β → Prop} {a : List α} {b : List β} (h : List.Forall₂ p a b)
    {n : Nat}
    {x : α} (hx : a[n]? = some x) : ∃ y, b[n]? = some y ∧ p x y := by
  induction h generalizing n with
  | nil => cases hx
  | cons hp _ ih =>
    cases n with
    | zero => exact ⟨_, rfl, by simpa using (by simpa using hx : _ = x) ▸ hp⟩
    | succ n => exact ih (by simpa using hx)

/-! ### What follows on the lane itself -/

/-- What stays of a lane that plays: its map, and what its sequencer waits for. -/
structure Lane.Plays (x y : Lane) : Prop where
  p : y.p = x.p
  f : y.f = x.f
  spans : y.spans = x.spans
  mark : y.seq.mark = x.seq.mark
  bind : y.seq.bind = x.seq.bind
  reRequest : y.seq.reRequest = x.seq.reRequest

theorem Lane.Plays.refl (x : Lane) : x.Plays x := ⟨rfl, rfl, rfl, rfl, rfl, rfl⟩

theorem Lane.Plays.trans {x y z : Lane} (h : x.Plays y) (k : y.Plays z) : x.Plays z :=
  ⟨k.p.trans h.p, k.f.trans h.f, k.spans.trans h.spans, k.mark.trans h.mark, k.bind.trans h.bind,
    k.reRequest.trans h.reRequest⟩

/-- The lane `l` of `t` is that of `s` playing on, and the store is the same. -/
structure PlaysOn (l : LaneId) (s t : State) : Prop where
  lane : (s.lane l).Plays (t.lane l)
  store : t.store = s.store

section
variable {l : LaneId} {r s : State}

theorem PlaysOn.refl (l : LaneId) (s : State) : PlaysOn l s s := ⟨.refl _, rfl⟩

theorem playsOn_updLane (h : PlaysOn l r s) (g : Lane → Lane)
    (hg : (s.lane l).Plays (g (s.lane l)) := by exact ⟨rfl, rfl, rfl, rfl, rfl, rfl⟩) : PlaysOn l r (s.updLane l g) :=
  ⟨h.lane.trans (by rwa [State.lane_updLane]), by rw [State.store_updLane, h.store]⟩

theorem playsOn_setLaneState (h : PlaysOn l r s) (t : LaneState) : PlaysOn l r (s.setLaneState l t) := by
  refine playsOn_updLane h _ ?_
  split <;> exact ⟨rfl, rfl, rfl, rfl, rfl, rfl⟩

theorem playsOn_noteStoreFault (h : PlaysOn l r s) : PlaysOn l r (s.noteStoreFault l) := by
  have h1 := playsOn_updLane h fun x => { x with count := { x.count with storeFaults := bump x.count.storeFaults } }
  exact ⟨by rw [State.noteStoreFault, State.lane_setNews]; exact h1.lane,
    by rw [State.noteStoreFault, State.store_setNews]; exact h1.store⟩

theorem playsOn_readForPlay (h : PlaysOn l r s) : PlaysOn l r (s.readForPlay l).1 := by
  unfold State.readForPlay
  dsimp only
  repeat' split
  all_goals first | exact h | exact playsOn_noteStoreFault h

theorem playsOn_readNext (h : PlaysOn l r s) : PlaysOn l r (s.readNext l).1 := by
  unfold State.readNext
  dsimp only
  repeat' split
  all_goals first | exact h | exact playsOn_noteStoreFault h

theorem playsOn_retireNormal (cs : List TakenCue) : ∀ {s : State}, PlaysOn l r s → PlaysOn l r (s.retireNormal l cs) := by
  induction cs with
  | nil => exact fun h => h
  | cons c cs ih =>
    intro s h
    obtain ⟨ps, n, hl⟩ := lane_retire s l c (normalOutcome c) l
    exact ih ⟨h.lane.trans (by rw [hl]; exact ⟨rfl, rfl, rfl, rfl, rfl, rfl⟩), (store_retire s l c _).trans h.store⟩

theorem playsOn_crossing (h : PlaysOn l r s) (g : Segment) (w : Bool) : PlaysOn l r (s.crossing l g w) := by
  unfold State.crossing
  exact playsOn_updLane (playsOn_retireNormal _ h) _

theorem playsOn_countLoss (h : PlaysOn l r s) (a m : Nat) (q : LossCause) : PlaysOn l r (s.countLoss l a m q) := by
  unfold State.countLoss
  split
  · unfold State.endEpisode
    split
    · exact h
    · exact playsOn_updLane (s := s.countReads 1) ⟨by rw [State.lane_countReads]; exact h.lane, h.store⟩ _
  · exact playsOn_updLane h _

theorem plays_playBlock (x : Lane) (q : PlayBlock) : x.Plays (x.playBlock q) := by
  unfold Lane.playBlock
  dsimp only
  repeat' split
  all_goals exact ⟨rfl, rfl, rfl, rfl, rfl, rfl⟩

theorem plays_countBlock (x : Lane) (q : Option Index) (m n : Nat) : x.Plays (x.countBlock q m n) := by
  cases q <;> exact ⟨rfl, rfl, rfl, rfl, rfl, rfl⟩

theorem playsOn_takeUp (h : PlaysOn l r s) (w : Bool) : PlaysOn l r (s.takeUp l w) := by
  unfold State.takeUp
  dsimp only
  have h1 := playsOn_readForPlay h
  generalize s.readForPlay l = v at h1 ⊢
  obtain ⟨u, q⟩ := v
  dsimp only at h1 ⊢
  generalize hv : (if q.form = .copy ∧ needsNext (s.settings l).interpLimit q.marks then u.readNext l
    else (u, none)) = v
  have h2 : PlaysOn l r v.1 := by
    rw [← hv]
    split
    · exact playsOn_readNext h1
    · exact h1
  refine playsOn_countLoss (playsOn_updLane ?_ _ ?_) _ _ _
  · split
    · exact playsOn_crossing h2 _ _
    · exact h2
  · exact (plays_playBlock _ _).trans ((plays_countBlock _ _ _ _).trans ⟨rfl, rfl, rfl, rfl, rfl, rfl⟩)

/-- A start of p where p is not f. -/
theorem playsOn_startPlay (h : PlaysOn l r s) (hp : (s.lane l).p ≠ (s.lane l).f) : PlaysOn l r (s.startPlay l) := by
  have h1 := playsOn_updLane (playsOn_setLaneState (.refl l s) .playing) fun x =>
    { x with plu := { x.plu with cause := none } }
  have h2 := playsOn_updLane (playsOn_setLaneState h .playing) fun x => { x with plu := { x.plu with cause := none } }
  unfold State.startPlay
  dsimp only
  rw [if_neg (by rw [h1.lane.p, h1.lane.f]; exact hp)]
  exact playsOn_takeUp h2 _

/-! ### What follows in the event of a BLOCK -/

/-- What follows in an event leaves a lane whose sequencer waits for nothing, and which has positions ahead of p, its map and
the cells of its share. -/
structure Rests (l : LaneId) (r s : State) : Prop where
  p : (s.lane l).p = (r.lane l).p
  f : (s.lane l).f = (r.lane l).f
  conds : condsOf (s.lane l).spans = condsOf (r.lane l).spans
  settled : (s.lane l).Settled
  cells : ∀ n, r.numberIn l n → findCell s.store n = findCell r.store n
  applied : s.applied = r.applied

theorem rests_keeps {t : State} (h : Rests l r s) (k : Keeps l s t) : Rests l r t where
  p := k.lane.p.trans h.p
  f := k.lane.f.trans h.f
  conds := k.lane.conds.trans h.conds
  settled := by
    unfold Lane.Settled
    rw [k.lane.seq]
    exact h.settled
  cells n hn := (k.cells n ((numberIn_of_applied h.applied l n).2 hn)).trans (h.cells n hn)
  applied := k.applied.trans h.applied

/-- A mark is nothing of this. -/
theorem rests_updMarks (h : Rests l r s) (g : LaneMarks → LaneMarks) :
    Rests l r (s.updLane l fun x => { x with marks := g x.marks }) := by
  refine ⟨?_, ?_, ?_, ?_, fun n hn => (by rw [State.store_updLane, h.cells n hn]), by rw [State.applied_updLane, h.applied]⟩
  all_goals rw [State.lane_updLane]
  exacts [h.p, h.f, h.conds, h.settled]

theorem rests_startPlay (h : Rests l r s) (hp : (r.lane l).p ≠ (r.lane l).f) : Rests l r (s.startPlay l) := by
  have k := playsOn_startPlay (.refl l s) (by rwa [h.p, h.f])
  refine ⟨k.lane.p.trans h.p, k.lane.f.trans h.f, (congrArg condsOf k.lane.spans).trans h.conds, ?_,
    fun n hn => (by rw [k.store, h.cells n hn]), (follows_startPlay (Follows.refl s) l).outside.applied.trans h.applied⟩
  unfold Lane.Settled
  rw [k.lane.mark, k.lane.bind, k.lane.reRequest]
  exact h.settled

theorem rests_followLane {t : State} (h : Rests l r s) (k : LaneId) (hp : (r.lane l).p ≠ (r.lane l).f) (hi : s.Inv)
    (ht : s.followLane k = some t) : Rests l r t := by
  by_cases hk : k = l
  · subst hk
    obtain ⟨hmark, hbind, hre⟩ := h.settled
    unfold State.followLane at ht
    split at ht
    · rename_i u hu
      cases ht
      unfold State.handJammed at hu
      split at hu
      · cases hu
      · rename_i slot tag rest _
        cases hu
        have h1 : Rests k r (s.updLane k fun x => { x with marks := { x.marks with jammed := rest } }) :=
          rests_updMarks h fun m => { m with jammed := rest }
        exact rests_keeps h1 (keeps_endOutcome (.refl k _) (.bind k slot tag) .jammed (.inr h1.settled.2.1)
          ((follows_updLane (Follows.refl s) k fun x => { x with marks := { x.marks with jammed := rest } }).inv hi))
    · split at ht
      · rename_i hcut
        simp [Lane.cutDue, hmark] at hcut
      · split at ht
        · cases ht
          exact rests_keeps h (keeps_schedule (.refl k s) k _)
        · split at ht
          · cases ht
            exact rests_startPlay h hp
          · cases ht
  · exact rests_keeps h (keeps_followLane (.refl l s) k hk hi ht)

theorem rests_follow {t : State} (h : Rests l r s) (hp : (r.lane l).p ≠ (r.lane l).f) (hi : s.Inv)
    (ht : s.follow = some t) : Rests l r t := by
  unfold State.follow at ht
  split at ht
  · rename_i u hu
    cases ht
    exact rests_followLane h .a hp hi hu
  · split at ht
    · rename_i u hu
      cases ht
      exact rests_followLane h .b hp hi hu
    · split at ht
      · cases ht
        exact rests_keeps h (keeps_endRecovery (.refl l s) h.settled.2.2)
      · split at ht
        · cases ht
          exact rests_keeps h (keeps_arbitrate (.refl l s) _ h.settled.2.1 hi)
        · cases ht

theorem rests_settle (hp : (r.lane l).p ≠ (r.lane l).f) (n : Nat) : ∀ {s : State}, Rests l r s → s.Inv →
    Rests l r (State.settle n s) := by
  induction n with
  | zero => exact fun h _ => h
  | succ n ih =>
    intro s h hi
    unfold State.settle
    split
    · exact h
    · rename_i t ht
      exact ih (rests_follow h hp hi ht) ((follows_follow (Follows.refl s) ht).inv hi)

end

/-! ### The event of a BLOCK at f -/

theorem before_of_lead {x : Lane} (h : x.bufferedLead < 0x80000000) : before x.f x.p = false := by
  unfold Lane.bufferedLead ahead at h
  unfold before
  rw [BitVec.msb_eq_decide]
  simpa using h

/-- An arrival that maps to f is taken there. -/
theorem judge_atFill {s : State} {l : LaneId} {a : Arrival} {g : SegRef}
    (hm : (s.lane l).mapArrival a.label = some (g, (s.lane l).f)) (hl : (s.lane l).bufferedLead < 0x80000000) :
    s.judge l a = (s.updLane l fun x => { x with run := { x.run with seg := some g } }).takeAtFill l g a := by
  unfold State.judge
  dsimp only
  rw [hm]
  dsimp only
  rw [if_neg (by rw [before_of_lead hl]; simp), if_pos rfl]

/-- A BLOCK of an OPEN run is judged on arrival where its check does not wait (R45). -/
theorem arrive_judges {s : State} {l : LaneId} (h : s.JudgesOnArrival l) (a : Arrival) : s.arrive l a = s.judge l a := by
  obtain ⟨_, ht, hr, hw, ha⟩ := h
  unfold State.arrive
  dsimp only
  rw [if_neg (by simp [hr, ht]), if_neg (by simp [hw, ha])]

/-- What the own effect of a BLOCK at f leaves: the lane with the copy appended and a scheduling point taken. -/
structure FedState (s : State) (l : LaneId) (g : SegRef) (a : Arrival) (t : State) : Prop where
  lane : (s.lane l).Fed g (s.fillClass l a) (t.lane l)
  applied : t.applied = s.applied
  cells : ∀ n, s.numberIn l n → findCell t.store n =
    findCell (s.delivered l g (s.lane l).f a (if s.canAssign l (s.lane l).f then a.markSet else none)) n
  store : List.Sublist t.store
    (s.delivered l g (s.lane l).f a (if s.canAssign l (s.lane l).f then a.markSet else none))

/-- What a scheduling point leaves of a lane with a copy appended. -/
theorem Lane.Fed.schedule {x : Lane} {g : SegRef} {c : CopyClass} {s : State} {l : LaneId} {y : Lane} {q : Point}
    (h : x.Fed g c y) : x.Fed g c (((s.setLane l y).schedule l q).lane l) := by
  have hk := (keeps_schedule (.refl l (s.setLane l y)) l q).lane
  have hc := (calm_schedule (Calm.refl (fun _ => True) (fun _ => True) True (s.setLane l y)) l q).lane l
  rw [State.lane_setLane] at hk hc
  generalize ((s.setLane l y).schedule l q).lane l = z at hk hc ⊢
  obtain ⟨c1, c2, c3, c4, c5, c6⟩ := h.counts
  refine ⟨hk.p.trans h.p, hk.f.trans h.f, ⟨?_, ?_, ?_, ?_, ?_, ?_⟩, ?_, ?_, ?_, ?_⟩
  · exact (congrArg LaneSteady.skips hc).trans c1
  · exact (congrArg LaneSteady.strays hc).trans c2
  · exact (congrArg LaneSteady.overruns hc).trans c3
  · exact (congrArg LaneSteady.noMatches hc).trans c4
  · exact (congrArg LaneSteady.unanchored hc).trans c5
  · exact (congrArg LaneSteady.slips hc).trans c6
  · rw [hk.seq, h.mark]
  · rw [hk.seq, h.bind]
  · rw [hk.seq, h.reRequest]
  · rw [hk.conds]
    exact h.conds

/-- A BLOCK that maps to f, with room in the window and in the map. -/
theorem judge_fed {s : State} {l : LaneId} {a : Arrival} {g : SegRef}
    (hm : (s.lane l).mapArrival a.label = some (g, (s.lane l).f)) (hl : (s.lane l).bufferedLead < 0x80000000)
    (hw : (s.lane l).bufferedLead ≠ s.share l - 2) (ha : (s.lane l).append g (s.fillClass l a) ≠ none) :
    FedState s l g a (s.judge l a) := by
  have happ : (s.judge l a).applied = s.applied := (follows_judge (Follows.refl s) l a).outside.applied
  rw [judge_atFill hm hl] at happ ⊢
  set u := s.updLane l fun x => { x with run := { x.run with seg := some g } } with hu
  have hlane : u.lane l = { s.lane l with run := { (s.lane l).run with seg := some g } } := State.lane_updLane ..
  have hset : u.settings l = s.settings l := State.settings_updLane ..
  have hassign : u.canAssign l (u.lane l).f = s.canAssign l (s.lane l).f := by
    rw [hlane]
    unfold State.canAssign
    rw [cellNumber_of_applied (s := s) (by rw [hu, State.applied_updLane]), State.store_updLane]
  have hclass : u.fillClass l a = s.fillClass l a := by
    unfold State.fillClass
    rw [hassign, hset]
  have hdel : ∀ m, u.delivered l g (u.lane l).f a m = s.delivered l g (s.lane l).f a m := by
    intro m
    rw [hlane]
    cases m with
    | none => exact State.store_updLane ..
    | some m =>
      unfold State.delivered
      rw [cellNumber_of_applied (s := s) (by rw [hu, State.applied_updLane]), State.store_updLane]
  have hroom : ¬ Config.maxSpans < ((u.lane l).appended g (u.fillClass l a)).length := by
    rw [hclass, hlane]
    intro hlt
    exact ha (by rw [append_eq]; exact if_pos hlt)
  obtain ⟨v, y, q, hv, hfed, hstore⟩ := takeAtFill_eq u l g a
    (by rw [hlane, State.share, hset]; exact hw) hroom
  rw [hv] at happ ⊢
  rw [hdel, hassign] at hstore
  rw [hclass, hlane] at hfed
  have hfed' : (s.lane l).Fed g (s.fillClass l a) y := by
    refine ⟨hfed.p, hfed.f, hfed.counts, hfed.mark, hfed.bind, hfed.reRequest, hfed.conds.imp id ?_⟩
    rintro ⟨t, m, hk, hmode, ht, he, hc⟩
    refine ⟨t, m, hk, hmode, Eq.trans (target_withSpans ?_ _) ht, he, hc⟩
    rfl
  have hsub := (calm_schedule (Calm.refl (fun _ => True) (fun _ => True) True (v.setLane l y)) l q).store
  rw [State.store_setLane, hstore] at hsub
  have hkeep := keeps_schedule (.refl l (v.setLane l y)) l q
  refine ⟨hfed'.schedule, happ, fun n hn => ?_, hsub⟩
  rw [hkeep.cells n ((numberIn_of_applied ((hkeep.applied.symm.trans happ)) l n).2 hn), State.store_setLane, hstore]

/-! ### What the event leaves -/

/-- The conditions of the position at f once a copy is appended and the end of an attempt, if it is one, is over. -/
theorem conditioned_atFill {s u : State} {l : LaneId} {g : SegRef} {c : CopyClass} {y : Lane} {n m : Nat}
    (hfed : (s.lane l).Fed g c y)
    (hs : MapKept (s.lane l).p (s.lane l).f (s.lane l).spans (s.lane l).rsc.target n)
    (hu : MapFormed (u.lane l).p (u.lane l).f (u.lane l).spans m) (hp : (u.lane l).p = (s.lane l).p)
    (hc : condsOf (u.lane l).spans = condsOf y.spans) :
    s.Conditioned u l (s.lane l).f (s.lane l).f
      (conditionOf c (decide ((s.lane l).bufferedLead < (s.lane l).guard))) := by
  have hplace : (condsOf ((s.lane l).appended g c))[ahead (s.lane l).f (u.lane l).p]? =
      some (conditionOf c (decide ((s.lane l).bufferedLead < (s.lane l).guard))) := by
    rw [condsOf_appended, hp, ← hs.form.total, ← condsOf_length]
    simp
  unfold State.Conditioned
  rw [conditionAt_condsOf hu, hc]
  rcases hfed.conditions hs with hsame | ⟨hends, hall⟩
  · exact ⟨_, by rw [hsame, hplace], .refl _, fun _ => rfl⟩
  · obtain ⟨d, hd, has⟩ := getElem?_of_forall₂ hall hplace
    exact ⟨d, hd, has, fun hn => absurd hends hn⟩

/-- A share that has positions in it holds the cell of every index. -/
theorem numberIn_cellNumber {s : State} {l : LaneId} (h : s.share l ≠ 0) (i : Index) :
    s.numberIn l (s.cellNumber l i) := by
  have := Nat.mod_lt i.toNat (Nat.pos_of_ne_zero h)
  unfold State.numberIn State.cellNumber
  omega

theorem plus_one_ne {p f : Index} (h : ahead f p < 0x80000000) : p ≠ plus f 1 := by
  unfold ahead at h
  unfold plus
  bv_omega

theorem released_restartCadence (s : State) (l : LaneId) : (s.restartCadence l).released = s.released := by
  cases l <;> rfl

/-- Settles O30: the own effect of the event appends the copy (`judge_fed`); what follows leaves the map and the cells of the
lane (`rests_settle`), and the records leave them too. -/
theorem blockAtFillAppended : Obligations.BlockAtFillAppended := by
  intro t label marks pairs g i s hwf hj hm hi hl hw ha
  subst hi
  set l := t.lane with hlane
  set a : Arrival := { label := label, marks := marks, pairs := pairs } with hadef
  set F : State → State := fun s =>
    if blockOk marks pairs then (s.restartCadence l).arrive l a else s.updTlc l Tlc.checkError with hF
  set v := s.clearOutputs.restartCadence l with hv
  have hvlane : v.lane l = s.lane l := by rw [hv, State.restartCadence, State.lane_updTlc, lane_clearOutputs]
  have hvapp : v.applied = s.applied := by rw [hv, State.restartCadence, State.applied_updTlc, applied_clearOutputs]
  have hvstore : v.store = s.store := by rw [hv, State.restartCadence, State.store_updTlc, store_clearOutputs]
  have hset : v.settings l = s.settings l := settings_of_applied hvapp l
  have hassign : v.canAssign l (v.lane l).f = s.canAssign l (s.lane l).f := by
    unfold State.canAssign
    rw [hvlane, cellNumber_of_applied hvapp, hvstore]
  have hclass : v.fillClass l a = copyClass (s.settings l).interpLimit
      (if s.canAssign l (s.lane l).f then MarkReport.marks marks else none) := by
    unfold State.fillClass
    rw [hassign, hset]
    rfl
  have hvj : v.JudgesOnArrival l := by
    obtain ⟨hr, ht, hrest⟩ := hj
    refine ⟨(released_restartCadence _ l).trans hr, ?_, by rwa [hvlane]⟩
    rw [hv, State.restartCadence, State.tlc_updTlc]
    split <;> simpa using ht
  have hown : F s.clearOutputs = v.judge l a := by
    rw [hF]
    dsimp only
    rw [if_pos (by simpa [WellFormed] using hwf), ← hv, arrive_judges hvj]
  have hfed := judge_fed (s := v) (l := l) (a := a) (g := g) (by rw [hvlane]; exact hm) (by rwa [hvlane])
    (by rw [hvlane, State.share, hset]; exact hw) (by rw [hclass, hvlane]; exact ha)
  have hfollows : Follows s (F s.clearOutputs) := by
    rw [hown]
    exact follows_judge (follows_updTlc (follows_clearOutputs (Follows.refl s)) l _) l a
  have hexec : exec (.block t label marks pairs) s = .next (s.event F) := by
    change Host.Outcome.next (s.onEvent true F) = _
    rw [onEvent_of hj.1 rfl]
  obtain ⟨flane, fapp, fcells, fstore⟩ := hfed
  rw [← hown] at flane fapp fcells fstore
  rw [hvlane, hclass] at flane
  have hleaves := event_leaves_any s F
  refine ⟨s.event F, hexec, (hleaves.f l).trans flane.f, ?_, fun hinv hsettled => ?_⟩
  · obtain ⟨c1, c2, c3, c4, c5, c6⟩ := flane.counts
    exact ⟨(hleaves.skips l).trans c1, (hleaves.strays l).trans c2, (hleaves.overruns l).trans c3,
      (hleaves.noMatches l).trans c4, (hleaves.unanchored l).trans c5, (hleaves.slips l).trans c6⟩
  have hrests : Rests l (F s.clearOutputs) (s.clearOutputs.carryOut F) := by
    refine rests_settle ?_ _ ⟨rfl, rfl, rfl, ?_, fun _ _ => rfl, rfl⟩ (hfollows.inv hinv)
    · rw [flane.p, flane.f]
      exact plus_one_ne hl
    · unfold Lane.Settled
      rw [flane.mark, flane.bind, flane.reRequest]
      exact hsettled
  have hfin : (s.event F).lane l = ((s.clearOutputs.carryOut F).lane l).finished := lane_finish _ _ _
  have hfinstore : (s.event F).store = (s.clearOutputs.carryOut F).store := (store_finish _ _).1
  have hkept := ((follows_event s F hfollows).inv hinv).lane l
  have hkept0 := hinv.lane l
  refine ⟨?_, fun m hm hcan => ?_, fun hnone => ?_⟩
  · refine conditioned_atFill flane hkept0.1 hkept.1.form ?_ ?_
    · rw [hfin]
      exact hrests.p.trans flane.p
    · rw [hfin]
      exact hrests.conds
  · have hshare : s.share l ≠ 0 := by
      intro h0
      have hlead := hkept0.1.form.lead
      have : s.window l = s.share l - 2 := rfl
      unfold Lane.bufferedLead at hw
      omega
    have hn := numberIn_cellNumber hshare (s.lane l).f
    rw [hfinstore, hrests.cells _ ((numberIn_of_applied (fapp.trans hvapp) l _).2 hn),
      fcells _ ((numberIn_of_applied hvapp l _).2 hn), hassign, if_pos hcan]
    have hmark : a.markSet = some m := hm
    rw [hmark]
    unfold State.delivered
    dsimp only
    rw [cellNumber_of_applied hvapp, hvlane]
    exact findCell_putCell_same _ _
  · rw [hassign] at fstore
    have hmark : a.markSet = none := hnone
    rw [hmark, ite_self] at fstore
    exact hleaves.store.trans (by rw [← hvstore]; exact fstore)

end Sys2Proof.Machine
end

section
/-! The START of a lane (O18). -/

namespace Sys2Proof.Machine

set_option Elab.async false

/-! ### What a taken cue writes -/

/-- The way from `s` to `t` writes and reads nothing of Exchange Memory; it leaves the walk mode of lane `l`, the loader
controller's state, and where that is not FAULTED the BINDs of the lane to be answered JAMMED. -/
structure Unwritten (l : LaneId) (s t : State) : Prop where
  xm : t.xm = s.xm
  overlap : t.overlap = s.overlap
  mode : (t.lane l).seq.mode = (s.lane l).seq.mode
  loader : t.loader.state = s.loader.state
  jammed : s.loader.state ≠ .faulted → (t.lane l).marks.jammed = (s.lane l).marks.jammed

theorem Unwritten.refl (l : LaneId) (s : State) : Unwritten l s s := ⟨rfl, rfl, rfl, rfl, fun _ => rfl⟩

section
variable {l : LaneId} {r s : State}

theorem unwritten_updLane (h : Unwritten l r s) (g : Lane → Lane)
    (hg : ∀ x : Lane, (g x).seq.mode = x.seq.mode ∧ (g x).marks.jammed = x.marks.jammed := by
      exact fun _ => ⟨rfl, rfl⟩) : Unwritten l r (s.updLane l g) := by
  refine ⟨by rw [State.xm_updLane, h.xm], by rw [State.overlap_updLane, h.overlap], ?_,
    by rw [State.loader_updLane, h.loader], fun hf => ?_⟩
  · rw [State.lane_updLane, (hg _).1, h.mode]
  · rw [State.lane_updLane, (hg _).2, h.jammed hf]

theorem unwritten_updSeq (h : Unwritten l r s) (g : Sequencer → Sequencer)
    (hg : ∀ q : Sequencer, (g q).mode = q.mode := by exact fun _ => rfl) : Unwritten l r (s.updSeq l g) :=
  unwritten_updLane h _ fun x => ⟨hg x.seq, rfl⟩

theorem unwritten_due (h : Unwritten l r s) : Unwritten l r (s.due l) := unwritten_updLane h _

theorem unwritten_setLaneState (h : Unwritten l r s) (t : LaneState) : Unwritten l r (s.setLaneState l t) :=
  unwritten_updLane h _ fun x => by split <;> exact ⟨rfl, rfl⟩

theorem unwritten_releaseAll (h : Unwritten l r s) : Unwritten l r (s.releaseAll l) :=
  ⟨h.xm, h.overlap, by cases l <;> exact h.mode, h.loader, by cases l <;> exact h.jammed⟩

theorem unwritten_postBind (h : Unwritten l r s) (n : Nat) (t : Byte) : Unwritten l r (s.postBind l n t) := by
  unfold State.postBind
  split
  · rename_i hf
    refine ⟨by rw [State.xm_updLane, h.xm], by rw [State.overlap_updLane, h.overlap], by rw [State.lane_updLane, h.mode],
      by rw [State.loader_updLane, h.loader], fun hn => absurd (h.loader.symm.trans hf) hn⟩
  · split
    · exact ⟨h.xm, h.overlap, by rw [State.enqueue, State.lane_updLoader, h.mode], h.loader,
        fun hf => by rw [State.enqueue, State.lane_updLoader, h.jammed hf]⟩
    · exact h

theorem unwritten_establish (h : Unwritten l r s) : Unwritten l r (s.establish l) := by
  unfold State.establish
  split
  · exact h
  · exact unwritten_updSeq h _

theorem unwritten_prime (h : Unwritten l r s) : Unwritten l r (s.prime l).1 := by
  unfold State.prime
  dsimp only
  repeat' split
  · exact h
  · exact unwritten_due (unwritten_updSeq (unwritten_updSeq h _) _)
  · exact h

theorem unwritten_enterPriming (h : Unwritten l r s) : Unwritten l r (s.enterPriming l).1 := by
  have h1 := unwritten_setLaneState h .priming
  unfold State.enterPriming
  dsimp only
  refine unwritten_prime ?_
  split
  · exact unwritten_establish h1
  · exact h1

theorem unwritten_findDisc (h : Unwritten l r s) (c : TakenCue) : Unwritten l r (s.findDisc l c).1 := by
  unfold State.findDisc State.sendBind
  dsimp only
  repeat' split
  · exact unwritten_enterPriming h
  · exact unwritten_setLaneState h _
  · exact h
  · exact unwritten_enterPriming (unwritten_updSeq h _)
  · exact unwritten_postBind (unwritten_updSeq (unwritten_setLaneState h _) _) _ _

/-- A cue made pending and its disc looked for. -/
theorem unwritten_takePending (h : Unwritten l r s) (c : TakenCue) : Unwritten l r (s.takePending l c).1 := by
  unfold State.takePending
  split
  · exact unwritten_findDisc (unwritten_updSeq h _) c
  · exact h

theorem unwritten_walkClose (h : Unwritten l r s) : Unwritten l r (s.walkClose l) :=
  unwritten_updSeq (unwritten_due (unwritten_updSeq h _)) _

theorem unwritten_moveWalk (h : Unwritten l r s) (k : Nat) (w : Bool) : Unwritten l r (s.moveWalk l k w) :=
  unwritten_updSeq h _

theorem unwritten_endOfWalk (h : Unwritten l r s) :
    Unwritten l r (((s.setLaneState l .idle).releaseAll l).updSeq l fun q => { q with identity := none }) :=
  unwritten_updSeq (unwritten_releaseAll (unwritten_setLaneState h _)) _

end

/-! ### An entry retired BAD_CUE -/

/-- The first word of an entry that a lane in its walk mode has retired BAD_CUE with no counts (R150, R170). -/
def badWord (m : WalkMode) : Word := packBytes (if m = .cycle then 1 else 0) CueOutcome.badCue.code 0 0

/-- Entry `k` holds that word. -/
def State.BadAt (s : State) (l : LaneId) (k : Nat) : Prop := s.word (cueOffset l k) = badWord (s.lane l).seq.mode

theorem Unwritten.badAt {l : LaneId} {s t : State} (h : Unwritten l s t) {k : Nat} (hb : s.BadAt l k) : t.BadAt l k := by
  unfold State.BadAt State.word
  rw [h.xm, h.mode]
  exact hb

/-- A retire that finds its entry ARMED: what it writes. -/
theorem word_retire_armed {s : State} {l : LaneId} {c : TakenCue} (h : s.armed l c.entry = true)
    (hc : c.counts.gapless = false) :
    (s.retire l c .badCue).word (cueOffset l c.entry) = badWord (s.lane l).seq.mode := by
  have hn : (newsOf l).offset + 4 ≤ cueOffset l c.entry := by
    have := cueOffset_ge l c.entry
    cases l <;> simp only [newsOf, NewsWord.offset] <;> omega
  unfold State.retire State.writeResult State.updSeq
  dsimp only
  rw [if_pos h, word_setNews_out _ _ _ _ (.inr hn), word_setWord_same]
  simp only [State.lane_updLane, State.lane_countReads, badWord, codeFlag, hc]
  cases (s.lane l).seq.mode <;> rfl

/-- A retire writes no word of another entry, and not the first word of its own where it does not find it ARMED. -/
theorem word_retire_other {s : State} {l : LaneId} {c : TakenCue} {k : Nat} (o : CueOutcome)
    (h : s.armed l c.entry = false ∨ c.entry ≠ k) :
    (s.retire l c o).word (cueOffset l k) = s.word (cueOffset l k) := by
  have hn : (newsOf l).offset + 4 ≤ cueOffset l k := by
    have := cueOffset_ge l k
    cases l <;> simp only [newsOf, NewsWord.offset] <;> omega
  unfold State.retire State.writeResult State.updSeq
  dsimp only
  split
  · rename_i ha
    have hne : c.entry ≠ k := h.resolve_left (by simp [ha])
    have hd : cueOffset l c.entry + 32 ≤ cueOffset l k ∨ cueOffset l k + 32 ≤ cueOffset l c.entry := by
      simp only [cueOffset]
      omega
    rw [word_setNews_out _ _ _ _ (.inr hn), word_setWord_out _ _ _ _ (by omega)]
    unfold State.word
    rw [State.xm_setWords, Memory.word_write_out _ _ _ _ (by
      rw [Memory.flatMap_wordBytes_length]
      simp only [List.length_cons, List.length_nil]
      omega), State.xm_updLane, State.xm_countReads]
  · unfold State.word
    rw [State.xm_updLane, State.xm_countReads]

/-- An entry retired BAD_CUE stays so when a cue of the same walk is. -/
theorem badAt_retire {s : State} {l : LaneId} {c : TakenCue} {k : Nat} (hc : c.counts.gapless = false)
    (h : s.BadAt l k) : (s.retire l c .badCue).BadAt l k := by
  have hmode : ((s.retire l c .badCue).lane l).seq.mode = (s.lane l).seq.mode := by
    obtain ⟨ps, n, hl⟩ := lane_retire s l c .badCue l
    rw [hl]
  unfold State.BadAt
  rw [hmode]
  by_cases hk : s.armed l c.entry = true ∧ c.entry = k
  · rw [← hk.2]
    exact word_retire_armed hk.1 hc
  · rw [word_retire_other .badCue (by
      by_cases ha : s.armed l c.entry = true
      · exact .inr fun he => hk ⟨ha, he⟩
      · exact .inl (by simpa using ha))]
    exact h

theorem loader_retire (s : State) (l : LaneId) (c : TakenCue) (o : CueOutcome) : (s.retire l c o).loader = s.loader := by
  unfold State.retire State.writeResult State.updSeq
  dsimp only
  split <;> simp

/-- The first cue of a walk: made pending at the entry, with its disc looked for. -/
def State.takeEntry (s : State) (l : LaneId) (k : Nat) (w : Bool) : State × Bool :=
  ((s.countReads hostFieldWords).moveWalk l k w).takePending l (s.readCue l k)

theorem walk_entry (n k : Nat) (w : Bool) (s : State) (l : LaneId) :
    State.walk (n + 1) (.entry k w) s l =
      if (s.takeEntry l k w).2 then
        State.walk n ((((s.takeEntry l k w).1.retire l (s.readCue l k) .badCue).walkClose l).walkStep l)
          ((((s.takeEntry l k w).1.retire l (s.readCue l k) .badCue).walkClose l).stepRead l) l
      else (s.takeEntry l k w).1 := rfl

theorem unwritten_takeEntry (s : State) (l : LaneId) (k : Nat) (w : Bool) :
    Unwritten l (s.countReads hostFieldWords) (s.takeEntry l k w).1 :=
  unwritten_takePending (unwritten_moveWalk (.refl l _) k w) _

/-- An entry retired BAD_CUE stays so while the walk goes on. -/
theorem badAt_walk (l : LaneId) (k n : Nat) : ∀ (w : WalkStep) {s : State}, s.BadAt l k →
    (State.walk n w s l).BadAt l k := by
  induction n with
  | zero =>
    intro w s h
    cases w with
    | endOfWalk => exact (unwritten_endOfWalk (.refl l s)).badAt h
    | starved => exact (unwritten_setLaneState (.refl l s) _).badAt h
    | entry j w => exact h
  | succ n ih =>
    intro w s h
    cases w with
    | endOfWalk => exact (unwritten_endOfWalk (.refl l s)).badAt h
    | starved => exact (unwritten_setLaneState (.refl l s) _).badAt h
    | entry j w =>
      have hreads : ∀ (u : State) m, u.BadAt l k → (u.countReads m).BadAt l k := fun u m hu => by
        unfold State.BadAt
        rw [State.lane_countReads]
        exact hu
      have h1 := (unwritten_takeEntry s l j w).badAt (hreads s _ h)
      rw [walk_entry]
      split
      · exact ih _ (hreads _ _ ((unwritten_walkClose (.refl l _)).badAt (badAt_retire rfl h1)))
      · exact h1

/-- A walk marks no BIND to be answered JAMMED while the loader controller is not FAULTED. -/
theorem jammed_walk (l : LaneId) (n : Nat) : ∀ (w : WalkStep) {s : State}, s.loader.state ≠ .faulted →
    ((State.walk n w s l).lane l).marks.jammed = (s.lane l).marks.jammed := by
  induction n with
  | zero =>
    intro w s h
    cases w with
    | endOfWalk => exact (unwritten_endOfWalk (.refl l s)).jammed h
    | starved => exact (unwritten_setLaneState (.refl l s) _).jammed h
    | entry j w => rfl
  | succ n ih =>
    intro w s h
    cases w with
    | endOfWalk => exact (unwritten_endOfWalk (.refl l s)).jammed h
    | starved => exact (unwritten_setLaneState (.refl l s) _).jammed h
    | entry j w =>
      have h1 := unwritten_takeEntry s l j w
      have hj := h1.jammed h
      have hf : (s.takeEntry l j w).1.loader.state ≠ .faulted := by rw [h1.loader]; exact h
      rw [State.lane_countReads] at hj
      rw [walk_entry]
      split
      · generalize hu : (s.takeEntry l j w).1.retire l (s.readCue l j) .badCue = u
        have hul : (u.lane l).marks = ((s.takeEntry l j w).1.lane l).marks := by
          obtain ⟨ps, n, hl⟩ := lane_retire (s.takeEntry l j w).1 l (s.readCue l j) .badCue l
          rw [← hu, hl]
        have huf : u.loader.state ≠ .faulted := by rw [← hu, loader_retire]; exact hf
        have h2 := unwritten_walkClose (.refl l u)
        rw [ih _ (by rw [State.stepRead, State.loader_countReads, h2.loader]; exact huf), State.stepRead,
          State.lane_countReads, h2.jammed huf, hul, hj]
      · exact hj

/-! ### Where a taken cue leads (R152, R153, R154) -/

theorem slot_of_loader {s t : State} (h : t.loader.slots = s.loader.slots) (n : Loc) : t.slot n = s.slot n := by
  unfold State.slot
  rw [h]

/-- A cue that passes the structural checks. -/
theorem structural_of {s : State} {l : LaneId} {c : TakenCue} (hslot : c.slot ≤ 6) (htrack : c.track ≤ 99)
    (hspan : c.track = 0 → c.start < c.stop ∧ c.stop ≤ Config.discEnd)
    (hocc : c.slot = 0 → (s.slot (trayOf l)).occupancy ≠ .no) : s.structural l c = true := by
  unfold State.structural
  simp only [Bool.and_eq_true, Bool.or_eq_true, decide_eq_true_eq, bne_iff_ne]
  refine ⟨⟨⟨hslot, htrack⟩, ?_⟩, ?_⟩
  · by_cases h : c.track = 0
    · exact .inr (hspan h)
    · exact .inl h
  · by_cases h : c.slot = 0
    · exact .inr (hocc h)
    · exact .inl h

theorem not_structural_of {s : State} {l : LaneId} {c : TakenCue}
    (h : 6 < c.slot ∨ 99 < c.track ∨ (c.track = 0 ∧ (c.stop ≤ c.start ∨ Config.discEnd < c.stop)) ∨
      (c.slot = 0 ∧ (s.slot (trayOf l)).occupancy = .no)) : s.structural l c = false := by
  unfold State.structural
  rw [Bool.eq_false_iff]
  simp only [ne_eq, Bool.and_eq_true, Bool.or_eq_true, decide_eq_true_eq, bne_iff_ne]
  rintro ⟨⟨⟨h1, h2⟩, h3⟩, h4⟩
  rcases h with h | h | ⟨h, h'⟩ | ⟨h, h'⟩
  · omega
  · omega
  · have := h3.resolve_left (fun hn => hn h)
    omega
  · exact h4.elim (fun hn => hn h) fun hn => hn h'

/-- The pending cue of a lane whose disc is to be found. -/
structure State.Waits (s : State) (l : LaneId) (c : TakenCue) : Prop where
  pending : (s.lane l).seq.pendingCue = some c
  identity : (s.lane l).seq.identity = none

section
variable {s : State} {l : LaneId} {c : TakenCue}

/-- A slot-0 cue with the tray UNKNOWN waits in BINDING. -/
theorem findDisc_unknown (hslot : c.slot = 0) (hocc : (s.slot (trayOf l)).occupancy = .unknown) :
    s.findDisc l c = (s.setLaneState l .binding, false) := by
  unfold State.findDisc
  dsimp only
  rw [if_pos hslot, hocc]

/-- A cue whose disc is not in the tray waits in BINDING for the BIND that is sent. -/
theorem findDisc_elsewhere (hslot : 1 ≤ c.slot)
    (hne : ¬((s.slot (trayOf l)).occupancy = .yes ∧ (s.slot (trayOf l)).home = some c.slot)) :
    s.findDisc l c = ((s.setLaneState l .binding).sendBind l c.slot, false) := by
  unfold State.findDisc
  dsimp only
  rw [if_neg (by omega), if_neg hne]

/-- A cue whose disc is in the tray enters PRIMING. -/
theorem findDisc_here (hw : s.Waits l c) (hocc : (s.slot (trayOf l)).occupancy = .yes)
    (hhome : c.slot = 0 ∨ (s.slot (trayOf l)).home = some c.slot) : s.findDisc l c = s.enterPriming l := by
  unfold State.findDisc
  dsimp only
  split
  · rw [hocc]
  · rename_i h0
    rw [if_pos ⟨hocc, hhome.resolve_left h0⟩]
    congr 1
    unfold State.updSeq State.updLane
    dsimp only
    rw [hw.identity]
    have hself : ({ s.lane l with seq := { (s.lane l).seq with identity := none } } : Lane) = s.lane l := by
      rw [← hw.identity]
    dsimp only
    rw [hself]
    exact setLane_self s l

/-- PRIMING entered while the transport cannot be used: the cue waits there. -/
theorem enterPriming_unusable (hw : s.Waits l c) (hu : (s.tlc l).state.usable = false) :
    s.enterPriming l = (s.setLaneState l .priming, false) := by
  have ht : ((s.setLaneState l .priming).tlc l) = s.tlc l := State.tlc_updLane ..
  unfold State.enterPriming State.prime
  dsimp only
  rw [ht, hu, if_neg (by simp), (lane_setLaneState s l .priming).1]
  dsimp only
  rw [hw.identity]

/-- The lane in PRIMING with the identity of the disc in its tray. -/
theorem enterPriming_usable (hw : s.Waits l c) (hu : (s.tlc l).state.usable = true) :
    s.enterPriming l =
      ((s.setLaneState l .priming).updSeq l fun q => { q with identity := some (s.trayIdentity l) }).prime l := by
  have ht : ((s.setLaneState l .priming).tlc l) = s.tlc l := State.tlc_updLane ..
  have hid : (s.setLaneState l .priming).trayIdentity l = s.trayIdentity l := by
    unfold State.trayIdentity
    rw [slot_of_loader (s := s) (by rw [State.setLaneState, State.loader_updLane])]
  unfold State.enterPriming State.establish
  dsimp only
  rw [ht, hu, if_pos rfl, (lane_setLaneState s l .priming).1]
  dsimp only
  rw [hw.identity, hid]

/-- A cue that its disc's table of contents refuses. -/
theorem enterPriming_refused (hw : s.Waits l c) (hu : (s.tlc l).state.usable = true)
    (hr : resolve (s.trayIdentity l).toc c = none) : (s.enterPriming l).2 = true := by
  rw [enterPriming_usable hw hu]
  unfold State.prime State.updSeq
  dsimp only
  rw [State.lane_updLane, (lane_setLaneState s l .priming).1]
  dsimp only
  rw [hw.pending]
  dsimp only
  rw [hr]

/-- A cue whose first segment is opened for reading. -/
theorem enterPriming_opened (hw : s.Waits l c) (hu : (s.tlc l).state.usable = true) {a b : Nat}
    (hr : resolve (s.trayIdentity l).toc c = some (a, b)) :
    (s.enterPriming l).2 = false ∧ ((s.enterPriming l).1.lane l).seq =
      { (s.lane l).seq with
        state := .priming
        identity := some (s.trayIdentity l)
        segments := [{ cue := c, base := (s.lane l).f, first := a, stop := b, disc := (s.trayIdentity l).home }]
        current := some (s.lane l).f
        pendingCue := none
        reading := true } := by
  obtain ⟨hseq, _, _, hf, _⟩ := lane_setLaneState s l .priming
  rw [enterPriming_usable hw hu]
  unfold State.prime State.openReading State.updSeq
  dsimp only
  rw [State.lane_updLane, hseq]
  dsimp only
  rw [hw.pending]
  dsimp only
  rw [hr]
  dsimp only
  rw [State.seq_due, State.lane_updLane, State.lane_updLane, State.lane_updLane, hseq, hf]
  exact ⟨rfl, rfl⟩

/-- The BIND that a lane sends: outstanding under its new tag, and at the end of the queue where no other of its waits. -/
theorem sendBind_spec (n : Nat) (hf : s.loader.state ≠ .faulted) (hb : s.loader.binds l = 0) :
    ((s.sendBind l n).lane l).seq =
        { (s.lane l).seq with
          bindTag := (s.lane l).seq.bindTag + 1
          bind := some { tag := (s.lane l).seq.bindTag + 1, slot := n, moving := false } } ∧
      (s.sendBind l n).loader.queue = s.loader.queue ++ [{
        request := .bind l n ((s.lane l).seq.bindTag + 1)
        timer := some s.applied.loaderWaitLimit, due := false, served := false }] := by
  unfold State.sendBind State.postBind State.updSeq
  dsimp only
  rw [State.loader_updLane, if_neg hf, if_pos hb]
  unfold State.enqueue
  rw [State.lane_updLoader, State.lane_updLane, State.loader_updLoader, State.loader_updLane, State.applied_updLane]
  exact ⟨rfl, rfl⟩

end

/-! ### What follows on a lane that has nothing to play -/

/-- A lead that a lane is to have before it plays is at least 1 (R208). -/
theorem leads_of_inv {s : State} (h : s.Inv) {l : LaneId} (hn : s.share l ≠ 0) :
    1 ≤ (s.settings l).startLead ∧ 1 ≤ (s.settings l).restartLead := by
  have hok : ∀ i, 1 ≤ i → i ≤ 31 → fieldOk s.applied i = true := h.settings
  cases l
  · have h3 := hok 3 (by omega) (by omega)
    have h4 := hok 4 (by omega) (by omega)
    have hz : (s.applied.laneA.share == 0) = false := by simpa [State.share, State.settings] using hn
    simp [fieldOk, laneFieldOk, within, hz] at h3 h4
    simp only [State.settings]
    omega
  · have h3 := hok 16 (by omega) (by omega)
    have h4 := hok 17 (by omega) (by omega)
    have hz : (s.applied.laneB.share == 0) = false := by simpa [State.share, State.settings] using hn
    simp [fieldOk, laneFieldOk, within, hz] at h3 h4
    simp only [State.settings]
    omega

/-- A map in form with nothing between p and f has no span. -/
theorem MapFormed.spans_nil {p : Index} {l : List Span} {n : Nat} (h : MapFormed p p l n) : l = [] := by
  cases l with
  | nil => rfl
  | cons y l =>
    have h0 := (h.filled y (by simp)).1
    have ht := h.total
    rw [ahead_self, List.map_cons, List.sum_cons] at ht
    omega

/-- A lane with nothing between p and f does not begin to play. -/
theorem playDue_of_empty {s : State} (h : s.Inv) {l : LaneId} (hn : s.share l ≠ 0) (hp : (s.lane l).p = (s.lane l).f) :
    (s.lane l).playDue (s.settings l) = false := by
  obtain ⟨h1, h2⟩ := leads_of_inv h hn
  have hform := (h.lane l).1.form
  rw [← hp] at hform
  have hs : (s.lane l).secureLead = 0 := by rw [Lane.secureLead, hform.spans_nil]; rfl
  have hb : (s.lane l).bufferedLead = 0 := by rw [Lane.bufferedLead, hp, ahead_self]
  unfold Lane.playDue
  rw [hs, hb]
  simp
  omega

/-- A busy loader controller ends no recovery and starts no request. -/
theorem Loader.Busy.starts_nothing {s : State} (h : s.loader.Busy) : s.recovered = false ∧ s.choose = none := by
  obtain ⟨h1, h2, h3⟩ := h
  constructor
  · simp [State.recovered, h3]
  · unfold State.choose Loader.startable
    cases hs : s.loader.state <;> simp_all

/-- What follows in an event whose loader controller is busy leaves a lane with nothing to play and nothing to cut. -/
theorem keeps_settle_empty {l : LaneId} {r : State} (hi : r.Inv) (hb : r.loader.Busy) (hn : r.share l ≠ 0)
    (hj : (r.lane l).marks.jammed = []) (hm : (r.lane l).seq.mark = none) (hp : (r.lane l).p = (r.lane l).f) (n : Nat) :
    ∀ {s : State}, Keeps l r s → Follows r s → Calm (fun _ => True) (fun _ => True) False r s →
      Keeps l r (State.settle n s) := by
  induction n with
  | zero => exact fun h _ _ => h
  | succ n ih =>
    intro s h hf hc
    unfold State.settle
    split
    · exact h
    · rename_i t ht
      refine ih ?_ (follows_follow hf ht)
        (calm_follow (fun _ => .inl trivial) (fun _ => .inl trivial) (.inr hb) hc ht)
      have hsi := hf.inv hi
      have hshare : s.share l ≠ 0 := by rwa [State.share, settings_of_applied h.applied]
      have hbusy : s.loader.Busy := by
        have hw : s.loader.works.state = r.loader.works.state := by rw [(hc.works id).1]
        have hw : s.loader.state = r.loader.state := hw
        unfold Loader.Busy
        rw [hw]
        exact hb
      have hlane : ∀ k t, s.followLane k = some t → Keeps l r t := by
        intro k t ht
        by_cases hk : k = l
        · subst hk
          have hplay := playDue_of_empty hsi hshare (by rw [h.lane.p, h.lane.f, hp])
          have hjam : s.handJammed k = none := by
            unfold State.handJammed
            rw [h.lane.jammed, hj]
          have hcut : (s.lane k).cutDue = false := by
            unfold Lane.cutDue
            rw [h.lane.seq, hm]
            rfl
          unfold State.followLane at ht
          rw [hjam, hcut, hplay] at ht
          dsimp only at ht
          rw [if_neg (by simp)] at ht
          split at ht
          · cases ht
            exact keeps_schedule h k _
          · cases ht
        · exact keeps_followLane h k hk hsi ht
      obtain ⟨hrec, hcho⟩ := hbusy.starts_nothing
      unfold State.follow at ht
      rw [hrec, hcho] at ht
      split at ht
      · rename_i v hv
        cases ht
        exact hlane .a _ hv
      · split at ht
        · rename_i v hv
          cases ht
          exact hlane .b _ hv
        · cases ht

/-! ### The entry at the end of the event -/

/-- Bits that a word keeps of another one. -/
theorem bits_kept {x y b : Word} (h : x ||| y = x) (hy : y &&& b = b) : x &&& b = b := by
  rw [← h]
  ext i
  have hi := congrArg (fun w : Word => w.getLsbD i) hy
  simp only [BitVec.getLsbD_and] at hi
  simp only [BitVec.getElem_and, BitVec.getElem_or]
  rw [BitVec.getLsbD_eq_getElem (by assumption), BitVec.getLsbD_eq_getElem (by assumption)] at hi
  revert hi
  cases x[i] <;> cases y[i] <;> cases b[i] <;> simp

/-- A walk whose first entry is refused retires it BAD_CUE where the retire finds it ARMED. -/
theorem badAt_walk_refused {s : State} {l : LaneId} {k : Nat} (n : Nat) (w : Bool) (hr : (s.takeEntry l k w).2 = true)
    (ha : (s.countReads hostFieldWords).armed l k = true) :
    (State.walk (n + 1) (.entry k w) s l).BadAt l k ∧
      (State.walk (n + 1) (.entry k w) s l).news (newsOf l) &&& cueDoneBit = cueDoneBit := by
  have hu := unwritten_takeEntry s l k w
  have harmed : (s.takeEntry l k w).1.armed l (s.readCue l k).entry = true := by
    unfold State.armed State.seenWord State.word
    rw [hu.xm, hu.overlap]
    exact ha
  rw [walk_entry, if_pos hr]
  generalize hv : (s.takeEntry l k w).1.retire l (s.readCue l k) .badCue = v
  have hbad : v.BadAt l k := by
    unfold State.BadAt
    obtain ⟨ps, m, hl⟩ := lane_retire (s.takeEntry l k w).1 l (s.readCue l k) .badCue l
    rw [← hv, hl]
    exact word_retire_armed harmed rfl
  have hnews : v.news (newsOf l) &&& cueDoneBit = cueDoneBit := by
    rw [← hv]
    unfold State.retire
    dsimp only
    rw [if_pos harmed, news_setNews, if_pos rfl]
    exact or_and_same _ _
  refine ⟨badAt_walk l k n _ ?_, ?_⟩
  · have h1 := (unwritten_walkClose (.refl l v)).badAt hbad
    unfold State.BadAt State.stepRead
    rw [State.lane_countReads]
    exact h1
  · have hf := (follows_walk n _ (walkStep_inTable (v.walkClose l) l)
      (follows_stepRead (follows_walkClose (Follows.refl v) l) l) l).news (newsOf l)
    exact bits_kept hf hnews

theorem holds_one {s : State} {a : Nat} {w : Word} : s.HoldsWords a [w] ↔ s.word a = w := by
  simp [State.HoldsWords]

/-- The records of an event leave the cue tables (11 section 11.1). -/
theorem word_finish_table (s b : State) {a : Nat} (ha : 0x1000 ≤ a) : (s.finish b).word a = s.word a := by
  have h0 : s.HoldsWords a [s.word a] := holds_one.2 rfl
  rw [← holds_one]
  have hstatus : ∀ l, statusOffset l + 1024 ≤ a := fun l => by cases l <;> simp only [statusOffset] <;> omega
  have htransport : ∀ l, transportOffset l + 64 ≤ a := fun l => by cases l <;> simp only [transportOffset] <;> omega
  have hloader : loaderOffset + 128 ≤ a := by simp only [loaderOffset]; omega
  exact holds_finishLoader_out (holds_finishTransport_out (holds_finishTransport_out (holds_finishLane_out
    (holds_finishLane_out h0 (.inr (hstatus .a)) (by omega)) (.inr (hstatus .b)) (by omega))
    (.inr (htransport .a))) (.inr (htransport .b))) (.inr hloader)

/-- So does the answer to a command. -/
theorem word_answer_table (s : State) (c : CellId) (n : Nat) (q : ResultCode) (d : Nat) {a : Nat} (ha : 0x1000 ≤ a) :
    (s.answer c n q d).word a = s.word a := by
  refine word_of_bytes fun j _ => (answer_spec s c n q d).2.2.2.2 _ ?_
  have h1 := cell_bounds c
  have h2 := answerNews_bounds c
  unfold answerBytes
  omega

/-- An entry retired BAD_CUE in the own effect of a command of the lane's cell stays so to the end of the event. -/
theorem retiredBad_of_own {l : LaneId} {k n d : Nat} {q : ResultCode} {w v b : State} (hk : k ≤ 23) (hbad : w.BadAt l k)
    (hnews : w.news (newsOf l) &&& cueDoneBit = cueDoneBit) (hkeep : Keeps l w v) (hf : Follows w v) :
    ((v.answer (laneCell l) n q d).finish b).RetiredBad l k := by
  have ha := cueOffset_ge l k
  have hword : v.word (cueOffset l k) = w.word (cueOffset l k) := word_of_bytes fun j hj => hkeep.table _ (by
    unfold inTable
    simp only [cueOffset, Config.cueEntries]
    omega)
  refine ⟨?_, ?_⟩
  · rw [word_finish_table _ _ ha, word_answer_table _ _ _ _ _ ha, hword, hbad, lane_finish, lane_answer]
    unfold Lane.finished
    rw [hkeep.lane.seq]
    rfl
  · have h1 : v.news (newsOf l) &&& cueDoneBit = cueDoneBit := bits_kept (hf.news (newsOf l)) hnews
    have h2 := (answer_spec v (laneCell l) n q d).2.2.2.1
    have hl : (answerNews (laneCell l)).1 = newsOf l := by cases l <;> rfl
    rw [hl] at h2
    refine bits_kept ((follows_finish (Follows.refl _) b).news (newsOf l)) (bits_kept ?_ h1)
    rw [h2, BitVec.or_comm, ← BitVec.or_assoc, BitVec.or_self]

/-! ### The own effect of a START (R164) -/

/-- The lane restarted, its cells released. -/
def State.restarted (s : State) (l : LaneId) (m : Nat) : State :=
  (s.releaseAll l).updLane l fun x => x.restart (walkModeOf m) (s.settings l).guard

theorem startLane_eq (s : State) (l : LaneId) (k m : Nat) :
    s.startLane l k m = State.walk walkFuel (.entry k false) (s.restarted l m) l := rfl

theorem lane_restarted (s : State) (l : LaneId) (m : Nat) :
    (s.restarted l m).lane l = (s.lane l).restart (walkModeOf m) (s.settings l).guard := by
  cases l <;> rfl

theorem restarted_rest (s : State) (l : LaneId) (m : Nat) :
    (s.restarted l m).xm = s.xm ∧ (s.restarted l m).overlap = s.overlap ∧ (s.restarted l m).applied = s.applied ∧
      (s.restarted l m).loader = s.loader ∧ (s.restarted l m).store = (s.releaseAll l).store ∧
      ∀ j, (s.restarted l m).tlc j = s.tlc j := by
  cases l <;> exact ⟨rfl, rfl, rfl, rfl, rfl, fun j => by cases j <;> rfl⟩

/-- What a START leaves of its lane in any case: the indices at 0, its mode, the counts of arrivals at 0, no play-out mark, and
no cell. -/
structure State.Restarted (s t : State) (l : LaneId) (m : Nat) : Prop where
  p : (t.lane l).p = 0
  f : (t.lane l).f = 0
  mode : (t.lane l).seq.mode = walkModeOf m
  mark : (t.lane l).seq.mark = none
  counts : Lane.reset.SameCounts (t.lane l)
  repaired : (t.lane l).count.repaired = 0
  store : ∀ c ∈ t.store, s.inShare l c = false

theorem startLane_restarted (s : State) (l : LaneId) (k m : Nat) : s.Restarted (s.startLane l k m) l m := by
  have hc : Calm (fun _ => True) (fun _ => False) False (s.restarted l m) (s.startLane l k m) :=
    calm_walk l trivial walkFuel _ (Calm.refl _ _ _ _)
  have hs := hc.lane l
  obtain ⟨hp, hmark⟩ := hc.uncut l id
  rw [lane_restarted] at hs hp hmark
  refine ⟨hp, congrArg LaneSteady.f hs, congrArg LaneSteady.mode hs, hmark rfl, ⟨congrArg LaneSteady.skips hs,
    congrArg LaneSteady.strays hs, congrArg LaneSteady.overruns hs, congrArg LaneSteady.noMatches hs,
    congrArg LaneSteady.unanchored hs, congrArg LaneSteady.slips hs⟩, congrArg LaneSteady.repaired hs, fun c hc' => ?_⟩
  have := hc.store.subset hc'
  rw [(restarted_rest s l m).2.2.2.2.1] at this
  exact inShare_releaseAll this

/-- The state in which a START looks for the disc of its cue, made pending. -/
def State.pendingAt (s : State) (l : LaneId) (k m : Nat) (c : TakenCue) : State :=
  (((s.restarted l m).countReads hostFieldWords).moveWalk l k false).updSeq l fun q => { q with pendingCue := some c }

theorem seq_pendingAt (s : State) (l : LaneId) (k m : Nat) (c : TakenCue) :
    ((s.pendingAt l k m c).lane l).f = 0 ∧ ((s.pendingAt l k m c).lane l).seq =
      { (s.lane l).seq with
        mode := walkModeOf m, identity := none, lanePasses := 0, entryPasses := List.replicate Config.cueEntries 0
        unplayed := 0, mark := none, segments := [], current := none, pendingCue := some c, lastAddress := 0
        position := k } := by
  unfold State.pendingAt State.moveWalk State.updSeq
  rw [State.lane_updLane, State.lane_updLane, State.lane_countReads, lane_restarted]
  exact ⟨rfl, rfl⟩

theorem pendingAt_rest (s : State) (l : LaneId) (k m : Nat) (c : TakenCue) :
    (s.pendingAt l k m c).tlc l = s.tlc l ∧ (s.pendingAt l k m c).loader = s.loader ∧
      (s.pendingAt l k m c).applied = s.applied := by
  obtain ⟨_, _, happ, hload, _, htlc⟩ := restarted_rest s l m
  unfold State.pendingAt State.moveWalk State.updSeq
  simp [happ, hload, htlc]

theorem pendingAt_waits (s : State) (l : LaneId) (k m : Nat) (c : TakenCue) : (s.pendingAt l k m c).Waits l c := by
  have h := (seq_pendingAt s l k m c).2
  exact ⟨by rw [h], by rw [h]⟩

theorem readCue_of_same {s t : State} (hx : t.xm = s.xm) (ho : t.overlap = s.overlap) (l : LaneId) (k : Nat) :
    t.readCue l k = s.readCue l k := by
  unfold State.readCue State.seenWord State.word
  rw [hx, ho]

theorem armed_of_same {s t : State} (hx : t.xm = s.xm) (ho : t.overlap = s.overlap) (l : LaneId) (k : Nat) :
    t.armed l k = s.armed l k := by
  unfold State.armed State.seenWord State.word
  rw [hx, ho]

/-- The first cue of a START: refused by the structural checks, or its disc looked for. -/
theorem takeEntry_restarted (s : State) (l : LaneId) (k m : Nat) :
    (s.restarted l m).takeEntry l k false =
      if s.structural l (s.readCue l k) then (s.pendingAt l k m (s.readCue l k)).findDisc l (s.readCue l k)
      else (((s.restarted l m).countReads hostFieldWords).moveWalk l k false, true) := by
  obtain ⟨hx, ho, _, hload, _, _⟩ := restarted_rest s l m
  unfold State.takeEntry State.takePending
  rw [readCue_of_same hx ho]
  have hs : (((s.restarted l m).countReads hostFieldWords).moveWalk l k false).structural l (s.readCue l k) =
      s.structural l (s.readCue l k) := by
    unfold State.structural
    rw [slot_of_loader (s := s) (by
      unfold State.moveWalk State.updSeq
      rw [State.loader_updLane, State.loader_countReads, hload])]
  rw [hs]
  rfl

/-- A START whose first cue passes ends there. -/
theorem startLane_passes {s : State} {l : LaneId} {k m : Nat} {t : State}
    (hs : s.structural l (s.readCue l k) = true)
    (h : (s.pendingAt l k m (s.readCue l k)).findDisc l (s.readCue l k) = (t, false)) : s.startLane l k m = t := by
  have he : (s.restarted l m).takeEntry l k false = (t, false) := by rw [takeEntry_restarted, if_pos hs, h]
  rw [startLane_eq, show walkFuel = 25 + 1 from rfl, walk_entry, he]
  rfl

/-- A START whose first cue fails retires it BAD_CUE where the retire finds its entry ARMED. -/
theorem startLane_refused {s : State} {l : LaneId} {k m : Nat}
    (h : s.structural l (s.readCue l k) = true →
      ((s.pendingAt l k m (s.readCue l k)).findDisc l (s.readCue l k)).2 = true)
    (ha : (s.countReads hostFieldWords).armed l k = true) :
    (s.startLane l k m).BadAt l k ∧ (s.startLane l k m).news (newsOf l) &&& cueDoneBit = cueDoneBit := by
  obtain ⟨hx, ho, _⟩ := restarted_rest s l m
  rw [startLane_eq, show walkFuel = 25 + 1 from rfl]
  refine badAt_walk_refused 25 false ?_ ?_
  · rw [takeEntry_restarted]
    split
    · rename_i hs
      exact h hs
    · rfl
  · rw [armed_of_same (s := s.countReads hostFieldWords) (by simp [hx]) ?_]
    · exact ha
    · unfold State.countReads
      rw [ho]

/-! ### The event of a START -/

theorem judgeStart_admits {s : State} {l : LaneId} {k m : Nat} (hn : s.share l ≠ 0)
    (hst : (s.lane l).seq.state = .idle ∨ (s.lane l).seq.state = .starved) (hk : k ≤ 23)
    (ha : s.armed l k = true) (hm : m ≤ 1) : s.judgeStart l k m = .taken fun s => (s.countReads 1).startLane l k m := by
  have he : s.enabled l = true := by simpa [State.enabled] using hn
  have had : (s.lane l).seq.state.admitsStart = true := by rcases hst with h | h <;> rw [h] <;> rfl
  unfold State.judgeStart
  rw [he, had, ha, if_neg (by simp), if_neg (by simp; omega)]

/-- A START leaves the loader controller as busy as it finds it. -/
theorem busy_startLane {s : State} (h : s.loader.Busy) (l : LaneId) (k m : Nat) : (s.startLane l k m).loader.Busy := by
  have hc : Calm (fun _ => True) (fun _ => True) False (s.restarted l m) (s.startLane l k m) :=
    calm_walk l trivial walkFuel _ (Calm.refl _ _ _ _)
  have hload := (restarted_rest s l m).2.2.2.1
  have hworks : (s.startLane l k m).loader.works.state = (s.restarted l m).loader.works.state := by rw [(hc.works id).1]
  have hstate : (s.startLane l k m).loader.state = s.loader.state := hworks.trans (by rw [hload]; rfl)
  unfold Loader.Busy
  rwa [hstate]

/-- What the own effect of a START leaves for what follows: its lane has nothing to play. -/
theorem startLane_follows {s : State} {l : LaneId} {k m : Nat} (hn : s.share l ≠ 0) (hk : k ≤ 23) (hi : s.Inv)
    (hb : s.loader.Busy) (hu : s.Unmarked) (n : Nat) :
    Keeps l (s.startLane l k m) (State.settle n (s.startLane l k m)) := by
  have hf := follows_startLane (Follows.refl s) l k m hk
  have hr := startLane_restarted s l k m
  have hload := (restarted_rest s l m).2.2.2.1
  refine keeps_settle_empty (hf.inv hi) ?_ ?_ ?_ hr.mark (hr.p.trans hr.f.symm) n (.refl l _) (.refl _) (Calm.refl _ _ _ _)
  · exact busy_startLane hb l k m
  · rwa [State.share, settings_of_applied hf.outside.applied]
  · rw [startLane_eq, jammed_walk l walkFuel _ (by rw [hload]; exact hb.2.1), lane_restarted]
    exact congrArg LaneMarks.jammed (hu l)

/-! ### The cases of a START (R164) -/

section
variable {s : State} {l : LaneId} {k m : Nat} {c : TakenCue}

theorem slot_pendingAt (s : State) (l : LaneId) (k m : Nat) (c : TakenCue) (n : Loc) :
    (s.pendingAt l k m c).slot n = s.slot n := slot_of_loader (by rw [(pendingAt_rest s l k m c).2.1]) n

/-- A slot-0 cue with the tray UNKNOWN: the lane waits in BINDING. -/
theorem seq_startLane_unknown (hc : s.readCue l k = c) (hs : s.structural l c = true) (h0 : c.slot = 0)
    (hocc : (s.slot (trayOf l)).occupancy = .unknown) :
    ((s.startLane l k m).lane l).seq = { ((s.pendingAt l k m c).lane l).seq with state := .binding } := by
  subst hc
  rw [startLane_passes hs (findDisc_unknown h0 (by rwa [slot_pendingAt])), (lane_setLaneState _ l .binding).1]

/-- A cue whose disc is elsewhere: the lane waits in BINDING for the BIND it has queued. -/
theorem startLane_elsewhere (hc : s.readCue l k = c) (hs : s.structural l c = true) (h1 : 1 ≤ c.slot)
    (hne : ¬((s.slot (trayOf l)).occupancy = .yes ∧ (s.slot (trayOf l)).home = some c.slot))
    (hf : s.loader.state ≠ .faulted) (hb : s.loader.binds l = 0) :
    ((s.startLane l k m).lane l).seq = { ((s.pendingAt l k m c).lane l).seq with
        state := .binding
        bindTag := (s.lane l).seq.bindTag + 1
        bind := some { tag := (s.lane l).seq.bindTag + 1, slot := c.slot, moving := false } } ∧
      (s.startLane l k m).loader.queue = s.loader.queue ++ [{
        request := .bind l c.slot ((s.lane l).seq.bindTag + 1)
        timer := some s.applied.loaderWaitLimit, due := false, served := false }] := by
  subst hc
  obtain ⟨_, hload, happ⟩ := pendingAt_rest s l k m (s.readCue l k)
  have hbl : ((s.pendingAt l k m (s.readCue l k)).setLaneState l .binding).loader = s.loader := by
    rw [State.setLaneState, State.loader_updLane, hload]
  have hba : ((s.pendingAt l k m (s.readCue l k)).setLaneState l .binding).applied = s.applied := by
    rw [State.setLaneState, State.applied_updLane, happ]
  obtain ⟨hseq, hqueue⟩ := sendBind_spec (s := (s.pendingAt l k m (s.readCue l k)).setLaneState l .binding) (l := l)
    (s.readCue l k).slot (by rwa [hbl]) (by rwa [hbl])
  rw [startLane_passes hs (findDisc_elsewhere h1 (by rwa [slot_pendingAt])), hseq, hqueue, hbl, hba,
    (lane_setLaneState _ l .binding).1, (seq_pendingAt s l k m _).2]
  exact ⟨rfl, rfl⟩

/-- A cue whose disc is in the tray is taken into PRIMING. -/
theorem findDisc_pendingAt (hocc : (s.slot (trayOf l)).occupancy = .yes)
    (hhome : c.slot = 0 ∨ (s.slot (trayOf l)).home = some c.slot) :
    (s.pendingAt l k m c).findDisc l c = (s.pendingAt l k m c).enterPriming l :=
  findDisc_here (pendingAt_waits s l k m c) (by rwa [slot_pendingAt]) (by rwa [slot_pendingAt])

theorem seq_startLane_unusable (hc : s.readCue l k = c) (hs : s.structural l c = true)
    (hocc : (s.slot (trayOf l)).occupancy = .yes) (hhome : c.slot = 0 ∨ (s.slot (trayOf l)).home = some c.slot)
    (hu : (s.tlc l).state.usable = false) :
    ((s.startLane l k m).lane l).seq = { ((s.pendingAt l k m c).lane l).seq with state := .priming } := by
  subst hc
  have hp := enterPriming_unusable (pendingAt_waits s l k m (s.readCue l k))
    (by rwa [(pendingAt_rest s l k m (s.readCue l k)).1])
  rw [startLane_passes hs ((findDisc_pendingAt hocc hhome).trans hp), (lane_setLaneState _ l .priming).1]

theorem trayIdentity_pendingAt (s : State) (l : LaneId) (k m : Nat) (c : TakenCue) :
    (s.pendingAt l k m c).trayIdentity l = s.trayIdentity l := by
  unfold State.trayIdentity
  rw [slot_pendingAt]

theorem seq_startLane_opened (hc : s.readCue l k = c) (hs : s.structural l c = true)
    (hocc : (s.slot (trayOf l)).occupancy = .yes) (hhome : c.slot = 0 ∨ (s.slot (trayOf l)).home = some c.slot)
    (hu : (s.tlc l).state.usable = true) {a b : Nat} (hr : resolve (s.trayIdentity l).toc c = some (a, b)) :
    ((s.startLane l k m).lane l).seq = { ((s.pendingAt l k m c).lane l).seq with
      state := .priming
      identity := some (s.trayIdentity l)
      segments := [{ cue := c, base := 0, first := a, stop := b, disc := (s.trayIdentity l).home }]
      current := some 0
      pendingCue := none
      reading := true } := by
  subst hc
  obtain ⟨hno, hseq⟩ := enterPriming_opened (pendingAt_waits s l k m (s.readCue l k))
    (by rwa [(pendingAt_rest s l k m (s.readCue l k)).1]) (by rwa [trayIdentity_pendingAt])
  rw [startLane_passes hs ((findDisc_pendingAt hocc hhome).trans (Prod.ext rfl hno)), hseq, trayIdentity_pendingAt,
    (seq_pendingAt s l k m _).1]

theorem findDisc_refused (hocc : (s.slot (trayOf l)).occupancy = .yes)
    (hhome : c.slot = 0 ∨ (s.slot (trayOf l)).home = some c.slot) (hu : (s.tlc l).state.usable = true)
    (hr : resolve (s.trayIdentity l).toc c = none) : ((s.pendingAt l k m c).findDisc l c).2 = true := by
  rw [findDisc_pendingAt hocc hhome]
  exact enterPriming_refused (pendingAt_waits s l k m c) (by rwa [(pendingAt_rest s l k m c).1])
    (by rwa [trayIdentity_pendingAt])

/-- The instruction that brings a START which a lane admits. -/
theorem exec_start (ha : s.attends (laneCell l) codeStart = true) (hn : s.share l ≠ 0)
    (hst : (s.lane l).seq.state = .idle ∨ (s.lane l).seq.state = .starved) (hk : s.cellArg1 (laneCell l) ≤ 23)
    (harm : (s.taking (laneCell l)).armed l (s.cellArg1 (laneCell l)) = true) (hm : s.cellArg2 (laneCell l) ≤ 1) :
    exec (.start l) s = .next ((s.taking (laneCell l)).attend (laneCell l) codeStart
      (.taken fun u => (u.countReads 1).startLane l (s.cellArg1 (laneCell l)) (s.cellArg2 (laneCell l)))) := by
  have hlane : ∀ j, (s.taking (laneCell l)).lane j = s.lane j := lane_clearOutputs s _
  have happ : (s.taking (laneCell l)).applied = s.applied := rfl
  have hj : (s.taking (laneCell l)).judgeStart l (s.cellArg1 (laneCell l)) (s.cellArg2 (laneCell l)) =
      .taken fun u => (u.countReads 1).startLane l (s.cellArg1 (laneCell l)) (s.cellArg2 (laneCell l)) :=
    judgeStart_admits (by rwa [State.share, settings_of_applied happ]) (by rwa [hlane]) hk harm hm
  exact congrArg _ ((onCommand_of ha _).trans (congrArg _ hj))

end

/-- Settles O18: the own effect of the event ends where the first cue passes (`startLane_passes`) or has retired its entry
(`startLane_refused`); what follows leaves the lane (`startLane_follows`), and the answer and the records leave its entry. -/
theorem startTaken : Obligations.StartTaken := by
  intro l k c tray s ha hn hst hk hk23 harm hmode hc htray
  subst hk
  subst htray
  set k := s.cellArg1 (laneCell l)
  set u := s.taking (laneCell l)
  set m := s.cellArg2 (laneCell l)
  set v := u.countReads 1
  set t := u.attend (laneCell l) codeStart (.taken fun s => (s.countReads 1).startLane l k m) with ht
  have hlane : ∀ j, v.lane j = s.lane j := lane_clearOutputs s (some (laneCell l))
  have hfv : Follows s v := follows_countReads (follows_clearOutputs (Follows.refl s) _) 1
  have hfw : Follows s (v.startLane l k m) := follows_startLane hfv l k m hk23
  have hr := startLane_restarted v l k m
  have hl : Leaves (fun _ => True) (· ≠ l) True (v.startLane l k m) t :=
    attend_leaves u (laneCell l) codeStart (fun s => (s.countReads 1).startLane l k m) (fun _ => .inl trivial)
      (fun j => if h : j = l then .inr (.inl (h ▸ hr.mark)) else .inl h) (.inl trivial)
  obtain ⟨c1, c2, c3, c4, c5, c6⟩ := hr.counts
  refine ⟨t, exec_start ha hn hst hk23 harm hmode, ?_, (hl.p l (by simp)).trans hr.p, (hl.f l).trans hr.f,
    (hl.mode l).trans hr.mode, ⟨(hl.skips l).trans c1, (hl.strays l).trans c2, (hl.overruns l).trans c3,
      (hl.noMatches l).trans c4, (hl.unanchored l).trans c5, (hl.slips l).trans c6⟩, (hl.repaired l).trans hr.repaired,
    fun d hd => ?_, fun hinv hbusy hunm hbind => ?_⟩
  · rw [← detail_laneCell]
    exact attend_taken s _ _ _ hfw.ownEffect
  · rw [← hr.store d (hl.store.subset hd)]
    exact (inShare_of_applied hfv.outside.applied l d).symm
  have hkeep : Keeps l (v.startLane l k m) (State.settle settleFuel (v.startLane l k m)) :=
    startLane_follows (by rwa [State.share, settings_of_applied hfv.outside.applied]) hk23 (hfv.inv hinv) hbusy
      (unmarked_of_lane hunm hlane) settleFuel
  have hq : (t.lane l).seq = { ((v.startLane l k m).lane l).seq with refresh := (t.lane l).seq.refresh } := by
    rw [ht]
    unfold State.attend
    dsimp only
    rw [lane_finish, lane_answer, ← hkeep.lane.seq]
    rfl
  have hcue : v.readCue l k = c := hc.symm
  have hbad : (v.structural l c = true → ((v.pendingAt l k m c).findDisc l c).2 = true) →
      (u.countReads 4).armed l k = true → t.RetiredBad l k := fun hrefuse harm4 => by
    obtain ⟨h1, h2⟩ := startLane_refused (s := v) (m := m) (by rwa [hcue]) harm4
    exact retiredBad_of_own hk23 h1 h2 hkeep (follows_settle settleFuel (Follows.refl _))
  have hpseq := (seq_pendingAt v l k m c).2
  rw [hlane] at hpseq
  have husable : (v.tlc l).state = (s.tlc l).state := by cases l <;> rfl
  refine ⟨fun hfail => hbad fun hs => ?_,
    fun h6 h99 hspan => ⟨fun h0 hocc => ?_, fun h1 hne hb0 => ?_, fun hocc hhome => ?_⟩⟩
  · rw [not_structural_of (s := v) hfail] at hs
    cases hs
  · have hs : v.structural l c = true := structural_of h6 h99 hspan fun _ h => by cases h.symm.trans hocc
    rw [seq_startLane_unknown hcue hs h0 hocc, hpseq] at hq
    rw [hq]
    exact ⟨rfl, rfl, hbind, rfl⟩
  · obtain ⟨hseq, hqueue⟩ := startLane_elsewhere (m := m) hcue
      (structural_of h6 h99 hspan fun h => absurd h (by omega)) h1 hne hbusy.2.1 hb0
    have hprefix : (v.startLane l k m).loader.queue <+: t.loader.queue :=
      ((attend_leaves (e := fun _ => True) (c := fun _ => True) (b := False) u (laneCell l) codeStart
        (fun s => (s.countReads 1).startLane l k m) (fun _ => .inl trivial) (fun _ => .inl trivial)
        (.inr (busy_startLane (s := v) hbusy l k m))).works id).2
    rw [hqueue, hlane] at hprefix
    rw [hseq, hpseq, hlane] at hq
    rw [hq]
    exact ⟨rfl, rfl, rfl, rfl, hprefix⟩
  · have hs : v.structural l c = true := structural_of h6 h99 hspan fun _ h => by cases h.symm.trans hocc
    refine ⟨fun hun => ?_, fun d hus hd => ?_⟩
    · rw [seq_startLane_unusable hcue hs hocc hhome (by rwa [husable]), hpseq] at hq
      rw [hq]
      exact ⟨rfl, rfl, rfl, rfl⟩
    · have hid : v.trayIdentity l = { toc := d, home := (s.slot (trayOf l)).home } :=
        congrArg (fun x : Option Toc => Identity.mk (x.getD .empty) (s.slot (trayOf l)).home) hd
      refine ⟨fun hres => hbad fun _ => ?_, fun a b hres => ?_⟩
      · exact findDisc_refused hocc hhome (by rwa [husable]) (by rwa [hid])
      · rw [seq_startLane_opened hcue hs hocc hhome (by rwa [husable]) (by rw [hid]; exact hres), hid] at hq
        rw [hq]
        exact ⟨rfl, rfl, rfl, rfl, rfl, rfl⟩

end Sys2Proof.Machine
end

section
/-! The claims of the Continuity Map position by position (O60). -/

namespace Sys2Proof.Machine

set_option Elab.async false

/-! ### What a map says of a position -/

/-- What a span says of each of its positions: segment, condition and repair part (R16). -/
def Span.entry (y : Span) : SegRef × Condition × Option RepairPart := (y.seg, y.cond, y.repair)

/-- What a span list says of its positions, in their order. -/
def entriesOf (l : List Span) : List (SegRef × Condition × Option RepairPart) :=
  l.flatMap fun y => List.replicate y.count y.entry

theorem entriesOf_cons (y : Span) (l : List Span) :
    entriesOf (y :: l) = List.replicate y.count y.entry ++ entriesOf l := rfl

theorem entriesOf_length (l : List Span) : (entriesOf l).length = spanTotal l := by
  induction l with
  | nil => rfl
  | cons y l ih =>
    rw [entriesOf_cons, List.length_append, List.length_replicate, ih]
    simp [spanTotal]

/-- A span that does not hold a position leaves it at its distance from the span's end. -/
theorem ahead_past {i p : Index} {n : Nat} (h : ¬ ahead i p < n) : ahead i (plus p n) = ahead i p - n := by
  have hlt : ahead i p < 2 ^ 32 := (i - p).isLt
  unfold ahead plus at *
  bv_omega

theorem find_here {x : Span} {i : Index} (hi : ahead i x.first < x.count) (l : List Span) :
    (x :: l).find? (fun z => z.contains i) = some x :=
  List.find?_cons_of_pos (by simpa [Span.contains] using hi)

theorem find_there {x : Span} {i : Index} (hi : ¬ ahead i x.first < x.count) (l : List Span) :
    (x :: l).find? (fun z => z.contains i) = l.find? fun z => z.contains i :=
  List.find?_cons_of_neg (by simpa [Span.contains] using hi)

theorem contains_iff (x : Span) (i : Index) : x.contains i = true ↔ ahead i x.first < x.count := by simp [Span.contains]

/-- The end of the first positions of a span, measured from its first one. -/
theorem ahead_plus_self (a : Index) {k : Nat} (h : k < 2 ^ 32) : ahead (plus a k) a = k := by
  have := ahead_plus_left a a k (by rw [ahead_self]; omega)
  rwa [ahead_self, Nat.zero_add] at this

/-- In a list that covers its window the entry of a position stands at its distance from p. -/
theorem entry_find {f : Index} (i : Index) : ∀ {l : List Span} {p : Index}, SpansCover p f l →
    (l.find? fun y => y.contains i).map Span.entry = (entriesOf l)[ahead i p]?
  | [], _, _ => rfl
  | y :: l, p, hc => by
    obtain ⟨rfl, hc⟩ := hc
    rw [entriesOf_cons]
    by_cases hi : ahead i y.first < y.count
    · rw [List.getElem?_append_left (by simpa using hi), find_here hi]
      simp [hi]
    · rw [List.getElem?_append_right (by simpa using hi), find_there hi, entry_find i hc, ahead_past hi, List.length_replicate]

/-- A list that covers its window holds exactly the positions of the window. -/
theorem find_isSome {f p : Index} {l : List Span} (hc : SpansCover p f l) (i : Index) :
    (l.find? fun y => y.contains i).isSome = decide (ahead i p < spanTotal l) := by
  have h := congrArg Option.isSome (entry_find i hc)
  rw [Option.isSome_map] at h
  rw [h, ← entriesOf_length, Bool.eq_iff_iff]
  simp

/-- Two lists that cover a window and say the same of every position. -/
theorem entry_of_entriesOf {f p : Index} {a b : List Span} (ha : SpansCover p f a) (hb : SpansCover p f b)
    (h : entriesOf a = entriesOf b) (i : Index) :
    (a.find? fun y => y.contains i).map Span.entry = (b.find? fun y => y.contains i).map Span.entry := by
  rw [entry_find i ha, entry_find i hb, h]

/-! ### Restoring the form joins no repair parts -/

/-- Adjacent spans that are to be joined carry no repair part. -/
def RepairsApart (l : List Span) : Prop :=
  l.IsChain fun x y => x.joins y = true → x.cond.wantsRepair = false

theorem spansApart_iff : ∀ {l : List Span}, SpansApart l ↔ l.IsChain fun x y => x.joins y = false
  | [] => by simp [SpansApart]
  | [_] => by simp [SpansApart]
  | x :: y :: l => by
    rw [List.isChain_cons_cons, SpansApart, spansApart_iff (l := y :: l)]

theorem Span.joins_iff (x y : Span) : x.joins y = true ↔ x.seg = y.seg ∧ x.cond = y.cond := by
  simp [Span.joins]

theorem Span.Formed.repair_none {y : Span} (h : y.Formed) (hc : y.cond.wantsRepair = false) : y.repair = none := by
  unfold Span.Formed at h
  rw [hc] at h
  simpa using h

/-- Restoring the form of a list whose repair parts are apart leaves each position its entry; the first span keeps its own. -/
theorem normalize_cons_entries (l : List Span) : ∀ y : Span, (∀ z ∈ y :: l, 0 < z.count ∧ z.Formed) →
    RepairsApart (y :: l) → ∃ z rest, normalize (y :: l) = z :: rest ∧ z.entry = y.entry ∧
      entriesOf (z :: rest) = entriesOf (y :: l) := by
  induction l with
  | nil =>
    intro y hf _
    have h0 : y.count ≠ 0 := by have := (hf y (by simp)).1; omega
    exact ⟨y, [], by simp [normalize, pushSpan, h0], rfl, rfl⟩
  | cons x l ih =>
    intro y hf ha
    have h0 : y.count ≠ 0 := by have := (hf y (by simp)).1; omega
    obtain ⟨hyx, hal⟩ := List.isChain_cons_cons.1 ha
    obtain ⟨z, rest, hn, hz, he⟩ := ih x (fun w hw => hf w (List.mem_cons_of_mem _ hw)) hal
    have hpush : normalize (y :: x :: l) = pushSpan y (z :: rest) := congrArg (pushSpan y) hn
    obtain ⟨hseg, hcond, hrep⟩ : z.seg = x.seg ∧ z.cond = x.cond ∧ z.repair = x.repair := by
      simpa [Span.entry] using hz
    rw [hpush, pushSpan, if_neg h0]
    by_cases hj : y.joins z = true
    · rw [if_pos hj]
      obtain ⟨js, jc⟩ := (y.joins_iff z).1 hj
      have hw : y.cond.wantsRepair = false := hyx ((y.joins_iff x).2 ⟨js.trans hseg, jc.trans hcond⟩)
      have hyr := (hf y (by simp)).2.repair_none hw
      have hxr := (hf x (by simp)).2.repair_none (by rw [← hcond, ← jc]; exact hw)
      have hent : Span.entry { z with
          first := y.first, count := y.count + z.count, repair := joinRepair y.repair z.repair } = y.entry := by
        simp [Span.entry, hyr, hrep, hxr, joinRepair, js, jc]
      refine ⟨_, rest, rfl, hent, ?_⟩
      rw [entriesOf_cons, hent, entriesOf_cons y, ← he, entriesOf_cons z, ← List.append_assoc]
      have hzy : z.entry = y.entry := by simp [Span.entry, hyr, hrep, hxr, js, jc]
      rw [hzy, ← List.replicate_add]
    · rw [if_neg hj]
      exact ⟨y, z :: rest, rfl, rfl, by rw [entriesOf_cons, he, ← entriesOf_cons]⟩

theorem entriesOf_normalize {l : List Span} (hf : ∀ z ∈ l, 0 < z.count ∧ z.Formed) (ha : RepairsApart l) :
    entriesOf (normalize l) = entriesOf l := by
  cases l with
  | nil => rfl
  | cons y l =>
    obtain ⟨z, rest, hn, -, he⟩ := normalize_cons_entries l y hf ha
    rw [hn, he]

/-- A span of a list in form has the first position and the condition of a span of the list before. -/
theorem mem_normalize {y : Span} : ∀ {l : List Span}, y ∈ normalize l → ∃ z ∈ l, z.first = y.first ∧ z.cond = y.cond
  | [], h => by simp [normalize] at h
  | x :: l, h => by
    have hpush : normalize (x :: l) = pushSpan x (normalize l) := rfl
    have hrest : y ∈ normalize l → ∃ z ∈ x :: l, z.first = y.first ∧ z.cond = y.cond := fun hy => by
      obtain ⟨z, hz, e⟩ := mem_normalize hy
      exact ⟨z, List.mem_cons_of_mem _ hz, e⟩
    rw [hpush] at h
    generalize normalize l = k at h hrest
    cases k with
    | nil =>
      rw [pushSpan] at h
      split at h
      · simp at h
      · exact ⟨x, by simp, by simp [List.mem_singleton.1 h]⟩
    | cons w k =>
      rw [pushSpan] at h
      split at h
      · exact hrest h
      · split at h
        · rename_i hj
          rcases List.mem_cons.1 h with rfl | hy
          · exact ⟨x, by simp, rfl, ((x.joins_iff w).1 hj).2⟩
          · exact hrest (List.mem_cons_of_mem _ hy)
        · rcases List.mem_cons.1 h with rfl | hy
          · exact ⟨y, by simp, rfl, rfl⟩
          · exact hrest hy

/-! ### Spans taken apart -/

/-- A way to take spans apart: each span of the list gives pieces that cover it, in its segment, none empty; a piece with a
repair part has the span's condition, and no two such pieces are adjacent. -/
structure Pieces (h : Span → List Span) (y : Span) : Prop where
  cover : SpansCover y.first (plus y.first y.count) (h y)
  filled : ∀ z ∈ h y, 0 < z.count ∧ z.Formed
  total : spanTotal (h y) = y.count
  alike : ∀ z ∈ h y, z.seg = y.seg ∧ (z.cond.wantsRepair = true → z.cond = y.cond)
  apart : RepairsApart (h y)

theorem Pieces.ne_nil {h : Span → List Span} {y : Span} (hp : Pieces h y) (hy : 0 < y.count) : h y ≠ [] := by
  intro h0
  have := hp.total
  simp [h0, spanTotal] at this
  omega

/-- The pieces of spans that are apart have their repair parts apart. -/
theorem repairsApart_flatMap {h : Span → List Span} {l : List Span} (hp : ∀ y ∈ l, 0 < y.count ∧ Pieces h y)
    (ha : SpansApart l) : RepairsApart (l.flatMap h) := by
  unfold RepairsApart
  rw [List.flatMap_def, List.isChain_flatten]
  · refine ⟨?_, ?_⟩
    · intro k hk
      obtain ⟨y, hy, rfl⟩ := List.mem_map.1 hk
      exact (hp y hy).2.apart
    · rw [List.isChain_map]
      refine List.IsChain.imp_of_mem_imp ?_ (spansApart_iff.1 ha)
      intro x y hx hy hxy a ha b hb hj
      obtain ⟨js, jc⟩ := (a.joins_iff b).1 hj
      obtain ⟨as, ac⟩ := (hp x hx).2.alike a (List.mem_of_getLast? ha)
      obtain ⟨bs, bc⟩ := (hp y hy).2.alike b (List.mem_of_head? hb)
      by_contra hw
      have hw : a.cond.wantsRepair = true := by simpa using hw
      have : x.joins y = true := (x.joins_iff y).2
        ⟨by rw [← as, js, bs], by rw [← ac hw, jc, bc (jc ▸ hw)]⟩
      rw [hxy] at this
      cases this
  · intro hn
    obtain ⟨y, hy, h0⟩ := List.mem_map.1 hn
    exact (hp y hy).2.ne_nil (hp y hy).1 h0

theorem pieces_cover {h : Span → List Span} {f : Index} : ∀ {l : List Span} {p : Index}, (∀ y ∈ l, Pieces h y) →
    SpansCover p f l → SpansCover p f (l.flatMap h)
  | [], _, _, hc => hc
  | y :: l, _, hp, hc => by
    obtain ⟨rfl, hc⟩ := hc
    exact SpansCover.append (hp y (by simp)).cover (pieces_cover (fun z hz => hp z (by simp [hz])) hc)

/-- The piece that holds a position is one of the span that held it. -/
theorem find_flatMap {h : Span → List Span} {y : Span} (i : Index) : ∀ {l : List Span}, (∀ y ∈ l, Pieces h y) →
    l.find? (fun z => z.contains i) = some y →
      (l.flatMap h).find? (fun z => z.contains i) = (h y).find? fun z => z.contains i
  | [], _, hy => by cases hy
  | x :: l, hp, hy => by
    have hx := hp x (by simp)
    have hsome := find_isSome hx.cover i
    rw [hx.total] at hsome
    rw [List.flatMap_cons, List.find?_append]
    by_cases hi : ahead i x.first < x.count
    · rw [find_here hi] at hy
      cases hy
      have : ((h y).find? fun z => z.contains i).isSome = true := by rw [hsome]; exact decide_eq_true hi
      rw [Option.or_of_isSome this]
    · rw [find_there hi] at hy
      have : (h x).find? (fun z => z.contains i) = none := by
        rw [← Option.isNone_iff_eq_none, ← Option.not_isSome, hsome]
        simpa using hi
      rw [this, Option.none_or]
      exact find_flatMap i (fun z hz => hp z (by simp [hz])) hy

/-- Spans taken apart and the form restored: the entry of a position is that of the piece that holds it. -/
theorem entry_normalize_pieces {h : Span → List Span} {f p : Index} {l : List Span} {y : Span} {i : Index}
    (hp : ∀ y ∈ l, 0 < y.count ∧ Pieces h y) (ha : SpansApart l) (hc : SpansCover p f l)
    (hy : l.find? (fun z => z.contains i) = some y) :
    ((normalize (l.flatMap h)).find? fun z => z.contains i).map Span.entry =
      ((h y).find? fun z => z.contains i).map Span.entry := by
  have hpc := pieces_cover (fun y hy => (hp y hy).2) hc
  have hfill : ∀ z ∈ l.flatMap h, 0 < z.count ∧ z.Formed := fun z hz => by
    obtain ⟨w, hw, hz⟩ := List.mem_flatMap.1 hz
    exact (hp w hw).2.filled z hz
  rw [entry_of_entriesOf (normalize_form hpc fun z hz => (hfill z hz).2).1 hpc
    (entriesOf_normalize hfill (repairsApart_flatMap hp ha)), find_flatMap i (fun y hy => (hp y hy).2) hy]

/-! ### Guard conversion by position (R30, R31) -/

/-- What guard conversion makes of a condition and a repair part. -/
theorem givenUp_not_wantsRepair (c : Condition) : c.givenUp.wantsRepair = false := by cases c <;> rfl

theorem givenUp_of_settled {c : Condition} (h : c.wantsRepair = false) : c.givenUp = c := by
  cases c <;> first | rfl | cases h

/-- The pieces of a span cut at the guard boundary. -/
theorem pieces_guardCut (g : Nat) (o : Span → Nat) {y : Span} (h0 : 0 < y.count) (hf : y.Formed) :
    Pieces (fun z => guardCut g (o z) z) y := by
  obtain ⟨hcover, hformed, htotal⟩ := guardCut_form g (o y) hf
  have hgive : y.giveUp.cond.wantsRepair = false := givenUp_not_wantsRepair y.cond
  refine ⟨hcover, fun z hz => ⟨?_, hformed z hz⟩, htotal, fun z hz => ?_, ?_⟩
  · unfold guardCut at hz
    repeat' split at hz
    all_goals simp only [List.mem_cons, List.not_mem_nil, or_false] at hz
    · exact hz ▸ h0
    · exact hz ▸ h0
    · rcases hz with rfl | rfl <;> dsimp only <;> omega
    · exact hz ▸ h0
  · unfold guardCut at hz
    repeat' split at hz
    all_goals simp only [List.mem_cons, List.not_mem_nil, or_false] at hz
    · exact hz ▸ ⟨rfl, fun _ => rfl⟩
    · exact hz ▸ ⟨rfl, fun hw => by rw [hgive] at hw; cases hw⟩
    · rcases hz with rfl | rfl
      · exact ⟨rfl, fun hw => by rw [hgive] at hw; cases hw⟩
      · exact ⟨rfl, fun _ => rfl⟩
    · exact hz ▸ ⟨rfl, fun _ => rfl⟩
  · unfold guardCut RepairsApart
    repeat' split
    all_goals simp [hgive]

/-- A span converted whole is one piece. -/
theorem pieces_guardWhole (g : Nat) (o : Span → Nat) {y : Span} (h0 : 0 < y.count) (hf : y.Formed) :
    Pieces (fun z => [guardWhole g (o z) z]) y := by
  have he := guardWhole_extent g (o y) y
  simp only [Span.extent, Prod.mk.injEq] at he
  refine ⟨⟨he.1, congrArg (plus y.first) he.2⟩, fun z hz => ?_, by simp [spanTotal, he.2], fun z hz => ?_,
    by simp [RepairsApart]⟩
  · rw [List.mem_singleton.1 hz]
    exact ⟨by rw [he.2]; exact h0, guardWhole_formed g (o y) hf⟩
  · rw [List.mem_singleton.1 hz]
    unfold guardWhole
    split
    · exact ⟨rfl, fun hw => by rw [show y.giveUp.cond = y.cond.givenUp from rfl, givenUp_not_wantsRepair] at hw; cases hw⟩
    · exact ⟨rfl, fun _ => rfl⟩

/-- The entry of a position whose repair is given up or goes on. -/
def Span.entryAfter (y : Span) (converted : Bool) : SegRef × Condition × Option RepairPart :=
  if converted then (y.seg, y.cond.givenUp, none) else y.entry

/-- A span without a repair part says the same converted or not. -/
theorem entryAfter_settled {y : Span} (hf : y.Formed) (hw : y.cond.wantsRepair = false) (b : Bool) :
    y.entryAfter b = y.entry := by
  unfold Span.entryAfter Span.entry
  rw [givenUp_of_settled hw, hf.repair_none hw, ite_self]

/-- The entry that a span cut at the guard boundary gives a position: converted before the boundary. -/
theorem entry_guardCut {g o : Nat} {y : Span} {i : Index} (hf : y.Formed) (hi : y.contains i = true) :
    ((guardCut g o y).find? fun z => z.contains i).map Span.entry =
      some (y.entryAfter (decide (o + ahead i y.first < g))) := by
  have hin := (contains_iff y i).1 hi
  have hone : ∀ z : Span, z.first = y.first → z.count = y.count →
      ([z].find? fun z => z.contains i).map Span.entry = some z.entry := fun z h1 h2 => by
    rw [find_here (by rw [h1, h2]; exact hin)]
    rfl
  unfold guardCut
  split
  · rename_i hw
    rw [hone y rfl rfl, entryAfter_settled hf (by simpa using hw)]
  · split
    · rw [hone y.giveUp rfl rfl, decide_eq_true (by omega)]
      rfl
    · split
      · by_cases hb : o + ahead i y.first < g
        · rw [find_here (by simp only [Span.giveUp]; omega), decide_eq_true hb]
          rfl
        · have hlt : ¬ ahead i y.first < g - o := by omega
          have hpast := ahead_past hlt
          rw [find_there (by simp only [Span.giveUp]; omega), find_here (by dsimp only; omega), decide_eq_false hb]
          rfl
      · rw [hone y rfl rfl, decide_eq_false (by omega)]
        rfl

/-- The entry that a span converted whole gives a position: converted where the span begins within guard. -/
theorem entry_guardWhole {g o : Nat} {y : Span} {i : Index} (hf : y.Formed) (hi : y.contains i = true) :
    (([guardWhole g o y]).find? fun z => z.contains i).map Span.entry = some (y.entryAfter (decide (o < g))) := by
  have he := guardWhole_extent g o y
  simp only [Span.extent, Prod.mk.injEq] at he
  rw [find_here (by rw [he.1, he.2]; exact (contains_iff y i).1 hi), Option.map_some]
  congr 1
  unfold guardWhole
  by_cases hw : y.cond.wantsRepair = true
  · by_cases hg : o < g
    · simp [hw, hg, Span.entry, Span.entryAfter, Span.giveUp]
    · simp [hw, hg, Span.entryAfter]
  · have hw : y.cond.wantsRepair = false := by simpa using hw
    rw [entryAfter_settled hf hw]
    simp [hw]

/-- Guard conversion leaves no HOLE or WEAK span that begins within guard. -/
theorem convertGuard_beyond {x : Lane} (hg : x.guard < 2 ^ 32) {y : Span} (hy : y ∈ x.convertGuard.spans)
    (hw : y.cond.wantsRepair = true) : x.guard ≤ ahead y.first x.p := by
  have hend : ∀ z : Span, z.giveUp.cond.wantsRepair = false := fun z => givenUp_not_wantsRepair z.cond
  unfold Lane.convertGuard at hy
  dsimp only at hy
  split at hy
  · rw [(withSpans_rest _ _).1] at hy
    obtain ⟨z, hz, hfirst, hcond⟩ := mem_normalize hy
    obtain ⟨v, hv, rfl⟩ := List.mem_map.1 hz
    rw [← hcond] at hw
    rw [← hfirst]
    unfold guardWhole at hw ⊢
    split
    · rename_i hc
      rw [if_pos hc, hend] at hw
      cases hw
    · rename_i hc
      rw [if_neg hc] at hw
      simpa [hw] using hc
  · rw [(withSpans_rest _ _).1] at hy
    obtain ⟨z, hz, hfirst, hcond⟩ := mem_normalize hy
    obtain ⟨v, hv, hz⟩ := List.mem_flatMap.1 hz
    rw [← hcond] at hw
    rw [← hfirst]
    unfold guardCut at hz
    split at hz
    · rename_i hn
      rw [List.mem_singleton.1 hz] at hw
      simp [hw] at hn
    · split at hz
      · rw [List.mem_singleton.1 hz, hend] at hw
        cases hw
      · split at hz
        · rename_i ho
          rcases List.mem_cons.1 hz with rfl | hz
          · exact absurd hw (by simp [Span.giveUp, givenUp_not_wantsRepair])
          · rw [List.mem_singleton.1 hz]
            dsimp only
            unfold ahead plus at *
            bv_omega
        · rw [List.mem_singleton.1 hz]
          omega

/-! ### The window moved on by position (R29) -/

/-- The span list without its first positions holds the others as before, and begins the span of the first of them there. -/
theorem find_dropPositions {f : Index} {i : Index} {y : Span} : ∀ {l : List Span} {p : Index} {k : Nat},
    SpansCover p f l → spanTotal l < 2 ^ 32 → l.find? (fun z => z.contains i) = some y → k ≤ ahead i p →
      ∃ z, (dropPositions k l).find? (fun z => z.contains i) = some z ∧ z.entry = y.entry ∧
        ahead z.first (plus p k) = ahead y.first p - k
  | [], _, _, _, _, hy, _ => by cases hy
  | x :: l, p, k, hc, ht, hy, hk => by
    obtain ⟨rfl, hc⟩ := hc
    have hxt : spanTotal (x :: l) = x.count + spanTotal l := by simp [spanTotal]
    unfold dropPositions
    by_cases hi : ahead i x.first < x.count
    · rw [find_here hi] at hy
      cases hy
      have hpast := ahead_past (i := i) (p := y.first) (n := k) (by omega)
      rw [if_neg (by omega), find_here (by dsimp only; omega)]
      exact ⟨_, rfl, rfl, by simp [ahead_self]⟩
    · have hpast := ahead_past hi
      rw [find_there hi] at hy
      have hyc := List.find?_some hy
      have hyin := (contains_iff y i).1 hyc
      have hmem := SpansCover.mem hc (List.mem_of_find?_eq_some hy) (by omega)
      have hyp := ahead_plus y.first x.first (plus x.first x.count) (by rw [ahead_plus_self _ (by omega)]; omega)
      rw [ahead_plus_self _ (by omega)] at hyp
      split
      · obtain ⟨z, hz, he, ha⟩ := find_dropPositions (k := k - x.count) hc (by omega) hy (by omega)
        rw [plus_plus, show x.count + (k - x.count) = k by omega] at ha
        exact ⟨z, hz, he, by omega⟩
      · have hk := ahead_past (i := i) (p := x.first) (n := k) (by omega)
        refine ⟨y, by rw [find_there (by dsimp only; omega)]; exact hy, rfl, ?_⟩
        rw [ahead_sub y.first x.first (plus x.first k) (by rw [ahead_plus_self _ (by omega)]; omega),
          ahead_plus_self _ (by omega)]

theorem apart_dropPositions : ∀ {l : List Span} {k : Nat}, SpansApart l → SpansApart (dropPositions k l)
  | [], _, h => h
  | y :: l, k, h => by
    have ht : SpansApart l := by cases l with
      | nil => trivial
      | cons z l => exact h.2
    unfold dropPositions
    split
    · exact apart_dropPositions ht
    · cases l with
      | nil => trivial
      | cons z l => exact ⟨h.1, h.2⟩

theorem filled_dropPositions : ∀ {l : List Span} {k : Nat}, (∀ y ∈ l, 0 < y.count ∧ y.Formed) →
    ∀ y ∈ dropPositions k l, 0 < y.count ∧ y.Formed
  | [], _, h => h
  | y :: l, k, h => by
    have hl : ∀ z ∈ l, 0 < z.count ∧ z.Formed := fun z hz => h z (List.mem_cons_of_mem _ hz)
    unfold dropPositions
    split
    · exact filled_dropPositions hl
    · intro z hz
      rcases List.mem_cons.1 hz with rfl | hz
      · exact ⟨by dsimp only; omega, (h y (by simp)).2⟩
      · exact hl z hz

/-! ### The advance claim (R29, R30, R31) -/

/-- The map after an advance, converted: cut at the guard boundary, or, where this would leave too many spans, without a
cut. -/
theorem advanceMap_eq {x : Lane} (hx : x.p ≠ x.f) (guard : Nat) :
    (x.advanceMap guard).p = x.p + 1 ∧ (x.advanceMap guard).f = x.f ∧ (x.advanceMap guard).guard = guard ∧
      (x.advanceMap guard).seq = x.seq ∧ (x.advanceMap guard).plu = x.plu ∧
      (x.advanceMap guard).spans =
        if Config.maxSpans < (normalize ((dropPositions 1 x.spans).flatMap fun z =>
            guardCut guard (ahead z.first (x.p + 1)) z)).length then
          normalize ((dropPositions 1 x.spans).map fun z => guardWhole guard (ahead z.first (x.p + 1)) z)
        else normalize ((dropPositions 1 x.spans).flatMap fun z => guardCut guard (ahead z.first (x.p + 1)) z) := by
  have hp : plus x.p 1 = x.p + 1 := rfl
  unfold Lane.advanceMap Lane.moveOn Lane.convertGuard
  rw [if_neg hx]
  dsimp only
  rw [hp]
  split
  · rw [Lane.withSpans_eq]
    exact ⟨rfl, rfl, rfl, rfl, rfl, rfl⟩
  · rw [Lane.withSpans_eq]
    exact ⟨rfl, rfl, rfl, rfl, rfl, rfl⟩

/-- The entry of a position after p once the map has advanced: converted where the position lies within guard, or where its
span begins there and the cut of such spans would leave too many. -/
theorem entry_advanceMap {x : Lane} {guard n : Nat} {cut : List Span} {s : Index} {y : Span} (hpf : x.p ≠ x.f)
    (hform : MapFormed x.p x.f x.spans n)
    (hcut : cut = normalize ((dropPositions 1 x.spans).flatMap fun z => guardCut guard (ahead z.first (x.p + 1)) z))
    (hy : x.spanAt s = some y) (hs : s ≠ x.p) :
    ((x.advanceMap guard).spanAt s).map Span.entry = some (y.entryAfter (decide
      (ahead s x.p - 1 < guard ∨ (ahead y.first x.p - 1 < guard ∧ 32 < cut.length)))) := by
  obtain ⟨-, -, -, -, -, hspans⟩ := advanceMap_eq hpf guard
  rw [← hcut] at hspans
  have hsmall : spanTotal x.spans < 2 ^ 32 := by
    have htotal : spanTotal x.spans = ahead x.f x.p := hform.total
    have := hform.lead
    have := hform.window
    simp only [Config.storeCells] at *
    omega
  have hs1 : 1 ≤ ahead s x.p := by
    by_contra h
    apply hs
    unfold ahead at h
    bv_omega
  have hpos : 1 ≤ spanTotal x.spans := by
    have := find_isSome hform.cover s
    rw [show x.spans.find? (fun z => z.contains s) = some y from hy] at this
    have : ahead s x.p < spanTotal x.spans := by simpa using this
    omega
  obtain ⟨hdc, -, hdt⟩ := dropPositions_form hform.cover hform.allFormed hpos
  change SpansCover (x.p + 1) x.f _ at hdc
  have hfill := filled_dropPositions (k := 1) hform.filled
  have hap := apart_dropPositions (k := 1) hform.apart
  obtain ⟨z, hz, hze, hzf⟩ := find_dropPositions hform.cover hsmall hy hs1
  change ahead z.first (x.p + 1) = _ at hzf
  have hzm := hfill z (List.mem_of_find?_eq_some hz)
  have hzs := List.find?_some hz
  have hzy : ∀ b, z.entryAfter b = y.entryAfter b := fun b => by
    obtain ⟨hseg, hcond, hrep⟩ : z.seg = y.seg ∧ z.cond = y.cond ∧ z.repair = y.repair := by
      simpa [Span.entry] using hze
    unfold Span.entryAfter
    rw [hze, hseg, hcond]
  have hat : ahead z.first (x.p + 1) + ahead s z.first = ahead s x.p - 1 := by
    have hsp : ahead s (x.p + 1) = ahead s x.p - 1 := by
      unfold ahead at *
      bv_omega
    have hin := (contains_iff z s).1 hzs
    have hmem := SpansCover.mem hdc (List.mem_of_find?_eq_some hz) (by omega)
    rw [← hsp]
    exact (ahead_plus s (x.p + 1) z.first (by omega)).symm
  unfold Lane.spanAt
  rw [hspans, ← hzy]
  split
  · rename_i hmany
    have hmany : 32 < cut.length := hmany
    rw [List.map_eq_flatMap, entry_normalize_pieces
      (fun w hw => ⟨(hfill w hw).1, pieces_guardWhole guard _ (hfill w hw).1 (hfill w hw).2⟩) hap hdc hz,
      entry_guardWhole hzm.2 hzs]
    congr 3
    exact propext ⟨fun h => .inr ⟨by omega, hmany⟩, fun h => by omega⟩
  · rename_i hfew
    have hfew : ¬ 32 < cut.length := hfew
    rw [hcut, entry_normalize_pieces
      (fun w hw => ⟨(hfill w hw).1, pieces_guardCut guard _ (hfill w hw).1 (hfill w hw).2⟩) hap hdc hz,
      entry_guardCut hzm.2 hzs, hat]
    congr 3
    exact propext ⟨.inl, fun h => h.resolve_right fun h => hfew (hcut ▸ h.2)⟩

/-- Settles O60: the map's claims on its spans (`convertGuard_beyond`), and position by position what the advance leaves
(`entry_advanceMap`). -/
theorem advanceConvertsGuard : Obligations.AdvanceConvertsGuard := by
  intro x guard hguard hpf
  obtain ⟨hp, hf, hg, -, -, -⟩ := advanceMap_eq hpf guard
  refine ⟨hp, hf, hg, fun y hy hw => ?_, fun n cut s y hform hcut hy hs => ?_⟩
  · rw [show x.advanceMap guard = x.moveOn 1 guard from if_neg hpf] at hy
    exact convertGuard_beyond (x := { x with p := plus x.p 1, guard := guard, spans := dropPositions 1 x.spans })
      hguard hy (by rcases hw with h | h <;> rw [h] <;> rfl)
  obtain ⟨w, hw, hwe⟩ := Option.map_eq_some_iff.1 (entry_advanceMap hpf hform hcut hy hs)
  have hyform : y.Formed := (hform.filled y (List.mem_of_find?_eq_some hy)).2
  refine ⟨w, hw, ?_⟩
  by_cases hconv : ahead s x.p - 1 < guard ∨ (ahead y.first x.p - 1 < guard ∧ 32 < cut.length)
  · rw [decide_eq_true hconv] at hwe
    obtain ⟨ws, wc, wr⟩ : w.seg = y.seg ∧ w.cond = y.cond.givenUp ∧ w.repair = none := by
      simpa [Span.entry, Span.entryAfter] using hwe
    rw [if_pos hconv, ws, wc, wr]
    refine ⟨rfl, ?_⟩
    have hnone := hyform.repair_none
    cases hc : y.cond <;> rw [hc] at hnone <;> simp_all [Condition.givenUp, Condition.wantsRepair]
  · rw [decide_eq_false hconv] at hwe
    obtain ⟨ws, wc, wr⟩ : w.seg = y.seg ∧ w.cond = y.cond ∧ w.repair = y.repair := by
      simpa [Span.entry, Span.entryAfter] using hwe
    rw [if_neg hconv, ws, wc, wr]
    exact ⟨rfl, rfl⟩

end Sys2Proof.Machine
end

section
/-! A playout advance (O45). -/

namespace Sys2Proof.Machine

set_option Elab.async false

/-! ### What the parts of an advance leave alone (R105, R158, R161) -/

section
variable {e c : LaneId → Prop} {b : Prop} {r s : State}

theorem calm_retireCurrent (h : Calm e c b r s) (l : LaneId) (he : e l) : Calm e c b r (s.retireCurrent l) := by
  unfold State.retireCurrent
  split
  · exact h
  · refine calm_updSeq (calm_retire h l _ _ he) l _ he fun q => ?_
    unfold Sequencer.dropCurrent
    split <;> exact ⟨rfl, rfl, fun hm => hm⟩

theorem calm_holdReached (h : Calm e c b r s) (l : LaneId) (he : e l) : Calm e c b r (s.holdReached l) := by
  have h1 := calm_updLane (calm_retireCurrent (calm_setLaneState h l .held he) l he) l
    (fun x => { x with plu := { x.plu with holdPoint := none } }) he
  unfold State.holdReached
  dsimp only
  split
  · exact calm_closeReading h1 l he
  · exact h1

theorem calm_prefetch (l : LaneId) (he : e l) (n : Nat) : ∀ {s : State}, Calm e c b r s →
    Calm e c b r (State.prefetch n s l) := by
  induction n with
  | zero => exact fun h => h
  | succ n ih =>
    intro s h
    have h1 : Calm e c b r (s.stepRead l) := calm_countReads h _
    unfold State.prefetch
    dsimp only
    split
    · have h2 := calm_countReads h1 hostFieldWords
      split
      · have h3 := fun k w => calm_moveWalk h2 l k w he
        split
        · exact calm_due (calm_updSeq (h3 _ _) l _ he) l
        · exact ih (calm_retire (h3 _ _) l _ _ he)
      · exact h2
    · exact h1

theorem calm_prefetchAtEnd (h : Calm e c b r s) (l : LaneId) (he : e l) : Calm e c b r (s.prefetchAtEnd l) := by
  unfold State.prefetchAtEnd
  split
  · exact calm_prefetch l he _ h
  · exact h

/-- An advance after its claim: the lane plays on, holds or runs out, and then its fill may take a cue. -/
theorem calm_advance (s : State) (l : LaneId) (he : e l) : Calm e c b (s.claimAdvance l) (s.advance l) := by
  have h := Calm.refl e c b (s.claimAdvance l)
  unfold State.advance
  refine calm_prefetchAtEnd ?_ l he
  dsimp only
  split
  · have h1 := calm_updLane h l (fun x => { x with plu := x.plu.drop }) he
    split
    · exact h1
    · exact calm_holdReached (calm_endEpisode h1 l he) l he
  · split
    · exact calm_enterUnderrun h l he
    · exact calm_takeUp h l _ he

end

/-- The claim of an advance: p one position further, f as it was, the status record to be refreshed. -/
theorem lane_claimAdvance {s : State} {l : LaneId} (h : (s.lane l).p ≠ (s.lane l).f) :
    ((s.claimAdvance l).lane l).p = (s.lane l).p + 1 ∧ ((s.claimAdvance l).lane l).f = (s.lane l).f ∧
      ((s.claimAdvance l).lane l).seq = (s.lane l).seq ∧ ((s.claimAdvance l).lane l).marks.refresh = true ∧
      ((s.claimAdvance l).lane l).plu.holdPoint = (s.lane l).plu.holdPoint := by
  have hr : ∀ u : State, (u.releasePassed l).lane l = u.lane l := fun u => by cases l <;> rfl
  obtain ⟨hp, hf, -, hseq, hplu, -⟩ := advanceMap_eq h (s.settings l).guard
  unfold State.claimAdvance
  dsimp only
  rw [hr, State.lane_updLane]
  exact ⟨hp, hf, hseq, rfl, by rw [← hplu]⟩

/-! ### A position taken up (R107) -/

/-- What a lane leaves of its state and its block in play. -/
structure Goes (l : LaneId) (r s : State) : Prop where
  state : (s.lane l).seq.state = (r.lane l).seq.state
  block : (s.lane l).plu.block = (r.lane l).plu.block

section
variable {l : LaneId} {r s : State}

theorem Goes.refl (l : LaneId) (s : State) : Goes l s s := ⟨rfl, rfl⟩

theorem goes_updLane (h : Goes l r s) (g : Lane → Lane)
    (hg : ∀ x : Lane, (g x).seq.state = x.seq.state ∧ (g x).plu.block = x.plu.block := by
      exact fun _ => ⟨rfl, rfl⟩) : Goes l r (s.updLane l g) :=
  ⟨by rw [State.lane_updLane, (hg _).1, h.state], by rw [State.lane_updLane, (hg _).2, h.block]⟩

theorem goes_countReads (h : Goes l r s) (n : Nat) : Goes l r (s.countReads n) :=
  ⟨by rw [State.lane_countReads, h.state], by rw [State.lane_countReads, h.block]⟩

theorem goes_retire (h : Goes l r s) (c : TakenCue) (o : CueOutcome) : Goes l r (s.retire l c o) := by
  obtain ⟨ps, n, hl⟩ := lane_retire s l c o l
  exact ⟨by rw [hl, ← h.state], by rw [hl, ← h.block]⟩

theorem goes_retireNormal (cs : List TakenCue) : ∀ {s : State}, Goes l r s → Goes l r (s.retireNormal l cs) := by
  induction cs with
  | nil => exact fun h => h
  | cons c cs ih => exact fun h => ih (goes_retire h c _)

theorem goes_crossing (h : Goes l r s) (g : Segment) (w : Bool) : Goes l r (s.crossing l g w) := by
  unfold State.crossing
  exact goes_updLane (goes_retireNormal _ h) _

theorem goes_noteStoreFault (h : Goes l r s) : Goes l r (s.noteStoreFault l) := by
  have h1 := goes_updLane h fun x => { x with count := { x.count with storeFaults := bump x.count.storeFaults } }
  exact ⟨h1.state, h1.block⟩

theorem goes_readForPlay (h : Goes l r s) : Goes l r (s.readForPlay l).1 := by
  unfold State.readForPlay
  dsimp only
  repeat' split
  all_goals first
    | exact h
    | exact goes_noteStoreFault h

theorem goes_readNext (h : Goes l r s) : Goes l r (s.readNext l).1 := by
  unfold State.readNext
  dsimp only
  repeat' split
  all_goals first
    | exact h
    | exact goes_noteStoreFault h

theorem goes_countLoss (h : Goes l r s) (a m : Nat) (q : LossCause) : Goes l r (s.countLoss l a m q) := by
  unfold State.countLoss
  split
  · obtain ⟨hseq, -, -, -, hplu⟩ := lane_endEpisode s l
    exact ⟨by rw [hseq, h.state], by rw [hplu, ← h.block]⟩
  · exact goes_updLane h _

/-- A prefetch decision leaves the lane's state and its block. -/
theorem goes_prefetch (n : Nat) : ∀ {s : State}, Goes l r s → Goes l r (State.prefetch n s l) := by
  induction n with
  | zero => exact fun h => h
  | succ n ih =>
    intro s h
    have h1 : Goes l r (s.stepRead l) := goes_countReads h _
    unfold State.prefetch
    dsimp only
    split
    · have h2 := goes_countReads h1 hostFieldWords
      split
      · have h3 : ∀ k w, Goes l r (((s.stepRead l).countReads hostFieldWords).moveWalk l k w) := fun k w =>
          goes_updLane h2 fun x => { x with
            seq := { x.seq with position := k, lanePasses := if w then bump x.seq.lanePasses else x.seq.lanePasses } }
        split
        · exact goes_updLane (goes_updLane (h3 _ _) _) _
        · exact ih (goes_retire (h3 _ _) _ _)
      · exact h2
    · exact h1

theorem goes_prefetchAtEnd (h : Goes l r s) : Goes l r (s.prefetchAtEnd l) := by
  unfold State.prefetchAtEnd
  split
  · exact goes_prefetch _ h
  · exact h

end

theorem playBlock_block (x : Lane) (q : PlayBlock) :
    ∃ d, (x.playBlock q).plu.block = some { q with plannedFall := d } ∧ (x.playBlock q).seq = x.seq := by
  unfold Lane.playBlock
  split
  · exact ⟨_, rfl, rfl⟩
  · exact ⟨q.plannedFall, rfl, rfl⟩
  · exact ⟨q.plannedFall, rfl, rfl⟩

theorem countBlock_block (x : Lane) (o : Option Index) (m n : Nat) :
    (x.countBlock o m n).plu = x.plu ∧ (x.countBlock o m n).seq.state = x.seq.state := by
  unfold Lane.countBlock
  cases o <;> exact ⟨rfl, rfl⟩

/-- The end of a take-up, once the copy is read and a crossing reported: the block is in play from its first pair. -/
theorem lane_putInPlay {l : LaneId} {r z : State} (h : Goes l r z ∧ PlaysOn l r z) (q : TakenCopy)
    (plan : List ConcealedRun) (address muted lastAddress : Nat) (cause : LossCause) :
    let t := (z.updLane l fun x =>
      let x := x.playBlock { position := x.p, form := q.form, pairs := q.pairs, marks := q.marks, plan := plan, next := 0,
                             plannedFall := false, fell := false }
      let x := x.countBlock ((x.segmentAt x.p).map Segment.base) muted (interpolatedPairs plan)
      { x with seq := { x.seq with unplayed := 0, lastAddress := lastAddress } }).countLoss l address muted cause
    (t.lane l).seq.state = (r.lane l).seq.state ∧
      ∃ q, (t.lane l).plu.block = some q ∧ q.position = (r.lane l).p ∧ q.next = 0 := by
  intro t
  obtain ⟨d, hb, hs⟩ := playBlock_block (z.lane l)
    { position := (z.lane l).p, form := q.form, pairs := q.pairs, marks := q.marks, plan := plan, next := 0,
      plannedFall := false, fell := false }
  have hloss : Goes l _ t := goes_countLoss (.refl l _) address muted cause
  refine ⟨hloss.state.trans (Eq.trans ?_ h.1.state), _, hloss.block.trans (Eq.trans ?_ hb), h.2.lane.p, rfl⟩
  · rw [State.lane_updLane]
    exact (countBlock_block _ _ _ _).2.trans (congrArg Sequencer.state hs)
  · rw [State.lane_updLane]
    exact congrArg Playout.block (countBlock_block _ _ _ _).1

/-- A take-up puts the block of p in play from its first pair; the lane's state stays. -/
theorem lane_takeUp (s : State) (l : LaneId) (w : Bool) :
    ((s.takeUp l w).lane l).seq.state = (s.lane l).seq.state ∧
      ∃ q, ((s.takeUp l w).lane l).plu.block = some q ∧ q.position = (s.lane l).p ∧ q.next = 0 := by
  unfold State.takeUp
  dsimp only
  have h1 : Goes l s (s.readForPlay l).1 ∧ PlaysOn l s (s.readForPlay l).1 :=
    ⟨goes_readForPlay (.refl l s), playsOn_readForPlay (.refl l s)⟩
  generalize s.readForPlay l = v at h1 ⊢
  obtain ⟨u, q⟩ := v
  dsimp only at h1 ⊢
  generalize hv : (if q.form = .copy ∧ needsNext (s.settings l).interpLimit q.marks then u.readNext l
    else (u, none)) = v
  have h2 : Goes l s v.1 ∧ PlaysOn l s v.1 := by
    rw [← hv]
    split
    · exact ⟨goes_readNext h1.1, playsOn_readNext h1.2⟩
    · exact h1
  refine lane_putInPlay ?_ q _ _ _ _ _
  split
  · exact ⟨goes_crossing h2.1 _ _, playsOn_crossing h2.2 _ _⟩
  · exact h2

/-- An advance to a position before f that is not the hold point: the block of it is in play, the lane plays on and waits for
nothing new. -/
theorem lane_advance {s : State} {l : LaneId} (hp : (s.lane l).p ≠ (s.lane l).f)
    (hnext : (s.lane l).p + 1 ≠ (s.lane l).f) (hhold : (s.lane l).plu.holdPoint ≠ some ((s.lane l).p + 1)) :
    ((s.advance l).lane l).seq.state = (s.lane l).seq.state ∧
      ((s.lane l).Settled → ((s.advance l).lane l).Settled) ∧
      ∃ q, ((s.advance l).lane l).plu.block = some q ∧ q.position = (s.lane l).p + 1 ∧ q.next = 0 := by
  obtain ⟨cp, cf, cseq, -, chold⟩ := lane_claimAdvance hp
  unfold State.advance
  dsimp only
  rw [if_neg (by rw [chold, cp]; exact hhold), if_neg (by rw [cp, cf]; exact hnext)]
  obtain ⟨tstate, q, hq, qpos, qnext⟩ := lane_takeUp (s.claimAdvance l) l true
  have tplays := (playsOn_takeUp (.refl l (s.claimAdvance l)) true).lane
  have hgoes := goes_prefetchAtEnd (.refl l ((s.claimAdvance l).takeUp l true))
  have hnotes := (notes_prefetchAtEnd (.refl l ((s.claimAdvance l).takeUp l true))).lane
  refine ⟨hgoes.state.trans (tstate.trans (by rw [cseq])), fun ⟨hm, hb, hr⟩ => ⟨?_, ?_, ?_⟩, q, hgoes.block.trans hq,
    qpos.trans cp, qnext⟩
  · rw [hnotes.mark, tplays.mark, cseq, hm]
  · rw [hnotes.bind, tplays.bind, cseq, hb]
  · rw [hnotes.reRequest, tplays.reRequest, cseq, hr]

/-! ### The event of a playout advance -/

/-- Settles O45: the claim of the advance moves p (`lane_claimAdvance`), nothing in the event moves it again where no mark
waits (`calm_advance`), and the take-up puts the block of the new p in play (`lane_advance`). -/
theorem playoutAdvances : Obligations.PlayoutAdvances := by
  intro l q s hreleased hblock hq hplaying hpos hpf
  set F : State → State := fun s => s.advance l with hF
  set u := s.clearOutputs with hu
  have hlane : u.lane l = s.lane l := lane_clearOutputs s none l
  have hat : (s.lane l).atAdvance = true := by
    simp [Lane.atAdvance, hblock, hq, hplaying, hpos, Config.pairsPerBlock]
  have hexec : exec (.playoutAdvance l) s = .next (s.event F) := by
    change Host.Outcome.next (s.onEvent _ F) = _
    rw [onEvent_of hreleased hat]
  have hpf' : (u.lane l).p ≠ (u.lane l).f := by rwa [hlane]
  obtain ⟨cp, cf, cseq, cdue, -⟩ := lane_claimAdvance hpf'
  rw [hlane] at cp cf cseq
  have hcalm : Calm (fun _ => True) (fun _ => False) True (u.claimAdvance l) (F u) := calm_advance u l trivial
  have hsteady := hcalm.lane l
  have hdue : ((F u).lane l).marks.refresh = true := (congrArg LaneSteady.due hsteady).trans cdue
  have hany := event_leaves_any s F
  refine ⟨s.event F, hexec, ?_, ?_, ?_, fun hmark => ?_, fun hsettled hnext hhold => ?_⟩
  · exact (hany.f l).trans ((congrArg LaneSteady.f hsteady).trans cf)
  · rw [hany.refresh l hdue]
    exact congrArg (· + 1) ((congrArg LaneSteady.refresh hsteady).trans (by
      change ((u.claimAdvance l).lane l).seq.refresh = _
      rw [cseq]))
  · have hset := (calm_carryOut (e := fun _ => True) (c := fun _ => True) (b := True) (s := u) (f := F)
      (fun _ => .inl trivial) (fun _ => .inl trivial) (.inl trivial)).lane l
    refine status_finish _ ?_
    rw [show ((u.carryOut F).lane l).marks.refresh = true from (congrArg LaneSteady.due hset).trans hdue, Bool.true_or]
  · obtain ⟨hp, hm⟩ := hcalm.uncut l id
    have hleaves : Leaves (fun _ => True) (· ≠ l) True (F u) (s.event F) := event_leaves s F (fun _ => .inl trivial)
      (fun k => if h : k = l then .inr (.inl (h ▸ hm (by rw [cseq, hmark]))) else .inl h) (.inl trivial)
    rw [hleaves.p l (by simp), hp, cp]
  · obtain ⟨hstate, hset, q', hq', hpos', hnext'⟩ := lane_advance hpf' (by rwa [hlane]) (by rwa [hlane])
    rw [hlane] at hstate hset hpos'
    obtain ⟨hm, hb, hr⟩ := hset hsettled
    have hease : ((F u).lane l).AtEase :=
      ⟨⟨by rw [hF]; simp [hstate, hplaying], fun _ => hm, by rw [hF]; simp [hstate, hplaying]⟩, hb, hr⟩
    have hleaves : Leaves (· ≠ l) (fun _ => True) True (F u) (s.event F) := event_leaves s F
      (fun k => if h : k = l then .inr (h ▸ hease) else .inl h) (fun _ => .inl trivial) (.inl trivial)
    obtain ⟨n, hseq⟩ := hleaves.seq l (by simp)
    refine ⟨?_, q', ?_, hpos', hnext'⟩
    · rw [hseq]
      exact hstate.trans hplaying
    · rw [hleaves.plu l (by simp)]
      exact hq'

end Sys2Proof.Machine
end

section
/-! A SKIP taken (O23). -/

namespace Sys2Proof.Machine

set_option Elab.async false

/-! ### The claims and the playout unit at a SKIP (R39, R113) -/

/-- A map moved on: p so many positions further, the rest of the lane but its map as it was. -/
theorem moveOn_rest (x : Lane) (k guard : Nat) :
    (x.moveOn k guard).p = plus x.p k ∧ (x.moveOn k guard).steady = x.steady ∧ (x.moveOn k guard).seq = x.seq ∧
      (x.moveOn k guard).plu = x.plu := by
  unfold Lane.moveOn Lane.convertGuard
  dsimp only
  split
  all_goals
    obtain ⟨hsteady, hseq, hplu, hp⟩ := withSpans_alike { x with p := plus x.p k, guard := guard, spans := dropPositions k x.spans } _
    exact ⟨hp, hsteady, hseq, hplu⟩

/-- A map cut to a base: p there where the base lies in [p, f]. -/
theorem cutTo_rest (x : Lane) (b : Index) (guard : Nat) :
    (ahead b x.p ≤ x.bufferedLead → (x.cutTo b guard).p = b) ∧ (x.cutTo b guard).steady = x.steady ∧
      (x.cutTo b guard).seq = x.seq := by
  unfold Lane.cutTo
  obtain ⟨hp, hsteady, hseq, -⟩ := moveOn_rest x (ahead b x.p) guard
  split
  · exact ⟨fun _ => hp.trans (plus_ahead b x.p), hsteady, hseq⟩
  · rename_i h
    exact ⟨fun hb => absurd hb h, rfl, rfl⟩

theorem beginFall_out (u : Playout) : u.beginFall.out = u.out := by
  unfold Playout.beginFall
  dsimp only
  repeat' split
  all_goals rfl

theorem skipPlayout_rest (x : Lane) :
    x.skipPlayout.p = x.p ∧ x.skipPlayout.steady = x.steady ∧ x.skipPlayout.seq = x.seq := by
  unfold Lane.skipPlayout
  split <;> refine ⟨rfl, ?_, rfl⟩
  all_goals first
    | rfl
    | simp [Lane.steady, beginFall_out]

/-! ### The parts of a SKIP (R167) -/

section
variable {e c : LaneId → Prop} {b : Prop} {r s : State}

/-- What a SKIP ends leaves p, f and the sequencer. -/
theorem calm_skipEnds (h : Calm e c b r s) (l : LaneId) (he : e l) : Calm e c b r (s.skipEnds l) := by
  obtain ⟨hsteady, hseq, hplu, hp⟩ := abortAttempt_alike (s.lane l)
  have h1 : Calm e c b r (s.updLane l Lane.abortAttempt) :=
    calm_setLane h l _ hsteady (.inr ⟨hseq, hplu⟩) (.inr ⟨hp, fun hm => by rw [hseq]; exact hm⟩)
  exact calm_updLane (calm_endEpisode (calm_endRun h1 l) l he) l _ he

theorem calm_skipTo (h : Calm e c b r s) (l : LaneId) (g k : Segment) (he : e l) (hc : c l) :
    Calm e c b r (s.skipTo l g k) := by
  unfold State.skipTo
  refine calm_release (calm_setLane (calm_retire h l g.cue .cutByHost he) l _ ?_ (.inl he) (.inl hc)) l _
  dsimp only
  rw [(skipPlayout_rest _).2.1]
  exact (cutTo_rest _ k.base _).2.1

theorem calm_skipToFill (h : Calm e c b r s) (l : LaneId) (g : Option Segment) (he : e l) (hc : c l) :
    Calm e c b r (s.skipToFill l g) := by
  unfold State.skipToFill
  refine calm_walkOn (calm_cutStream ?_ l he hc) l he
  cases g with
  | none => exact h
  | some g => exact calm_retire h l g.cue .cutByHost he

end

theorem lane_skipEnds (s : State) (l : LaneId) :
    ((s.skipEnds l).lane l).p = (s.lane l).p ∧ ((s.skipEnds l).lane l).f = (s.lane l).f ∧
      ((s.skipEnds l).lane l).seq = (s.lane l).seq := by
  obtain ⟨-, hseq, -, hp⟩ := abortAttempt_alike (s.lane l)
  obtain ⟨eseq, ep, ef, -, -⟩ := lane_endEpisode ((s.updLane l Lane.abortAttempt).endRun l) l
  have hf := congrArg LaneSteady.f ((calm_skipEnds (Calm.refl (fun _ => True) (fun _ => True) True s) l trivial).lane l)
  refine ⟨?_, hf, ?_⟩
  · unfold State.skipEnds
    rw [State.lane_updLane]
    refine ep.trans ?_
    rw [State.p_endRun, State.lane_updLane, hp]
  · unfold State.skipEnds
    rw [State.lane_updLane]
    refine eseq.trans ?_
    rw [State.seq_endRun, State.lane_updLane, hseq]

theorem lane_skipTo (s : State) (l : LaneId) (g k : Segment) :
    ((s.skipTo l g k).lane l).seq.mark = (s.lane l).seq.mark ∧
      (ahead k.base (s.lane l).p ≤ (s.lane l).bufferedLead → ((s.skipTo l g k).lane l).p = k.base) := by
  obtain ⟨ps, n, hretire⟩ := lane_retire s l g.cue .cutByHost l
  have hr : ∀ (u : State) i, (u.releaseBelow l i).lane l = u.lane l := fun u i => by cases l <;> rfl
  unfold State.skipTo
  dsimp only
  rw [hr, State.lane_updLane, (skipPlayout_rest _).1, (skipPlayout_rest _).2.2]
  obtain ⟨hp, -, hseq⟩ := cutTo_rest ((s.retire l g.cue .cutByHost).lane l) k.base
    ((s.retire l g.cue .cutByHost).settings l).guard
  refine ⟨?_, fun h => hp ?_⟩
  · dsimp only
    rw [hseq, hretire]
  · rw [hretire]
    exact h

/-- A stream cut to f and walked on: p at f, and no mark. -/
theorem lane_cutAndWalk (s : State) (l : LaneId) :
    (((s.cutStream l).walkOn l).lane l).seq.mark = none ∧ (((s.cutStream l).walkOn l).lane l).p = (s.lane l).f := by
  have hcut : ((s.cutStream l).lane l).p = (s.lane l).f := by
    have hr : ∀ u : State, (u.releaseAll l).lane l = u.lane l := fun u => by cases l <;> rfl
    unfold State.cutStream
    rw [hr, State.lane_updLane]
    rfl
  unfold State.walkOn
  dsimp only
  have hclose : (((s.cutStream l).walkClose l).lane l).seq.mark = none ∧
      (((s.cutStream l).walkClose l).lane l).p = ((s.cutStream l).lane l).p := by
    unfold State.walkClose State.closeReading State.updSeq State.due
    simp only [State.lane_updLane]
    exact ⟨trivial, rfl⟩
  have hstop := (calm_stopPlayout (Calm.refl (fun _ => True) (fun _ => False) True ((s.cutStream l).walkClose l)) l
    trivial).uncut l id
  generalize ((s.cutStream l).walkClose l).stopPlayout l = w at hstop ⊢
  have hwalk := (calm_walk l trivial walkFuel (w.walkStep l) (calm_countReads (Calm.refl (fun _ => True)
    (fun _ => False) True w) (w.stepReads l))).uncut l id
  exact ⟨hwalk.2 (hstop.2 hclose.1), hwalk.1.trans (hstop.1.trans (hclose.2.trans hcut))⟩

theorem lane_skipToFill (s : State) (l : LaneId) (g : Option Segment) :
    ((s.skipToFill l g).lane l).seq.mark = none ∧ ((s.skipToFill l g).lane l).p = (s.lane l).f := by
  cases g with
  | none => exact lane_cutAndWalk s l
  | some g =>
    obtain ⟨ps, n, hretire⟩ := lane_retire s l g.cue .cutByHost l
    obtain ⟨hm, hp⟩ := lane_cutAndWalk (s.retire l g.cue .cutByHost) l
    exact ⟨hm, hp.trans (by rw [hretire])⟩

/-- Which segment a SKIP cuts is read off the sequencer and p. -/
theorem skipped_of_seq {x y : Lane} (hseq : x.seq = y.seq) (hp : x.p = y.p) : x.skipped = y.skipped := by
  unfold Lane.skipped Lane.segmentAt
  rw [hseq, hp]

/-- A SKIP up to the marks it leaves: p at the base of the next segment or at f, with the mark as the cut leaves it. -/
theorem skipLane_eq (s : State) (l : LaneId) :
    ∃ v : State, s.skipLane l = v.updLane l (fun x => x.clearHold.due.refreshDue) ∧
      (v.lane l).steady = (s.lane l).steady ∧
      (∀ cut next, (s.lane l).skipped = some cut → segmentAfter (s.lane l).seq.segments cut = some next →
        (v.lane l).seq.mark = (s.lane l).seq.mark ∧
        (ahead next.base (s.lane l).p ≤ (s.lane l).bufferedLead → (v.lane l).p = next.base)) ∧
      ((∀ cut, (s.lane l).skipped = some cut → segmentAfter (s.lane l).seq.segments cut = none) →
        (v.lane l).seq.mark = none ∧ (v.lane l).p = (s.lane l).f) := by
  obtain ⟨ep, ef, eseq⟩ := lane_skipEnds s l
  have hends := calm_skipEnds (Calm.refl (fun _ => True) (fun _ => True) True s) l trivial
  have hlead : ((s.skipEnds l).lane l).bufferedLead = (s.lane l).bufferedLead := by
    unfold Lane.bufferedLead
    rw [ep, ef]
  unfold State.skipLane
  dsimp only
  rw [skipped_of_seq eseq ep, eseq]
  refine ⟨_, rfl, ?_⟩
  cases hcut : (s.lane l).skipped with
  | none =>
    obtain ⟨hm, hp⟩ := lane_skipToFill (s.skipEnds l) l none
    exact ⟨(calm_skipToFill hends l none trivial trivial).lane l, by simp, fun _ => ⟨hm, hp.trans ef⟩⟩
  | some g =>
    dsimp only
    cases hnext : segmentAfter (s.lane l).seq.segments g with
    | none =>
      obtain ⟨hm, hp⟩ := lane_skipToFill (s.skipEnds l) l (some g)
      refine ⟨(calm_skipToFill hends l (some g) trivial trivial).lane l, fun cut next hc hn => ?_,
        fun _ => ⟨hm, hp.trans ef⟩⟩
      cases hc
      rw [hnext] at hn
      cases hn
    | some k =>
      obtain ⟨hm, hp⟩ := lane_skipTo (s.skipEnds l) l g k
      refine ⟨(calm_skipTo hends l g k trivial trivial).lane l, fun cut next hc hn => ?_, fun h => ?_⟩
      · cases hc
        rw [hnext] at hn
        cases hn
        exact ⟨hm.trans (congrArg Sequencer.mark eseq), fun h => hp (by rw [ep, hlead]; exact h)⟩
      · have := h g rfl
        rw [hnext] at this
        cases this

theorem clearHold_rest (x : Lane) :
    x.clearHold.p = x.p ∧ x.clearHold.seq = x.seq ∧ x.clearHold.steady = x.steady := by
  unfold Lane.clearHold
  split <;> exact ⟨rfl, rfl, rfl⟩

/-- Settles O23: the cut sets p (`skipLane_eq`), and nothing that follows in the event moves it where no mark waits. -/
theorem skipTaken : Obligations.SkipTaken := by
  intro l s ha hn hadmits
  set u := s.taking (laneCell l) with hu
  have hlane : u.lane l = s.lane l := lane_clearOutputs s _ l
  have hexec : exec (.skip l) s = .next (u.attend (laneCell l) codeSkip (.taken fun s => s.skipLane l)) := by
    refine congrArg _ ((onCommand_of ha _).trans ?_)
    rw [judgeByState_admits hn (by rcases hadmits with h | h | h | h <;> rw [h] <;> rfl)]
  have hown : OwnEffect s (u.skipLane l) :=
    (follows_skipLane (follows_clearOutputs (Follows.refl s) (some (laneCell l))) l).ownEffect
  set t := u.attend (laneCell l) codeSkip (.taken fun s => s.skipLane l) with ht
  obtain ⟨v, hv, hsteady, hto, hfill⟩ := skipLane_eq u l
  rw [hlane] at hsteady hto hfill
  obtain ⟨cp, cseq, csteady⟩ := clearHold_rest (v.lane l)
  have hskip : (u.skipLane l).lane l = (v.lane l).clearHold.due.refreshDue := by rw [hv, State.lane_updLane]
  have hany : Leaves _ _ _ (u.skipLane l) t := attend_leaves_any u (laneCell l) codeSkip fun s => s.skipLane l
  have hp : ((u.skipLane l).lane l).seq.mark = none → (t.lane l).p = (v.lane l).p := fun hm => by
    have hl : Leaves (fun _ => True) (· ≠ l) True (u.skipLane l) t := attend_leaves u _ _ (fun s => s.skipLane l)
      (fun _ => .inl trivial) (fun k => if h : k = l then .inr (.inl (h ▸ hm)) else .inl h) (.inl trivial)
    rw [hl.p l (by simp), hskip]
    exact cp
  have hmark : ((u.skipLane l).lane l).seq.mark = (v.lane l).seq.mark := by
    rw [hskip]
    exact congrArg Sequencer.mark cseq
  refine ⟨t, hexec, ?_, ?_, ?_, fun cut next hc hn hm hlead => ?_, fun h => ?_⟩
  · rw [← detail_laneCell]
    exact attend_taken s _ _ _ hown
  · rw [hany.f l, hskip]
    exact congrArg LaneSteady.f (csteady.trans hsteady)
  · rw [hany.refresh l (by rw [hskip]; rfl), hskip]
    exact congrArg (· + 1) (congrArg LaneSteady.refresh (csteady.trans hsteady))
  · obtain ⟨hvm, hvp⟩ := hto cut next hc hn
    rw [hp (hmark.trans (hvm.trans hm)), hvp hlead]
  · obtain ⟨hvm, hvp⟩ := hfill h
    rw [hp (hmark.trans hvm), hvp]

end Sys2Proof.Machine
end

section
/-! A BLOCK kept ahead of f (O31). -/

namespace Sys2Proof.Machine

set_option Elab.async false

/-! ### A result reported at a position (R63, R92) -/

/-- What a reported result of the OPEN run leaves of a lane: p, f and the counts of arrivals as they were, the sequencer waiting
for what it waited for; its conditions are the same, or those of the end of the attempt that the result at position i ends. -/
structure Lane.Took (x : Lane) (i : Index) (y : Lane) : Prop where
  p : y.p = x.p
  f : y.f = x.f
  counts : x.SameCounts y
  mark : y.seq.mark = x.seq.mark
  bind : y.seq.bind = x.seq.bind
  reRequest : y.seq.reRequest = x.seq.reRequest
  conds : condsOf y.spans = condsOf x.spans ∨
    ∃ t m, x.run.kind = .repair ∧ x.rsc.mode = .repair ∧ x.rsc.target = some t ∧
      (before i t.last = false ∨ x.spans.any (fun y => y.repair.isSome && t.overlaps y) = false) ∧
      condsOf y.spans = condsOf (x.spans.map (endSpan t m))

/-- The classes of an arrival that the map takes: at f, ahead of it, behind it, marked or OVERMARKED. -/
def IntakeClass.placed : IntakeClass → Bool
  | .i0 | .i1 | .i3 | .i6of0 | .i6of1 | .i6of3 => true
  | .i2 | .i4 | .i5 | .i7 => false

/-- A placed result that ends the attempt reaches the target's last position, or no span of the target is left. -/
theorem resultEnds_placed {x : Lane} {t : RepairTarget} {q : IntakeResult} {i : Index} (h : x.resultEnds t q = true)
    (hp : q.position = some i) (hc : q.cls.placed = true) :
    before i t.last = false ∨ x.spans.any (fun y => y.repair.isSome && t.overlaps y) = false := by
  have h2 : (q.cls == .i2) = false := by
    rw [beq_eq_false_iff_ne]
    rintro h2
    rw [h2] at hc
    cases hc
  have h5 : (q.cls == .i5) = false := by
    rw [beq_eq_false_iff_ne]
    rintro h5
    rw [h5] at hc
    cases hc
  unfold Lane.resultEnds at h
  rw [hp, h2, h5] at h
  simp only [Bool.or_false, Bool.false_and, Bool.or_eq_true, Bool.and_eq_true, Bool.not_eq_true'] at h
  exact h.imp (fun h => h.1.1) id

theorem Lane.SameCounts.trans {x y z : Lane} (h : x.SameCounts y) (k : y.SameCounts z) : x.SameCounts z := by
  obtain ⟨h1, h2, h3, h4, h5, h6⟩ := h
  obtain ⟨k1, k2, k3, k4, k5, k6⟩ := k
  exact ⟨k1.trans h1, k2.trans h2, k3.trans h3, k4.trans h4, k5.trans h5, k6.trans h6⟩

theorem sameCounts_of_steady {x y : Lane} (h : y.steady = x.steady) : x.SameCounts y :=
  ⟨congrArg LaneSteady.skips h, congrArg LaneSteady.strays h, congrArg LaneSteady.overruns h,
    congrArg LaneSteady.noMatches h, congrArg LaneSteady.unanchored h, congrArg LaneSteady.slips h⟩

/-- What a reported result leaves of a lane and of its cells. -/
structure Reported (s : State) (l : LaneId) (i : Index) (t : State) : Prop where
  lane : (s.lane l).Took i (t.lane l)
  applied : t.applied = s.applied
  cells : ∀ n, s.numberIn l n → findCell t.store n = findCell s.store n
  store : List.Sublist t.store s.store

/-- A result of a placed class reported: its bookkeeping, the end of the attempt where it ends one, the scheduling point. -/
theorem report_reported (s : State) (l : LaneId) {r : IntakeResult} {i : Index} (hr : r.ofRun = true)
    (hp : r.position = some i) (hc : r.cls.placed = true) : Reported s l i (s.report l r) := by
  have happ : (s.report l r).applied = s.applied := (follows_report (Follows.refl s) l r).outside.applied
  unfold State.report at happ ⊢
  have hn : Notes l s (if r.segmentFilled then s.prefetchAtEnd l else s) := by
    split
    · exact notes_prefetchAtEnd (.refl l s)
    · exact .refl l s
  generalize (if r.segmentFilled then s.prefetchAtEnd l else s) = v at hn happ ⊢
  obtain ⟨y, w, hy, hres⟩ := takeResult_eq v l ((s.lane l).measured r) hr
  rw [hy] at happ ⊢
  have hk := keeps_schedule (.refl l (v.setLane l y)) l w
  have hcalm := calm_schedule (Calm.refl (fun _ => True) (fun _ => True) True (v.setLane l y)) l w
  have hlane := hk.lane
  have hsteady := hcalm.lane l
  rw [State.lane_setLane] at hlane hsteady
  obtain ⟨nrest, nkind, nmark, nbind, nre⟩ := hn.lane
  obtain ⟨rp, rf, rcounts, rmark, rbind, rre, rconds⟩ := hres
  rw [nrest] at rp rf rcounts rconds
  dsimp only [Lane.SameCounts] at rp rf rcounts rconds
  have hstore := hcalm.store
  rw [State.store_setLane, hn.store] at hstore
  refine ⟨⟨hlane.p.trans rp, hlane.f.trans rf, ?_, ?_, ?_, ?_, ?_⟩, happ, fun n hnum => ?_, hstore⟩
  · exact Lane.SameCounts.trans rcounts (sameCounts_of_steady hsteady)
  · rw [hlane.seq, rmark, nmark]
  · rw [hlane.seq, rbind, nbind]
  · rw [hlane.seq, rre, nre]
  · rw [hlane.conds]
    refine rconds.imp id ?_
    rintro ⟨t, m, hkind, hmode, ht, he, hconds⟩
    exact ⟨t, m, nkind.symm.trans hkind, hmode, ht, resultEnds_placed he hp hc, hconds⟩
  · rw [hk.cells n ((numberIn_of_applied (hk.applied.symm.trans happ) l n).2 hnum), State.store_setLane, hn.store]

/-- The conditions of the map before the result stand, but where the BLOCK at position i reaches the last position of the target
in flight: then those of HOLE and WEAK may be the ones given up. -/
theorem Lane.Took.conditions {x z y : Lane} {i : Index} (h : z.Took i y) (hkind : z.run.kind = x.run.kind)
    (hmode : z.rsc.mode = x.rsc.mode)
    (ht : ∀ t, z.rsc.target = some t → before i t.last = false →
      ∃ t0, x.rsc.target = some t0 ∧ before i t0.last = false) :
    condsOf y.spans = condsOf z.spans ∨
      x.EndsAttemptAt i ∧ List.Forall₂ Condition.EndsAs (condsOf z.spans) (condsOf y.spans) := by
  rcases h.conds with hc | ⟨t, m, hk, hm, htarget, hends, hc⟩
  · exact .inl hc
  · rcases hends with hb | hnone
    · exact .inr ⟨⟨hkind ▸ hk, hmode ▸ hm, ht t htarget hb⟩, hc ▸ condsOf_endSpan t m _⟩
    · exact .inl (hc.trans (condsOf_endSpan_outside m hnone))

/-- The condition of a position at the end of the event, from the conditions before the result was reported. -/
theorem conditioned_of {s u : State} {l : LaneId} {i j : Index} {c : Condition} {z y : List Condition} {m : Nat}
    (hu : MapFormed (u.lane l).p (u.lane l).f (u.lane l).spans m) (hc : condsOf (u.lane l).spans = y)
    (hz : z[ahead j (u.lane l).p]? = some c)
    (hy : y = z ∨ (s.lane l).EndsAttemptAt i ∧ List.Forall₂ Condition.EndsAs z y) : s.Conditioned u l i j c := by
  unfold State.Conditioned
  rw [conditionAt_condsOf hu, hc]
  rcases hy with rfl | ⟨hends, hall⟩
  · exact ⟨c, hz, .refl _, fun _ => rfl⟩
  · obtain ⟨d, hd, has⟩ := getElem?_of_forall₂ hall hz
    exact ⟨d, hd, has, fun hn => absurd hends hn⟩

/-! ### The event of a BLOCK judged on arrival (R45) -/

/-- The event of a BLOCK: the state `v` in which it is judged has the lane, the settings and the store of the state before it;
what follows changes no count of arrivals and not f, and where the lane waits for nothing and has positions ahead of p, neither its
map nor its cells. -/
structure JudgedIn (s : State) (l : LaneId) (a : Arrival) (v u : State) : Prop where
  lane : v.lane l = s.lane l
  applied : v.applied = s.applied
  store : v.store = s.store
  f : (u.lane l).f = ((v.judge l a).lane l).f
  counts : ((v.judge l a).lane l).SameCounts (u.lane l)
  sublist : List.Sublist u.store (v.judge l a).store
  inv : s.Inv → u.Inv
  rests : s.Inv → ((v.judge l a).lane l).Settled → ((v.judge l a).lane l).p ≠ ((v.judge l a).lane l).f →
    (u.lane l).p = ((v.judge l a).lane l).p ∧ condsOf (u.lane l).spans = condsOf ((v.judge l a).lane l).spans ∧
      ∀ n, s.numberIn l n → findCell u.store n = findCell (v.judge l a).store n

theorem block_judgedIn {s : State} {t : TransportId} {label : BitVec 24} {marks : MarkReport} {pairs : List Pair}
    (hwf : WellFormed (.block t label marks pairs) = true) (hj : s.JudgesOnArrival t.lane) :
    ∃ u v, exec (.block t label marks pairs) s = .next u ∧
      JudgedIn s t.lane { label := label, marks := marks, pairs := pairs } v u := by
  set l := t.lane with hl
  set a : Arrival := { label := label, marks := marks, pairs := pairs } with ha
  set F : State → State := fun s =>
    if blockOk marks pairs then (s.restartCadence l).arrive l a else s.updTlc l Tlc.checkError with hF
  set v := s.clearOutputs.restartCadence l with hv
  have hvlane : v.lane l = s.lane l := by rw [hv, State.restartCadence, State.lane_updTlc, lane_clearOutputs]
  have hvapp : v.applied = s.applied := by rw [hv, State.restartCadence, State.applied_updTlc, applied_clearOutputs]
  have hvstore : v.store = s.store := by rw [hv, State.restartCadence, State.store_updTlc, store_clearOutputs]
  have hvj : v.JudgesOnArrival l := by
    obtain ⟨hr, ht, hrest⟩ := hj
    refine ⟨(released_restartCadence _ l).trans hr, ?_, by rwa [hvlane]⟩
    rw [hv, State.restartCadence, State.tlc_updTlc]
    split <;> simpa using ht
  have hown : F s.clearOutputs = v.judge l a := by
    rw [hF]
    dsimp only
    rw [if_pos (by simpa [WellFormed] using hwf), ← hv, arrive_judges hvj]
  have hfollows : Follows s (F s.clearOutputs) := by
    rw [hown]
    exact follows_judge (follows_updTlc (follows_clearOutputs (Follows.refl s)) l _) l a
  have hexec : exec (.block t label marks pairs) s = .next (s.event F) := by
    change Host.Outcome.next (s.onEvent true F) = _
    rw [onEvent_of hj.1 rfl]
  have hleaves := event_leaves_any s F
  rw [hown] at hleaves
  refine ⟨s.event F, v, hexec, hvlane, hvapp, hvstore, hleaves.f l, ?_, hleaves.store, (follows_event s F hfollows).inv,
    fun hinv hsettled hpf => ?_⟩
  · exact ⟨hleaves.skips l, hleaves.strays l, hleaves.overruns l, hleaves.noMatches l, hleaves.unanchored l,
      hleaves.slips l⟩
  · have hrests : Rests l (F s.clearOutputs) (s.clearOutputs.carryOut F) := by
      refine rests_settle ?_ _ ⟨rfl, rfl, rfl, ?_, fun _ _ => rfl, rfl⟩ (hfollows.inv hinv)
      · rw [hown]
        exact hpf
      · rw [hown]
        exact hsettled
    rw [hown] at hrests
    have hfin : (s.event F).lane l = ((s.clearOutputs.carryOut F).lane l).finished := lane_finish _ _ _
    have hfinstore : (s.event F).store = (s.clearOutputs.carryOut F).store := (store_finish _ _).1
    have happ : (v.judge l a).applied = s.applied := by
      rw [← hown]
      exact hfollows.outside.applied
    refine ⟨?_, ?_, fun n hn => ?_⟩
    · rw [hfin]
      exact hrests.p
    · rw [hfin]
      exact hrests.conds
    · rw [hfinstore]
      exact hrests.cells n ((numberIn_of_applied happ l n).2 hn)

/-- The class of the copy that a BLOCK brings to a position that holds none: that of no copy where the store refuses it. -/
def State.broughtClass (s : State) (l : LaneId) (i : Index) (a : Arrival) : CopyClass :=
  copyClass (s.settings l).interpLimit (if s.canAssign l i then a.markSet else none)

theorem canAssign_of {s t : State} (ha : t.applied = s.applied) (hs : t.store = s.store) (l : LaneId) (i : Index) :
    t.canAssign l i = s.canAssign l i := by
  unfold State.canAssign
  rw [cellNumber_of_applied ha, hs]

theorem broughtClass_of {s t : State} (ha : t.applied = s.applied) (hs : t.store = s.store) (l : LaneId) (i : Index)
    (a : Arrival) : t.broughtClass l i a = s.broughtClass l i a := by
  unfold State.broughtClass
  rw [canAssign_of ha hs, settings_of_applied ha]

theorem delivered_of {s t : State} (ha : t.applied = s.applied) (hs : t.store = s.store) (l : LaneId) (g : SegRef)
    (i : Index) (a : Arrival) (m : Option MarkSet) : t.delivered l g i a m = s.delivered l g i a m := by
  unfold State.delivered
  cases m with
  | none => exact hs
  | some m => rw [cellNumber_of_applied ha, hs]

/-! ### The ahead-hole claim (R25) -/

/-- The span list that the ahead-hole claim leaves. -/
def Lane.aheadSpans (x : Lane) (g : SegRef) (i : Index) (c : CopyClass) : List Span :=
  let k := ahead i x.f
  let lost := min k (x.guard - x.bufferedLead)
  normalize (x.spans ++
    [{ first := x.f, count := lost, seg := g, cond := .lost, repair := none },
     { first := plus x.f lost, count := k - lost, seg := g, cond := .hole, repair := some freshRepair },
     { first := i, count := 1, seg := g, cond := x.guarded i (appendedCondition c),
       repair := repairOf (x.guarded i (appendedCondition c)) none }])

theorem aheadHole_eq (x : Lane) (g : SegRef) (i : Index) (c : CopyClass) :
    x.aheadHole g i c =
      if Config.maxSpans < (x.aheadSpans g i c).length then none
      else some { x.withSpans (x.aheadSpans g i c) with f := plus i 1 } := rfl

/-- The guard rule on the condition an arriving copy gives a position that had none (R22, R23). -/
theorem guarded_appended (x : Lane) (i : Index) (c : CopyClass) :
    x.guarded i (appendedCondition c) = conditionOf c (decide (ahead i x.p < x.guard)) := by
  unfold Lane.guarded Lane.inGuard
  by_cases h : ahead i x.p < x.guard <;> cases c <;>
    simp [h, conditionOf, appendedCondition, Condition.givenUp]

/-- The positions passed over are LOST within guard and HOLE beyond it, and the block's own is as R23's table says. -/
theorem condsOf_aheadSpans (x : Lane) (g : SegRef) (i : Index) (c : CopyClass) :
    condsOf (x.aheadSpans g i c) = condsOf x.spans ++
      (List.replicate (min (ahead i x.f) (x.guard - x.bufferedLead)) .lost ++
        (List.replicate (ahead i x.f - min (ahead i x.f) (x.guard - x.bufferedLead)) .hole ++
          [conditionOf c (decide (ahead i x.p < x.guard))])) := by
  unfold Lane.aheadSpans
  dsimp only
  rw [condsOf_normalize, condsOf_append, guarded_appended]
  simp [condsOf]

theorem quiet_aheadSpans {x : Lane} (g : SegRef) (i : Index) (c : CopyClass) (h : Quiet x.spans) :
    Quiet (x.aheadSpans g i c) := by
  refine Quiet.normalize (h.append ?_)
  refine .cons rfl (.cons rfl (.cons (active_of_repair fun r hr => ?_) quiet_nil))
  exact repairOf_quiet (o := none) (by simp) r hr

/-- The condition of a position passed over. -/
theorem aheadSpans_passed {x : Lane} {g : SegRef} {i : Index} {c : CopyClass} {j : Nat}
    (hx : (condsOf x.spans).length = x.bufferedLead) (hj : j < ahead i x.f) :
    (condsOf (x.aheadSpans g i c))[x.bufferedLead + j]? =
      some (if x.bufferedLead + j < x.guard then .lost else .hole) := by
  rw [condsOf_aheadSpans, List.getElem?_append_right (by omega), hx, Nat.add_sub_cancel_left]
  split
  · rw [List.getElem?_append_left (by rw [List.length_replicate]; omega), List.getElem?_replicate, if_pos (by omega)]
  · rw [List.getElem?_append_right (by rw [List.length_replicate]; omega), List.length_replicate,
      List.getElem?_append_left (by rw [List.length_replicate]; omega), List.getElem?_replicate, if_pos (by omega)]

/-- The condition of the block's own position. -/
theorem aheadSpans_own {x : Lane} {g : SegRef} {i : Index} {c : CopyClass}
    (hx : (condsOf x.spans).length = x.bufferedLead) :
    (condsOf (x.aheadSpans g i c))[x.bufferedLead + ahead i x.f]? =
      some (conditionOf c (decide (ahead i x.p < x.guard))) := by
  rw [condsOf_aheadSpans, List.getElem?_append_right (by omega), hx, Nat.add_sub_cancel_left,
    List.getElem?_append_right (by rw [List.length_replicate]; omega), List.length_replicate,
    List.getElem?_append_right (by rw [List.length_replicate])]
  simp

/-! ### A BLOCK kept ahead of f (R53) -/

/-- The lane `z` is `x` with a BLOCK kept ahead of f: f behind it, one skip counted, nothing else that arrivals change. -/
structure Lane.Ahead (x : Lane) (g : SegRef) (i : Index) (c : CopyClass) (z : Lane) : Prop where
  p : z.p = x.p
  f : z.f = plus i 1
  spans : z.spans = x.aheadSpans g i c
  target : z.rsc.target = (x.withSpans (x.aheadSpans g i c)).rsc.target
  mode : z.rsc.mode = x.rsc.mode
  kind : z.run.kind = x.run.kind
  mark : z.seq.mark = x.seq.mark
  bind : z.seq.bind = x.seq.bind
  reRequest : z.seq.reRequest = x.seq.reRequest
  skips : z.count.skips = bump x.count.skips
  counts : x.SameCounts { z with count := { z.count with skips := x.count.skips } }

/-- The run's segment has no part in it. -/
theorem Lane.Ahead.of_seg {x z : Lane} {o : Option SegRef} {g : SegRef} {i : Index} {c : CopyClass}
    (h : Lane.Ahead { x with run := { x.run with seg := o } } g i c z) : x.Ahead g i c z :=
  ⟨h.p, h.f, h.spans,
    h.target.trans (target_withSpans (x := { x with run := { x.run with seg := o } }) (y := x) rfl (x.aheadSpans g i c)),
    h.mode, h.kind, h.mark, h.bind, h.reRequest, h.skips, h.counts⟩

theorem classOf_placed (a : Arrival) {c m : IntakeClass} (hc : c.placed = true) (hm : m.placed = true) :
    (a.classOf c m).placed = true := by
  unfold Arrival.classOf
  split
  · exact hm
  · exact hc

/-- A BLOCK kept ahead: the map's claim, the copy written, the result reported. -/
theorem takeKept_reported (s : State) (l : LaneId) (g : SegRef) (i : Index) (a : Arrival)
    (hm : ¬ Config.maxSpans < ((s.lane l).aheadSpans g i (s.broughtClass l i a)).length) :
    ∃ z, Reported z l i (s.takeKept l g i a) ∧ (s.lane l).Ahead g i (s.broughtClass l i a) (z.lane l) ∧
      z.applied = s.applied ∧ z.store = s.delivered l g i a (if s.canAssign l i then a.markSet else none) := by
  obtain ⟨hmarks, ⟨n, hlane⟩, hstore, happ⟩ := deliver_eq s l i a
  unfold State.takeKept
  unfold State.broughtClass at hm ⊢
  generalize s.deliver l i a = v at hmarks hlane hstore happ ⊢
  obtain ⟨s2, d⟩ := v
  dsimp only at hmarks hlane hstore happ ⊢
  rw [settings_of_applied happ, ← hmarks]
  rw [← hmarks] at hm
  generalize copyClass (s.settings l).interpLimit d.marks = c at hm ⊢
  generalize s.lane l = x at hlane hm ⊢
  set y : Lane := { x with count := { x.count with storeFaults := n } } with hy
  have hhole : (s2.lane l).aheadHole g i c = some { y.withSpans (x.aheadSpans g i c) with f := plus i 1 } := by
    rw [aheadHole_eq, hlane]
    exact if_neg hm
  have htarget := target_withSpans (x := y) (y := x) rfl (x.aheadSpans g i c)
  obtain ⟨hspans, hp, hseq, hrun, hcount, hmode⟩ := withSpans_rest y (x.aheadSpans g i c)
  rw [hhole]
  dsimp only
  generalize y.withSpans (x.aheadSpans g i c) = x2 at htarget hspans hp hseq hrun hcount hmode ⊢
  generalize hz : Lane.breakRun _ = z
  obtain ⟨h3, h3s⟩ := writeDelivery_eq (s := s) (t := s2.setLane l z) (by simp [hstore]) (by simp [happ]) l g i a d
  have h3a : ((s2.setLane l z).writeDelivery l g i a d).applied = s.applied :=
    (follows_writeDelivery (Follows.refl _) l g i a d).outside.applied.trans (by simp [happ])
  rw [State.lane_setLane] at h3
  generalize (s2.setLane l z).writeDelivery l g i a d = s3 at h3 h3s h3a ⊢
  refine ⟨s3, report_reported s3 l rfl rfl (classOf_placed a rfl rfl), ?_, h3a, h3s⟩
  rw [h3, ← hz]
  have hkind : x2.run.kind = x.run.kind := congrArg RunContext.kind hrun
  have hmark : x2.seq.mark = x.seq.mark := congrArg Sequencer.mark hseq
  have hbind : x2.seq.bind = x.seq.bind := congrArg Sequencer.bind hseq
  have hre : x2.seq.reRequest = x.seq.reRequest := congrArg Sequencer.reRequest hseq
  refine ⟨hp, rfl, hspans, htarget, hmode, hkind, hmark, hbind, hre, ?_, rfl, ?_, ?_, ?_, ?_, ?_⟩
  all_goals
    dsimp only [Lane.breakRun, Lane.countSkip, Lane.updCue]
    rw [hcount]

/-- An arrival that maps ahead of f, near enough and in the segment of f, is kept where the map takes it. -/
theorem judge_ahead {s : State} {l : LaneId} {a : Arrival} {g : SegRef} {i : Index}
    (hm : (s.lane l).mapArrival a.label = some (g, i)) (hp : before i (s.lane l).p = false)
    (hf : before (s.lane l).f i = true) (hk : ahead i (s.lane l).f ≤ (s.settings l).keepLimit)
    (hw : ahead i (s.lane l).p ≤ s.share l - 3)
    (hg : ((s.lane l).segmentAt (s.lane l).f).map Segment.base = some g.base) :
    s.judge l a = (s.updLane l fun x => { x with run := { x.run with seg := some g } }).takeKept l g i a := by
  have hne : i ≠ (s.lane l).f := by
    rintro rfl
    simp [before] at hf
  have hset : (s.updLane l fun x => { x with run := { x.run with seg := some g } }).settings l = s.settings l :=
    State.settings_updLane ..
  unfold State.judge
  dsimp only
  rw [hm]
  dsimp only
  rw [if_neg (by rw [hp]; simp), if_neg hne, if_pos hf]
  unfold State.takeAhead
  dsimp only
  rw [hset, State.lane_updLane]
  rw [if_neg (by dsimp only; omega), if_neg (by
    unfold State.share at hw
    dsimp only
    omega), if_neg (by rw [not_not]; exact hg)]

/-- Settles O31: the claim gives the positions passed over and the block's own their conditions (`condsOf_aheadSpans`), and the end
of an attempt and what follows leave them but for what the attempt gives up. -/
theorem blockAheadKept : Obligations.BlockAheadKept := by
  intro t label marks pairs g i s hwf hj hm hp hf hk hw hg ha
  set l := t.lane with hl
  obtain ⟨u, v, hexec, hv⟩ := block_judgedIn hwf hj
  set a : Arrival := { label := label, marks := marks, pairs := pairs } with hadef
  have hset : v.settings l = s.settings l := settings_of_applied hv.applied l
  have hclass : s.broughtClass l i a = copyClass (s.settings l).interpLimit
      (if s.canAssign l i then MarkReport.marks marks else none) := rfl
  rw [← hclass] at ha ⊢
  set c := s.broughtClass l i a with hc
  set w := v.updLane l fun x => { x with run := { x.run with seg := some g } } with hwdef
  have hwlane : w.lane l = { s.lane l with run := { (s.lane l).run with seg := some g } } := by
    rw [hwdef, State.lane_updLane, hv.lane]
  have hwapp : w.applied = s.applied := by rw [hwdef, State.applied_updLane, hv.applied]
  have hwstore : w.store = s.store := by rw [hwdef, State.store_updLane, hv.store]
  have hwc : w.broughtClass l i a = c := broughtClass_of hwapp hwstore l i a
  have hjudge : v.judge l a = w.takeKept l g i a :=
    judge_ahead (by rw [hv.lane]; exact hm) (by rwa [hv.lane]) (by rwa [hv.lane]) (by rwa [hv.lane, hset])
      (by rw [hv.lane, State.share, hset]; exact hw) (by rw [hv.lane]; exact hg)
  obtain ⟨z, hrep, hahead, hzapp, hzstore⟩ := takeKept_reported w l g i a (by
    rw [hwc, hwlane]
    exact fun h => ha (by rw [aheadHole_eq]; exact if_pos h))
  rw [← hjudge] at hrep
  rw [hwc, hwlane] at hahead
  obtain ⟨zp, zf, zspans, ztarget, zmode, zkind, zmark, zbind, zre, zskips, zcounts⟩ := hahead.of_seg
  obtain ⟨tp, tf, tcounts, tmark, tbind, tre, tconds⟩ := hrep.lane
  have hcounts := tcounts.trans hv.counts
  refine ⟨u, hexec, hv.f.trans (tf.trans zf), hcounts.1.trans zskips, ?_, fun hinv hsettled => ?_⟩
  · obtain ⟨-, k2, k3, k4, k5, k6⟩ := hcounts
    obtain ⟨-, z2, z3, z4, z5, z6⟩ := zcounts
    exact ⟨rfl, k2.trans z2, k3.trans z3, k4.trans z4, k5.trans z5, k6.trans z6⟩
  have hkept := (hinv.lane l).1
  have hukept := ((hv.inv hinv).lane l).1
  have hsmall : ahead i (s.lane l).p < 0x80000000 := by
    simpa [before, ahead, BitVec.msb_eq_decide] using hp
  have hlead := hkept.form.lead
  have hwin := hkept.form.window
  simp only [Config.storeCells] at hwin
  have hlt : ahead (s.lane l).f (s.lane l).p < ahead i (s.lane l).p := by
    have hb := before_iff (s.lane l).f i (s.lane l).p (by omega) (by omega)
    rwa [hf, eq_comm, decide_eq_true_iff] at hb
  have hif : ahead i (s.lane l).p = (s.lane l).bufferedLead + ahead i (s.lane l).f := by
    rw [ahead_sub i (s.lane l).p (s.lane l).f (by omega)]
    unfold Lane.bufferedLead
    omega
  have hrest := hv.rests hinv
    ⟨tmark.trans (zmark.trans hsettled.1), tbind.trans (zbind.trans hsettled.2.1),
      tre.trans (zre.trans hsettled.2.2)⟩ (by
        rw [tp, tf, zp, zf]
        exact plus_one_ne hsmall)
  obtain ⟨up, uconds, ucells⟩ := hrest
  have hup : (u.lane l).p = (s.lane l).p := up.trans (tp.trans zp)
  have hlen : (condsOf (s.lane l).spans).length = (s.lane l).bufferedLead := by
    rw [condsOf_length, hkept.form.total]
    rfl
  have hconds := hrep.lane.conditions (x := s.lane l) (i := i) zkind zmode (fun r hr hb => by
    rw [ztarget] at hr
    by_cases hq : Quiet (s.lane l).spans
    · exact ⟨r, by rwa [withSpans_target_quiet (quiet_aheadSpans g i c hq)] at hr, hb⟩
    · cases hx : (s.lane l).rsc.target with
      | none =>
        unfold Lane.withSpans at hr
        simp only [hx] at hr
        exact absurd hr (by simp)
      | some r0 =>
        have hin := hkept.aimed.inside hq r0 hx
        refine ⟨r0, rfl, ?_⟩
        rw [before_iff i r0.last (s.lane l).p hsmall (by omega), decide_eq_false_iff_not]
        unfold Lane.bufferedLead at hif
        omega)
  rw [zspans] at hconds
  change condsOf _ = condsOf ((s.lane l).aheadSpans g i c) ∨ _ ∧ List.Forall₂ _ (condsOf ((s.lane l).aheadSpans g i c)) _
    at hconds
  refine ⟨fun j hjlt => ?_, ?_, fun m hmarks hcan => ?_⟩
  · refine conditioned_of hukept.form uconds ?_ hconds
    have hpos : ahead (plus (s.lane l).f j) (u.lane l).p = (s.lane l).bufferedLead + j := by
      rw [hup]
      exact ahead_plus_left _ _ _ (by omega)
    rw [hpos]
    exact aheadSpans_passed hlen hjlt
  · refine conditioned_of hukept.form uconds ?_ hconds
    rw [hup]
    have := aheadSpans_own (g := g) (i := i) (c := c) hlen
    rwa [← hif] at this
  · have hshare : s.share l ≠ 0 := by
      have : s.window l = s.share l - 2 := rfl
      omega
    have hn := numberIn_cellNumber hshare i
    rw [ucells _ hn, hrep.cells _ ((numberIn_of_applied (hzapp.trans hwapp) l _).2 hn), hzstore,
      delivered_of hwapp hwstore, canAssign_of hwapp hwstore, if_pos hcan, show a.markSet = some m from hmarks]
    exact findCell_putCell_same _ _

end Sys2Proof.Machine
end

section
/-! A BLOCK absorbed behind f (O32). -/

namespace Sys2Proof.Machine

set_option Elab.async false

/-! ### A position changed (R26, R34) -/

/-- An entry without its active flag. -/
def idleEntry (e : SegRef × Condition × Option RepairPart) : SegRef × Condition × Option RepairPart :=
  (e.1, e.2.1, e.2.2.map fun r => { r with active := false })

/-- What a span list says of its positions but for the active flag. -/
def idleEntriesOf (l : List Span) : List (SegRef × Condition × Option RepairPart) := (entriesOf l).map idleEntry

theorem idleEntriesOf_cons (y : Span) (l : List Span) :
    idleEntriesOf (y :: l) = List.replicate y.count (idleEntry y.entry) ++ idleEntriesOf l := by
  simp [idleEntriesOf, entriesOf_cons]

theorem idleEntriesOf_append (a b : List Span) : idleEntriesOf (a ++ b) = idleEntriesOf a ++ idleEntriesOf b := by
  simp [idleEntriesOf, entriesOf]

theorem condsOf_idleEntries (l : List Span) : condsOf l = (idleEntriesOf l).map fun e => e.2.1 := by
  induction l with
  | nil => rfl
  | cons y l ih => simp [condsOf_cons, idleEntriesOf_cons, ih, idleEntry, Span.entry]

/-- Spans that differ in their active flags alone. -/
theorem idleEntriesOf_of_map {a b : List Span}
    (h : a.map (fun y => y.setActive false) = b.map fun y => y.setActive false) : idleEntriesOf a = idleEntriesOf b := by
  have hone : ∀ l : List Span, idleEntriesOf l =
      (l.map fun y => y.setActive false).flatMap fun y => List.replicate y.count y.entry := fun l => by
    induction l with
    | nil => rfl
    | cons y l ih =>
      rw [idleEntriesOf_cons, ih]
      rfl
  rw [hone, hone, h]

theorem setActive_setActive (y : Span) (b c : Bool) : (y.setActive b).setActive c = y.setActive c := by
  unfold Span.setActive
  cases y.repair <;> rfl

theorem activateNearest_idle (t : RepairTarget) (l : List Span) :
    (activateNearest t l).map (fun y => y.setActive false) = l.map fun y => y.setActive false := by
  induction l with
  | nil => rfl
  | cons y l ih =>
    unfold activateNearest
    split
    · rw [List.map_cons, List.map_cons, setActive_setActive]
    · rw [List.map_cons, List.map_cons, ih]

theorem idle_repairOf (c : Condition) (o : Option RepairPart) (h : ∀ r, o = some r → r.active = false) :
    (repairOf c o).map (fun r => { r with active := false }) = repairOf c o := by
  have hq := repairOf_quiet (c := c) h
  cases hr : repairOf c o with
  | none => rfl
  | some r =>
    have := hq r hr
    cases r
    simp_all

/-- The entry that a changed position takes. -/
def Span.changedTo (y : Span) (c : Condition) : SegRef × Condition × Option RepairPart :=
  (y.seg, c, repairOf c (y.setActive false).repair)

/-- A list with one position changed says the same of every other position but for the active flag (R34). -/
theorem changeAt_idle {t : Option RepairTarget} {s : Index} {c : Condition} {f : Index} {y : Span} :
    ∀ {l walked : List Span} {q : Index}, SpansCover q f l → l.find? (fun z => z.contains s) = some y →
      idleEntriesOf (changeAt t s c walked l) =
        idleEntriesOf walked.reverse ++ (idleEntriesOf l).set (ahead s q) (y.changedTo c)
  | [], _, _, _, hy => by cases hy
  | x :: l, walked, q, hc, hy => by
    obtain ⟨rfl, hc⟩ := hc
    unfold changeAt
    by_cases hs : ahead s x.first < x.count
    · rw [find_here hs] at hy
      cases hy
      rw [if_pos ((contains_iff y s).2 hs)]
      dsimp only
      generalize ahead s y.first = k at hs
      have hfront : ∀ front : List Span, front.map (fun z => z.setActive false) =
          ((cutSpan y k c).1 :: walked).map (fun z => z.setActive false) →
          idleEntriesOf (front.reverse ++ ((cutSpan y k c).2 ++ l)) =
            idleEntriesOf walked.reverse ++ (idleEntriesOf (y :: l)).set k (y.changedTo c) := fun front h => by
        have hrev : idleEntriesOf front.reverse = idleEntriesOf ((cutSpan y k c).1 :: walked).reverse :=
          idleEntriesOf_of_map (by rw [List.map_reverse, List.map_reverse, h])
        have hmid : idleEntry (y.changedTo c) = y.changedTo c := by
          unfold idleEntry Span.changedTo
          rw [idle_repairOf c _ (repair_quiet (setActive_quiet y))]
        have hstill : ∀ (i : Index) (n : Nat), idleEntry (Span.entry { y.setActive false with first := i, count := n }) =
            idleEntry y.entry := fun i n => by
          unfold idleEntry Span.entry Span.setActive
          cases y.repair <;> rfl
        have hset : (List.replicate y.count (idleEntry y.entry)).set k (y.changedTo c) =
            List.replicate k (idleEntry y.entry) ++ y.changedTo c ::
              List.replicate (y.count - (k + 1)) (idleEntry y.entry) := by
          rw [List.set_eq_take_append_cons_drop, if_pos (by simpa using hs), List.take_replicate, List.drop_replicate,
            Nat.min_eq_left (by omega)]
        rw [idleEntriesOf_append, hrev, List.reverse_cons, idleEntriesOf_append, idleEntriesOf_append,
          idleEntriesOf_cons y l, List.set_append_left k _ (by simpa using hs), hset]
        simp only [cutSpan, idleEntriesOf_cons, List.append_assoc, List.cons_append]
        rw [hstill]
        refine congrArg (_ ++ ·) (congrArg (_ ++ ·) ?_)
        change List.replicate 1 (idleEntry (y.changedTo c)) ++ _ = _
        rw [hmid]
        rfl
      split
      · split
        · exact hfront _ (activateNearest_idle _ _)
        · exact hfront _ rfl
      · exact hfront _ rfl
    · rw [find_there hs] at hy
      have hpast := ahead_past hs
      rw [if_neg (by rw [contains_iff]; exact hs), changeAt_idle hc hy, hpast, List.reverse_cons, idleEntriesOf_append,
        idleEntriesOf_cons x l, List.set_append_right _ _ (by rw [List.length_replicate]; omega), List.length_replicate,
        List.append_assoc]
      simp [idleEntriesOf, entriesOf]

theorem condsOf_changeAt {t : Option RepairTarget} {s : Index} {c : Condition} {p f : Index} {l : List Span}
    {y : Span} (hc : SpansCover p f l) (hy : l.find? (fun z => z.contains s) = some y) :
    condsOf (changeAt t s c [] l) = (condsOf l).set (ahead s p) c := by
  rw [condsOf_idleEntries, changeAt_idle hc hy, condsOf_idleEntries l, List.map_append, List.map_set]
  rfl

/-! ### The absorption claim (R26, R27) -/

/-- The condition that an absorption gives a position of the condition `old` (R22, R26). -/
def Lane.absorbedTo (x : Lane) (i : Index) (old : Condition) (copy : CopyClass) : Condition :=
  if absorbedCondition old copy = .weak then x.guarded i .weak else absorbedCondition old copy

/-- The lane `z` is `x` but for what an absorption at a position changes: its spans with the target widened to them, and its
made-good count. -/
structure Lane.Behind (x : Lane) (i : Index) (z : Lane) : Prop where
  p : z.p = x.p
  f : z.f = x.f
  counts : x.SameCounts z
  mark : z.seq.mark = x.seq.mark
  bind : z.seq.bind = x.seq.bind
  reRequest : z.seq.reRequest = x.seq.reRequest
  kind : z.run.kind = x.run.kind
  mode : z.rsc.mode = x.rsc.mode
  map : (z.spans = x.spans ∧ z.rsc.target = x.rsc.target) ∨
    ∃ c, z.spans = normalize (changeAt x.rsc.target i c [] x.spans) ∧ z.rsc.target = (x.withSpans z.spans).rsc.target

theorem Lane.Behind.refl (x : Lane) (i : Index) : x.Behind i x :=
  ⟨rfl, rfl, ⟨rfl, rfl, rfl, rfl, rfl, rfl⟩, rfl, rfl, rfl, rfl, rfl, .inl ⟨rfl, rfl⟩⟩

/-- The answers of an absorption. -/
theorem absorb_eq {x : Lane} {i : Index} {old : Condition} (copy : CopyClass) (taken : Bool)
    (hold : x.conditionAt i = some old) :
    x.absorb i copy taken =
      if i = x.p ∧ old = .lost ∧ taken = true then (.below, x)
      else if x.absorbedTo i old copy = old then (.done, x)
      else if Config.maxSpans < (normalize (changeAt x.rsc.target i (x.absorbedTo i old copy) [] x.spans)).length then
        (.full, x)
      else (.done, { x.withSpans (normalize (changeAt x.rsc.target i (x.absorbedTo i old copy) [] x.spans)) with
        madeGood := if x.absorbedTo i old copy = .good ∧ x.rsc.target.any (fun t => t.contains i) = true then x.madeGood + 1
          else x.madeGood }) := by
  have hraw : (if absorbedCondition old copy = .weak then x.guarded i (absorbedCondition old copy)
      else absorbedCondition old copy) = x.absorbedTo i old copy := by
    unfold Lane.absorbedTo
    split
    · rename_i h
      rw [h]
    · rfl
  unfold Lane.absorb
  rw [hold]
  dsimp only
  rw [hraw]
  split
  · rfl
  · split
    · rfl
    · split
      · rfl
      · congr 2
        cases x.rsc.target <;> simp

theorem absorb_answer {x : Lane} {i : Index} {old : Condition} (copy : CopyClass) (taken : Bool)
    (hold : x.conditionAt i = some old) :
    (x.absorb i copy taken).1 =
      if i = x.p ∧ old = .lost ∧ taken = true then .below
      else if x.absorbedTo i old copy = old then .done
      else if Config.maxSpans < (normalize (changeAt x.rsc.target i (x.absorbedTo i old copy) [] x.spans)).length then .full
      else .done := by
  rw [absorb_eq copy taken hold]
  split_ifs <;> rfl

theorem absorb_behind (x : Lane) (i : Index) (copy : CopyClass) (taken : Bool) : x.Behind i (x.absorb i copy taken).2 := by
  cases hold : x.conditionAt i with
  | none =>
    unfold Lane.absorb
    rw [hold]
    exact .refl x i
  | some old =>
    rw [absorb_eq copy taken hold]
    split
    · exact .refl x i
    · split
      · exact .refl x i
      · split
        · exact .refl x i
        · set l := normalize (changeAt x.rsc.target i (x.absorbedTo i old copy) [] x.spans) with hl
          have hspans : (x.withSpans l).spans = l := (withSpans_rest x l).1
          refine ⟨?_, ?_, ?_, ?_, ?_, ?_, ?_, ?_, .inr ⟨x.absorbedTo i old copy, hspans, ?_⟩⟩
          all_goals rw [Lane.withSpans_eq]
          exact ⟨rfl, rfl, rfl, rfl, rfl, rfl⟩

/-- What an absorption makes of the conditions: the position's is the one of R26's table under the guard rule. -/
theorem condsOf_absorb {x : Lane} {i : Index} {old : Condition} {copy : CopyClass} {taken : Bool} {n : Nat}
    (hx : MapFormed x.p x.f x.spans n) (hold : x.conditionAt i = some old)
    (hb : ¬(i = x.p ∧ old = .lost ∧ taken = true)) (hfull : (x.absorb i copy taken).1 ≠ .full) :
    (x.absorb i copy taken).1 = .done ∧
      condsOf (x.absorb i copy taken).2.spans = (condsOf x.spans).set (ahead i x.p) (x.absorbedTo i old copy) := by
  rw [absorb_eq copy taken hold] at hfull ⊢
  rw [if_neg hb] at hfull ⊢
  split
  · rename_i hsame
    refine ⟨rfl, ?_⟩
    have hat := hold
    rw [conditionAt_condsOf hx] at hat
    obtain ⟨hlt, hget⟩ := List.getElem?_eq_some_iff.1 hat
    rw [hsame, ← hget, List.set_getElem_self]
  · rename_i hne
    rw [if_neg hne] at hfull
    split
    · rename_i hmany
      rw [if_pos hmany] at hfull
      exact absurd rfl hfull
    · refine ⟨rfl, ?_⟩
      obtain ⟨y, hy, -⟩ := Option.map_eq_some_iff.1 hold
      dsimp only
      rw [(withSpans_rest _ _).1, condsOf_normalize, condsOf_changeAt hx.cover hy]

/-- A position that reaches the target's last one after an absorption reached it before: the target is widened alone. -/
theorem Lane.Behind.reaches {x z : Lane} {i : Index} {n : Nat} (h : x.Behind i z)
    (hx : MapKept x.p x.f x.spans x.rsc.target n) (hi : ahead i x.p < 0x80000000) (t : RepairTarget)
    (ht : z.rsc.target = some t) (hb : before i t.last = false) :
    ∃ t0, x.rsc.target = some t0 ∧ before i t0.last = false := by
  rcases h.map with ⟨-, hsame⟩ | ⟨c, hspans, htarget⟩
  · exact ⟨t, hsame ▸ ht, hb⟩
  rw [htarget] at ht
  by_cases hq : Quiet x.spans
  · have hz : Quiet z.spans := by
      rw [hspans]
      exact (hq.changeAt quiet_nil).normalize
    exact ⟨t, by rwa [withSpans_target_quiet hz] at ht, hb⟩
  · unfold Lane.withSpans at ht
    dsimp only at ht
    split at ht
    · rename_i t0 a ht0 ha
      have hin := hx.aimed.inside hq t0 ht0
      have hlead := hx.form.lead
      have hwin := hx.form.window
      simp only [Config.storeCells] at hwin
      refine ⟨t0, ht0, ?_⟩
      obtain ⟨hcover, hformed, htotal⟩ := changeAt_form x.rsc.target i c x.spans [] hx.form.cover hx.form.allFormed
      obtain ⟨ncover, nfilled, -, ntotal⟩ := normalize_form hcover hformed
      rw [← hspans] at ncover nfilled ntotal
      have hsum : spanTotal z.spans = ahead x.f x.p := ntotal.trans (htotal.trans hx.form.total)
      have ham : a ∈ z.spans := List.mem_of_find?_eq_some ha
      have hmem := ncover.mem ham (by omega)
      have hlast := ncover.last ham (by omega) (nfilled a ham).1
      have hpos := (nfilled a ham).1
      have ha' : ahead a.last x.p < 0x80000000 := by omega
      obtain rfl : t = t0.widen a := (Option.some.inj ht).symm
      have hw : (t0.widen a).last = later t0.last a.last := rfl
      have hmax := ahead_later t0.last a.last x.p (by omega) ha'
      rw [hw, before_iff i _ x.p hi (by omega), decide_eq_false_iff_not] at hb
      rw [before_iff i _ x.p hi (by omega), decide_eq_false_iff_not]
      omega
    · exact ⟨t, ht, hb⟩

/-! ### The absorption of an arrival (R55, R56, R59) -/

/-- What an arrival behind f makes of the state before its result is reported. -/
def State.absorbing (s : State) (l : LaneId) (g : SegRef) (i : Index) (a : Arrival) : Absorbed :=
  match a.markSet with
  | none => s.absorbFirst l g i a { marks := none, refused := false }
  | some m =>
    if ((s.lane l).conditionAt i).any Condition.playable then s.absorbMerged l i a m
    else (s.deliver l i a).1.absorbFirst l g i a (s.deliver l i a).2

theorem takeBehind_eq (s : State) (l : LaneId) (g : SegRef) (i : Index) (a : Arrival) (preroll : Bool) :
    s.takeBehind l g i a preroll = ((s.absorbing l g i a).1.updLane l Lane.breakRun).report l
      { intakeResult (a.classOf .i3 .i6of3) (s.absorbing l g i a).2.1 (some i) (s.absorbing l g i a).2.2 with
        preroll := preroll } := by
  unfold State.takeBehind State.absorbing
  cases a.markSet with
  | none => rfl
  | some m => cases (s.lane l).conditionAt i <;> rfl

/-- The map's part of an absorption without a merge. -/
theorem absorbFirst_behind {s t : State} {l : LaneId} {n : Nat}
    (hl : t.lane l = { s.lane l with count := { (s.lane l).count with storeFaults := n } }) (ha : t.applied = s.applied)
    (g : SegRef) (i : Index) (a : Arrival) (d : Delivery) :
    (s.lane l).Behind i ((t.absorbFirst l g i a d).1.lane l) ∧ (t.absorbFirst l g i a d).1.applied = s.applied := by
  have hfault : ∀ z : Lane, (t.lane l).Behind i z → (s.lane l).Behind i z := fun z h => by
    rw [hl] at h
    refine ⟨h.p, h.f, h.counts, h.mark, h.bind, h.reRequest, h.kind, h.mode, h.map.imp id ?_⟩
    rintro ⟨c, hs, ht⟩
    exact ⟨c, hs, ht.trans (target_withSpans (x := { s.lane l with count := { (s.lane l).count with storeFaults := n } })
      (y := s.lane l) rfl z.spans)⟩
  have hab := absorb_behind (t.lane l) i (copyClass (t.settings l).interpLimit d.marks) (t.lane l).playTaken
  unfold State.absorbFirst
  dsimp only
  split
  · refine ⟨hfault _ ?_, ?_⟩
    · rw [(writeDelivery_eq (s := t.setLane l _) rfl rfl l g i a d).1, State.lane_setLane]
      exact hab
    · rw [(follows_writeDelivery (Follows.refl _) l g i a d).outside.applied, State.applied_setLane, ha]
  · exact ⟨hfault _ (.refl _ i), ha⟩
  · exact ⟨hfault _ (.refl _ i), ha⟩

theorem absorbMerged_behind (s : State) (l : LaneId) (i : Index) (a : Arrival) (m : MarkSet) :
    (s.lane l).Behind i ((s.absorbMerged l i a m).1.lane l) ∧ (s.absorbMerged l i a m).1.applied = s.applied := by
  have hfault : (s.lane l).Behind i ((s.noteStoreFault l).lane l) := by
    unfold State.noteStoreFault State.countStoreFault
    rw [State.lane_setNews, State.lane_updLane]
    exact ⟨rfl, rfl, ⟨rfl, rfl, rfl, rfl, rfl, rfl⟩, rfl, rfl, rfl, rfl, rfl, .inl ⟨rfl, rfl⟩⟩
  have hrewrite : ∀ (u : State) q b ps, (u.rewrite q b ps).lane l = u.lane l := fun u q b ps => by cases l <;> rfl
  unfold State.absorbMerged
  dsimp only
  split
  · rename_i q _
    have hab := absorb_behind (s.lane l) i (copyClass (s.settings l).interpLimit (some (q.marks &&& m)))
      (s.lane l).playTaken
    split
    · dsimp only
      split
      · exact ⟨by rw [State.lane_setLane]; exact hab, State.applied_setLane ..⟩
      · exact ⟨by rw [hrewrite, State.lane_setLane]; exact hab, State.applied_setLane ..⟩
    · exact ⟨.refl _ i, rfl⟩
    · exact ⟨.refl _ i, rfl⟩
  · exact ⟨hfault, (follows_noteStoreFault (Follows.refl s) l).outside.applied⟩
  · exact ⟨hfault, (follows_noteStoreFault (Follows.refl s) l).outside.applied⟩

theorem absorbing_behind (s : State) (l : LaneId) (g : SegRef) (i : Index) (a : Arrival) :
    (s.lane l).Behind i ((s.absorbing l g i a).1.lane l) ∧ (s.absorbing l g i a).1.applied = s.applied := by
  unfold State.absorbing
  split
  · exact absorbFirst_behind (s := s) (n := (s.lane l).count.storeFaults) rfl rfl g i a _
  · split
    · exact absorbMerged_behind s l i a _
    · obtain ⟨-, ⟨n, hlane⟩, -, happ⟩ := deliver_eq s l i a
      exact absorbFirst_behind hlane happ g i a _

/-- The map answers DONE to every absorption at a position that the claim does not answer BELOW. -/
structure Lane.Absorbable (x : Lane) (i : Index) (old : Condition) (n : Nat) : Prop where
  form : MapFormed x.p x.f x.spans n
  condition : x.conditionAt i = some old
  notBelow : ¬(i = x.p ∧ old = .lost ∧ x.playTaken = true)
  notFull : ∀ copy, (x.absorb i copy x.playTaken).1 ≠ .full

/-- The run's segment has no part in it. -/
theorem Lane.Absorbable.with_seg {x : Lane} {i : Index} {old : Condition} {n : Nat} (h : x.Absorbable i old n)
    (o : Option SegRef) : Lane.Absorbable { x with run := { x.run with seg := o } } i old n := by
  refine ⟨h.form, h.condition, h.notBelow, fun copy => ?_⟩
  have := h.notFull copy
  rw [absorb_answer copy _ h.condition] at this
  rw [absorb_answer copy _ (by exact h.condition)]
  exact this

theorem absorbFirst_done {s : State} {l : LaneId} {i : Index} {old : Condition} {n : Nat}
    (hx : (s.lane l).Absorbable i old n) (g : SegRef) (a : Arrival) (d : Delivery) :
    condsOf ((s.absorbFirst l g i a d).1.lane l).spans = (condsOf (s.lane l).spans).set (ahead i (s.lane l).p)
        ((s.lane l).absorbedTo i old (copyClass (s.settings l).interpLimit d.marks)) ∧
      (s.absorbFirst l g i a d).1.store = s.delivered l g i a d.marks := by
  obtain ⟨hdone, hconds⟩ := condsOf_absorb hx.form hx.condition hx.notBelow
    (hx.notFull (copyClass (s.settings l).interpLimit d.marks))
  unfold State.absorbFirst
  dsimp only
  rw [hdone]
  dsimp only
  obtain ⟨hlane, hstore⟩ := writeDelivery_eq (s := s) (t := s.setLane l ((s.lane l).absorb i
    (copyClass (s.settings l).interpLimit d.marks) (s.lane l).playTaken).2) (by simp) (by simp) l g i a d
  rw [State.lane_setLane] at hlane
  exact ⟨by rw [hlane]; exact hconds, hstore⟩

/-- An OVERMARKED block leaves the store. -/
theorem absorbing_overmarked {s : State} {l : LaneId} {i : Index} {old : Condition} {n : Nat} {a : Arrival}
    (hx : (s.lane l).Absorbable i old n) (g : SegRef) (ha : a.markSet = none) :
    condsOf ((s.absorbing l g i a).1.lane l).spans = (condsOf (s.lane l).spans).set (ahead i (s.lane l).p)
        ((s.lane l).absorbedTo i old .none) ∧ (s.absorbing l g i a).1.store = s.store := by
  unfold State.absorbing
  rw [ha]
  exact absorbFirst_done hx g a { marks := none, refused := false }

/-- A position without a copy takes the arriving one. -/
theorem absorbing_first {s : State} {l : LaneId} {i : Index} {old : Condition} {n : Nat} {a : Arrival} {m : MarkSet}
    (hx : (s.lane l).Absorbable i old n) (g : SegRef) (ha : a.markSet = some m) (hold : old.playable = false)
    (hcan : s.canAssign l i = true) :
    condsOf ((s.absorbing l g i a).1.lane l).spans = (condsOf (s.lane l).spans).set (ahead i (s.lane l).p)
        ((s.lane l).absorbedTo i old (copyClass (s.settings l).interpLimit (some m))) ∧
      (s.absorbing l g i a).1.store = s.delivered l g i a (some m) := by
  have hd : s.deliver l i a = (s, { marks := some m, refused := false }) := by
    unfold State.deliver
    rw [ha]
    exact if_pos hcan
  unfold State.absorbing
  rw [ha, hx.condition]
  dsimp only
  rw [if_neg (by simp [hold]), hd]
  exact absorbFirst_done hx g a { marks := some m, refused := false }

/-- A position that holds a copy keeps it merged with the arriving one. -/
theorem absorbing_merged {s : State} {l : LaneId} {i : Index} {old : Condition} {n : Nat} {a : Arrival} {m : MarkSet}
    {q : StoreCell} (hx : (s.lane l).Absorbable i old n) (g : SegRef) (ha : a.markSet = some m)
    (hold : old.playable = true) (hq : s.readCell l i ((s.lane l).addressIn i) = .copy q) :
    condsOf ((s.absorbing l g i a).1.lane l).spans = (condsOf (s.lane l).spans).set (ahead i (s.lane l).p)
        ((s.lane l).absorbedTo i old (copyClass (s.settings l).interpLimit (some (q.marks &&& m)))) ∧
      (s.absorbing l g i a).1.store = if q.marks &&& m = q.marks then s.store
        else (s.rewrite q (q.marks &&& m) (mergePairs q.pairs a.pairs q.marks m)).store := by
  obtain ⟨hdone, hconds⟩ := condsOf_absorb hx.form hx.condition hx.notBelow
    (hx.notFull (copyClass (s.settings l).interpLimit (some (q.marks &&& m))))
  have hrewrite : ∀ (u : State) q b ps, (u.rewrite q b ps).lane l = u.lane l := fun u q b ps => by cases l <;> rfl
  unfold State.absorbing
  rw [ha, hx.condition]
  dsimp only
  rw [if_pos (by simpa using hold)]
  unfold State.absorbMerged
  dsimp only
  rw [hq]
  dsimp only
  rw [hdone]
  dsimp only
  split
  · exact ⟨by rw [State.lane_setLane]; exact hconds, State.store_setLane ..⟩
  · refine ⟨by rw [hrewrite, State.lane_setLane]; exact hconds, ?_⟩
    unfold State.rewrite
    dsimp only
    rw [State.store_setLane]

/-- What a read as a copy finds: the position's cell. -/
theorem readCell_copy {s : State} {l : LaneId} {i : Index} {o : Option Nat} {q : StoreCell}
    (h : s.readCell l i o = .copy q) :
    findCell s.store (s.cellNumber l i) = some q ∧ q.number = s.cellNumber l i ∧ q.position = i := by
  unfold State.readCell at h
  split at h
  · cases h
  · rename_i c hc
    split at h
    · cases h
    · rename_i hpos
      split at h
      · cases h
        exact ⟨hc, by simpa using List.find?_some hc, by simpa using hpos⟩
      · cases h

theorem readCell_of {s t : State} (ha : t.applied = s.applied) (hs : t.store = s.store) (l : LaneId) (i : Index)
    (o : Option Nat) : t.readCell l i o = s.readCell l i o := by
  unfold State.readCell
  rw [cellNumber_of_applied ha, hs]

/-! ### The condition an absorption gives (R22, R26) -/

theorem copyClass_some (n : Nat) (m : MarkSet) : copyClass n (some m) ≠ .none := by
  unfold copyClass
  dsimp only
  repeat' split
  all_goals simp

theorem absorbedTo_merged (x : Lane) (i : Index) {old : Condition} {copy : CopyClass} (hold : old.playable = true)
    (hcopy : copy ≠ .none) :
    x.absorbedTo i old copy = if copy ≠ .long then .good
      else if old = .weak ∧ ahead i x.p < x.guard then .settled else old := by
  unfold Lane.absorbedTo Lane.guarded Lane.inGuard
  cases copy with
  | clean => rfl
  | short => rfl
  | none => exact absurd rfl hcopy
  | long =>
    cases old with
    | hole => cases hold
    | lost => cases hold
    | good => rfl
    | settled => rfl
    | weak => by_cases h : ahead i x.p < x.guard <;> simp [absorbedCondition, Condition.givenUp, h]

theorem absorbedTo_first (x : Lane) (i : Index) {old : Condition} {copy : CopyClass} (hold : old.playable = false)
    (hcopy : copy ≠ .none) :
    x.absorbedTo i old copy = if copy ≠ .long then .good
      else if old = .hole ∧ x.guard ≤ ahead i x.p then .weak else .settled := by
  unfold Lane.absorbedTo Lane.guarded Lane.inGuard
  cases copy with
  | clean => rfl
  | short => rfl
  | none => exact absurd rfl hcopy
  | long =>
    cases old with
    | good => cases hold
    | weak => cases hold
    | settled => cases hold
    | lost => rfl
    | hole =>
      by_cases h : ahead i x.p < x.guard
      · simp [absorbedCondition, Condition.givenUp, h, Nat.not_le.2 h]
      · simp [absorbedCondition, h, Nat.not_lt.1 h]

theorem absorbedTo_none (x : Lane) (i : Index) (old : Condition) :
    x.absorbedTo i old .none = if old = .weak ∧ ahead i x.p < x.guard then .settled else old := by
  unfold Lane.absorbedTo Lane.guarded Lane.inGuard
  cases old with
  | weak => by_cases h : ahead i x.p < x.guard <;> simp [absorbedCondition, Condition.givenUp, h]
  | good => rfl
  | settled => rfl
  | lost => rfl
  | hole => rfl

/-! ### The event of a BLOCK behind f -/

/-- An arrival that maps behind f, near enough on a FILL run or at a preroll position, is absorbed. -/
theorem judge_behind {s : State} {l : LaneId} {a : Arrival} {g : SegRef} {i : Index}
    (hm : (s.lane l).mapArrival a.label = some (g, i)) (hp : before i (s.lane l).p = false) (hne : i ≠ (s.lane l).f)
    (hf : before (s.lane l).f i = false)
    (hnear : (s.lane l).run.kind = .repair ∨ ahead (s.lane l).f i ≤ (s.settings l).absorbLimit ∨
      (s.lane l).run.isPreroll i = true) :
    s.judge l a = (s.updLane l fun x => { x with run := { x.run with seg := some g } }).takeBehind l g i a
      ((s.lane l).run.isPreroll i) := by
  have hset : (s.updLane l fun x => { x with run := { x.run with seg := some g } }).settings l = s.settings l :=
    State.settings_updLane ..
  unfold State.judge
  dsimp only
  rw [hm]
  dsimp only
  rw [if_neg (by rw [hp]; simp), if_neg hne, if_neg (by rw [hf]; simp), hset, if_pos hnear]

/-- The run's segment and its in-order counter have no part in it. -/
theorem Lane.Behind.of_run {x z : Lane} {o : Option SegRef} {i : Index}
    (h : Lane.Behind { x with run := { x.run with seg := o } } i z) : x.Behind i z.breakRun := by
  refine ⟨h.p, h.f, h.counts, h.mark, h.bind, h.reRequest, h.kind, h.mode, h.map.imp id ?_⟩
  rintro ⟨c, hs, ht⟩
  exact ⟨c, hs, ht.trans (target_withSpans (x := { x with run := { x.run with seg := o } }) (y := x) rfl z.spans)⟩

/-- The state in which a BLOCK is taken, once the run's segment is the one it maps through. -/
structure TakesIn (s : State) (l : LaneId) (g : SegRef) (w : State) : Prop where
  lane : w.lane l = { s.lane l with run := { (s.lane l).run with seg := some g } }
  applied : w.applied = s.applied
  store : w.store = s.store

theorem JudgedIn.takesIn {s v u : State} {l : LaneId} {a : Arrival} (h : JudgedIn s l a v u) (g : SegRef) :
    TakesIn s l g (v.updLane l fun x => { x with run := { x.run with seg := some g } }) :=
  ⟨by rw [State.lane_updLane, h.lane], by rw [State.applied_updLane, h.applied],
    by rw [State.store_updLane, h.store]⟩

/-- The event of a BLOCK absorbed at a position: f and the counts of arrivals as they were; where the lane waits for nothing, p too,
the cells of its share as the absorption leaves them, and the position's condition but for what the end of an attempt gives up. -/
structure AbsorbedIn (s : State) (l : LaneId) (i : Index) (r u : State) : Prop where
  f : (u.lane l).f = (s.lane l).f
  counts : (s.lane l).SameCounts (u.lane l)
  sublist : List.Sublist u.store r.store
  rests : s.Inv → (s.lane l).Settled → (u.lane l).p = (s.lane l).p ∧
    (∀ n, s.numberIn l n → findCell u.store n = findCell r.store n) ∧
    ∀ c, (condsOf (r.lane l).spans)[ahead i (s.lane l).p]? = some c → s.Conditioned u l i i c

theorem p_ne_f {x : Lane} {i : Index} {c : Condition} {n : Nat} (h : MapFormed x.p x.f x.spans n)
    (hc : x.conditionAt i = some c) : x.p ≠ x.f := by
  intro hpf
  have h0 := h.total
  rw [← hpf, ahead_self, ← condsOf_length] at h0
  rw [conditionAt_condsOf h, List.eq_nil_of_length_eq_zero h0] at hc
  cases hc

theorem block_absorbedIn {s : State} {t : TransportId} {label : BitVec 24} {marks : MarkReport} {pairs : List Pair}
    {g : SegRef} {i : Index} {old : Condition} (hwf : WellFormed (.block t label marks pairs) = true)
    (hj : s.JudgesOnArrival t.lane) (hm : (s.lane t.lane).mapArrival label = some (g, i))
    (hp : before i (s.lane t.lane).p = false) (hne : i ≠ (s.lane t.lane).f) (hf : before (s.lane t.lane).f i = false)
    (hnear : (s.lane t.lane).run.kind = .repair ∨ ahead (s.lane t.lane).f i ≤ (s.settings t.lane).absorbLimit ∨
      (s.lane t.lane).run.isPreroll i = true) (hold : (s.lane t.lane).conditionAt i = some old) :
    ∃ u w, exec (.block t label marks pairs) s = .next u ∧ TakesIn s t.lane g w ∧
      AbsorbedIn s t.lane i (w.absorbing t.lane g i { label := label, marks := marks, pairs := pairs }).1 u := by
  obtain ⟨u, v, hexec, hv⟩ := block_judgedIn hwf hj
  set l := t.lane with hl
  set a : Arrival := { label := label, marks := marks, pairs := pairs } with hadef
  have hset : v.settings l = s.settings l := settings_of_applied hv.applied l
  have htakes := hv.takesIn g
  have hjudge := judge_behind (s := v) (l := l) (a := a) (g := g) (i := i) (by rw [hv.lane]; exact hm)
    (by rwa [hv.lane]) (by rwa [hv.lane]) (by rwa [hv.lane]) (by rw [hv.lane, hset]; exact hnear)
  rw [takeBehind_eq] at hjudge
  generalize v.updLane l (fun x => { x with run := { x.run with seg := some g } }) = w at htakes hjudge
  refine ⟨u, w, hexec, htakes, ?_⟩
  obtain ⟨hbehind, hbapp⟩ := absorbing_behind w l g i a
  rw [htakes.lane] at hbehind
  have hrep := report_reported ((w.absorbing l g i a).1.updLane l Lane.breakRun) l
    (r := { intakeResult (a.classOf .i3 .i6of3) (w.absorbing l g i a).2.1 (some i) (w.absorbing l g i a).2.2 with
      preroll := (v.lane l).run.isPreroll i }) rfl rfl (classOf_placed a rfl rfl)
  rw [← hjudge] at hrep
  generalize (w.absorbing l g i a).1 = r at hbehind hbapp hrep ⊢
  have hzlane : (r.updLane l Lane.breakRun).lane l = (r.lane l).breakRun := State.lane_updLane ..
  have hzapp : (r.updLane l Lane.breakRun).applied = s.applied := by
    rw [State.applied_updLane, hbapp, htakes.applied]
  have hzstore : (r.updLane l Lane.breakRun).store = r.store := State.store_updLane ..
  generalize r.updLane l Lane.breakRun = z at hzlane hzapp hzstore hrep
  have hzb : (s.lane l).Behind i (z.lane l) := hzlane ▸ hbehind.of_run
  have htook := hrep.lane
  refine ⟨hv.f.trans (htook.f.trans hzb.f), hzb.counts.trans (htook.counts.trans hv.counts),
    hv.sublist.trans (hzstore ▸ hrep.store), fun hinv hsettled => ?_⟩
  have hkept := (hinv.lane l).1
  have hukept := ((hv.inv hinv).lane l).1
  have hsmall : ahead i (s.lane l).p < 0x80000000 := by
    simpa [before, ahead, BitVec.msb_eq_decide] using hp
  obtain ⟨up, uconds, ucells⟩ := hv.rests hinv
    ⟨htook.mark.trans (hzb.mark.trans hsettled.1), htook.bind.trans (hzb.bind.trans hsettled.2.1),
      htook.reRequest.trans (hzb.reRequest.trans hsettled.2.2)⟩
    (by rw [htook.p, htook.f, hzb.p, hzb.f]; exact p_ne_f hkept.form hold)
  have hup : (u.lane l).p = (s.lane l).p := up.trans (htook.p.trans hzb.p)
  refine ⟨hup, fun n hn => ?_, fun c hc => ?_⟩
  · rw [ucells n hn, hrep.cells n ((numberIn_of_applied hzapp l n).2 hn), hzstore]
  · have hconds := htook.conditions hzb.kind hzb.mode (hzb.reaches hkept hsmall)
    rw [hzlane] at hconds
    exact conditioned_of hukept.form uconds (by rw [hup]; exact hc) hconds

/-- Settles O32: the absorption gives the position its condition (`condsOf_absorb`) and its cell the copy, and the event leaves them but
for what the end of an attempt gives up (`block_absorbedIn`). -/
theorem blockAbsorbed : Obligations.BlockAbsorbed := by
  intro t label marks pairs g i old s hwf hj hm hp hne hf hnear hold
  obtain ⟨u, w, hexec, htakes, hu⟩ := block_absorbedIn hwf hj hm hp hne hf hnear hold
  set l := t.lane with hl
  set a : Arrival := { label := label, marks := marks, pairs := pairs } with hadef
  refine ⟨u, hexec, hu.f, hu.counts, fun hinv hsettled hfull hbelow => ?_⟩
  have hkept := (hinv.lane l).1
  have hx : (w.lane l).Absorbable i old (s.window l) := by
    rw [htakes.lane]
    exact Lane.Absorbable.with_seg ⟨hkept.form, hold, hbelow, hfull⟩ _
  have hset : w.settings l = s.settings l := settings_of_applied htakes.applied l
  have hat : ahead i (s.lane l).p < (condsOf (s.lane l).spans).length := by
    have := hold
    rw [conditionAt_condsOf hkept.form] at this
    exact (List.getElem?_eq_some_iff.1 this).1
  have hplace : ∀ {k : List Span} {copy : CopyClass},
      condsOf k = (condsOf (w.lane l).spans).set (ahead i (w.lane l).p) ((w.lane l).absorbedTo i old copy) →
      (condsOf k)[ahead i (s.lane l).p]? = some ((s.lane l).absorbedTo i old copy) := fun h => by
    rw [h, htakes.lane]
    exact List.getElem?_set_self hat
  have hshare : s.share l ≠ 0 := by
    intro h0
    have hlead := hkept.form.lead
    have htotal := hkept.form.total
    rw [← condsOf_length] at htotal
    have : s.window l = s.share l - 2 := rfl
    omega
  obtain ⟨up, ucells, ucond⟩ := hu.rests hinv hsettled
  refine ⟨up, fun m q hmarks hplay hq => ?_, fun m hmarks hplay hcan => ?_, fun hmarks => ?_⟩
  · obtain ⟨hfind, hnum, hpos⟩ := readCell_copy hq
    have hqw : w.readCell l i ((w.lane l).addressIn i) = .copy q := by
      rw [readCell_of htakes.applied htakes.store, htakes.lane]
      exact hq
    obtain ⟨hconds, hstore⟩ := absorbing_merged hx g (show a.markSet = some m from hmarks) hplay hqw
    refine ⟨?_, ?_⟩
    · rw [← absorbedTo_merged (s.lane l) i hplay (copyClass_some _ _), ← hset]
      exact ucond _ (hplace hconds)
    · rw [ucells q.number (hnum ▸ numberIn_cellNumber hshare i), hstore]
      by_cases hsame : q.marks &&& m = q.marks
      · rw [if_pos hsame, htakes.store]
        exact ⟨q, hnum ▸ hfind, hpos, hsame.symm, by rw [if_pos hsame]⟩
      · rw [if_neg hsame]
        exact ⟨_, findCell_putCell_same { q with
            marks := q.marks &&& m, pairs := mergePairs q.pairs pairs q.marks m,
            check := cellCheck q.tagIndex q.tagAddress (q.marks &&& m) (mergePairs q.pairs pairs q.marks m) } _,
          hpos, rfl, by rw [if_neg hsame]⟩
  · obtain ⟨hconds, hstore⟩ := absorbing_first hx g (show a.markSet = some m from hmarks) hplay
      (by rwa [canAssign_of htakes.applied htakes.store])
    refine ⟨?_, ?_⟩
    · rw [← absorbedTo_first (s.lane l) i hplay (copyClass_some _ _), ← hset]
      exact ucond _ (hplace hconds)
    · rw [ucells _ (numberIn_cellNumber hshare i), hstore, delivered_of htakes.applied htakes.store]
      exact findCell_putCell_same _ _
  · obtain ⟨hconds, hstore⟩ := absorbing_overmarked hx g (show a.markSet = none from hmarks)
    refine ⟨by rw [← htakes.store, ← hstore]; exact hu.sublist, ?_⟩
    rw [← absorbedTo_none (s.lane l) i old]
    exact ucond _ (hplace hconds)

end Sys2Proof.Machine
end

section
/-! What an operation of one lane leaves of the other: the other lane and its transport link controller, whole. -/

namespace Sys2Proof.Machine

set_option Elab.async false

/-- A lane with its transport link controller. -/
def State.side (s : State) (l : LaneId) : Lane × Tlc := (s.lane l, s.tlc l)

theorem side_ext {s t : State} {l : LaneId} (hl : t.lane l = s.lane l) (ht : t.tlc l = s.tlc l) : t.side l = s.side l :=
  Prod.ext hl ht

theorem lane_of_side {s t : State} {l : LaneId} (h : t.side l = s.side l) : t.lane l = s.lane l := congrArg Prod.fst h

theorem tlc_of_side {s t : State} {l : LaneId} (h : t.side l = s.side l) : t.tlc l = s.tlc l := congrArg Prod.snd h

/-! ### The state's own operations -/

section
variable {l k : LaneId} (s : State)

@[simp] theorem side_setNews (n : NewsWord) (b : Word) : (s.setNews n b).side l = s.side l :=
  side_ext (by simp) (by cases l <;> rfl)

@[simp] theorem side_setWords (a : Nat) (ws : List Word) : (s.setWords a ws).side l = s.side l :=
  side_ext (by simp) (by cases l <;> rfl)

@[simp] theorem side_setWord (a : Nat) (w : Word) : (s.setWord a w).side l = s.side l := side_setWords s a [w]

@[simp] theorem side_countReads (n : Nat) : (s.countReads n).side l = s.side l :=
  side_ext (by simp) (by cases l <;> rfl)

@[simp] theorem side_updLoader (g : Loader → Loader) : (s.updLoader g).side l = s.side l := side_ext (by simp) (by simp)

@[simp] theorem side_withdrawCheck (j : LaneId) : (s.withdrawCheck j).side l = s.side l :=
  side_ext (by simp) (by cases l <;> rfl)

@[simp] theorem side_release (j : LaneId) (p : StoreCell → Bool) : (s.release j p).side l = s.side l := by cases l <;> rfl

@[simp] theorem side_releaseAll (j : LaneId) : (s.releaseAll j).side l = s.side l := side_release s j _

variable (h : k ≠ l)
include h

theorem side_setLane (x : Lane) : (s.setLane k x).side l = s.side l := side_ext (lane_setLane_ne s h.symm x) (by simp)

theorem side_updLane (g : Lane → Lane) : (s.updLane k g).side l = s.side l := side_setLane s h _

theorem side_updSeq (g : Sequencer → Sequencer) : (s.updSeq k g).side l = s.side l := side_updLane s h _

theorem side_setTlc (t : Tlc) : (s.setTlc k t).side l = s.side l := side_ext (by simp) (tlc_setTlc_ne s h.symm t)

theorem side_due : (s.due k).side l = s.side l := side_updLane s h _

theorem side_noteStoreFault : (s.noteStoreFault k).side l = s.side l := by
  rw [State.noteStoreFault, side_setNews]
  exact side_updLane s h _

/-! ### Runs, transport link controllers and the repair scheduler -/

theorem side_endRun : (s.endRun k).side l = s.side l := by
  unfold State.endRun
  split
  · rw [side_withdrawCheck, side_updLane s h]
  · rfl

theorem side_putTlc (t : Tlc) : (s.putTlc k t).side l = s.side l := by
  unfold State.putTlc
  dsimp only
  repeat' split
  all_goals simp only [side_due _ h, side_endRun _ h, side_setTlc _ h]

theorem side_changeTlc (g : Tlc → Tlc) : (s.changeTlc k g).side l = s.side l := side_putTlc s h _

theorem side_halt : (s.halt k).side l = s.side l := by
  unfold State.halt
  split
  · rw [side_changeTlc _ h, side_endRun _ h]
  · rfl

theorem side_sendSeek (j : RunKind) (g : SegRef) (t : Index) (v : Speed) (w : Bool) :
    (s.sendSeek k j g t v w).side l = s.side l := by
  unfold State.sendSeek
  dsimp only
  rw [side_updLane _ h, side_changeTlc _ h, side_endRun _ h]

theorem side_fillDecision (w : Bool) : (s.fillDecision k w).side l = s.side l := by
  unfold State.fillDecision
  dsimp only
  repeat' split
  all_goals simp only [side_sendSeek _ h, side_updLane _ h, side_halt _ h]

theorem side_startRepair {t : State} (ht : s.startRepair k = some t) : t.side l = s.side l := by
  unfold State.startRepair at ht
  dsimp only at ht
  repeat' split at ht
  all_goals simp only [reduceCtorEq, Option.map_eq_some_iff] at ht
  obtain ⟨x, -, rfl⟩ := ht
  rw [side_sendSeek _ h, side_setLane _ h]

theorem side_chainRepair {t : State} {q : Option Index} (ht : s.chainRepair k q = some t) : t.side l = s.side l := by
  unfold State.chainRepair at ht
  dsimp only at ht
  repeat' split at ht
  all_goals simp only [reduceCtorEq, Option.map_eq_some_iff] at ht
  obtain ⟨x, -, rfl⟩ := ht
  rw [side_setLane _ h]

theorem side_nextWork (q : Point) : (s.nextWork k q).side l = s.side l := by
  unfold State.nextWork
  split
  · rename_i t ht
    split at ht
    · exact side_chainRepair s h ht
    · cases ht
  · split
    · rename_i t ht
      split at ht
      · cases ht
      · exact side_startRepair s h ht
    · exact side_fillDecision s h _

theorem side_workDecision (q : Point) : (s.workDecision k q).side l = s.side l := by
  unfold State.workDecision State.reseekRepair
  dsimp only
  repeat' split
  all_goals simp only [side_fillDecision _ h, side_updLane _ h, side_sendSeek _ h, side_nextWork _ h]

theorem side_standDown (m : WorkMode) (w : Option RestReason) : (s.standDown k m w).side l = s.side l :=
  side_updLane s h _

theorem side_overtake (q : Point) : (s.overtake k q).1.side l = s.side l := by
  unfold State.overtake
  dsimp only
  split
  · exact side_updLane s h _
  · rfl

/-- A scheduling point of the other lane. -/
theorem side_schedule (q : Point) : (s.schedule k q).side l = s.side l := by
  unfold State.schedule
  dsimp only
  repeat' split
  all_goals simp only [side_halt _ h, side_standDown _ h, side_workDecision _ h, side_overtake _ h, side_updLane _ h]

/-! ### The sequencer -/

theorem side_setLaneState (t : LaneState) : (s.setLaneState k t).side l = s.side l := side_updLane s h _

theorem side_endEpisode : (s.endEpisode k).side l = s.side l := by
  unfold State.endEpisode
  split
  · rfl
  · rw [side_updLane _ h, side_countReads]

theorem side_closeReading : (s.closeReading k).side l = s.side l := by
  rw [State.closeReading, side_due _ h, side_updSeq _ h]

theorem side_openReading : (s.openReading k).side l = s.side l := by
  rw [State.openReading, side_due _ h, side_updSeq _ h]

theorem side_retire (c : TakenCue) (o : CueOutcome) : (s.retire k c o).side l = s.side l := by
  unfold State.retire State.writeResult
  dsimp only
  split
  · simp only [side_setNews, side_setWord, side_setWords, side_updSeq _ h, side_countReads]
  · rw [side_updSeq _ h, side_countReads]

theorem side_retireAll (o : CueOutcome) (cs : List TakenCue) : ∀ s : State, (s.retireAll k o cs).side l = s.side l := by
  induction cs with
  | nil => exact fun _ => rfl
  | cons c cs ih => exact fun s => (ih _).trans (side_retire s h c o)

theorem side_retireNormal (cs : List TakenCue) : ∀ s : State, (s.retireNormal k cs).side l = s.side l := by
  induction cs with
  | nil => exact fun _ => rfl
  | cons c cs ih => exact fun s => (ih _).trans (side_retire s h c _)

theorem side_establish : (s.establish k).side l = s.side l := by
  unfold State.establish
  split
  · rfl
  · exact side_updSeq s h _

theorem side_prime : (s.prime k).1.side l = s.side l := by
  unfold State.prime
  dsimp only
  repeat' split
  all_goals simp only [side_openReading _ h, side_updSeq _ h]

theorem side_enterPriming : (s.enterPriming k).1.side l = s.side l := by
  unfold State.enterPriming
  dsimp only
  rw [side_prime _ h]
  split
  · rw [side_establish _ h, side_setLaneState _ h]
  · rw [side_setLaneState _ h]

theorem side_postBind (n : Nat) (t : Byte) : (s.postBind k n t).side l = s.side l := by
  unfold State.postBind State.enqueue
  split
  · exact side_updLane s h _
  · split
    · rw [side_updLoader]
    · rfl

theorem side_sendBind (n : Nat) : (s.sendBind k n).side l = s.side l := by
  unfold State.sendBind
  dsimp only
  rw [side_postBind _ h, side_updSeq _ h]

theorem side_findDisc (c : TakenCue) : (s.findDisc k c).1.side l = s.side l := by
  unfold State.findDisc
  dsimp only
  repeat' split
  all_goals simp only [side_enterPriming _ h, side_setLaneState _ h, side_updSeq _ h, side_sendBind _ h]

theorem side_walkClose : (s.walkClose k).side l = s.side l := by
  rw [State.walkClose, side_updSeq _ h, side_closeReading _ h]

theorem side_stopPlayout : (s.stopPlayout k).side l = s.side l := by
  rw [State.stopPlayout, side_updLane _ h, side_endEpisode _ h]

theorem side_takePending (c : TakenCue) : (s.takePending k c).1.side l = s.side l := by
  unfold State.takePending
  split
  · rw [side_findDisc _ h, side_updSeq _ h]
  · rfl

theorem side_endOfWalk :
    (((s.setLaneState k .idle).releaseAll k).updSeq k fun q => { q with identity := none }).side l = s.side l := by
  rw [side_updSeq _ h, side_releaseAll, side_setLaneState _ h]

theorem side_walk (n : Nat) : ∀ (w : WalkStep) (s : State), (State.walk n w s k).side l = s.side l := by
  induction n with
  | zero =>
    intro w s
    cases w with
    | endOfWalk => exact side_endOfWalk s h
    | starved => exact side_setLaneState s h _
    | entry j w => rfl
  | succ n ih =>
    intro w s
    cases w with
    | endOfWalk => exact side_endOfWalk s h
    | starved => exact side_setLaneState s h _
    | entry j w =>
      have htake : (((s.countReads hostFieldWords).moveWalk k j w).takePending k (s.readCue k j)).1.side l = s.side l := by
        rw [side_takePending _ h, State.moveWalk, side_updSeq _ h, side_countReads]
      unfold State.walk
      dsimp only
      split
      · rw [ih, State.stepRead, side_countReads, side_walkClose _ h, side_retire _ h, htake]
      · exact htake

theorem side_walkOn : (s.walkOn k).side l = s.side l := by
  unfold State.walkOn
  dsimp only
  rw [side_walk h, State.stepRead, side_countReads, side_stopPlayout _ h, side_walkClose _ h]

theorem side_retirePending (o : CueOutcome) : (s.retirePending k o).side l = s.side l := by
  unfold State.retirePending
  split
  · rfl
  · rw [side_walkOn _ h, side_retire _ h]

theorem side_primingOrRetire : (s.primingOrRetire k).side l = s.side l := by
  unfold State.primingOrRetire
  dsimp only
  split
  · rw [side_retirePending _ h, side_enterPriming _ h]
  · rw [side_enterPriming _ h]

theorem side_crossing (g : Segment) (w : Bool) : (s.crossing k g w).side l = s.side l := by
  unfold State.crossing
  dsimp only
  rw [side_updLane _ h, side_retireNormal h]

theorem side_streamEnd : (s.streamEnd k).side l = s.side l := by
  unfold State.streamEnd
  dsimp only
  rw [side_walkOn _ h, side_updSeq _ h, side_retireNormal h]

theorem side_playOutCut : (s.playOutCut k).side l = s.side l := by
  unfold State.playOutCut State.cutStream
  split
  · rfl
  · rw [side_walkOn _ h, side_releaseAll, side_updLane _ h, side_retireAll h]

theorem side_bindOutcome (t : Byte) (o : LoaderOutcome) : (s.bindOutcome k t o).side l = s.side l := by
  unfold State.bindOutcome
  dsimp only
  repeat' split
  all_goals simp only [side_primingOrRetire _ h, side_retirePending _ h, side_updSeq _ h]

/-! ### The playout -/

theorem side_readForPlay : (s.readForPlay k).1.side l = s.side l := by
  unfold State.readForPlay
  dsimp only
  repeat' split
  all_goals simp only [side_noteStoreFault _ h]

theorem side_readNext : (s.readNext k).1.side l = s.side l := by
  unfold State.readNext
  dsimp only
  repeat' split
  all_goals simp only [side_noteStoreFault _ h]

theorem side_countLoss (a m : Nat) (q : LossCause) : (s.countLoss k a m q).side l = s.side l := by
  unfold State.countLoss
  split
  · exact side_endEpisode s h
  · exact side_updLane s h _

theorem side_takeUp (w : Bool) : (s.takeUp k w).side l = s.side l := by
  unfold State.takeUp
  dsimp only
  rw [side_countLoss _ h, side_updLane _ h]
  repeat' split
  all_goals simp only [side_crossing _ h, side_readNext _ h, side_readForPlay _ h]

theorem side_enterUnderrun : (s.enterUnderrun k).side l = s.side l := by
  unfold State.enterUnderrun
  dsimp only
  split
  all_goals simp only [side_streamEnd _ h, side_updLane _ h, side_setLaneState _ h, side_endEpisode _ h]

theorem side_startPlay : (s.startPlay k).side l = s.side l := by
  unfold State.startPlay
  dsimp only
  split
  all_goals simp only [side_enterUnderrun _ h, side_takeUp _ h, side_updLane _ h, side_setLaneState _ h]

end

/-! ### What follows -/

@[simp] theorem side_recordOutcome (s : State) (q : LoaderRequest) (o : LoaderOutcome) (l : LaneId) :
    (s.recordOutcome q o).side l = s.side l := by
  unfold State.recordOutcome State.writeLoader
  simp only [side_setNews, side_setWords, side_updLoader]

/-- An outcome that is not of a BIND of the lane, or comes to a lane with none outstanding. -/
theorem side_endOutcome (s : State) {l : LaneId} {q : LoaderRequest} (o : LoaderOutcome)
    (h : q.ofLane l = false ∨ (s.lane l).seq.bind = none) : (s.endOutcome q o).side l = s.side l := by
  unfold State.endOutcome
  rw [side_recordOutcome]
  cases q with
  | bind k n t =>
    by_cases hk : k = l
    · subst hk
      have hb : (s.lane k).seq.bind = none := h.resolve_left (by simp [LoaderRequest.ofLane])
      dsimp only
      rw [State.bindOutcome, hb]
    · exact side_bindOutcome s hk t o
  | eject n => rfl
  | insert n => rfl
  | rescan => rfl

/-- What follows on the other lane. -/
theorem side_followLane {s t : State} {l k : LaneId} (hk : k ≠ l) (ht : s.followLane k = some t) :
    t.side l = s.side l := by
  unfold State.followLane at ht
  split at ht
  · rename_i u hu
    cases ht
    unfold State.handJammed at hu
    split at hu
    · cases hu
    · cases hu
      rw [side_endOutcome _ _ (.inl (by simpa [LoaderRequest.ofLane] using hk)), side_updLane _ hk]
  · repeat' split at ht
    all_goals cases ht
    exacts [side_playOutCut s hk, side_schedule s hk _, side_startPlay s hk]

end Sys2Proof.Machine
end

section
/-! A mechanism stop while the other lane cannot leave UNDERRUN (O48). -/

namespace Sys2Proof.Machine

set_option Elab.async false

/-! ### A lane that restarts without end -/

/-- A lane in UNDERRUN with nothing to play, nothing to read and nothing to wait for. -/
structure Lane.Starves (x : Lane) : Prop where
  state : x.seq.state = .underrun
  mark : x.seq.mark = none
  bind : x.seq.bind = none
  segments : x.seq.segments = []
  empty : x.p = x.f

/-- The lane A starves while it may restart with a lead of 0, as only a disabled lane's settings allow (R208). -/
structure State.Spins (s : State) : Prop where
  lane : (s.lane .a).Starves
  restart : (s.settings .a).restartLead = 0

theorem Lane.Starves.of_stays {x y : Lane} (h : x.Starves) (hs : x.Stays y) : y.Starves :=
  ⟨hs.seq ▸ h.state, hs.seq ▸ h.mark, hs.seq ▸ h.bind, hs.seq ▸ h.segments, by rw [hs.p, hs.f, h.empty]⟩

/-- A start of a lane with nothing to play ends in UNDERRUN again (R106). -/
theorem startPlay_starves {s : State} {l : LaneId} (h : (s.lane l).Starves) : ((s.startPlay l).lane l).Starves := by
  obtain ⟨_, hmark, hbind, hseg, hp⟩ := h
  obtain ⟨pseq, _, pp, pf, _⟩ := lane_setLaneState s l .playing
  set u := (s.setLaneState l .playing).updLane l fun x => { x with plu := { x.plu with cause := none } } with hu
  have hul : u.lane l = { (s.setLaneState l .playing).lane l with
      plu := { ((s.setLaneState l .playing).lane l).plu with cause := none } } := State.lane_updLane ..
  obtain ⟨eseq, ep, ef, _⟩ := lane_endEpisode u l
  obtain ⟨useq, _, up, uf, _⟩ := lane_setLaneState (u.endEpisode l) l .underrun
  set v := (u.endEpisode l).setLaneState l .underrun
  have vseq : (v.lane l).seq = { (s.lane l).seq with state := .underrun } := by rw [useq, eseq, hul, pseq]
  have vp : (v.lane l).p = (s.lane l).p := by rw [up, ep, hul, pp]
  have vf : (v.lane l).f = (s.lane l).f := by rw [uf, ef, hul, pf]
  have hstart : s.startPlay l = u.enterUnderrun l := by
    unfold State.startPlay
    dsimp only
    rw [← hu, if_pos (by rw [hul, pp, pf, hp])]
  have hend : (u.enterUnderrun l).lane l =
      { v.lane l with plu := { (v.lane l).plu.drop with cause := some (underrunCause (v.tlc l).state) } } := by
    unfold State.enterUnderrun
    dsimp only
    rw [if_neg, State.lane_updLane]
    rw [State.lane_updLane]
    unfold Lane.fillAtEnd Lane.lastSegment
    dsimp only
    rw [vseq, hseg]
    simp
  rw [hstart, hend]
  exact ⟨by rw [vseq], by rw [vseq, hmark], by rw [vseq, hbind], by rw [vseq, hseg], by rw [vp, vf, hp]⟩

/-- Something always follows on such a lane, and leaves it so. -/
theorem State.Spins.follows {s : State} (h : s.Spins) : ∃ t, s.followLane .a = some t ∧ t.Spins := by
  obtain ⟨hlane, hrestart⟩ := h
  have happ : ∀ t, s.followLane .a = some t → t.applied = s.applied :=
    fun t ht => (follows_followLane (Follows.refl s) .a ht).outside.applied
  have hspins : ∀ t, s.followLane .a = some t → (t.lane .a).Starves → t.Spins :=
    fun t ht hl => ⟨hl, by rw [settings_of_applied (happ t ht), hrestart]⟩
  have hcut : (s.lane .a).cutDue = false := by simp [Lane.cutDue, hlane.mark]
  have hplay : (s.lane .a).playDue (s.settings .a) = true := by simp [Lane.playDue, hlane.state, hrestart]
  cases hj : s.handJammed .a with
  | some t =>
    have ht : s.followLane .a = some t := by rw [State.followLane, hj]
    refine ⟨t, ht, hspins t ht ?_⟩
    unfold State.handJammed at hj
    split at hj
    · cases hj
    · cases hj
      rw [lane_of_side (side_endOutcome _ .jammed (.inr (by rw [State.lane_updLane]; exact hlane.bind))), State.lane_updLane]
      exact ⟨hlane.state, hlane.mark, hlane.bind, hlane.segments, hlane.empty⟩
  | none =>
    by_cases hm : (s.lane .a).marks.schedule = true
    · have ht : s.followLane .a = some (s.schedule .a .plain) := by
        rw [State.followLane, hj, hcut, if_pos hm]
        rfl
      exact ⟨_, ht, hspins _ ht (hlane.of_stays (keeps_schedule (.refl .a s) .a .plain).lane)⟩
    · have ht : s.followLane .a = some (s.startPlay .a) := by
        rw [State.followLane, hj, hcut, if_neg hm, if_pos hplay]
        rfl
      exact ⟨_, ht, hspins _ ht (startPlay_starves hlane)⟩

/-- So nothing ever follows on the lane B. -/
theorem State.Spins.starve (n : Nat) : ∀ {s : State}, s.Spins → (State.settle n s).side .b = s.side .b := by
  induction n with
  | zero => exact fun _ => rfl
  | succ n ih =>
    intro s h
    obtain ⟨t, ht, hspins⟩ := h.follows
    have hf : s.follow = some t := by rw [State.follow, ht]
    rw [State.settle, hf]
    exact (ih hspins).trans (side_followLane (by simp) ht)

/-! ### The counterexample -/

/-- Lane B repairing positions 30 to 39 as lane A does in `Tests.repairing`, and lane A disabled in UNDERRUN with a
RestartLead of 0. -/
def repairingBesideSpin : State :=
  let r := Tests.repairing 30 .hole
  { r with
    laneA := { Lane.reset with seq := { Lane.reset.seq with state := .underrun } }
    laneB := r.laneA
    tlc0 := r.tlc1
    tlc1 := r.tlc0
    applied := { r.applied with
      laneA := { r.applied.laneA with share := 0, restartLead := 0 }
      laneB := r.applied.laneA } }

theorem repairingBesideSpin_inv : repairingBesideSpin.Inv :=
  { Tests.witness_Inv_repairing with
    settings := fun i h1 h2 => by
      have h : ∀ i < 32, 1 ≤ i → fieldOk repairingBesideSpin.applied i = true := by decide +kernel
      exact h i (by omega) h1
    laneA := ⟨⟨MapFormed.empty (by decide), .none⟩, Tests.kept_none, by decide, by decide, trivial⟩
    laneB := Tests.witness_Inv_repairing.laneA }

/-- The mechanism stop's own effect leaves lane A in UNDERRUN and the attempt of lane B in flight. -/
theorem stopMechanism_besideSpin :
    (((repairingBesideSpin.clearOutputs).setLines true false).stopMechanism).Spins ∧
      ((((repairingBesideSpin.clearOutputs).setLines true false).stopMechanism).lane .b).rsc.mode = .repair :=
  ⟨⟨⟨by decide +kernel, by decide +kernel, by decide +kernel, by decide +kernel, by decide +kernel⟩, by decide +kernel⟩,
    by decide +kernel⟩

/-- Refutes O48: beside a disabled lane A that starves in UNDERRUN with a RestartLead of 0, which the invariant allows, the
stop's scheduling point on lane B never comes: lane A starts and falls back into UNDERRUN until the fuel of the event is
used up, and lane B stays in REPAIR with its attempt in flight. -/
theorem not_mechanismStopAbortsAttempt : ¬ Obligations.MechanismStopAbortsAttempt := by
  intro h
  set s := repairingBesideSpin with hs
  have hactive : (s.lane .b).activeSpan ≠ none := by decide +kernel
  obtain ⟨t, ht, hrsc, -⟩ := h true false .b { first := 30, last := 39, seg := Tests.seg.ref } s rfl rfl rfl
    repairingBesideSpin_inv (fun l => by cases l <;> rfl) ⟨rfl, rfl, rfl⟩ nofun nofun (by decide) rfl rfl rfl rfl hactive
  obtain ⟨hspins, hmode⟩ := stopMechanism_besideSpin
  have hexec : exec (.mechanismStop true false) s =
      .next (s.event fun u => (u.setLines true false).stopMechanism) := rfl
  rw [hexec] at ht
  cases ht
  have hrest : ((s.event fun u => (u.setLines true false).stopMechanism).lane .b).rsc.mode = .repair := by
    unfold State.event State.carryOut
    dsimp only
    rw [lane_finish, Lane.finished]
    dsimp only
    rw [lane_of_side (hspins.starve settleFuel)]
    exact hmode
  rw [hrsc] at hrest
  cases hrest

end Sys2Proof.Machine
end

section
/-! An attempt whose target widens to a second active span (O49). -/

namespace Sys2Proof.Machine

set_option Elab.async false

/-- Two HOLEs of lane A under repair at once, positions 30 and 35 to 39, the target the first of them. -/
def twoActive : State :=
  (Tests.repairing 30 .hole).updLane .a fun x => { x with
    spans := [{ first := 0, count := 30, seg := Tests.seg.ref, cond := .good, repair := none },
      { first := 30, count := 1, seg := Tests.seg.ref, cond := .hole, repair := some { freshRepair with active := true } },
      { first := 31, count := 4, seg := Tests.seg.ref, cond := .good, repair := none },
      { first := 35, count := 5, seg := Tests.seg.ref, cond := .hole, repair := some { freshRepair with active := true } }]
    rsc := { x.rsc with target := some { first := 30, last := 30, seg := Tests.seg.ref } } }

theorem twoActive_formed : MapFormed twoActive.laneA.p twoActive.laneA.f twoActive.laneA.spans (twoActive.window .a) :=
  Tests.formed_of_check (by decide +kernel) (by decide +kernel) (by decide +kernel)

/-- The invariant aims the target at the first active span alone. -/
theorem twoActive_inv : twoActive.Inv :=
  { Tests.witness_Inv_repairing with
    laneA := by
      refine ⟨⟨twoActive_formed, fun t a ht ha => ?_⟩, Tests.witness_Inv_repairing.laneA.2⟩
      cases ht
      cases ha
      decide }

/-- A clean BLOCK at position 30. -/
def blockAt30 : Instr := .block .t0 1030 (.runs []) Tests.pairs

/-- It makes the position GOOD, and the attempt does not end: the target has widened to position 39. -/
theorem twoActive_counts_none : ((Tests.after blockAt30 twoActive).lane TransportId.t0.lane).count.repaired = 0 ∧
    ((Tests.after blockAt30 twoActive).lane TransportId.t0.lane).conditionAt 30 = some .good := by decide +kernel

/-- Refutes O49: the invariant bounds by the target only the first active span of a map. Where a BLOCK takes that span's last
position and a second span is active beyond it, the target widens to the second one (R34), the BLOCK lies before its last
position, and the position made GOOD is not counted. -/
theorem not_attemptEnds : ¬ Obligations.AttemptEnds := by
  intro h
  have hj : twoActive.JudgesOnArrival .a := by
    unfold State.JudgesOnArrival
    decide +kernel
  obtain ⟨u, hu, hcount, -⟩ := h .t0 1030 (.runs []) Tests.pairs Tests.seg.ref 30
    { first := 30, last := 30, seg := Tests.seg.ref } twoActive (by decide +kernel) hj twoActive_inv ⟨rfl, rfl, rfl⟩
    (by decide +kernel) (by decide +kernel) (by decide +kernel) rfl rfl rfl (by decide) (.inr (by decide +kernel))
  have hafter : Tests.after blockAt30 twoActive = u := by
    unfold Tests.after blockAt30
    rw [hu]
  obtain ⟨hnone, hgood⟩ := twoActive_counts_none
  rw [hafter] at hnone hgood
  have hold : (twoActive.lane TransportId.t0.lane).conditionAt 30 = some .hole := by decide +kernel
  rw [hnone, if_pos ⟨by decide, by rw [hold]; decide, hgood⟩] at hcount
  omega

end Sys2Proof.Machine
end

section
/-! An event in which nothing follows: it changes nothing but what its own effect changes and the records that show it. -/

namespace Sys2Proof.Machine

set_option Elab.async false

/-! ### When nothing follows (log 8) -/

/-- What of a lane says whether something follows on it. -/
structure Lane.Stirred (x y : Lane) : Prop where
  jammed : y.marks.jammed = x.marks.jammed
  schedule : y.marks.schedule = x.marks.schedule
  seq : y.seq = x.seq
  secure : y.secureLead = x.secureLead
  buffered : y.bufferedLead = x.bufferedLead
  full : y.restsFull = x.restsFull

theorem followLane_none_iff (s : State) (l : LaneId) :
    s.followLane l = none ↔ (s.lane l).marks.jammed = [] ∧ (s.lane l).cutDue = false ∧
      (s.lane l).marks.schedule = false ∧ (s.lane l).playDue (s.settings l) = false := by
  unfold State.followLane State.handJammed
  cases (s.lane l).marks.jammed <;> cases (s.lane l).cutDue <;> cases (s.lane l).marks.schedule <;>
    cases (s.lane l).playDue (s.settings l) <;> simp

theorem follow_none_iff (s : State) :
    s.follow = none ↔ (∀ l, s.followLane l = none) ∧ s.recovered = false ∧ s.choose = none := by
  have hall : (∀ l, s.followLane l = none) ↔ s.followLane .a = none ∧ s.followLane .b = none :=
    ⟨fun h => ⟨h .a, h .b⟩, fun h l => by cases l <;> simp [h]⟩
  rw [hall]
  unfold State.follow
  cases s.followLane .a <;> cases s.followLane .b <;> cases s.recovered <;> cases s.choose <;> simp

theorem Lane.Stirred.cutDue {x y : Lane} (h : x.Stirred y) : y.cutDue = x.cutDue := by
  unfold Lane.cutDue
  rw [h.seq, h.secure]

theorem Lane.Stirred.playDue {x y : Lane} (h : x.Stirred y) (v : LaneSettings) : y.playDue v = x.playDue v := by
  unfold Lane.playDue
  rw [h.seq, h.secure, h.buffered, h.full]

theorem Lane.Stirred.refl (x : Lane) : x.Stirred x := ⟨rfl, rfl, rfl, rfl, rfl, rfl⟩

/-- Nothing follows on a lane that is alike in all that says so. -/
theorem followLane_none_of {s t : State} {l : LaneId} (h : s.followLane l = none) (hl : (s.lane l).Stirred (t.lane l))
    (ha : t.applied = s.applied) : t.followLane l = none := by
  rw [followLane_none_iff] at h ⊢
  rw [hl.jammed, hl.cutDue, hl.schedule, hl.playDue, settings_of_applied ha]
  exact h

theorem gateOpen_of {s t : State} (hl : ∀ l, (s.lane l).Stirred (t.lane l)) (ha : t.applied = s.applied)
    (q : LoaderRequest) : t.gateOpen q = s.gateOpen q := by
  have hopen : ∀ l, t.laneOpens l = s.laneOpens l := fun l => by
    unfold State.laneOpens
    dsimp only
    rw [(hl l).seq, (hl l).secure, ha]
  unfold State.gateOpen
  rw [hopen, hopen]

/-- The arbiter chooses as before. -/
theorem choose_of {s t : State} (hl : ∀ l, (s.lane l).Stirred (t.lane l)) (ha : t.applied = s.applied)
    (hd : t.loader.startable = s.loader.startable) : t.choose = s.choose := by
  unfold State.choose
  rw [hd]
  cases s.loader.startable with
  | nil => rfl
  | cons w rest => simp only [gateOpen_of hl ha]

/-- Nothing follows in a state that is alike in all that says so. -/
theorem atRest_of {s t : State} (h : s.AtRest) (hl : ∀ l, (s.lane l).Stirred (t.lane l)) (ha : t.applied = s.applied)
    (hd : t.loader.startable = s.loader.startable) (hr : t.recovered = s.recovered) : t.AtRest := by
  unfold State.AtRest at h ⊢
  rw [follow_none_iff] at h ⊢
  rw [choose_of hl ha hd, hr]
  exact ⟨fun l => followLane_none_of (h.1 l) (hl l) ha, h.2⟩

/-- A lane changed in nothing that says so. -/
theorem stirred_updLane (s : State) (l : LaneId) (g : Lane → Lane) (hg : (s.lane l).Stirred (g (s.lane l))) (k : LaneId) :
    (s.lane k).Stirred ((s.updLane l g).lane k) := by
  by_cases hk : k = l
  · subst hk
    rwa [State.lane_updLane]
  · rw [lane_updLane_ne _ hk]
    exact .refl _

theorem AtRest_updLane {s : State} (h : s.AtRest) (l : LaneId) (g : Lane → Lane)
    (hg : (s.lane l).Stirred (g (s.lane l)) := by exact ⟨rfl, rfl, rfl, rfl, rfl, rfl⟩) : (s.updLane l g).AtRest :=
  atRest_of h (stirred_updLane s l g hg) (by simp) (by simp) (by simp [State.recovered])

/-- A transport link controller changed, its state kept. -/
theorem AtRest_updTlc {s : State} (h : s.AtRest) (l : LaneId) (g : Tlc → Tlc)
    (hg : (g (s.tlc l)).state = (s.tlc l).state := by rfl) : (s.updTlc l g).AtRest := by
  refine atRest_of h (fun k => by rw [State.lane_updTlc]; exact .refl _) (by simp) (by simp) ?_
  cases l
  · have : (g s.tlc0).state = s.tlc0.state := hg
    simp [State.recovered, State.updTlc, State.setTlc, State.tlc, this]
  · have : (g s.tlc1).state = s.tlc1.state := hg
    simp [State.recovered, State.updTlc, State.setTlc, State.tlc, this]

theorem AtRest_splice {s : State} (h : s.AtRest) (u : Splice) : State.AtRest { s with splice := u } :=
  atRest_of h (fun l => by cases l <;> exact .refl _) rfl rfl rfl

theorem AtRest_clearOutputs {s : State} (h : s.AtRest) : s.clearOutputs.AtRest :=
  atRest_of h (fun l => by rw [lane_clearOutputs]; exact .refl _) rfl rfl rfl

theorem settle_atRest {s : State} (h : s.AtRest) (n : Nat) : State.settle n s = s := by
  cases n with
  | zero => rfl
  | succ n =>
    unfold State.AtRest at h
    rw [State.settle, h]

/-! ### The records alone -/

/-- What the records of an event may change of a state. -/
def State.Recorded (s t : State) : Prop :=
  t = { s with xm := t.xm, overlap := t.overlap, laneA := t.laneA, laneB := t.laneB, tlc0 := t.tlc0, tlc1 := t.tlc1,
               loader := t.loader }

theorem State.Recorded.refl (s : State) : s.Recorded s := rfl

theorem State.Recorded.trans {s t u : State} (h : s.Recorded t) (k : t.Recorded u) : s.Recorded u := by
  unfold State.Recorded at *
  rw [h] at k
  exact k

/-- One more change where a test says so. -/
theorem State.Recorded.ite {s t u : State} {c : Bool} (h : s.Recorded t) (k : t.Recorded u) :
    s.Recorded (if c then u else t) := by
  split
  · exact h.trans k
  · exact h

theorem recorded_setWords (s : State) (a : Nat) (ws : List Word) : s.Recorded (s.setWords a ws) := rfl

theorem recorded_setNews (s : State) (n : NewsWord) (b : Word) : s.Recorded (s.setNews n b) := rfl

theorem recorded_updLane (s : State) (l : LaneId) (g : Lane → Lane) : s.Recorded (s.updLane l g) := by cases l <;> rfl

theorem recorded_updTlc (s : State) (l : LaneId) (g : Tlc → Tlc) : s.Recorded (s.updTlc l g) := by cases l <;> rfl

theorem recorded_writeStatus (s : State) (l : LaneId) : s.Recorded (s.writeStatus l) :=
  (recorded_updLane s l _).trans (recorded_setWords _ _ _)

theorem recorded_finishLane (s : State) (l : LaneId) : s.Recorded (s.finishLane l) := by
  have hstatus := (recorded_updLane s l fun x => { x with marks := .clear }).ite (recorded_writeStatus _ l)
    (c := (s.lane l).marks.refresh || (s.lane l).marks.stateChanged)
  have hloss := hstatus.ite (recorded_setNews _ (newsOf l) lossBit) (c := (s.lane l).marks.loss)
  exact hloss.ite (recorded_setNews _ (newsOf l) stateBit) (c := (s.lane l).marks.stateChanged)

theorem recorded_finish (s w : State) : s.Recorded (s.finish w) := by
  have htransport : ∀ (u : State) l, u.Recorded (u.finishTransport w l) := fun u l => by
    unfold State.finishTransport State.writeTransport
    split
    · exact .refl u
    · exact (recorded_updTlc u l _).trans (recorded_setWords _ _ _)
  have hloader : ∀ u : State, u.Recorded (u.finishLoader w) := fun u => by
    unfold State.finishLoader State.writeLoader
    split
    · exact .refl u
    · exact rfl
  exact ((((recorded_finishLane s .a).trans (recorded_finishLane _ .b)).trans (htransport _ .a)).trans
    (htransport _ .b)).trans (hloader _)

/-- With no mark of an event on a lane nothing is written for it. -/
theorem finishLane_unmarked {s : State} {l : LaneId} (h : (s.lane l).marks = .clear) : (s.finishLane l).xm = s.xm := by
  unfold State.finishLane
  simp [h, LaneMarks.clear]

/-- Then the event writes nothing outside the records. -/
theorem byte_finish_out {s : State} (w : State) (h : s.Unmarked) {a : Nat} (ha : ¬ inRecord a) :
    Memory.byte (s.finish w).xm a = Memory.byte s.xm a := by
  have hout : ∀ (m : List Host.Cell) (b : Nat) (ws : List Word), a < b ∨ b + 4 * ws.length ≤ a →
      Memory.byte (Memory.write m b (ws.flatMap wordBytes)) a = Memory.byte m a := fun m b ws hb =>
    Memory.byte_write_out _ _ _ _ (by rwa [Memory.flatMap_wordBytes_length])
  have htransport : ∀ (u : State) l, Memory.byte (u.finishTransport w l).xm a = Memory.byte u.xm a := fun u l => by
    unfold State.finishTransport State.writeTransport
    split
    · rfl
    · dsimp only
      rw [State.xm_setWords, hout, State.xm_updTlc]
      rw [recordWords_length]
      have hn : ¬ (transportOffset l ≤ a ∧ a < transportOffset l + 64) := fun hin => ha (.inl ⟨l, hin⟩)
      omega
  have hloader : ∀ u : State, Memory.byte (u.finishLoader w).xm a = Memory.byte u.xm a := fun u => by
    unfold State.finishLoader State.writeLoader
    split
    · rfl
    · dsimp only
      rw [State.xm_setWords, hout, State.xm_updLoader]
      rw [loaderWords_length]
      have hn : ¬ (loaderOffset ≤ a ∧ a < loaderOffset + 128) := fun hin => ha (.inr (.inl hin))
      omega
  unfold State.finish
  rw [hloader, htransport, htransport, finishLane_unmarked (by rw [lane_finishLane_ne _ (by simp)]; exact h .b),
    finishLane_unmarked (h .a)]

/-- The records of an event in which nothing follows, over the state `r` that its own effect leaves. -/
theorem finish_onlyRecords (r w : State) : r.OnlyRecords (r.clearOutputs.finish w) where
  lanes l := by
    rw [lane_finish, lane_clearOutputs]
    exact ⟨_, rfl⟩
  tlcs l := by
    obtain ⟨n, hn⟩ := tlc_finish r.clearOutputs w l
    exact ⟨n, by rw [hn, tlc_clearOutputs]⟩
  loader := by
    obtain ⟨n, hn⟩ := loader_finish r.clearOutputs w
    exact ⟨n, hn⟩
  rest := State.Recorded.trans (t := r.clearOutputs) rfl (recorded_finish _ w)
  bytes h a ha := by
    have hu : r.clearOutputs.Unmarked := fun l => by
      rw [lane_clearOutputs]
      exact h l
    rw [byte_finish_out w hu ha, xm_clearOutputs]

/-- An event whose own effect leaves a state at rest, but for the outputs of the event before. -/
theorem event_atRest {s r : State} {f : State → State} (hf : f s.clearOutputs = r.clearOutputs) (hr : r.AtRest) :
    r.OnlyRecords (s.event f) := by
  have h : s.event f = r.clearOutputs.finish s.clearOutputs := by
    unfold State.event State.carryOut
    dsimp only
    rw [hf, settle_atRest (AtRest_clearOutputs hr)]
  rw [h]
  exact finish_onlyRecords r _

end Sys2Proof.Machine
end

section
/-! The event of a BLOCK, and a stray one (O29). -/

namespace Sys2Proof.Machine

set_option Elab.async false

/-! ### What stays of a transport link controller -/

/-- What two controllers with the same steady part agree in. -/
structure Tlc.Agrees (t u : Tlc) : Prop where
  violation : u.violation = t.violation
  spindle : u.spindle = t.spindle
  disc : u.disc = t.disc
  lastFailure : u.lastFailure = t.lastFailure
  strays : u.count.strays = t.count.strays
  badEvents : u.count.badEvents = t.count.badEvents
  faults : u.count.faults = t.count.faults
  seekFailures : u.count.seekFailures = t.count.seekFailures

theorem agrees_of_steady {t u : Tlc} (h : u.steady = t.steady) : t.Agrees u := by
  have hv : ∀ {α : Type} (g : Tlc → α), g u.steady = g t.steady := fun g => congrArg g h
  exact ⟨hv Tlc.violation, hv Tlc.spindle, hv Tlc.disc, hv Tlc.lastFailure, hv fun x => x.count.strays,
    hv fun x => x.count.badEvents, hv fun x => x.count.faults, hv fun x => x.count.seekFailures⟩

/-! ### The event of a BLOCK (R45, R138) -/

/-- The own effect of a BLOCK that a frame can carry. -/
def blockEffect (l : LaneId) (a : Arrival) (s : State) : State := (s.restartCadence l).arrive l a

theorem exec_block {t : TransportId} {label : BitVec 24} {marks : MarkReport} {pairs : List Pair} {s : State}
    (hr : s.released = true) (hok : blockOk marks pairs = true) :
    exec (.block t label marks pairs) s =
      .next (s.event (blockEffect t.lane { label := label, marks := marks, pairs := pairs })) := by
  have hf : (fun u : State => if blockOk marks pairs then
      (u.restartCadence t.lane).arrive t.lane { label := label, marks := marks, pairs := pairs }
      else u.updTlc t.lane Tlc.checkError) = blockEffect t.lane { label := label, marks := marks, pairs := pairs } := by
    simp only [hok, if_true]
    rfl
  change Host.Outcome.next (s.onEvent true _) = _
  rw [onEvent_of hr rfl, hf]

/-- The state in which the event of a BLOCK finds its lane. -/
def State.atBlock (s : State) (l : LaneId) : State := s.clearOutputs.restartCadence l

section
variable (s : State) (l : LaneId)

@[simp] theorem lane_atBlock (k : LaneId) : (s.atBlock l).lane k = s.lane k := by
  rw [State.atBlock, State.restartCadence, State.lane_updTlc, lane_clearOutputs]

@[simp] theorem applied_atBlock : (s.atBlock l).applied = s.applied := by
  rw [State.atBlock, State.restartCadence, State.applied_updTlc, applied_clearOutputs]

@[simp] theorem store_atBlock : (s.atBlock l).store = s.store := by
  rw [State.atBlock, State.restartCadence, State.store_updTlc, store_clearOutputs]

@[simp] theorem splice_atBlock : (s.atBlock l).splice = s.splice := by
  rw [State.atBlock, State.restartCadence, State.splice_updTlc, splice_clearOutputs]

@[simp] theorem tlc_atBlock_state : ((s.atBlock l).tlc l).state = (s.tlc l).state := by
  rw [State.atBlock, State.restartCadence, State.tlc_updTlc]
  split <;> simp

theorem tlc_atBlock_steady : ((s.atBlock l).tlc l).steady = (s.tlc l).steady := by
  rw [State.atBlock, State.restartCadence, State.tlc_updTlc]
  split <;> simp [Tlc.steady]

@[simp] theorem settings_atBlock : (s.atBlock l).settings l = s.settings l := settings_of_applied (applied_atBlock s l) l

@[simp] theorem lateArrival_atBlock (label : BitVec 24) : (s.atBlock l).lateArrival l label = s.lateArrival l label := by
  unfold State.lateArrival State.share
  rw [lane_atBlock, settings_atBlock]

end

/-- In any state of the controller but READING the cadence timer stays. -/
theorem atBlock_unread {s : State} {l : LaneId} (h : (s.tlc l).state ≠ .reading) : s.atBlock l = s.clearOutputs := by
  unfold State.atBlock State.restartCadence State.updTlc
  dsimp only
  rw [if_neg (by simpa using h)]
  cases l <;> rfl

theorem follows_atBlock (s : State) (l : LaneId) : Follows s (s.atBlock l) :=
  follows_updTlc (follows_clearOutputs (Follows.refl s)) l _

/-! ### A scheduling point that changes nothing (R79) -/

theorem updLane_self {s : State} {l : LaneId} {g : Lane → Lane} (h : g (s.lane l) = s.lane l) : s.updLane l g = s := by
  rw [State.updLane, h, setLane_self]

/-- A scheduler that rests with reading closed, its transport neither seeking nor reading, does nothing at a scheduling point. -/
theorem schedule_closed {s : State} {l : LaneId} (h : s.ReadingClosed l) (hm : (s.lane l).marks.schedule = false) :
    s.schedule l .plain = s := by
  obtain ⟨hread, hmode, hrest, hseek, hreading⟩ := h
  have hmark : s.updLane l (fun x => { x with marks := { x.marks with schedule := false } }) = s :=
    updLane_self (by rw [← hm])
  have hover : s.overtake l .plain = (s, .plain) := by
    unfold State.overtake
    exact if_neg (by simp [hmode])
  have hstand : s.standDown l .none none = s := by
    refine updLane_self ?_
    unfold Lane.abortAttempt
    rw [hmode]
    dsimp only
    rw [← hmode, ← hrest]
  have hhalt : s.halt l = s := by
    unfold State.halt
    refine if_neg ?_
    cases hs : (s.tlc l).state <;> simp [TlcState.busy] at * <;> contradiction
  unfold State.schedule
  dsimp only
  rw [hmark, hover]
  dsimp only
  rw [if_pos (by simp [hread]), hstand, hhalt]

/-- A scheduling point leaves what only a lane's own events change. -/
theorem steady_schedule (s : State) (l : LaneId) (q : Point) (k : LaneId) :
    ((s.schedule l q).lane k).steady = (s.lane k).steady ∧ ((s.schedule l q).tlc k).steady = (s.tlc k).steady ∧
      List.Sublist (s.schedule l q).store s.store := by
  have h := calm_schedule (Calm.refl (fun _ => True) (fun _ => True) True s) l q
  exact ⟨h.lane k, h.tlc k, h.store⟩

/-! ### A stray BLOCK (R46) -/

/-- The part with a stray BLOCK counted. -/
def State.countStray (s : State) (l : LaneId) : State :=
  (s.updTlc l fun x => { x with count := { x.count with strays := bump x.count.strays } }).updLane l
    fun x => { x with count := { x.count with strays := bump x.count.strays } }

theorem takeStray_eq (s : State) (l : LaneId) : s.takeStray l = (s.countStray l).schedule l .plain := by
  have h : (s.updLane l fun x => { x with count := { x.count with strays := bump x.count.strays } }).updTlc l Tlc.stray =
      s.countStray l := by
    cases l <;> rfl
  unfold State.takeStray
  dsimp only
  rw [h]
  rfl

/-- A BLOCK that reaches no OPEN run on a READING transport and is no late arrival at a full window is stray. -/
theorem blockEffect_stray {s : State} {l : LaneId} {a : Arrival}
    (hrun : (s.lane l).run.state ≠ .opened ∨ (s.tlc l).state ≠ .reading) (hlate : s.lateArrival l a.label = false) :
    blockEffect l a s.clearOutputs = ((s.atBlock l).countStray l).schedule l .plain := by
  rw [← takeStray_eq]
  change (s.atBlock l).arrive l a = _
  unfold State.arrive
  dsimp only
  rw [lane_atBlock, tlc_atBlock_state, lateArrival_atBlock, if_pos hrun, hlate, if_neg (by simp)]

theorem lane_countStray (s : State) (l : LaneId) : (s.countStray l).lane l =
    { s.lane l with count := { (s.lane l).count with strays := bump (s.lane l).count.strays } } := by cases l <;> rfl

theorem tlc_countStray (s : State) (l : LaneId) : (s.countStray l).tlc l =
    { s.tlc l with count := { (s.tlc l).count with strays := bump (s.tlc l).count.strays } } := by cases l <;> rfl

theorem AtRest_countStray {s : State} (h : s.AtRest) (l : LaneId) : (s.countStray l).AtRest :=
  AtRest_updLane (AtRest_updTlc h l _) l _

/-- Where reading is closed and nothing waits, the stray is counted and nothing else happens. -/
theorem blockEffect_stray_closed {s : State} {l : LaneId} {a : Arrival}
    (hrun : (s.lane l).run.state ≠ .opened ∨ (s.tlc l).state ≠ .reading) (hlate : s.lateArrival l a.label = false)
    (hrest : s.AtRest) (hclosed : s.ReadingClosed l) :
    blockEffect l a s.clearOutputs = (s.countStray l).clearOutputs := by
  have hmark : (s.lane l).marks.schedule = false :=
    ((followLane_none_iff s l).1 (((follow_none_iff s).1 hrest).1 l)).2.2.1
  have hout : s.clearOutputs.countStray l = (s.countStray l).clearOutputs := by cases l <;> rfl
  obtain ⟨hread, hmode, hno, hseek, hreading⟩ := hclosed
  rw [blockEffect_stray hrun hlate, atBlock_unread hreading, schedule_closed, hout]
  · unfold State.ReadingClosed
    rw [lane_countStray, tlc_countStray, lane_clearOutputs, tlc_clearOutputs]
    exact ⟨hread, hmode, hno, hseek, hreading⟩
  · rw [lane_countStray, lane_clearOutputs]
    exact hmark

/-- Settles O29: the stray's own effect counts it at the lane and at the transport (`takeStray_eq`), its scheduling point and what
follows leave the counts, f and the store, and with reading closed and nothing waiting they do nothing. -/
theorem strayBlockCounted : Obligations.StrayBlockCounted := by
  intro t label marks pairs s hr hwf hrun hlate
  set l := t.lane with hl
  set a : Arrival := { label := label, marks := marks, pairs := pairs } with ha
  have hexec := exec_block (t := t) (label := label) hr (show blockOk marks pairs = true by simpa [WellFormed] using hwf)
  have hown : blockEffect l a s.clearOutputs = _ := blockEffect_stray hrun hlate
  have hleaves := event_leaves_any s (blockEffect l a)
  rw [hown] at hleaves
  obtain ⟨hlane, htlc, hstore⟩ := steady_schedule ((s.atBlock l).countStray l) l .plain l
  rw [lane_countStray, lane_atBlock] at hlane
  rw [tlc_countStray] at htlc
  have hstrays := (agrees_of_steady (tlc_atBlock_steady s l)).strays
  refine ⟨s.event (blockEffect l a), hexec, (hleaves.f l).trans (congrArg LaneSteady.f hlane),
    (hleaves.strays l).trans (congrArg LaneSteady.strays hlane), ?_,
    (hleaves.skips l).trans (congrArg LaneSteady.skips hlane),
    (hleaves.overruns l).trans (congrArg LaneSteady.overruns hlane),
    (hleaves.noMatches l).trans (congrArg LaneSteady.noMatches hlane),
    (hleaves.unanchored l).trans (congrArg LaneSteady.unanchored hlane),
    (hleaves.slips l).trans (congrArg LaneSteady.slips hlane), ?_, fun hrest hclosed => ?_⟩
  · rw [← hstrays]
    exact (agrees_of_steady ((hleaves.tlc l).trans htlc)).strays
  · refine hleaves.store.trans (hstore.trans ?_)
    have : ((s.atBlock l).countStray l).store = s.store := by
      rw [State.countStray, State.store_updLane, State.store_updTlc, store_atBlock]
    rw [this]
  · exact event_atRest (blockEffect_stray_closed hrun hlate hrest hclosed) (AtRest_countStray hrest l)

end Sys2Proof.Machine
end

section
/-! SEEK_DONE and SEEK_FAIL (O35). -/

namespace Sys2Proof.Machine

set_option Elab.async false

/-! ### A stray frame (R136, R137) -/

/-- The part with a stray frame of a transport counted. -/
def State.countTlcStray (s : State) (l : LaneId) : State :=
  s.updTlc l fun x => { x with count := { x.count with strays := bump x.count.strays } }

/-- An event that only counts a stray frame of a transport. -/
theorem event_tlcStray {s : State} {l : LaneId} {f : State → State}
    (hf : f s.clearOutputs = s.clearOutputs.updTlc l Tlc.stray) :
    ((s.event f).tlc l).count.strays = bump (s.tlc l).count.strays ∧
      ((s.event f).tlc l).lastFailure = (s.tlc l).lastFailure ∧
      ((s.event f).tlc l).violation = (s.tlc l).violation ∧
      ((s.event f).tlc l).count.badEvents = (s.tlc l).count.badEvents ∧
      (s.AtRest → (s.countTlcStray l).OnlyRecords (s.event f)) := by
  have hleaves := (event_leaves_any s f).tlc l
  rw [hf, State.tlc_updTlc, tlc_clearOutputs] at hleaves
  have h := agrees_of_steady hleaves
  refine ⟨h.strays, h.lastFailure, h.violation, h.badEvents, fun hrest => ?_⟩
  exact event_atRest (hf.trans (by cases l <;> rfl)) (AtRest_updTlc hrest l _)

/-! ### A scheduling point at which the work goes on (R81, R83) -/

theorem updLane_congr {s : State} {l : LaneId} {g h : Lane → Lane} (hg : g (s.lane l) = h (s.lane l)) :
    s.updLane l g = s.updLane l h := by
  rw [State.updLane, State.updLane, hg]

theorem startAttempt_none_iff (x : Lane) (n : Nat) (y : Span) :
    x.startAttempt n y = none ↔
      x.activeSpan.isSome = true ∨ (x.spans.any fun z => z.first == y.first && z.repair.isSome) = false := by
  unfold Lane.startAttempt Lane.activate
  rw [Option.map_eq_none_iff]
  split
  · rename_i hactive
    exact iff_of_true rfl (.inl hactive)
  · rename_i hactive
    split
    · rename_i hany
      exact iff_of_false (by simp) fun hn => hn.elim hactive fun hno => by rw [hno] at hany; cases hany
    · rename_i hany
      exact iff_of_true rfl (.inr (Bool.eq_false_iff.2 hany))

theorem startRepair_none_iff (s : State) (l : LaneId) :
    s.startRepair l = none ↔ (s.startCondition l = true →
      ∀ y, (s.lane l).spans.find? ((s.lane l).eligible (s.settings l).repairMargin) = some y →
        (s.lane l).startAttempt (s.settings l).readSpeed y = none) := by
  unfold State.startRepair
  dsimp only
  cases s.startCondition l with
  | false => simp
  | true => cases (s.lane l).spans.find? ((s.lane l).eligible (s.settings l).repairMargin) <;> simp

/-- Whether a repair starts does not hang on the lane's run. -/
theorem startRepair_none_of {s t : State} {l : LaneId} {r : RunContext} (ha : t.applied = s.applied)
    (hl : t.lane l = { s.lane l with run := r }) (h : s.startRepair l = none) : t.startRepair l = none := by
  rw [startRepair_none_iff] at h ⊢
  unfold State.startCondition at h ⊢
  dsimp only at h ⊢
  rw [settings_of_applied ha, hl]
  intro hstart y hfind
  have hnone := h hstart y hfind
  rw [startAttempt_none_iff] at hnone ⊢
  exact hnone

/-- A scheduling point at which the work of a lane goes on changes nothing of the part but the rest reason. -/
theorem schedule_goesOn {s : State} {l : LaneId} (h : s.WorkGoesOn l) (hm : (s.lane l).marks.schedule = false)
    (hu : (s.tlc l).state.usable = true) :
    ∃ o, s.schedule l .plain = s.updLane l fun x => { x with rsc := { x.rsc with rest := o } } := by
  obtain ⟨hshare, hread, hquiet, hwork⟩ := h
  have hmark : s.updLane l (fun x => { x with marks := { x.marks with schedule := false } }) = s :=
    updLane_self (by rw [← hm])
  have hover : s.overtake l .plain = (s, .plain) := by
    unfold State.overtake
    refine if_neg ?_
    rcases hwork with ⟨-, hactive, -⟩ | ⟨hmode, -⟩
    · exact fun hn => hactive hn.2
    · simp [hmode]
  have hdecide : s.schedule l .plain = s.workDecision l .plain := by
    unfold State.schedule
    dsimp only
    rw [hmark, hover]
    dsimp only
    rw [if_neg (by simp [State.enabled, hshare, hread]), hquiet]
    cases hs : (s.tlc l).state <;> simp [TlcState.usable, hs] at hu ⊢
  rw [hdecide]
  unfold State.workDecision
  rcases hwork with ⟨hmode, -, hfloor⟩ | ⟨hmode, hstart, hrest, hfill⟩
  · refine ⟨(s.lane l).rsc.rest, ?_⟩
    rw [if_pos hmode, if_neg (by omega), if_neg (by simp [Point.plain])]
    exact (updLane_self rfl).symm
  · refine ⟨none, ?_⟩
    have hwait : (s.lane l).rsc.refillWait = false := by
      unfold Lane.fillRest at hrest
      split_ifs at hrest with h1 h2 h3 h4
      simpa using fun hw => h4 (.inr hw)
    have hrefill : s.updLane l (fun x => x.updateRefill (s.settings l)) = s := by
      refine updLane_self ?_
      unfold Lane.updateRefill
      split
      · rw [← hwait]
      · rfl
    rw [if_neg (by simp [hmode])]
    unfold State.nextWork
    simp only [Point.plain, Bool.false_eq_true, if_false, hstart]
    unfold State.fillDecision
    dsimp only
    rw [hrefill, hrest]
    dsimp only
    rw [hfill, if_pos (by simp)]
    exact updLane_congr (by rw [← hmode])

/-! ### A scheduling point due in a state at rest -/

theorem schedule_due (s : State) (l : LaneId) (q : Point) : (s.due l).schedule l q = s.schedule l q := by
  have h : (s.due l).updLane l (fun x => { x with marks := { x.marks with schedule := false } }) =
      s.updLane l fun x => { x with marks := { x.marks with schedule := false } } := by
    cases l <;> rfl
  unfold State.schedule
  rw [h]

theorem handJammed_none {s : State} {l : LaneId} (h : (s.lane l).marks.jammed = []) : s.handJammed l = none := by
  unfold State.handJammed
  rw [h]

/-- It is the first thing that follows. -/
theorem follow_due {s : State} (h : s.AtRest) (l : LaneId) : (s.due l).follow = some (s.schedule l .plain) := by
  have hrest := (follow_none_iff s).1 h
  obtain ⟨hjam, hcut, -, -⟩ := (followLane_none_iff s l).1 (hrest.1 l)
  have hown : (s.due l).followLane l = some (s.schedule l .plain) := by
    rw [← schedule_due]
    have hlane : (s.due l).lane l = (s.lane l).due := State.lane_updLane ..
    have hjam' : (s.due l).handJammed l = none := handJammed_none (by rw [hlane]; exact hjam)
    have hcut' : ((s.due l).lane l).cutDue = false := by rw [hlane]; exact hcut
    unfold State.followLane
    rw [hjam', hcut', hlane]
    rfl
  unfold State.follow
  cases l with
  | a => rw [hown]
  | b =>
    have ha : (s.due .b).followLane .a = none :=
      followLane_none_of (hrest.1 .a) (by rw [State.due, lane_updLane_ne _ (by simp)]; exact .refl _)
        (State.applied_updLane ..)
    rw [ha, hown]

/-! ### SEEK_DONE (R136) -/

/-- The own effect of a SEEK_DONE. -/
def seekDoneEffect (l : LaneId) (address : BitVec 24) (s : State) : State :=
  if (s.tlc l).awaits address.toNat then
    ((s.changeTlc l fun u => u.reached s.applied.cadenceLimit).updLane l Lane.openRun).due l
  else s.updTlc l Tlc.stray

theorem exec_seekDone {s : State} (hr : s.released = true) (t : TransportId) (address : BitVec 24) :
    exec (.seekDone t address) s = .next (s.event (seekDoneEffect t.lane address)) := by
  change Host.Outcome.next (s.onEvent true (seekDoneEffect t.lane address)) = _
  rw [onEvent_of hr rfl]

theorem awaits_iff (t : Tlc) (n : Nat) : t.awaits n = true ↔ t.state = .seeking ∧ t.seek.map Seek.address = some n := by
  unfold Tlc.awaits
  cases t.seek <;> simp

/-- The part with the outstanding seek of a transport reached and the lane's run OPEN. -/
def State.reachSeek (s : State) (l : LaneId) : State :=
  (s.setTlc l ((s.tlc l).reached s.applied.cadenceLimit)).updLane l Lane.openRun

theorem openRun_due (x : Lane) : x.due.openRun = x.openRun.due := by
  unfold Lane.openRun Lane.due
  dsimp only
  split <;> rfl

theorem updLane_updLane (s : State) (l : LaneId) (g h : Lane → Lane) :
    (s.updLane l g).updLane l h = s.updLane l fun x => h (g x) := by
  cases l <;> rfl

/-- From SEEKING to READING no run ends. -/
theorem reachSeek_due {s : State} {l : LaneId} (h : (s.tlc l).state = .seeking) :
    ((s.changeTlc l fun u => u.reached s.applied.cadenceLimit).updLane l Lane.openRun).due l = (s.reachSeek l).due l := by
  have hput : s.changeTlc l (fun u => u.reached s.applied.cadenceLimit) =
      (s.setTlc l ((s.tlc l).reached s.applied.cadenceLimit)).due l := by
    unfold State.changeTlc State.putTlc
    dsimp only
    rw [h]
    rfl
  rw [hput]
  unfold State.reachSeek State.due
  rw [updLane_updLane, updLane_updLane, updLane_updLane]
  simp only [openRun_due]
  rfl

theorem seekDoneEffect_reached {s : State} {l : LaneId} {address : BitVec 24} (hs : (s.tlc l).state = .seeking)
    (hk : (s.tlc l).seek.map Seek.address = some address.toNat) :
    seekDoneEffect l address s.clearOutputs = (s.clearOutputs.reachSeek l).due l := by
  unfold seekDoneEffect
  rw [if_pos ((awaits_iff _ _).2 (by rw [tlc_clearOutputs]; exact ⟨hs, hk⟩)), reachSeek_due (by rw [tlc_clearOutputs]; exact hs)]

theorem seekDoneEffect_stray {s : State} {l : LaneId} {address : BitVec 24}
    (h : (s.tlc l).state ≠ .seeking ∨ (s.tlc l).seek.map Seek.address ≠ some address.toNat) :
    seekDoneEffect l address s.clearOutputs = s.clearOutputs.updTlc l Tlc.stray := by
  unfold seekDoneEffect
  refine if_neg fun hn => ?_
  rw [awaits_iff, tlc_clearOutputs] at hn
  exact h.elim (fun k => k hn.1) fun k => k hn.2

theorem lane_reachSeek (s : State) (l : LaneId) : (s.reachSeek l).lane l = { s.lane l with
    run := { (s.lane l).run with
      state := if (s.lane l).run.state = .seeking then .opened else (s.lane l).run.state } } := by
  rw [State.reachSeek, State.lane_updLane, State.lane_setTlc, Lane.openRun]
  split <;> rfl

theorem tlc_reachSeek (s : State) (l : LaneId) :
    (s.reachSeek l).tlc l = (s.tlc l).reached s.applied.cadenceLimit := by
  rw [State.reachSeek, State.tlc_updLane, State.tlc_setTlc]

theorem applied_reachSeek (s : State) (l : LaneId) : (s.reachSeek l).applied = s.applied := by
  rw [State.reachSeek, State.applied_updLane, State.applied_setTlc]

theorem AtRest_reachSeek {s : State} {l : LaneId} (h : s.AtRest) (hs : (s.tlc l).state = .seeking) :
    (s.reachSeek l).AtRest := by
  have htlc : (s.setTlc l ((s.tlc l).reached s.applied.cadenceLimit)).AtRest := by
    refine atRest_of h (fun k => by rw [State.lane_setTlc]; exact .refl _) (by simp) (by simp) ?_
    cases l
    · have : s.tlc0.state = .seeking := hs
      simp only [State.recovered, State.setTlc, Tlc.reached, this]
      rfl
    · have : s.tlc1.state = .seeking := hs
      simp only [State.recovered, State.setTlc, Tlc.reached, this]
      rfl
  refine AtRest_updLane htlc l _ ?_
  unfold Lane.openRun
  split
  · exact ⟨rfl, rfl, rfl, rfl, rfl, rfl⟩
  · exact .refl _

/-- The work that went on while the transport was seeking goes on while it reads. -/
theorem WorkGoesOn_reachSeek {s : State} {l : LaneId} (h : s.WorkGoesOn l) : (s.clearOutputs.reachSeek l).WorkGoesOn l := by
  have hlane := lane_reachSeek s.clearOutputs l
  rw [lane_clearOutputs] at hlane
  have happ : (s.clearOutputs.reachSeek l).applied = s.applied := applied_reachSeek ..
  obtain ⟨hshare, hread, hquiet, hwork⟩ := h
  have hstart := startRepair_none_of happ hlane
  unfold State.WorkGoesOn State.fillGoesOn State.share
  rw [settings_of_applied happ, hlane, tlc_reachSeek]
  refine ⟨hshare, hread, hquiet, hwork.imp id ?_⟩
  rintro ⟨hmode, hnone, hrest, hfill⟩
  refine ⟨hmode, hstart hnone, hrest, ?_⟩
  unfold State.fillGoesOn at hfill
  simp only [Bool.and_eq_true] at hfill ⊢
  obtain ⟨⟨⟨⟨hfillMode, hkind⟩, hprogress⟩, -⟩, hseg⟩ := hfill
  refine ⟨⟨⟨⟨hfillMode, hkind⟩, ?_⟩, rfl⟩, hseg⟩
  unfold RunContext.inProgress at hprogress ⊢
  cases hrun : (s.lane l).run.state <;> simp [hrun] at hprogress ⊢

/-- A SEEK_DONE of the outstanding seek in a state at rest whose work goes on: the seek reached, nothing else but a rest reason. -/
theorem carryOut_reached {s : State} {l : LaneId} {address : BitVec 24} (hs : (s.tlc l).state = .seeking)
    (hk : (s.tlc l).seek.map Seek.address = some address.toNat) (hrest : s.AtRest) (hwork : s.WorkGoesOn l) :
    ∃ o, s.clearOutputs.carryOut (seekDoneEffect l address) =
      (s.clearOutputs.reachSeek l).updLane l fun x => { x with rsc := { x.rsc with rest := o } } := by
  have hs0 : (s.clearOutputs.tlc l).state = .seeking := by rw [tlc_clearOutputs]; exact hs
  have hat := AtRest_reachSeek (AtRest_clearOutputs hrest) hs0
  have hgoes := WorkGoesOn_reachSeek hwork
  have hmark := ((followLane_none_iff _ l).1 (((follow_none_iff _).1 hat).1 l)).2.2.1
  obtain ⟨o, ho⟩ := schedule_goesOn hgoes hmark (by rw [tlc_reachSeek]; rfl)
  refine ⟨o, ?_⟩
  have hmode : (((s.clearOutputs.reachSeek l).lane l).rsc.mode == .rest) = false := by
    obtain ⟨-, -, -, ⟨hmode, -⟩ | ⟨hmode, -⟩⟩ := hgoes <;> rw [hmode] <;> rfl
  unfold State.carryOut settleFuel
  rw [seekDoneEffect_reached hs hk, State.settle, follow_due hat l, ho]
  refine settle_atRest (AtRest_updLane hat l _ ⟨rfl, rfl, rfl, rfl, rfl, ?_⟩) _
  simp [Lane.restsFull, hmode]

/-! ### SEEK_FAIL (R137, R141) -/

/-- The own effect of a SEEK_FAIL. -/
def seekFailEffect (l : LaneId) (reason : SeekReason) (s : State) : State :=
  if (s.tlc l).state = .seeking then
    (s.changeTlc l fun u => u.seekFailed reason).badThen l fun s => s.seekAgain l
  else s.updTlc l Tlc.stray

theorem exec_seekFail {s : State} (hr : s.released = true) (t : TransportId) (reason : SeekReason) :
    exec (.seekFail t reason) s = .next (s.event (seekFailEffect t.lane reason)) := by
  change Host.Outcome.next (s.onEvent true (seekFailEffect t.lane reason)) = _
  rw [onEvent_of hr rfl]

/-- A bad event with its own action: the controller is the one that the bad event leaves, but for what a scheduling point
changes. -/
theorem badThen_steady (s : State) (l : LaneId) (f : State → State)
    (hf : ∀ u : State, ((f u).tlc l).steady = (u.tlc l).steady) :
    ((s.badThen l f).tlc l).steady = ((s.tlc l).bad s.applied.violationLimit).2.steady := by
  have hbad : ((s.badEvent l).2).tlc l = ((s.tlc l).bad s.applied.violationLimit).2 := State.tlc_putTlc ..
  unfold State.badThen
  dsimp only
  split
  · rw [hbad]
  · rw [hf, hbad]

/-- What a bad event makes of a controller (R141). -/
theorem bad_eq (t : Tlc) (limit : Nat) :
    (t.bad limit).2.count.badEvents = bump t.count.badEvents ∧ (t.bad limit).2.lastFailure = t.lastFailure ∧
      (t.bad limit).2.count.seekFailures = t.count.seekFailures ∧
      (if limit ≤ t.violation + 1 then
        (t.bad limit).2.violation = 0 ∧ (t.bad limit).2.count.faults = bump t.count.faults ∧
          (t.bad limit).2.spindle = .unknown ∧ (t.bad limit).2.disc = .unknown
      else (t.bad limit).2.violation = t.violation + 1 ∧ (t.bad limit).2.count.faults = t.count.faults) := by
  have hbusy : ∀ u : Tlc, u.haltIfBusy.lastFailure = u.lastFailure ∧ u.haltIfBusy.count.badEvents = u.count.badEvents ∧
      u.haltIfBusy.count.seekFailures = u.count.seekFailures := fun u => by
    unfold Tlc.haltIfBusy
    split <;> exact ⟨rfl, rfl, rfl⟩
  unfold Tlc.bad
  dsimp only
  split
  · obtain ⟨h1, h2, h3⟩ := hbusy { t with count := { t.count with badEvents := bump t.count.badEvents } }
    exact ⟨h2, h1, h3, rfl, rfl, rfl, rfl⟩
  · exact ⟨rfl, rfl, rfl, rfl, rfl⟩

/-- A SEEK_FAIL in SEEKING is a bad event with its reason kept. -/
theorem seekFail_bad {s : State} {l : LaneId} (reason : SeekReason) (hs : (s.tlc l).state = .seeking) :
    let u := s.event (seekFailEffect l reason)
    s.BadEventTaken u l ∧ (u.tlc l).count.seekFailures = bump (s.tlc l).count.seekFailures ∧
      (u.tlc l).lastFailure = some reason := by
  intro u
  have hown : ((seekFailEffect l reason s.clearOutputs).tlc l).steady =
      ((({ s.tlc l with sent := [] } : Tlc).seekFailed reason).bad s.applied.violationLimit).2.steady := by
    unfold seekFailEffect
    rw [if_pos (by rw [tlc_clearOutputs]; exact hs), badThen_steady _ l (fun u => u.seekAgain l) fun u => (steady_schedule u l _ l).2.1,
      State.tlc_changeTlc, State.applied_changeTlc, tlc_clearOutputs, applied_clearOutputs]
  have h := agrees_of_steady (((event_leaves_any s (seekFailEffect l reason)).tlc l).trans hown)
  obtain ⟨hbad, hlast, hfail, hlimit⟩ := bad_eq (({ s.tlc l with sent := [] } : Tlc).seekFailed reason) s.applied.violationLimit
  refine ⟨⟨h.badEvents.trans hbad, ?_⟩, h.seekFailures.trans hfail, h.lastFailure.trans hlast⟩
  rw [h.violation, h.faults, h.spindle, h.disc]
  exact hlimit

/-- Settles O35: an answer that names no outstanding seek only counts (`event_tlcStray`), that of the outstanding one is a good
event after which the work goes on (`carryOut_reached`), and a SEEK_FAIL in SEEKING is a bad event (`seekFail_bad`). -/
theorem seekAnswersTaken : Obligations.SeekAnswersTaken := by
  intro t address reason s hr
  set l := t.lane with hl
  refine ⟨⟨_, exec_seekDone hr t address, fun hs hk => ?_, fun hstray => ?_⟩, _, exec_seekFail hr t reason,
    fun hs => seekFail_bad reason hs, fun hs => ?_⟩
  · have hown : ((seekDoneEffect l address s.clearOutputs).tlc l) =
        ({ s.tlc l with sent := [] } : Tlc).reached s.applied.cadenceLimit := by
      rw [seekDoneEffect_reached hs hk, State.tlc_due, tlc_reachSeek, tlc_clearOutputs, applied_clearOutputs]
    have hleaves := (event_leaves_any s (seekDoneEffect l address)).tlc l
    rw [hown] at hleaves
    have h := agrees_of_steady hleaves
    refine ⟨h.violation, h.strays, fun hrest hwork => ?_⟩
    obtain ⟨o, ho⟩ := carryOut_reached hs hk hrest hwork
    have hev : s.event (seekDoneEffect l address) =
        ((s.clearOutputs.reachSeek l).updLane l fun x => { x with rsc := { x.rsc with rest := o } }).finish
          s.clearOutputs := by rw [← ho]; rfl
    rw [hev]
    obtain ⟨n, hn⟩ := tlc_finish ((s.clearOutputs.reachSeek l).updLane l fun x => { x with
      rsc := { x.rsc with rest := o } }) s.clearOutputs l
    rw [hn, lane_finish, State.tlc_updLane, State.lane_updLane, tlc_reachSeek, lane_reachSeek, lane_clearOutputs]
    exact ⟨rfl, rfl, rfl, rfl⟩
  · obtain ⟨h1, -, h3, h4, h5⟩ := event_tlcStray (seekDoneEffect_stray (address := address) hstray)
    exact ⟨h1, h3, h4, h5⟩
  · exact event_tlcStray (if_neg (by rw [tlc_clearOutputs]; exact hs))

end Sys2Proof.Machine
end

section
/-! The read runs and the Splice Unit: what the sequencer, the playout, the repair scheduler and what follows in an event leave
of them. -/

namespace Sys2Proof.Machine

set_option Elab.async false

/-! ### The sequencer and the playout reach neither (R42 to R48, R66 to R75) -/

/-- The runs of the lanes with the Splice Unit. -/
def State.reads (s : State) : (LaneId → RunContext) × Splice := (fun l => (s.lane l).run, s.splice)

theorem reads_ext {s t : State} (hr : ∀ l, (t.lane l).run = (s.lane l).run) (hs : t.splice = s.splice) :
    t.reads = s.reads :=
  Prod.ext (funext hr) hs

theorem run_of_reads {s t : State} (h : t.reads = s.reads) (l : LaneId) : (t.lane l).run = (s.lane l).run :=
  congrFun (congrArg Prod.fst h) l

theorem splice_of_reads {s t : State} (h : t.reads = s.reads) : t.splice = s.splice := congrArg Prod.snd h

section
variable (s : State) (l : LaneId)

theorem reads_setLane (x : Lane) (hx : x.run = (s.lane l).run) : (s.setLane l x).reads = s.reads := by
  refine reads_ext (fun k => ?_) (State.splice_setLane ..)
  by_cases hk : k = l
  · subst hk
    rw [State.lane_setLane, hx]
  · rw [lane_setLane_ne _ hk]

@[simp] theorem reads_updLane (g : Lane → Lane) (hg : ∀ x : Lane, (g x).run = x.run) : (s.updLane l g).reads = s.reads :=
  reads_setLane s l _ (hg _)

@[simp] theorem reads_updSeq (g : Sequencer → Sequencer) : (s.updSeq l g).reads = s.reads := reads_updLane s l _ fun _ => rfl

@[simp] theorem reads_due : (s.due l).reads = s.reads := reads_updLane s l _ fun _ => rfl

@[simp] theorem reads_setTlc (t : Tlc) : (s.setTlc l t).reads = s.reads := by cases l <;> rfl

@[simp] theorem reads_updLoader (g : Loader → Loader) : (s.updLoader g).reads = s.reads := rfl

@[simp] theorem reads_setWords (a : Nat) (ws : List Word) : (s.setWords a ws).reads = s.reads := rfl

@[simp] theorem reads_setWord (a : Nat) (w : Word) : (s.setWord a w).reads = s.reads := rfl

@[simp] theorem reads_setNews (n : NewsWord) (b : Word) : (s.setNews n b).reads = s.reads := rfl

@[simp] theorem reads_countReads (n : Nat) : (s.countReads n).reads = s.reads := rfl

@[simp] theorem reads_release (p : StoreCell → Bool) : (s.release l p).reads = s.reads := rfl

@[simp] theorem reads_releaseAll : (s.releaseAll l).reads = s.reads := rfl

@[simp] theorem reads_countStoreFault : (s.countStoreFault l).reads = s.reads := reads_updLane s l _ fun _ => rfl

@[simp] theorem reads_noteStoreFault : (s.noteStoreFault l).reads = s.reads := reads_countStoreFault s l

@[simp] theorem reads_recordOutcome (q : LoaderRequest) (o : LoaderOutcome) : (s.recordOutcome q o).reads = s.reads := rfl

@[simp] theorem reads_setLaneState (t : LaneState) : (s.setLaneState l t).reads = s.reads := by
  refine reads_updLane s l _ fun x => ?_
  split <;> rfl

@[simp] theorem reads_endEpisode : (s.endEpisode l).reads = s.reads := by
  unfold State.endEpisode
  split
  · rfl
  · simp

@[simp] theorem reads_closeReading : (s.closeReading l).reads = s.reads := by simp [State.closeReading]

@[simp] theorem reads_openReading : (s.openReading l).reads = s.reads := by simp [State.openReading]

@[simp] theorem reads_retire (c : TakenCue) (o : CueOutcome) : (s.retire l c o).reads = s.reads := by
  unfold State.retire State.writeResult
  dsimp only
  split <;> simp

@[simp] theorem reads_retireAll (o : CueOutcome) (cs : List TakenCue) : ∀ s : State,
    (s.retireAll l o cs).reads = s.reads := by
  induction cs with
  | nil => exact fun _ => rfl
  | cons c cs ih => exact fun s => (ih _).trans (reads_retire s l c o)

@[simp] theorem reads_retireNormal (cs : List TakenCue) : ∀ s : State, (s.retireNormal l cs).reads = s.reads := by
  induction cs with
  | nil => exact fun _ => rfl
  | cons c cs ih => exact fun s => (ih _).trans (reads_retire s l c _)

@[simp] theorem reads_establish : (s.establish l).reads = s.reads := by
  unfold State.establish
  split <;> simp

@[simp] theorem reads_prime : (s.prime l).1.reads = s.reads := by
  unfold State.prime
  dsimp only
  repeat' split
  all_goals simp

@[simp] theorem reads_enterPriming : (s.enterPriming l).1.reads = s.reads := by
  unfold State.enterPriming
  dsimp only
  rw [reads_prime]
  split <;> simp

@[simp] theorem reads_postBind (n : Nat) (t : Byte) : (s.postBind l n t).reads = s.reads := by
  unfold State.postBind State.enqueue
  repeat' split
  all_goals simp

@[simp] theorem reads_sendBind (n : Nat) : (s.sendBind l n).reads = s.reads := by simp [State.sendBind]

@[simp] theorem reads_findDisc (c : TakenCue) : (s.findDisc l c).1.reads = s.reads := by
  unfold State.findDisc
  dsimp only
  repeat' split
  all_goals simp

@[simp] theorem reads_walkClose : (s.walkClose l).reads = s.reads := by simp [State.walkClose]

@[simp] theorem reads_stopPlayout : (s.stopPlayout l).reads = s.reads := by simp [State.stopPlayout]

@[simp] theorem reads_takePending (c : TakenCue) : (s.takePending l c).1.reads = s.reads := by
  unfold State.takePending
  split <;> simp

theorem reads_endOfWalk :
    (((s.setLaneState l .idle).releaseAll l).updSeq l fun q => { q with identity := none }).reads = s.reads := by simp

theorem reads_walk (n : Nat) : ∀ (w : WalkStep) (s : State), (State.walk n w s l).reads = s.reads := by
  induction n with
  | zero =>
    intro w s
    cases w with
    | endOfWalk => exact reads_endOfWalk s l
    | starved => exact reads_setLaneState s l _
    | entry j w => rfl
  | succ n ih =>
    intro w s
    cases w with
    | endOfWalk => exact reads_endOfWalk s l
    | starved => exact reads_setLaneState s l _
    | entry j w =>
      have htake : (((s.countReads hostFieldWords).moveWalk l j w).takePending l (s.readCue l j)).1.reads = s.reads := by
        simp [State.moveWalk]
      unfold State.walk
      dsimp only
      split
      · rw [ih, State.stepRead, reads_countReads, reads_walkClose, reads_retire, htake]
      · exact htake

@[simp] theorem reads_walkOn : (s.walkOn l).reads = s.reads := by simp [State.walkOn, reads_walk, State.stepRead]

@[simp] theorem reads_retirePending (o : CueOutcome) : (s.retirePending l o).reads = s.reads := by
  unfold State.retirePending
  split <;> simp

@[simp] theorem reads_primingOrRetire : (s.primingOrRetire l).reads = s.reads := by
  unfold State.primingOrRetire
  dsimp only
  split <;> simp

theorem reads_prefetch (n : Nat) : ∀ s : State, (State.prefetch n s l).reads = s.reads := by
  induction n with
  | zero => exact fun _ => rfl
  | succ n ih =>
    intro s
    unfold State.prefetch
    dsimp only
    repeat' split
    all_goals simp [ih, State.moveWalk, State.stepRead]

@[simp] theorem reads_prefetchAtEnd : (s.prefetchAtEnd l).reads = s.reads := by
  unfold State.prefetchAtEnd
  split
  · exact reads_prefetch l _ s
  · rfl

@[simp] theorem reads_crossing (g : Segment) (w : Bool) : (s.crossing l g w).reads = s.reads := by
  unfold State.crossing
  refine (reads_updLane _ _ _ fun x => ?_).trans (reads_retireNormal l _ s)
  rfl

@[simp] theorem reads_streamEnd : (s.streamEnd l).reads = s.reads := by simp [State.streamEnd]

@[simp] theorem reads_playOutCut : (s.playOutCut l).reads = s.reads := by
  unfold State.playOutCut State.cutStream
  split
  · rfl
  · rw [reads_walkOn, reads_releaseAll]
    refine (reads_updLane _ _ _ fun x => ?_).trans (reads_retireAll l _ _ s)
    rfl

@[simp] theorem reads_bindOutcome (t : Byte) (o : LoaderOutcome) : (s.bindOutcome l t o).reads = s.reads := by
  unfold State.bindOutcome
  dsimp only
  repeat' split
  all_goals simp

@[simp] theorem reads_recoveryEnded : (s.recoveryEnded l).reads = s.reads := by
  unfold State.recoveryEnded
  dsimp only
  repeat' split
  all_goals simp

@[simp] theorem reads_endOutcome (q : LoaderRequest) (o : LoaderOutcome) : (s.endOutcome q o).reads = s.reads := by
  unfold State.endOutcome
  rw [reads_recordOutcome]
  cases q <;> simp

@[simp] theorem reads_readForPlay : (s.readForPlay l).1.reads = s.reads := by
  unfold State.readForPlay
  dsimp only
  repeat' split
  all_goals simp

@[simp] theorem reads_readNext : (s.readNext l).1.reads = s.reads := by
  unfold State.readNext
  dsimp only
  repeat' split
  all_goals simp

@[simp] theorem reads_countLoss (a m : Nat) (q : LossCause) : (s.countLoss l a m q).reads = s.reads := by
  unfold State.countLoss
  split <;> simp

@[simp] theorem run_playBlock (x : Lane) (b : PlayBlock) : (x.playBlock b).run = x.run := by
  unfold Lane.playBlock
  split <;> rfl

@[simp] theorem run_countBlock (x : Lane) (b : Option Index) (m n : Nat) : (x.countBlock b m n).run = x.run := by
  cases b <;> rfl

@[simp] theorem reads_takeUp (w : Bool) : (s.takeUp l w).reads = s.reads := by
  unfold State.takeUp
  dsimp only
  rw [reads_countLoss]
  refine (reads_updLane _ _ _ fun x => ?_).trans ?_
  · simp
  · repeat' split
    all_goals simp

@[simp] theorem reads_enterUnderrun : (s.enterUnderrun l).reads = s.reads := by
  unfold State.enterUnderrun
  dsimp only
  split <;> simp

@[simp] theorem reads_startPlay : (s.startPlay l).reads = s.reads := by
  unfold State.startPlay
  dsimp only
  split <;> simp

end

/-! ### What the repair scheduler and what follows in an event leave of a lane -/

/-- A run that is not OPEN and holds no blocks. -/
def RunContext.Shut (r : RunContext) : Prop := r.state ≠ .opened ∧ r.held = []

/-- The Splice Unit with nothing to do. -/
def Splice.vacant : Splice := { running := none, pendingA := none, pendingB := none }

/-- What becomes of a lane: a run that is shut stays so; where nothing but its scheduler works (`q`), its counts stay and no BIND is
left to be answered. -/
structure Lane.Tends (q : Prop) (x y : Lane) : Prop where
  shut : x.run.Shut → y.run.Shut
  count : q → y.count = x.count
  jammed : q → y.marks.jammed = x.marks.jammed

theorem Lane.Tends.refl (q : Prop) (x : Lane) : x.Tends q x := ⟨id, fun _ => rfl, fun _ => rfl⟩

theorem Lane.Tends.trans {q : Prop} {x y z : Lane} (h : x.Tends q y) (k : y.Tends q z) : x.Tends q z :=
  ⟨fun hx => k.shut (h.shut hx), fun hq => (k.count hq).trans (h.count hq), fun hq => (k.jammed hq).trans (h.jammed hq)⟩

/-- What the way from `r` to `s` leaves of every lane and of a vacant Splice Unit. -/
structure Tends (q : LaneId → Prop) (r s : State) : Prop where
  lane : ∀ l, (r.lane l).Tends (q l) (s.lane l)
  vacant : r.splice = .vacant → s.splice = .vacant

theorem Tends.refl (q : LaneId → Prop) (s : State) : Tends q s s := ⟨fun _ => .refl _ _, id⟩

section
variable {q : LaneId → Prop} {r s : State}

theorem tends_setLane (h : Tends q r s) (l : LaneId) (x : Lane) (hx : (s.lane l).Tends (q l) x) :
    Tends q r (s.setLane l x) := by
  refine ⟨fun k => ?_, by rw [State.splice_setLane]; exact h.vacant⟩
  by_cases hk : k = l
  · subst hk
    rw [State.lane_setLane]
    exact (h.lane k).trans hx
  · rw [lane_setLane_ne _ hk]
    exact h.lane k

theorem tends_updLane (h : Tends q r s) (l : LaneId) (g : Lane → Lane)
    (hg : ∀ x : Lane, x.Tends (q l) (g x) := by exact fun _ => ⟨id, fun _ => rfl, fun _ => rfl⟩) :
    Tends q r (s.updLane l g) :=
  tends_setLane h l _ (hg _)

theorem tends_due (h : Tends q r s) (l : LaneId) : Tends q r (s.due l) := tends_updLane h l _

theorem tends_updLoader (h : Tends q r s) (g : Loader → Loader) : Tends q r (s.updLoader g) :=
  ⟨fun l => by rw [State.lane_updLoader]; exact h.lane l, h.vacant⟩

theorem tends_setTlc (h : Tends q r s) (l : LaneId) (t : Tlc) : Tends q r (s.setTlc l t) :=
  ⟨fun k => by rw [State.lane_setTlc]; exact h.lane k, by rw [State.splice_setTlc]; exact h.vacant⟩

theorem tends_withdrawCheck (h : Tends q r s) (l : LaneId) : Tends q r (s.withdrawCheck l) := by
  refine ⟨fun k => by rw [State.lane_withdrawCheck]; exact h.lane k, fun hr => ?_⟩
  unfold State.withdrawCheck
  rw [h.vacant hr]
  cases l <;> rfl

theorem finish_shut (x : RunContext) : x.finish.Shut := ⟨by simp [RunContext.finish], rfl⟩

theorem tends_endRun (h : Tends q r s) (l : LaneId) : Tends q r (s.endRun l) := by
  unfold State.endRun
  split
  · refine tends_withdrawCheck (tends_updLane h l _ fun x => ?_) l
    exact ⟨fun _ => finish_shut x.run, fun _ => rfl, fun _ => rfl⟩
  · exact h

theorem tends_putTlc (h : Tends q r s) (l : LaneId) (t : Tlc) : Tends q r (s.putTlc l t) := by
  have h1 := tends_setTlc h l t
  have h2 := tends_endRun h1 l
  unfold State.putTlc
  dsimp only
  repeat' split
  · exact h2
  · exact h1
  · exact tends_due h2 l
  · exact tends_due h1 l

theorem tends_changeTlc (h : Tends q r s) (l : LaneId) (g : Tlc → Tlc) : Tends q r (s.changeTlc l g) := tends_putTlc h l _

theorem tends_halt (h : Tends q r s) (l : LaneId) : Tends q r (s.halt l) := by
  unfold State.halt
  split
  · exact tends_changeTlc (tends_endRun h l) l _
  · exact h

/-- A SEEK begins a run that is not OPEN yet and holds nothing. -/
theorem tends_sendSeek (h : Tends q r s) (l : LaneId) (k : RunKind) (g : SegRef) (t : Index) (v : Speed) (w : Bool) :
    Tends q r (s.sendSeek l k g t v w) := by
  unfold State.sendSeek
  refine tends_updLane (tends_changeTlc (tends_endRun h l) l _) l _ fun x => ⟨fun _ => ?_, fun _ => rfl, fun _ => rfl⟩
  exact ⟨by simp, rfl⟩

theorem tends_updateRefill (x : Lane) (v : LaneSettings) (p : Prop) : x.Tends p (x.updateRefill v) := by
  unfold Lane.updateRefill
  split <;> exact ⟨id, fun _ => rfl, fun _ => rfl⟩

theorem tends_abortAttempt (x : Lane) (p : Prop) : x.Tends p x.abortAttempt := by
  unfold Lane.abortAttempt
  split <;> exact ⟨id, fun _ => rfl, fun _ => rfl⟩

theorem tends_fillDecision (h : Tends q r s) (l : LaneId) (w : Bool) : Tends q r (s.fillDecision l w) := by
  unfold State.fillDecision
  dsimp only
  have h1 := tends_updLane h l (fun x => x.updateRefill (s.settings l)) fun x => tends_updateRefill x _ _
  repeat' split
  · exact tends_updLane (tends_halt h1 l) l _
  · exact tends_updLane h1 l _
  · exact tends_sendSeek (tends_updLane h1 l _) ..
  · exact tends_updLane h1 l _

theorem tends_startAttempt (h : Tends q r s) (l : LaneId) {n : Nat} {y : Span} {x : Lane}
    (hx : (s.lane l).startAttempt n y = some x) : Tends q r (s.setLane l x) := by
  refine tends_setLane h l x ?_
  unfold Lane.startAttempt Lane.activate at hx
  repeat' split at hx
  all_goals simp only [Option.map_none, Option.map_some, Option.some.injEq, reduceCtorEq] at hx
  subst hx
  exact ⟨id, fun _ => rfl, fun _ => rfl⟩

theorem tends_startRepair {t : State} (h : Tends q r s) (l : LaneId) (ht : s.startRepair l = some t) : Tends q r t := by
  unfold State.startRepair at ht
  dsimp only at ht
  repeat' split at ht
  all_goals simp only [reduceCtorEq, Option.map_eq_some_iff] at ht
  obtain ⟨x, hx, rfl⟩ := ht
  exact tends_sendSeek (tends_startAttempt h l hx) ..

theorem tends_chainRepair {t : State} (h : Tends q r s) (l : LaneId) (c : Option Index)
    (ht : s.chainRepair l c = some t) : Tends q r t := by
  unfold State.chainRepair at ht
  dsimp only at ht
  repeat' split at ht
  all_goals simp only [reduceCtorEq, Option.map_eq_some_iff] at ht
  obtain ⟨x, hx, rfl⟩ := ht
  exact tends_startAttempt h l hx

theorem tends_nextWork (h : Tends q r s) (l : LaneId) (p : Point) : Tends q r (s.nextWork l p) := by
  unfold State.nextWork
  split
  · rename_i t ht
    split at ht
    · exact tends_chainRepair h l _ ht
    · cases ht
  · split
    · rename_i t ht
      split at ht
      · cases ht
      · exact tends_startRepair h l ht
    · exact tends_fillDecision h l _

theorem tends_workDecision (h : Tends q r s) (l : LaneId) (p : Point) : Tends q r (s.workDecision l p) := by
  unfold State.workDecision State.reseekRepair
  dsimp only
  repeat' split
  · refine tends_fillDecision (tends_updLane h l _ fun x => ?_) l _
    exact (tends_abortAttempt x _).trans ⟨id, fun _ => rfl, fun _ => rfl⟩
  · exact tends_sendSeek h ..
  · exact h
  · exact h
  · exact tends_nextWork h l p

theorem tends_standDown (h : Tends q r s) (l : LaneId) (m : WorkMode) (w : Option RestReason) :
    Tends q r (s.standDown l m w) :=
  tends_updLane h l _ fun x => (tends_abortAttempt x _).trans ⟨id, fun _ => rfl, fun _ => rfl⟩

theorem tends_overtake (h : Tends q r s) (l : LaneId) (p : Point) : Tends q r (s.overtake l p).1 := by
  unfold State.overtake
  dsimp only
  split
  · dsimp only
    exact tends_updLane h l _
  · exact h

/-- A scheduling point. -/
theorem tends_schedule (h : Tends q r s) (l : LaneId) (p : Point) : Tends q r (s.schedule l p) := by
  unfold State.schedule
  dsimp only
  have h1 := tends_updLane h l fun x => { x with marks := { x.marks with schedule := false } }
  have h2 := tends_overtake h1 l p
  split
  · exact tends_halt (tends_standDown h2 l _ _) l
  have stands := tends_standDown h2 l
  cases (((s.updLane l fun x => { x with marks := { x.marks with schedule := false } }).overtake l p).1.tlc l).state with
  | offline | starting | empty | toc => exact stands .none none
  | mechHeld => exact stands .rest (some .mechanism)
  | ready | seeking | reading =>
    dsimp only
    split
    · exact stands .rest (some .quiet)
    · exact tends_workDecision h2 l _

/-- What reaches neither the runs nor the Splice Unit, on lanes where more than the scheduler may work. -/
theorem tends_of_reads {t : State} (h : Tends q r s) (ht : t.reads = s.reads)
    (hq : ∀ l, q l → t.lane l = s.lane l) : Tends q r t := by
  refine ⟨fun l => ⟨fun hs => ?_, fun hl => ?_, fun hl => ?_⟩, fun hv => (splice_of_reads ht).trans (h.vacant hv)⟩
  · rw [run_of_reads ht]
    exact (h.lane l).shut hs
  · rw [hq l hl]
    exact (h.lane l).count hl
  · rw [hq l hl]
    exact (h.lane l).jammed hl

/-! ### The loader controller -/

theorem tends_beginQuiet (h : Tends q r s) (l : LaneId) : Tends q r (s.beginQuiet l) :=
  tends_halt (tends_due (tends_updLane h l _) l) l

theorem tends_beginStage (h : Tends q r s) (g : Stage) (c : StageCommand) (w : Bool) : Tends q r (s.beginStage g c w) := by
  unfold State.beginStage State.command
  exact tends_updLoader (tends_updLoader h _) _

theorem tends_beginHoming (h : Tends q r s) (k : HomingKind) : Tends q r (s.beginHoming k) :=
  tends_beginStage (tends_beginQuiet (tends_beginQuiet (tends_updLoader h _) .a) .b) _ _ _

theorem tends_prepareLane (h : Tends q r s) (w : LoaderRequest) (legs : List Leg) (l : LaneId) :
    Tends q r (s.prepareLane w legs l) := by
  have h1 := tends_updLoader (tends_changeTlc h l fun t => t.spindleStop.1) fun d => d.setStopped l true
  unfold State.prepareLane
  dsimp only
  repeat' split
  · exact h1
  · exact h
  · exact tends_beginQuiet h1 l
  · exact tends_beginQuiet h l

theorem tends_startLegs (h : Tends q r s) (w : LoaderRequest) (legs : List Leg) : Tends q r (s.startLegs w legs) := by
  have hbegun : ∀ {u : State}, Tends q r u → Tends q r (u.bindBegun w) := fun {u} hu => by
    cases w with
    | bind l k t =>
      unfold State.bindBegun State.updSeq
      exact tends_updLane hu l _
    | eject n => exact hu
    | insert k => exact hu
    | rescan => exact hu
  unfold State.startLegs
  dsimp only
  have h2 := tends_prepareLane (tends_prepareLane (hbegun (tends_updLoader h fun d => { d with
    state := .moving, current := some { request := w, legs := legs, leg := 1 }, stage := none })) w legs .a) w legs .b
  split
  · unfold State.beginTake
    split
    · exact tends_beginStage h2 _ _ _
    · exact h2
  · exact h2

/-- The outcome of a request, on lanes with no BIND outstanding. -/
theorem tends_endOutcome (h : Tends q r s) (w : LoaderRequest) (o : LoaderOutcome)
    (hq : ∀ l, q l → (s.lane l).seq.bind = none) : Tends q r (s.endOutcome w o) :=
  tends_of_reads h (reads_endOutcome s w o) fun l hl => lane_of_side (side_endOutcome s o (.inr (hq l hl)))

theorem tends_arbitrate (h : Tends q r s) (w : Waiting) (hq : ∀ l, q l → (s.lane l).seq.bind = none) :
    Tends q r (s.arbitrate w) := by
  unfold State.arbitrate State.startRequest
  dsimp only
  have h1 := tends_updLoader h fun d => { d with queue := d.queue.erase w }
  generalize hu : (if w.due && !(State.gateOpen _ _) then _ else _) = u
  obtain ⟨h2, hq2⟩ : Tends q r u ∧ ∀ l, q l → (u.lane l).seq.bind = none := by
    rw [← hu]
    split
    · exact ⟨tends_updLoader h1 _, fun l hl => by rw [State.lane_updLoader, State.lane_updLoader]; exact hq l hl⟩
    · exact ⟨h1, fun l hl => by rw [State.lane_updLoader]; exact hq l hl⟩
  split
  · exact tends_endOutcome h2 _ _ hq2
  · exact tends_startLegs h2 _ _
  · exact tends_beginHoming (tends_updLoader h2 _) _

theorem tends_endRecovery (h : Tends q r s) (hq : ∀ l, q l → (s.lane l).seq.reRequest = false) :
    Tends q r s.endRecovery := by
  have hone : ∀ {u : State} (k : LaneId), Tends q r u → (∀ l, q l → (u.lane l).seq.reRequest = false) →
      Tends q r (u.recoveryEnded k) ∧ ∀ l, q l → ((u.recoveryEnded k).lane l).seq.reRequest = false := by
    intro u k hu hre
    have hsame : ∀ l, q l → (u.recoveryEnded k).lane l = u.lane l := fun l hl => by
      by_cases hk : l = k
      · subst hk
        unfold State.recoveryEnded
        dsimp only
        rw [hre l hl]
        rfl
      · exact lane_recoveryEnded_other u hk
    exact ⟨tends_of_reads hu (reads_recoveryEnded u k) hsame, fun l hl => by rw [hsame l hl]; exact hre l hl⟩
  unfold State.endRecovery
  dsimp only
  obtain ⟨ha, hre⟩ := hone .a (tends_updLoader h fun d => { d with
    recoveryTimer := none, state := if d.faultMark then .faulted else .idle })
    fun l hl => by rw [State.lane_updLoader]; exact hq l hl
  exact (hone .b ha hre).1

/-! ### What follows in an event -/

/-- Nothing but its scheduler works on a lane: its sequencer is at ease and no BIND is left to be answered. -/
def Lane.Rested (x : Lane) : Prop := x.AtEase ∧ x.marks.jammed = []

theorem tends_followLane {t : State} (h : Tends q r s) (hq : ∀ l, q l → (s.lane l).Rested) (k : LaneId)
    (ht : s.followLane k = some t) : Tends q r t := by
  have hother : ∀ l, q l → l ≠ k → t.lane l = s.lane l := fun l _ hk => lane_of_side (side_followLane hk.symm ht)
  unfold State.followLane at ht
  split at ht
  · rename_i u hu
    cases ht
    unfold State.handJammed at hu
    split at hu
    · cases hu
    · rename_i slot tag rest hjam
      cases hu
      refine tends_of_reads h (by simp) fun l hl => ?_
      by_cases hk : l = k
      · subst hk
        rw [(hq l hl).2] at hjam
        cases hjam
      · exact hother l hl hk
  · split at ht
    · rename_i hcut
      cases ht
      refine tends_of_reads h (reads_playOutCut s k) fun l hl => ?_
      by_cases hk : l = k
      · subst hk
        obtain ⟨⟨⟨hpriming, hplaying, hunder⟩, -, -⟩, -⟩ := hq l hl
        unfold Lane.cutDue at hcut
        cases hs : (s.lane l).seq.state <;> simp_all
      · exact hother l hl hk
    · split at ht
      · cases ht
        exact tends_schedule h k _
      · split at ht
        · rename_i hplay
          cases ht
          refine tends_of_reads h (reads_startPlay s k) fun l hl => ?_
          by_cases hk : l = k
          · subst hk
            obtain ⟨⟨⟨hpriming, -, hunder⟩, -, -⟩, -⟩ := hq l hl
            unfold Lane.playDue at hplay
            simp [hpriming, hunder] at hplay
          · exact hother l hl hk
        · cases ht

theorem tends_follow {t : State} (h : Tends q r s) (hq : ∀ l, q l → (s.lane l).Rested) (ht : s.follow = some t) :
    Tends q r t := by
  unfold State.follow at ht
  split at ht
  · rename_i u hu
    cases ht
    exact tends_followLane h hq .a hu
  · split at ht
    · rename_i u hu
      cases ht
      exact tends_followLane h hq .b hu
    · split at ht
      · cases ht
        exact tends_endRecovery h fun l hl => (hq l hl).1.2.2
      · split at ht
        · cases ht
          exact tends_arbitrate h _ fun l hl => (hq l hl).1.2.1
        · cases ht

/-- What follows in an event: the lanes at rest before it stay so (`Calm`), so that only their schedulers work. -/
theorem tends_settle {r : State} (hq : ∀ l, q l → (r.lane l).Rested) (n : Nat) : ∀ {s : State}, Tends q r s →
    Calm (fun l => ¬ q l) (fun _ => True) True r s → Tends q r (State.settle n s) := by
  induction n with
  | zero => exact fun h _ => h
  | succ n ih =>
    intro s h hcalm
    unfold State.settle
    split
    · exact h
    · rename_i t ht
      have hrest : ∀ l, q l → (s.lane l).Rested := fun l hl => by
        unfold Lane.Rested Lane.AtEase
        rw [(hcalm.quiet l fun hn => hn hl).1, (h.lane l).jammed hl]
        exact hq l hl
      have hease : ∀ l, ¬ q l ∨ (r.lane l).AtEase := fun l => by
        by_cases hl : q l
        · exact .inr (hq l hl).1
        · exact .inl hl
      exact ih (tends_follow h hrest ht) (calm_follow hease (fun _ => .inl trivial) (.inl trivial) hcalm ht)

/-- What an event leaves, besides what `Leaves` says of it. -/
theorem event_tends (s : State) (f : State → State) (hq : ∀ l, q l → ((f s.clearOutputs).lane l).Rested) (l : LaneId) :
    (((f s.clearOutputs).lane l).run.Shut → ((s.event f).lane l).run.Shut) ∧
      (q l → ((s.event f).lane l).count = ((f s.clearOutputs).lane l).count) := by
  have h := (tends_settle hq settleFuel (.refl q _) (.refl _ _ _ _)).lane l
  have hlane : (s.event f).lane l = ((s.clearOutputs.carryOut f).lane l).finished := lane_finish ..
  rw [hlane]
  exact ⟨h.shut, h.count⟩

end

end Sys2Proof.Machine
end

section
/-! A join check that matches (O43). -/

namespace Sys2Proof.Machine

set_option Elab.async false

/-! ### What the judging of a block leaves of the Splice Unit and its counts (R48, R70 to R72) -/

/-- No counter of a lane that results of checks raise has changed. -/
def Lane.SameChecks (x y : Lane) : Prop :=
  y.count.slips = x.count.slips ∧ y.count.noMatches = x.count.noMatches ∧ y.count.unanchored = x.count.unanchored

theorem sameChecks_of_count {x y : Lane} (h : y.count = x.count) : x.SameChecks y := by
  unfold Lane.SameChecks
  rw [h]
  exact ⟨rfl, rfl, rfl⟩

theorem sameChecks_of_counts {x y : Lane} (h : x.SameCounts y) : x.SameChecks y := by
  obtain ⟨-, -, -, hno, hun, hsl⟩ := h
  exact ⟨hsl, hno, hun⟩

theorem Lane.SameChecks.trans {x y z : Lane} (h : x.SameChecks y) (k : y.SameChecks z) : x.SameChecks z :=
  ⟨k.1.trans h.1, k.2.1.trans h.2.1, k.2.2.trans h.2.2⟩

/-- The way from `r` to `s` counts no result of a check for the lane and leaves a vacant Splice Unit so. -/
structure Judges (l : LaneId) (r s : State) : Prop where
  checks : (r.lane l).SameChecks (s.lane l)
  vacant : r.splice = .vacant → s.splice = .vacant

theorem Judges.refl (l : LaneId) (s : State) : Judges l s s := ⟨⟨rfl, rfl, rfl⟩, id⟩

section
variable {l : LaneId} {r s : State}

theorem Judges.trans {t : State} (h : Judges l r s) (k : Judges l s t) : Judges l r t :=
  ⟨h.checks.trans k.checks, fun hr => k.vacant (h.vacant hr)⟩

theorem judges_setLane (h : Judges l r s) (x : Lane) (hx : (s.lane l).SameChecks x) : Judges l r (s.setLane l x) :=
  h.trans ⟨by rwa [State.lane_setLane], by rw [State.splice_setLane]; exact id⟩

theorem judges_updLane (h : Judges l r s) (g : Lane → Lane)
    (hg : ∀ x : Lane, x.SameChecks (g x) := by exact fun _ => ⟨rfl, rfl, rfl⟩) : Judges l r (s.updLane l g) :=
  judges_setLane h _ (hg _)

/-- What the repair scheduler and the transport link controllers do is no judging. -/
theorem judges_tends {t : State} (h : Judges l r s) (k : Tends (fun _ => True) s t) : Judges l r t :=
  h.trans ⟨sameChecks_of_count ((k.lane l).count trivial), k.vacant⟩

theorem judges_schedule (h : Judges l r s) (p : Point) : Judges l r (s.schedule l p) :=
  judges_tends h (tends_schedule (.refl _ s) l p)

theorem judges_prefetchAtEnd (h : Judges l r s) : Judges l r (s.prefetchAtEnd l) := by
  refine h.trans ⟨sameChecks_of_count ?_, (splice_of_reads (reads_prefetchAtEnd s l)).trans⟩
  rw [(notes_prefetchAtEnd (.refl l s)).lane.rest]

theorem judges_report (h : Judges l r s) {q : IntakeResult} (hq : q.ofRun = true) : Judges l r (s.report l q) := by
  unfold State.report
  have h1 : Judges l r (if q.segmentFilled then s.prefetchAtEnd l else s) := by
    split
    · exact judges_prefetchAtEnd h
    · exact h
  generalize (if q.segmentFilled then s.prefetchAtEnd l else s) = u at h1 ⊢
  obtain ⟨y, w, hy, hres⟩ := takeResult_eq u l ((s.lane l).measured q) hq
  rw [hy]
  exact judges_schedule (judges_setLane h1 y (sameChecks_of_counts hres.counts)) w

theorem judges_breakRun (h : Judges l r s) : Judges l r (s.updLane l Lane.breakRun) := judges_updLane h _

theorem judges_countInOrder (h : Judges l r s) : Judges l r (s.countInOrder l) := by
  unfold State.countInOrder State.goodEvent
  split
  · exact judges_tends (judges_breakRun h) (tends_changeTlc (.refl _ _) l _)
  · exact judges_updLane h _

theorem judges_deliver (h : Judges l r s) (i : Index) (a : Arrival) : Judges l r (s.deliver l i a).1 := by
  unfold State.deliver State.countStoreFault
  repeat' split
  · exact h
  · exact h
  · dsimp only
    exact judges_updLane h _

theorem judges_writeDelivery (h : Judges l r s) (g : SegRef) (i : Index) (a : Arrival) (d : Delivery) :
    Judges l r (s.writeDelivery l g i a d) := by
  refine h.trans ⟨sameChecks_of_count ?_, ?_⟩
  · rw [(writeDelivery_eq rfl rfl l g i a d).1]
  · unfold State.writeDelivery
    split <;> exact id

theorem append_checks {x y : Lane} {g : SegRef} {c : CopyClass} (h : x.append g c = some y) : x.SameChecks y := by
  rw [append_eq] at h
  split at h
  · cases h
  · cases h
    exact sameChecks_of_count (withSpans_rest x _).2.2.2.2.1

theorem aheadHole_checks {x y : Lane} {g : SegRef} {i : Index} {c : CopyClass} (h : x.aheadHole g i c = some y) :
    x.SameChecks y := by
  rw [aheadHole_eq] at h
  split at h
  · cases h
  · cases h
    exact sameChecks_of_count (withSpans_rest x _).2.2.2.2.1

theorem judges_takeAtFill (h : Judges l r s) (g : SegRef) (a : Arrival) : Judges l r (s.takeAtFill l g a) := by
  unfold State.takeAtFill
  dsimp only
  split
  · refine judges_report ?_ rfl
    unfold State.atWindow
    split
    · exact judges_breakRun h
    · exact h
  · have hd := judges_deliver h (s.lane l).f a
    split
    · exact judges_report (judges_breakRun hd) rfl
    · rename_i x hx
      have hw := judges_writeDelivery (judges_setLane hd x (append_checks hx)) g (s.lane l).f a
        (s.deliver l (s.lane l).f a).2
      refine judges_report ?_ rfl
      split
      · exact judges_countInOrder hw
      · exact judges_breakRun hw

theorem judges_takeFar (h : Judges l r s) (g : SegRef) (i : Index) (o : IntakeOutcome) (c : Option CopyClass) :
    Judges l r (s.takeFar l g i o c) :=
  judges_report (judges_updLane h _) rfl

theorem judges_takeKept (h : Judges l r s) (g : SegRef) (i : Index) (a : Arrival) : Judges l r (s.takeKept l g i a) := by
  unfold State.takeKept
  dsimp only
  have hd := judges_deliver h i a
  split
  · exact judges_takeFar hd g i _ _
  · rename_i x hx
    have hchecks : ((s.deliver l i a).1.lane l).SameChecks (x.countSkip g).breakRun :=
      (aheadHole_checks hx).trans ⟨rfl, rfl, rfl⟩
    have hwrite := judges_writeDelivery (judges_setLane hd _ hchecks) g i a (s.deliver l i a).2
    exact judges_report hwrite rfl

theorem judges_takeAhead (h : Judges l r s) (g : SegRef) (i : Index) (a : Arrival) : Judges l r (s.takeAhead l g i a) := by
  unfold State.takeAhead
  dsimp only
  repeat' split
  · exact judges_takeFar h g i _ _
  · exact judges_takeFar h g i _ _
  · exact judges_takeFar h g i _ _
  · exact judges_takeKept h g i a

theorem judges_absorbFirst (h : Judges l r s) (g : SegRef) (i : Index) (a : Arrival) (d : Delivery) :
    Judges l r (s.absorbFirst l g i a d).1 := by
  unfold State.absorbFirst
  dsimp only
  split
  · exact judges_writeDelivery (judges_setLane h _ (sameChecks_of_counts (absorb_behind _ i _ _).counts)) g i a d
  · exact h
  · exact h

theorem judges_noteStoreFault (h : Judges l r s) : Judges l r (s.noteStoreFault l) :=
  (judges_updLane h fun x => { x with count := { x.count with storeFaults := bump x.count.storeFaults } }).trans
    ⟨by rw [State.noteStoreFault, State.lane_setNews]; exact ⟨rfl, rfl, rfl⟩, id⟩

theorem judges_absorbMerged (h : Judges l r s) (i : Index) (a : Arrival) (m : MarkSet) :
    Judges l r (s.absorbMerged l i a m).1 := by
  unfold State.absorbMerged
  dsimp only
  split
  · rename_i q _
    have habsorb := (absorb_behind (s.lane l) i (copyClass (s.settings l).interpLimit (some (q.marks &&& m)))
      (s.lane l).playTaken).counts
    have hset := judges_setLane h _ (sameChecks_of_counts habsorb)
    split
    · dsimp only
      split
      · exact hset
      · refine hset.trans ⟨sameChecks_of_count ?_, id⟩
        cases l <;> rfl
    · exact h
    · exact h
  · exact judges_noteStoreFault h
  · exact judges_noteStoreFault h

theorem judges_takeBehind (h : Judges l r s) (g : SegRef) (i : Index) (a : Arrival) (b : Bool) :
    Judges l r (s.takeBehind l g i a b) := by
  rw [takeBehind_eq]
  refine judges_report (judges_breakRun ?_) rfl
  unfold State.absorbing
  repeat' split
  · exact judges_absorbFirst h g i a _
  · exact judges_absorbMerged h i a _
  · exact judges_absorbFirst (judges_deliver h i a) g i a _

theorem judges_takePassed (h : Judges l r s) (i : Index) (w : PassedSide) (b : Bool) :
    Judges l r (s.takePassed l i w b) :=
  judges_report (judges_breakRun h) rfl

theorem judges_takeOutside (h : Judges l r s) (label : BitVec 24) : Judges l r (s.takeOutside l label) :=
  judges_report (judges_breakRun h) rfl

/-- An arrival judged. -/
theorem judges_judge (h : Judges l r s) (a : Arrival) : Judges l r (s.judge l a) := by
  unfold State.judge
  dsimp only
  split
  · exact judges_takeOutside h _
  · rename_i g i _
    have hseg := judges_updLane h fun x => { x with run := { x.run with seg := some g } }
    repeat' split
    · exact judges_takePassed hseg i _ _
    · exact judges_takeAtFill hseg g a
    · exact judges_takeAhead hseg g i a
    · exact judges_takeBehind hseg g i a _
    · exact judges_takePassed hseg i _ _

theorem judges_releaseBlocks (blocks : List Arrival) : ∀ {s : State}, Judges l r s →
    Judges l r (State.releaseBlocks l blocks s) := by
  induction blocks with
  | nil => exact fun h => h
  | cons a rest ih =>
    intro s h
    unfold State.releaseBlocks
    split
    · exact ih (judges_judge h a)
    · exact h

theorem judges_releaseHeld (h : Judges l r s) (a : Arrival) (e : Int) (c : CheckState) :
    Judges l r (s.releaseHeld l a e c) :=
  judges_releaseBlocks _ (judges_updLane h _)

end

/-! ### A checked block with no other held (R48) -/

/-- A run after a check: its label error and its check state, no blocks held. -/
def RunContext.checked (r : RunContext) (err : Int) (check : CheckState) : RunContext :=
  { r with err := err, check := check, anchored := r.anchored && check != .noAnchor, held := [], heldBefore := 0 }

/-- The part with a lane's run checked. -/
def State.checkedRun (s : State) (l : LaneId) (err : Int) (check : CheckState) : State :=
  s.updLane l fun x => { x with run := x.run.checked err check }

/-- With no other block held the release judges the checked block. -/
theorem releaseHeld_alone {s : State} {l : LaneId} (hs : (s.lane l).run.state = .opened) (hh : (s.lane l).run.held = [])
    (a : Arrival) (e : Int) (c : CheckState) : s.releaseHeld l a e c = (s.checkedRun l e c).judge l a := by
  have hopen : ((s.checkedRun l e c).lane l).run.state = .opened := by
    rw [State.checkedRun, State.lane_updLane]
    exact hs
  unfold State.releaseHeld
  dsimp only
  rw [hh, List.take_nil, List.drop_nil, List.nil_append]
  change State.releaseBlocks l [a] (s.checkedRun l e c) = _
  unfold State.releaseBlocks
  rw [if_pos hopen, State.releaseBlocks]

/-- A vacant Splice Unit takes no request. -/
theorem nextCheck_vacant {s : State} (h : s.splice = .vacant) (n : Nat) : State.nextCheck n s = s := by
  cases n with
  | zero => rfl
  | succ n =>
    unfold State.nextCheck
    rw [h]
    rfl

/-! ### Two events with the same own effect -/

theorem finish_congr (t : State) {v w : State} (ht : ∀ l, v.tlc l = w.tlc l) (hd : v.loader = w.loader)
    (hp : v.pins = w.pins) : t.finish v = t.finish w := by
  have hlink : ∀ (u : State) l, u.finishTransport v l = u.finishTransport w l := fun u l => by
    unfold State.finishTransport
    rw [ht]
  have hloader : ∀ u : State, u.finishLoader v = u.finishLoader w := fun u => by
    unfold State.finishLoader State.loaderFields
    rw [hd, hp]
  unfold State.finish
  rw [hlink, hlink, hloader]

/-- The end of an event is that of another with the same own effect, where link controllers, loader controller and pins began alike. -/
theorem event_congr {s t : State} {f g : State → State} (h : f s.clearOutputs = g t.clearOutputs)
    (ht : ∀ l, t.tlc l = s.tlc l) (hd : t.loader = s.loader) (hp : t.pins = s.pins) : s.event f = t.event g := by
  unfold State.event State.carryOut
  dsimp only
  rw [h]
  exact finish_congr _ (fun l => by rw [tlc_clearOutputs, tlc_clearOutputs, ht]) (by rw [loader_clearOutputs, loader_clearOutputs, hd])
    (by rw [pins_clearOutputs, pins_clearOutputs, hp])

/-! ### MATCH (R70) -/

theorem exec_checkCompletion {s : State} {c : RunningCheck} (hr : s.released = true) (hc : s.splice.running = some c) :
    exec .checkCompletion s = .next (s.event fun u => u.completeCheck c) := by
  change Host.Outcome.next (match s.splice.running with
    | none => s
    | some c => s.onEvent true fun s => s.completeCheck c) = _
  rw [hc]
  exact congrArg _ (onEvent_of hr rfl _)

/-- The lane with a label slip counted, when the label error is not 0. -/
def Lane.slipped (x : Lane) (q : CheckRequest) (e : Int) : Lane :=
  if e = 0 then x
  else { x.updCue q.seg.base fun n => { n with slips := bump n.slips } with
    count := { x.count with slips := bump x.count.slips } }

/-- The part with it counted. -/
def State.countSlip (s : State) (l : LaneId) (q : CheckRequest) (e : Int) : State := s.updLane l fun x => x.slipped q e

theorem lane_countSlip (s : State) (l : LaneId) (q : CheckRequest) (e : Int) :
    ((s.countSlip l q e).lane l).run = (s.lane l).run ∧
      ((s.countSlip l q e).lane l).count =
        { (s.lane l).count with slips := if e = 0 then (s.lane l).count.slips else bump (s.lane l).count.slips } := by
  rw [State.countSlip, State.lane_updLane, Lane.slipped]
  by_cases h : e = 0
  · rw [if_pos h, if_pos h]
    exact ⟨rfl, rfl⟩
  · rw [if_neg h, if_neg h]
    exact ⟨rfl, rfl⟩

theorem matchFound_eq (s : State) (l : LaneId) (q : CheckRequest) (e : Int) :
    s.matchFound l q e = (s.countSlip l q e).releaseHeld l q.block e .matched := rfl

/-- The state in which the released check is delivered: the unit free. -/
def State.freeUnit (s : State) : State := { s with splice := { s.splice with running := none } }

/-- The completion of a check that matches, with no other request waiting. -/
theorem completeCheck_match {s : State} {c : RunningCheck} {r : Reading} (ha : s.splice.pendingA = none)
    (hb : s.splice.pendingB = none) (hd : c.discarded = false)
    (hr : c.readings.find? (fun q => q.matched c.request) = some r) :
    s.completeCheck c = s.freeUnit.matchFound c.lane c.request r.err ∧
      Judges c.lane (s.freeUnit.countSlip c.lane c.request r.err) (s.completeCheck c) ∧
      (s.completeCheck c).splice = .vacant := by
  have hdeliver : s.freeUnit.deliverCheck c = s.freeUnit.matchFound c.lane c.request r.err := by
    unfold State.deliverCheck
    rw [hd, hr]
    rfl
  have hjudges := judges_releaseHeld (.refl c.lane (s.freeUnit.countSlip c.lane c.request r.err)) c.request.block r.err
    .matched
  rw [← matchFound_eq] at hjudges
  have hfree : s.freeUnit.splice = .vacant := by
    unfold State.freeUnit Splice.vacant
    dsimp only
    rw [ha, hb]
  have hvacant := hjudges.vacant ((State.splice_updLane ..).trans hfree)
  have hown : s.completeCheck c = s.freeUnit.matchFound c.lane c.request r.err := by
    change State.nextCheck checkFuel (s.freeUnit.deliverCheck c) = _
    rw [hdeliver, nextCheck_vacant hvacant]
  rw [hown]
  exact ⟨rfl, hjudges, hvacant⟩

/-- A BLOCK judged on arrival that finds the cadence timer at its limit. -/
theorem blockEffect_judges {s : State} {l : LaneId} (a : Arrival) (hj : s.JudgesOnArrival l)
    (hc : (s.tlc l).timers.cadence = some s.applied.cadenceLimit) : blockEffect l a s = s.judge l a := by
  have hrestart : s.restartCadence l = s := by
    have htlc : (if (s.tlc l).state = .reading then
        { s.tlc l with timers := { (s.tlc l).timers with cadence := some s.applied.cadenceLimit } } else s.tlc l) =
        s.tlc l := by
      rw [← hc, ite_self]
    unfold State.restartCadence State.updTlc
    dsimp only
    rw [htlc]
    cases l <;> rfl
  unfold blockEffect
  rw [hrestart, arrive_judges hj]

/-- The lane with the slip counted and the run MATCHED, where no block is held. -/
def Lane.matchedBefore (x : Lane) (q : CheckRequest) (e : Int) : Lane :=
  let x := if e = 0 then x else x.updCue q.seg.base fun n => { n with slips := bump n.slips }
  { x with
    count := { x.count with slips := if e = 0 then x.count.slips else bump x.count.slips }
    run := { x.run with err := e, check := .matched, heldBefore := 0 } }

theorem matchedBefore_eq {x : Lane} (q : CheckRequest) (e : Int) (h : x.run.held = []) :
    x.matchedBefore q e = { x.slipped q e with run := (x.slipped q e).run.checked e .matched } := by
  have hrun : ({ x.run with err := e, check := .matched, heldBefore := 0 } : RunContext) = x.run.checked e .matched := by
    unfold RunContext.checked
    rw [← h, show (CheckState.matched != CheckState.noAnchor) = true from rfl, Bool.and_true]
  unfold Lane.matchedBefore Lane.slipped
  dsimp only
  by_cases he : e = 0
  · rw [if_pos he, if_pos he, if_pos he, ← hrun]
  · rw [if_neg he, if_neg he, if_neg he]
    exact congrArg (fun r => { x.updCue q.seg.base fun n => { n with slips := bump n.slips } with
      count := { x.count with slips := bump x.count.slips }, run := r }) hrun

/-- The part before the checked block arrives judged: the slip counted, the run MATCHED, the unit free. -/
def State.matchedBefore (s : State) (l : LaneId) (q : CheckRequest) (e : Int) : State :=
  { (s.updLane l fun x => x.matchedBefore q e) with splice := { s.splice with running := none } }

theorem clearOutputs_matchedBefore {s : State} {l : LaneId} (q : CheckRequest) (e : Int)
    (hh : (s.lane l).run.held = []) :
    (s.matchedBefore l q e).clearOutputs = (s.clearOutputs.freeUnit.countSlip l q e).checkedRun l e .matched := by
  have heq := matchedBefore_eq q e hh
  unfold State.matchedBefore State.updLane
  beta_reduce
  rw [heq]
  cases l <;> rfl

/-- Settles O43: the completion delivers MATCH, whose judging counts nothing more of checks and leaves the unit vacant
(`completeCheck_match`); with no other block held it is the judging of the checked block. -/
theorem checkMatches : Obligations.CheckMatches := by
  intro c r s hr hc ha hb hd hfind
  obtain ⟨hown, hjudges, hvacant⟩ := completeCheck_match (s := s.clearOutputs) ha hb hd hfind
  have hleaves := event_leaves_any s fun u => u.completeCheck c
  obtain ⟨hslips, hno, hun⟩ := hjudges.checks
  obtain ⟨hrun, hcount⟩ := lane_countSlip s.clearOutputs.freeUnit c.lane c.request r.err
  have hlane : s.clearOutputs.freeUnit.lane c.lane = s.lane c.lane := by cases c.lane <;> rfl
  rw [hcount, hlane] at hslips hno hun
  refine ⟨_, exec_checkCompletion hr hc, hleaves.free (by rw [hvacant]; rfl), (hleaves.slips _).trans hslips,
    (hleaves.noMatches _).trans hno, (hleaves.unanchored _).trans hun, ?_⟩
  intro k hk hread hcad hok hopen hheld
  have hpre := clearOutputs_matchedBefore (s := s) c.request r.err hheld
  set z := s.matchedBefore c.lane c.request r.err with hz
  have hzlane : z.lane c.lane = (s.lane c.lane).matchedBefore c.request r.err := by
    rw [hz, State.matchedBefore]
    cases c.lane <;> rfl
  have hzrun : ((s.lane c.lane).matchedBefore c.request r.err).run =
      { (s.lane c.lane).run with err := r.err, check := .matched, heldBefore := 0 } := by
    unfold Lane.matchedBefore
    dsimp only
    split <;> rfl
  have hztlc : ∀ l, z.tlc l = s.tlc l := fun l => by
    rw [hz, State.matchedBefore]
    cases c.lane <;> cases l <;> rfl
  have hzapp : z.applied = s.applied := by
    rw [hz, State.matchedBefore]
    exact State.applied_updLane ..
  have hzpins : z.pins = s.pins := by
    rw [hz, State.matchedBefore]
    exact State.pins_updLane ..
  have hzloader : z.loader = s.loader := by
    rw [hz, State.matchedBefore]
    exact State.loader_updLane ..
  have hzr : z.released = true := by
    rw [State.released, hzpins]
    exact hr
  have hj : z.clearOutputs.JudgesOnArrival c.lane := by
    refine ⟨hzr, ?_, ?_⟩
    · rw [tlc_clearOutputs, hztlc]
      exact hread
    · rw [lane_clearOutputs, hzlane]
      exact ⟨by rw [hzrun]; exact hopen, by rw [hzrun]; simp, by rw [hzrun]; simp⟩
  have hblock := exec_block (t := k) (label := c.request.block.label) hzr hok
  rw [hk] at hblock
  rw [exec_checkCompletion hr hc]
  refine Eq.trans (congrArg _ (event_congr ?_ hztlc hzloader hzpins)) hblock.symm
  rw [hown, matchFound_eq, releaseHeld_alone (by rw [hrun, hlane]; exact hopen) (by rw [hrun, hlane]; exact hheld), ← hpre]
  refine (blockEffect_judges _ hj ?_).symm
  rw [tlc_clearOutputs, hztlc, applied_clearOutputs, hzapp]
  exact hcad

end Sys2Proof.Machine
end

section
/-! A BLOCK that waits for its check, and the check request an idle Splice Unit takes (O34). -/

namespace Sys2Proof.Machine

set_option Elab.async false

/-! ### Results of an OPEN run that fill no segment (R63) -/

/-- What a reported result comes to: its own effect on the lane, then a scheduling point. -/
theorem report_eq (s : State) (l : LaneId) {q : IntakeResult} (hr : q.ofRun = true) (hf : q.segmentFilled = false) :
    ∃ y w, s.report l q = (s.setLane l y).schedule l w ∧ (s.lane l).Resulted ((s.lane l).measured q) y := by
  unfold State.report
  rw [hf]
  exact takeResult_eq s l ((s.lane l).measured q) hr

/-- What a reported result leaves: the steady part of the transport link controllers, f, the counts of arrivals. -/
structure Reports (l : LaneId) (s t : State) : Prop where
  tlc : ∀ k, (t.tlc k).steady = (s.tlc k).steady
  f : (t.lane l).f = (s.lane l).f
  counts : (s.lane l).SameCounts (t.lane l)
  store : List.Sublist t.store s.store

theorem report_reports (s : State) (l : LaneId) {q : IntakeResult} (hr : q.ofRun = true) (hf : q.segmentFilled = false) :
    Reports l s (s.report l q) := by
  obtain ⟨y, w, hy, hres⟩ := report_eq s l hr hf
  rw [hy]
  obtain ⟨hlane, -, hstore⟩ := steady_schedule (s.setLane l y) l w l
  rw [State.lane_setLane] at hlane
  rw [State.store_setLane] at hstore
  refine ⟨fun k => ?_, (congrArg LaneSteady.f hlane).trans hres.f, hres.counts.trans (sameCounts_of_steady hlane), hstore⟩
  exact (steady_schedule (s.setLane l y) l w k).2.1.trans (by rw [State.tlc_setLane])

theorem tends_endAttempt (x : Lane) (n : Nat) : x.Tends False (x.endAttempt n) := by
  unfold Lane.endAttempt
  split
  · exact .refl _ _
  · exact ⟨id, fun hn => hn.elim, fun hn => hn.elim⟩

theorem tends_takeResult (s : State) (l : LaneId) {q : IntakeResult} (hr : q.ofRun = true) :
    Tends (fun _ => False) s (s.takeResult l q) := by
  unfold State.takeResult
  rw [if_pos hr]
  generalize hu : State.updLane s l _ = u
  have hone : Tends (fun _ => False) s u := by
    rw [← hu]
    refine tends_updLane (.refl _ s) l _ fun x => ?_
    split <;> exact ⟨id, fun _ => rfl, fun _ => rfl⟩
  dsimp only
  split
  · split
    · exact tends_schedule hone l _
    · split
      · exact tends_schedule (tends_updLane hone l _ fun x => tends_endAttempt x _) l _
      · exact tends_schedule hone l _
  · refine tends_schedule ?_ l _
    split
    · exact tends_updLane hone l _
    · exact hone

/-- A reported result leaves a shut run so. -/
theorem report_shut {s : State} {l : LaneId} (h : (s.lane l).run.Shut) {q : IntakeResult} (hr : q.ofRun = true)
    (hf : q.segmentFilled = false) : ((s.report l q).lane l).run.Shut := by
  unfold State.report
  rw [hf]
  exact ((tends_takeResult s l (q := (s.lane l).measured q) hr).lane l).shut h

/-! ### Hold queue overflow (R43, R47) -/

/-- A run abandoned on overflow: one overrun counted, the run shut, no bad event. -/
theorem overrun_abandons (s : State) (l : LaneId) (ho : (s.lane l).run.state = .opened) :
    ((s.overrun l).lane l).count.overruns = bump (s.lane l).count.overruns ∧ ((s.overrun l).lane l).run.Shut ∧
      ((s.overrun l).lane l).f = (s.lane l).f ∧ ((s.overrun l).tlc l).steady = (s.tlc l).steady ∧
      List.Sublist (s.overrun l).store s.store := by
  set z := (s.updLane l fun x => { x with count := { x.count with overruns := bump x.count.overruns } }).endRun l with hz
  have hlane : z.lane l = { s.lane l with
      count := { (s.lane l).count with overruns := bump (s.lane l).count.overruns }, run := (s.lane l).run.finish } := by
    rw [hz, State.endRun, if_pos (by rw [State.lane_updLane]; simp [RunContext.inProgress, ho]), State.lane_withdrawCheck,
      State.lane_updLane, State.lane_updLane]
  have hrep := report_reports z l (q := abandonedResult .overrun) rfl rfl
  obtain ⟨-, -, hover, -⟩ := hrep.counts
  refine ⟨hover.trans ?_, report_shut ?_ rfl rfl, hrep.f.trans ?_, (hrep.tlc l).trans ?_, ?_⟩
  · rw [hlane]
  · rw [hlane]
    exact finish_shut _
  · rw [hlane]
  · rw [hz, State.tlc_endRun, State.tlc_updLane]
  · refine hrep.store.trans ?_
    rw [hz, State.store_endRun, State.store_updLane]

/-! ### A BLOCK that is held (R47) -/

/-- The event of a BLOCK of an OPEN run on a READING transport, before the block itself is handed on. -/
theorem atBlock_reading {s : State} {l : LaneId} (h : (s.tlc l).state = .reading) :
    s.atBlock l = (s.updTlc l fun x =>
      { x with timers := { x.timers with cadence := some s.applied.cadenceLimit } }).clearOutputs := by
  unfold State.atBlock State.restartCadence State.updTlc
  dsimp only
  rw [if_pos (by rw [tlc_clearOutputs]; exact h)]
  cases l <;> rfl

theorem arrive_holds {s : State} {l : LaneId} (ht : (s.tlc l).state = .reading) (hs : (s.lane l).run.state = .opened)
    (hc : (s.lane l).run.check = .waiting ∨ (s.lane l).run.check = .awaiting) (a : Arrival) : s.arrive l a = s.hold l a := by
  unfold State.arrive
  dsimp only
  rw [if_neg (by simp [hs, ht]), if_pos hc]

theorem blockEffect_holds {s : State} {l : LaneId} (ht : (s.tlc l).state = .reading)
    (hs : (s.lane l).run.state = .opened)
    (hc : (s.lane l).run.check = .waiting ∨ (s.lane l).run.check = .awaiting) (a : Arrival) :
    blockEffect l a s.clearOutputs = (s.atBlock l).hold l a := by
  change (s.atBlock l).arrive l a = _
  exact arrive_holds (by rwa [tlc_atBlock_state]) (by rwa [lane_atBlock]) (by rwa [lane_atBlock]) a

theorem hold_overflows {s : State} {l : LaneId} (h : 4 ≤ (s.lane l).run.held.length) (a : Arrival) :
    s.hold l a = s.overrun l := by
  unfold State.hold
  exact if_pos h

/-- A block that makes no request joins the queue. -/
theorem hold_queues {s : State} {l : LaneId} {a : Arrival} (h : (s.lane l).run.held.length < 4)
    (hq : (s.lane l).run.check = .awaiting ∨ (s.lane l).run.seg = none ∨ a.marks = .overmarked) :
    s.hold l a = s.updLane l fun x => { x with run := { x.run with held := x.run.held ++ [a] } } := by
  unfold State.hold
  dsimp only
  rw [if_neg (by simpa [Config.holdPlaces] using h)]
  split
  · rename_i hcheck hmarks hseg
    rcases hq with hq | hq | hq
    · rw [hq] at hcheck
      cases hcheck
    · rw [hq] at hseg
      cases hseg
    · rw [hq] at hmarks
      cases hmarks
  · rfl

/-- The lane with its check requested. -/
def State.awaits (s : State) (l : LaneId) : State :=
  s.updLane l fun x => { x with run := { x.run with check := .awaiting, heldBefore := x.run.held.length } }

theorem hold_requests {s : State} {l : LaneId} {a : Arrival} {g : SegRef} (h : (s.lane l).run.held.length < 4)
    (hc : (s.lane l).run.check = .waiting) (hg : (s.lane l).run.seg = some g) (ha : a.marks ≠ .overmarked) :
    s.hold l a = (s.awaits l).requestCheck l { block := a, seg := g } := by
  unfold State.hold
  dsimp only
  rw [if_neg (by simpa [Config.holdPlaces] using h), hc, hg]
  cases hm : a.marks with
  | overmarked => exact absurd hm ha
  | runs rs => rfl

/-! ### A request that reaches the Splice Unit (R73, R74) -/

/-- A unit that runs another check keeps the request. -/
theorem requestCheck_waits {s : State} {l : LaneId} {c : RunningCheck} (q : CheckRequest) (hc : s.splice.running = some c)
    (hn : ¬ (c.lane = l ∧ c.discarded = true)) :
    s.requestCheck l q = { s with splice := s.splice.setPlace l (some q) } := by
  have hrun : (s.splice.setPlace l (some q)).running = some c := by cases l <;> exact hc
  unfold State.requestCheck
  rw [hc]
  dsimp only
  rw [if_neg hn]
  unfold checkFuel State.nextCheck
  dsimp only
  rw [← hrun]

/-- The part with the unit vacant. -/
def State.idleUnit (s : State) : State := { s with splice := .vacant }

/-- The readings of a request fixed by the free unit: its check runs, or completes at once with NO_ANCHOR. -/
def State.fixReadings (s : State) (l : LaneId) (q : CheckRequest) : State :=
  match (State.readCandidates l q candidates s).2 with
  | [] => (State.readCandidates l q candidates s).1.noAnchor l q
  | r :: rest => { (State.readCandidates l q candidates s).1 with splice := { s.splice with
      running := some { lane := l, request := q, readings := r :: rest, reached := r.err, discarded := false } } }

theorem splice_readCandidate (s : State) (l : LaneId) (q : CheckRequest) (e : Int) :
    (s.readCandidate l q e).1.splice = s.splice := by
  unfold State.readCandidate
  dsimp only
  cases candidatePosition (s.lane l) q e with
  | none => rfl
  | some i =>
    dsimp only
    cases s.readCell l i ((s.lane l).addressIn i) with
    | copy c => rfl
    | storeFault => exact splice_of_reads (reads_noteStoreFault s l)
    | unassigned => rfl

theorem splice_readCandidates (l : LaneId) (q : CheckRequest) (es : List Int) : ∀ s : State,
    (State.readCandidates l q es s).1.splice = s.splice := by
  induction es with
  | nil => exact fun _ => rfl
  | cons e es ih => exact fun s => (ih _).trans (splice_readCandidate s l q e)

theorem takeCheck_eq (s : State) (l : LaneId) (q : CheckRequest) :
    s.takeCheck l q = State.fixReadings { s with splice := s.splice.setPlace l none } l q := by
  unfold State.takeCheck State.fixReadings
  dsimp only
  rw [splice_readCandidates]
  cases (State.readCandidates l q candidates { s with splice := s.splice.setPlace l none }).2 <;> rfl

/-- An idle unit takes the request, its running check being none or the lane's own discarded one. -/
theorem requestCheck_taken {s : State} {l : LaneId} (q : CheckRequest)
    (hc : ∀ c, s.splice.running = some c → c.lane = l ∧ c.discarded = true)
    (hp : s.splice.place (LaneId.other l) = none) :
    s.requestCheck l q = State.nextCheck 3 (s.idleUnit.fixReadings l q) := by
  set u : State := { s with splice := { s.splice.setPlace l (some q) with running := none } } with hu
  have hreach : s.requestCheck l q = State.nextCheck 4 u := by
    unfold State.requestCheck checkFuel
    dsimp only
    cases hr : s.splice.running with
    | none => rfl
    | some c =>
      dsimp only
      rw [if_pos (hc c hr)]
  have hplace : { u with splice := u.splice.setPlace l none } = s.idleUnit := by
    rw [hu]
    cases l
    · have hB : s.splice.pendingB = none := hp
      simp only [Splice.setPlace, hB]
      rfl
    · have hA : s.splice.pendingA = none := hp
      simp only [Splice.setPlace, hA]
      rfl
  have htake : u.takeCheck l q = s.idleUnit.fixReadings l q := by
    rw [takeCheck_eq, hplace]
  rw [hreach, State.nextCheck, ← htake, hu]
  cases l
  · rfl
  · have hA : s.splice.pendingA = none := hp
    simp only [Splice.setPlace, hA]

/-! ### The readings of a request (R67, R68) -/

/-- The reading of one candidate label error. -/
def State.readingAt (s : State) (l : LaneId) (q : CheckRequest) (e : Int) : Option Reading :=
  match candidatePosition (s.lane l) q e with
  | none => none
  | some i =>
    match s.readCell l i ((s.lane l).addressIn i) with
    | .copy c =>
      if 294 ≤ sharedCount q.marks c.marks then some { err := e, marks := c.marks, pairs := c.pairs } else none
    | .storeFault => none
    | .unassigned => none

theorem readings_eq (s : State) (l : LaneId) (q : CheckRequest) :
    s.readings l q = [0, 1, -1, 2, -2].filterMap (s.readingAt l q) := rfl

/-- The way from `s` to `t` counts store faults and sets their news, no more. -/
structure Faulted (s t : State) : Prop where
  lane : ∀ l, ∃ n, t.lane l = { s.lane l with count := { (s.lane l).count with storeFaults := n } }
  tlc : ∀ l, t.tlc l = s.tlc l
  store : t.store = s.store
  applied : t.applied = s.applied
  splice : t.splice = s.splice
  loader : t.loader = s.loader

theorem Faulted.refl (s : State) : Faulted s s := ⟨fun _ => ⟨_, rfl⟩, fun _ => rfl, rfl, rfl, rfl, rfl⟩

theorem Faulted.trans {s t u : State} (h : Faulted s t) (k : Faulted t u) : Faulted s u := by
  refine ⟨fun l => ?_, fun l => (k.tlc l).trans (h.tlc l), k.store.trans h.store, k.applied.trans h.applied,
    k.splice.trans h.splice, k.loader.trans h.loader⟩
  obtain ⟨n, hn⟩ := h.lane l
  obtain ⟨m, hm⟩ := k.lane l
  exact ⟨m, by rw [hm, hn]⟩

theorem faulted_noteStoreFault (s : State) (l : LaneId) : Faulted s (s.noteStoreFault l) := by
  refine ⟨fun k => ?_, fun k => ?_, ?_, ?_, ?_, ?_⟩ <;> unfold State.noteStoreFault State.countStoreFault
  · rw [State.lane_setNews]
    by_cases hk : k = l
    · subst hk
      exact ⟨_, State.lane_updLane ..⟩
    · exact ⟨(s.lane k).count.storeFaults, lane_updLane_ne _ hk _⟩
  all_goals simp

theorem readingAt_of {s t : State} {l : LaneId} {q : CheckRequest} (ha : t.applied = s.applied) (hs : t.store = s.store)
    (hp : (t.lane l).p = (s.lane l).p) (hf : (t.lane l).f = (s.lane l).f) (hm : (t.lane l).spans = (s.lane l).spans)
    (e : Int) : t.readingAt l q e = s.readingAt l q e ∧
      candidatePosition (t.lane l) q e = candidatePosition (s.lane l) q e ∧
      ∀ i, t.readCell l i ((t.lane l).addressIn i) = s.readCell l i ((s.lane l).addressIn i) := by
  have hpos : candidatePosition (t.lane l) q e = candidatePosition (s.lane l) q e := by
    unfold candidatePosition
    rw [hp, hf]
  have hread : ∀ i, t.readCell l i ((t.lane l).addressIn i) = s.readCell l i ((s.lane l).addressIn i) := fun i => by
    rw [readCell_of ha hs]
    unfold Lane.addressIn Lane.spanAt
    rw [hm]
  refine ⟨?_, hpos, hread⟩
  unfold State.readingAt
  rw [hpos]
  simp only [hread]

theorem Faulted.readingAt {s t : State} (h : Faulted s t) (l : LaneId) (q : CheckRequest) (e : Int) :
    t.readingAt l q e = s.readingAt l q e := by
  obtain ⟨n, hn⟩ := h.lane l
  exact (readingAt_of h.applied h.store (by rw [hn]) (by rw [hn]) (by rw [hn]) e).1

theorem readCandidate_eq (s : State) (l : LaneId) (q : CheckRequest) (e : Int) :
    (s.readCandidate l q e).2 = s.readingAt l q e ∧ Faulted s (s.readCandidate l q e).1 ∧
      ((∀ i, candidatePosition (s.lane l) q e = some i → s.readCell l i ((s.lane l).addressIn i) ≠ .storeFault) →
        (s.readCandidate l q e).1 = s) := by
  unfold State.readCandidate State.readingAt
  dsimp only
  cases hc : candidatePosition (s.lane l) q e with
  | none => exact ⟨rfl, .refl s, fun _ => rfl⟩
  | some i =>
    cases hr : s.readCell l i ((s.lane l).addressIn i) with
    | copy c =>
      dsimp only
      rw [hr]
      dsimp only [Config.sharedPairs]
      exact ⟨rfl, .refl s, fun _ => rfl⟩
    | storeFault =>
      dsimp only
      rw [hr]
      exact ⟨rfl, faulted_noteStoreFault s l, fun h => absurd hr (h i rfl)⟩
    | unassigned =>
      dsimp only
      rw [hr]
      exact ⟨rfl, .refl s, fun _ => rfl⟩

/-- The candidates read in order. -/
theorem readCandidates_eq (l : LaneId) (q : CheckRequest) (es : List Int) : ∀ s : State,
    (State.readCandidates l q es s).2 = es.filterMap (s.readingAt l q) ∧ Faulted s (State.readCandidates l q es s).1 ∧
      ((∀ e ∈ es, ∀ i, candidatePosition (s.lane l) q e = some i →
          s.readCell l i ((s.lane l).addressIn i) ≠ .storeFault) → (State.readCandidates l q es s).1 = s) := by
  induction es with
  | nil => exact fun s => ⟨rfl, .refl s, fun _ => rfl⟩
  | cons e es ih =>
    intro s
    obtain ⟨hread, hfault, hsame⟩ := readCandidate_eq s l q e
    obtain ⟨hreads, hfaults, hsames⟩ := ih (s.readCandidate l q e).1
    unfold State.readCandidates
    dsimp only
    refine ⟨?_, hfault.trans hfaults, fun h => ?_⟩
    · rw [hreads, hread, List.filterMap_cons, funext (hfault.readingAt l q)]
      cases s.readingAt l q e <;> rfl
    · have h1 := hsame (h e (by simp))
      rw [h1] at hsames
      rw [h1]
      exact hsames fun e' he' => h e' (by simp [he'])

/-! ### A request taken with readings (R67, R74) -/

/-- Store faults counted say nothing of what follows. -/
theorem AtRest_faulted {s t : State} (h : s.AtRest) (k : Faulted s t) : t.AtRest := by
  refine atRest_of h (fun l => ?_) k.applied (by rw [k.loader]) ?_
  · obtain ⟨n, hn⟩ := k.lane l
    rw [hn]
    exact ⟨rfl, rfl, rfl, rfl, rfl, rfl⟩
  · have h0 : t.tlc0 = s.tlc0 := k.tlc .a
    have h1 : t.tlc1 = s.tlc1 := k.tlc .b
    unfold State.recovered
    rw [k.loader, h0, h1]

theorem lane_splice (s : State) (u : Splice) (l : LaneId) : State.lane { s with splice := u } l = s.lane l := by
  cases l <;> rfl

/-- An event after whose own effect nothing follows. -/
theorem event_settled {s : State} {f : State → State} (h : (f s.clearOutputs).AtRest) :
    s.event f = (f s.clearOutputs).finish s.clearOutputs := by
  unfold State.event State.carryOut
  dsimp only
  rw [settle_atRest h]

/-- The part in which a request for lane l is read: the lane's check AWAITING, the unit vacant. -/
def State.requested (s : State) (l : LaneId) : State := ((s.atBlock l).awaits l).idleUnit

theorem lane_requested (s : State) (l : LaneId) : (s.requested l).lane l = { s.lane l with
    run := { (s.lane l).run with check := .awaiting, heldBefore := (s.lane l).run.held.length } } := by
  rw [← lane_atBlock s l l]
  cases l <;> rfl

theorem applied_requested (s : State) (l : LaneId) : (s.requested l).applied = s.applied :=
  (State.applied_updLane ..).trans (applied_atBlock s l)

theorem store_requested (s : State) (l : LaneId) : (s.requested l).store = s.store :=
  (State.store_updLane ..).trans (store_atBlock s l)

theorem readingAt_requested (s : State) (l : LaneId) (q : CheckRequest) (e : Int) :
    (s.requested l).readingAt l q e = s.readingAt l q e ∧
      candidatePosition ((s.requested l).lane l) q e = candidatePosition (s.lane l) q e ∧
      ∀ i, (s.requested l).readCell l i (((s.requested l).lane l).addressIn i) = s.readCell l i ((s.lane l).addressIn i) :=
  readingAt_of (applied_requested s l) (store_requested s l) (by rw [lane_requested]) (by rw [lane_requested])
    (by rw [lane_requested]) e

/-- The readings that the request finds. -/
theorem readCandidates_requested (s : State) (l : LaneId) (q : CheckRequest) :
    (State.readCandidates l q candidates (s.requested l)).2 = s.readings l q ∧
      Faulted (s.requested l) (State.readCandidates l q candidates (s.requested l)).1 ∧
      (s.ReadsNoFault l q → (State.readCandidates l q candidates (s.requested l)).1 = s.requested l) := by
  obtain ⟨hreads, hfault, hsame⟩ := readCandidates_eq l q candidates (s.requested l)
  refine ⟨?_, hfault, fun h => hsame fun e he i hi => ?_⟩
  · rw [hreads, funext fun e => (readingAt_requested s l q e).1]
    rfl
  · obtain ⟨-, hpos, hread⟩ := readingAt_requested s l q e
    rw [hread]
    exact h e he i (hpos ▸ hi)

theorem AtRest_atBlock {s : State} {l : LaneId} (h : s.AtRest) (ht : (s.tlc l).state = .reading) : (s.atBlock l).AtRest := by
  rw [atBlock_reading ht]
  exact AtRest_clearOutputs (AtRest_updTlc h l _)

theorem AtRest_requested {s : State} {l : LaneId} (h : s.AtRest) (ht : (s.tlc l).state = .reading) :
    (s.requested l).AtRest :=
  AtRest_splice (AtRest_updLane (AtRest_atBlock h ht) l _) _

/-- The unit with the check of comparable readings running. -/
theorem fixReadings_runs {s : State} {l : LaneId} {q : CheckRequest} {first : Reading} {rest : List Reading}
    (h : (State.readCandidates l q candidates s).2 = first :: rest) (hs : s.splice = .vacant) (n : Nat) :
    State.nextCheck n (s.fixReadings l q) = { (State.readCandidates l q candidates s).1 with splice := {
      running := some { lane := l, request := q, readings := first :: rest, reached := first.err, discarded := false }
      pendingA := none, pendingB := none } } := by
  unfold State.fixReadings
  rw [h, hs]
  cases n <;> rfl

/-! ### A request with no comparable reading (R71) -/

/-- The lane with a NO_ANCHOR counted. -/
def State.countUnanchored (s : State) (l : LaneId) : State :=
  s.updLane l fun x => { x with count := { x.count with unanchored := bump x.count.unanchored } }

/-- NO_ANCHOR completes the check at once: counted, the unit vacant. -/
theorem fixReadings_noAnchor {s : State} {l : LaneId} {q : CheckRequest}
    (h : (State.readCandidates l q candidates s).2 = []) (hs : s.splice = .vacant) (n : Nat) :
    State.nextCheck n (s.fixReadings l q) =
        ((State.readCandidates l q candidates s).1.countUnanchored l).releaseHeld l q.block 0 .noAnchor ∧
      Judges l ((State.readCandidates l q candidates s).1.countUnanchored l) (State.nextCheck n (s.fixReadings l q)) ∧
      (State.nextCheck n (s.fixReadings l q)).splice = .vacant := by
  have hfix : s.fixReadings l q =
      ((State.readCandidates l q candidates s).1.countUnanchored l).releaseHeld l q.block 0 .noAnchor := by
    unfold State.fixReadings
    rw [h]
    rfl
  have hjudges := judges_releaseHeld (.refl l ((State.readCandidates l q candidates s).1.countUnanchored l)) q.block 0
    .noAnchor
  have hvacant := hjudges.vacant ((State.splice_updLane ..).trans ((splice_readCandidates l q _ s).trans hs))
  rw [← hfix] at hjudges hvacant ⊢
  rw [nextCheck_vacant hvacant]
  exact ⟨rfl, hjudges, hvacant⟩

/-- The part before the BLOCK arrives judged on the run that has become unanchored. -/
def State.unanchoredBefore (s : State) (l : LaneId) : State :=
  { (s.updLane l fun x => { x with
      count := { x.count with unanchored := bump x.count.unanchored }
      run := { x.run with err := 0, check := .noAnchor, anchored := false, heldBefore := 0 } }) with
    splice := { running := none, pendingA := none, pendingB := none } }

theorem atBlock_unanchoredBefore {s : State} {l : LaneId} (hh : (s.lane l).run.held = []) :
    (s.unanchoredBefore l).atBlock l = ((s.requested l).countUnanchored l).checkedRun l 0 .noAnchor := by
  have hrun : ({ (s.lane l).run with err := 0, check := .noAnchor, anchored := false, heldBefore := 0 } : RunContext) =
      RunContext.checked { (s.lane l).run with check := .awaiting, heldBefore := (s.lane l).run.held.length } 0
        .noAnchor := by
    unfold RunContext.checked
    rw [show (CheckState.noAnchor != CheckState.noAnchor) = false from rfl, Bool.and_false, ← hh]
  unfold State.unanchoredBefore State.updLane
  beta_reduce
  rw [hrun]
  cases l <;> rfl

/-! ### The event of a BLOCK whose request an idle unit takes -/

theorem judgesOnArrival_atBlock {s : State} {l : LaneId} (h : s.JudgesOnArrival l) : (s.atBlock l).JudgesOnArrival l := by
  obtain ⟨hr, ht, hrun⟩ := h
  refine ⟨(released_restartCadence _ l).trans hr, by rwa [tlc_atBlock_state], ?_⟩
  rw [lane_atBlock]
  exact hrun

/-- The own effect of a BLOCK judged on arrival. -/
theorem blockEffect_judged {s : State} {l : LaneId} (h : s.JudgesOnArrival l) (a : Arrival) :
    blockEffect l a s.clearOutputs = (s.atBlock l).judge l a :=
  arrive_judges (judgesOnArrival_atBlock h) a

/-- The BLOCK that makes the request, and the unit that takes it. -/
structure State.Requests (s : State) (l : LaneId) (a : Arrival) (q : CheckRequest) : Prop where
  reading : (s.tlc l).state = .reading
  opened : (s.lane l).run.state = .opened
  waiting : (s.lane l).run.check = .waiting
  room : (s.lane l).run.held.length < 4
  seg : (s.lane l).run.seg = some q.seg
  marks : a.marks ≠ .overmarked
  idle : ∀ c, s.splice.running = some c → c.lane = l ∧ c.discarded = true
  place : s.splice.place (LaneId.other l) = none
  block : q.block = a

section
variable {s : State} {l : LaneId} {a : Arrival} {q : CheckRequest}

theorem blockEffect_requests (h : s.Requests l a q) :
    blockEffect l a s.clearOutputs = State.nextCheck 3 ((s.requested l).fixReadings l q) := by
  have hlane : (s.atBlock l).lane l = s.lane l := lane_atBlock s l l
  have hsplice : ((s.atBlock l).awaits l).splice = s.splice := (State.splice_updLane ..).trans (splice_atBlock s l)
  have hq : ({ block := a, seg := q.seg } : CheckRequest) = q := by rw [← h.block]
  rw [blockEffect_holds h.reading h.opened (.inl h.waiting),
    hold_requests (by rw [hlane]; exact h.room) (by rw [hlane]; exact h.waiting) (by rw [hlane]; exact h.seg) h.marks, hq,
    requestCheck_taken _ (by rw [hsplice]; exact h.idle) (by rw [hsplice]; exact h.place)]
  rfl

/-- With comparable readings the check of them runs, and nothing else follows. -/
theorem event_checkRuns (h : s.Requests l a q) (hrest : s.AtRest) {first : Reading} {rest : List Reading}
    (hfirst : s.readings l q = first :: rest) :
    let u := s.event (blockEffect l a)
    u.splice = { running := some { lane := l, request := q, readings := first :: rest, reached := first.err,
                                   discarded := false }
                 pendingA := none, pendingB := none } ∧
      (u.lane l).run = { (s.lane l).run with check := .awaiting, heldBefore := (s.lane l).run.held.length } ∧
      (u.lane l).p = (s.lane l).p ∧ (u.lane l).f = (s.lane l).f ∧ (s.lane l).SameCounts (u.lane l) ∧
      u.store = s.store := by
  intro u
  obtain ⟨hreads, hfault, -⟩ := readCandidates_requested s l q
  obtain ⟨n, hn⟩ := hfault.lane l
  rw [lane_requested] at hn
  have hown := blockEffect_requests h
  rw [fixReadings_runs (hreads.trans hfirst) rfl] at hown
  have hat := AtRest_splice (AtRest_faulted (AtRest_requested (l := l) hrest h.reading) hfault) {
    running := some { lane := l, request := q, readings := first :: rest, reached := first.err, discarded := false }
    pendingA := none, pendingB := none }
  rw [← hown] at hat
  have hu : u = (blockEffect l a s.clearOutputs).finish s.clearOutputs := event_settled hat
  rw [hu, hown, (store_finish _ _).1, (store_finish _ _).2, lane_finish, lane_splice, hn]
  exact ⟨rfl, rfl, rfl, rfl, ⟨rfl, rfl, rfl, rfl, rfl, rfl⟩, hfault.store.trans (store_requested s l)⟩

/-- With none the answer is NO_ANCHOR at once. -/
theorem event_noAnchor (h : s.Requests l a q) (hnone : s.readings l q = []) :
    let u := s.event (blockEffect l a)
    u.splice.running = none ∧ (u.lane l).count.unanchored = bump (s.lane l).count.unanchored ∧
      (u.lane l).count.noMatches = (s.lane l).count.noMatches ∧ (u.lane l).count.slips = (s.lane l).count.slips := by
  intro u
  obtain ⟨hreads, hfault, -⟩ := readCandidates_requested s l q
  obtain ⟨n, hn⟩ := hfault.lane l
  rw [lane_requested] at hn
  obtain ⟨-, hjudges, hvacant⟩ := fixReadings_noAnchor (hreads.trans hnone) rfl 3
  have hleaves := event_leaves_any s (blockEffect l a)
  rw [blockEffect_requests h] at hleaves
  obtain ⟨hslips, hno, hun⟩ := hjudges.checks
  rw [State.countUnanchored, State.lane_updLane, hn] at hslips hno hun
  exact ⟨hleaves.free (by rw [hvacant]; rfl), (hleaves.unanchored l).trans hun, (hleaves.noMatches l).trans hno,
    (hleaves.slips l).trans hslips⟩

/-- With no other block held it is the event of the block arriving judged on the run, now unanchored. -/
theorem event_unanchored (h : s.Requests l a q) (hr : s.released = true) (hnone : s.readings l q = [])
    (hheld : (s.lane l).run.held = []) (hfault : s.ReadsNoFault l q) :
    s.event (blockEffect l a) = (s.unanchoredBefore l).event (blockEffect l a) := by
  have htlc : ∀ k, (s.unanchoredBefore l).tlc k = s.tlc k := fun k => by
    rw [State.unanchoredBefore]
    cases l <;> cases k <;> rfl
  have hpins : (s.unanchoredBefore l).pins = s.pins := State.pins_updLane ..
  have hrun : ((s.unanchoredBefore l).lane l).run =
      { (s.lane l).run with err := 0, check := .noAnchor, anchored := false, heldBefore := 0 } := by
    rw [State.unanchoredBefore]
    cases l <;> rfl
  have hj : (s.unanchoredBefore l).JudgesOnArrival l := by
    refine ⟨by rw [State.released, hpins]; exact hr, by rw [htlc]; exact h.reading, ?_⟩
    rw [hrun]
    exact ⟨h.opened, by simp, by simp⟩
  obtain ⟨hreads, -, hsame⟩ := readCandidates_requested s l q
  obtain ⟨hrelease, -, -⟩ := fixReadings_noAnchor (hreads.trans hnone) rfl 3
  have hcounted : (((s.requested l).countUnanchored l).lane l).run =
      { (s.lane l).run with check := .awaiting, heldBefore := (s.lane l).run.held.length } := by
    rw [State.countUnanchored, State.lane_updLane, lane_requested]
  refine event_congr ?_ htlc (State.loader_updLane ..) hpins
  rw [blockEffect_requests h, hrelease, hsame hfault,
    releaseHeld_alone (by rw [hcounted]; exact h.opened) (by rw [hcounted]; exact hheld), blockEffect_judged hj,
    atBlock_unanchoredBefore hheld, h.block]

end

/-- Settles O34: a full queue abandons the run (`overrun_abandons`) and what follows does not open it again (`event_tends`); a held
block, a request that waits and one whose check runs leave a state at rest; a request without readings is answered NO_ANCHOR
(`event_noAnchor`), and with no other block held that is the judging of the block (`event_unanchored`). -/
theorem blockHeld : Obligations.BlockHeld := by
  intro t label marks pairs s r hr hwf hread hopen hcheck hrdef
  set l := t.lane with hl
  set a : Arrival := { label := label, marks := marks, pairs := pairs } with ha
  have hok : blockOk marks pairs = true := by simpa [WellFormed] using hwf
  have hown := blockEffect_holds hread hopen hcheck a
  have hlane : (s.atBlock l).lane l = s.lane l := lane_atBlock s l l
  have hblock : s.atBlock l = r.clearOutputs := by rw [atBlock_reading hread, hrdef]
  refine ⟨s.event (blockEffect l a), exec_block hr hok, fun hfull => ?_, fun hroom hrest => ⟨fun hqueue => ?_, ?_, ?_⟩⟩
  · rw [hold_overflows (by rw [hlane]; exact hfull)] at hown
    obtain ⟨hover, hshut, hf, htlc, hstore⟩ := overrun_abandons (s.atBlock l) l (by rw [hlane]; exact hopen)
    rw [hlane] at hover hf
    rw [store_atBlock] at hstore
    have hrun := (event_tends (q := fun _ => False) s (blockEffect l a) (fun _ h => h.elim) l).1 (by rw [hown]; exact hshut)
    have hleaves := event_leaves_any s (blockEffect l a)
    rw [hown] at hleaves
    have hagree := agrees_of_steady ((hleaves.tlc l).trans (htlc.trans (tlc_atBlock_steady s l)))
    exact ⟨(hleaves.overruns l).trans hover, hrun.1, hrun.2, (hleaves.f l).trans hf, hagree.violation, hagree.badEvents,
      hleaves.store.trans hstore⟩
  · rw [hold_queues (by rw [hlane]; exact hroom) (by rw [hlane]; exact hqueue), hblock] at hown
    refine event_atRest (hown.trans ?_) (AtRest_updLane (hrdef ▸ AtRest_updTlc hrest l _) l _)
    cases l <;> rfl
  · intro g c hwait hseg hmarks hc hn
    have hsplice : ((s.atBlock l).awaits l).splice = s.splice := (State.splice_updLane ..).trans (splice_atBlock s l)
    rw [hold_requests (by rw [hlane]; exact hroom) (by rw [hlane]; exact hwait) (by rw [hlane]; exact hseg) hmarks,
      requestCheck_waits _ (by rw [hsplice]; exact hc) hn, hsplice, hblock] at hown
    refine event_atRest (hown.trans ?_) (AtRest_splice (AtRest_updLane (hrdef ▸ AtRest_updTlc hrest l _) l _) _)
    cases l <;> rfl
  · intro g q hwait hseg hmarks hc hp hq
    have hreq : s.Requests l a q :=
      ⟨hread, hopen, hwait, hroom, hseg.trans (by rw [hq]), hmarks, hc, hp, by rw [hq]⟩
    refine ⟨fun first rest hfirst => event_checkRuns hreq hrest hfirst, fun hnone => ?_⟩
    obtain ⟨hfree, hun, hno, hslips⟩ := event_noAnchor hreq hnone
    refine ⟨hfree, hun, hno, hslips, fun hheld hfault => ?_⟩
    have hpins : (s.unanchoredBefore l).pins = s.pins := State.pins_updLane ..
    have hexec := exec_block (t := t) (label := label) (s := s.unanchoredBefore l) (by rw [State.released, hpins]; exact hr) hok
    rw [exec_block hr hok]
    exact Eq.trans (congrArg _ (event_unanchored hreq hr hnone hheld hfault)) hexec.symm

end Sys2Proof.Machine
end

section
/-! A BLOCK that is discarded (O33). -/

namespace Sys2Proof.Machine

set_option Elab.async false

/-! ### A lane that an arrival leaves undisturbed -/

/-- The map, the play position and what the sequencer waits for are as they were. -/
structure Lane.Undisturbed (x y : Lane) : Prop where
  p : y.p = x.p
  f : y.f = x.f
  conds : condsOf y.spans = condsOf x.spans
  state : y.seq.state = x.seq.state
  mark : y.seq.mark = x.seq.mark
  bind : y.seq.bind = x.seq.bind
  reRequest : y.seq.reRequest = x.seq.reRequest
  jammed : y.marks.jammed = x.marks.jammed

theorem Lane.Undisturbed.trans {x y z : Lane} (h : x.Undisturbed y) (k : y.Undisturbed z) : x.Undisturbed z :=
  ⟨k.p.trans h.p, k.f.trans h.f, k.conds.trans h.conds, k.state.trans h.state, k.mark.trans h.mark, k.bind.trans h.bind,
    k.reRequest.trans h.reRequest, k.jammed.trans h.jammed⟩

theorem undisturbed_of_stays {x y : Lane} (h : x.Stays y) : x.Undisturbed y :=
  ⟨h.p, h.f, h.conds, by rw [h.seq], by rw [h.seq], by rw [h.seq], by rw [h.seq], h.jammed⟩

/-- Two formed maps of the same window with the same conditions answer alike for every position. -/
theorem conditionAt_same {x y : Lane} {n m : Nat} (hx : MapFormed x.p x.f x.spans n) (hy : MapFormed y.p y.f y.spans m)
    (hp : y.p = x.p) (hc : condsOf y.spans = condsOf x.spans) (j : Index) : y.conditionAt j = x.conditionAt j := by
  rw [conditionAt_condsOf hx, conditionAt_condsOf hy, hp, hc]

/-- A formed map of an empty window has no conditions. -/
theorem condsOf_empty {x : Lane} {n : Nat} (h : MapFormed x.p x.f x.spans n) (hpf : x.p = x.f) : condsOf x.spans = [] := by
  refine List.eq_nil_of_length_eq_zero ?_
  rw [condsOf_length, h.total, ← hpf, ahead_self]

/-- What follows on a lane whose own event leaves it undisturbed leaves its conditions (R18). -/
theorem event_conditions {s : State} {l : LaneId} {F : State → State} (hf : Follows s (F s.clearOutputs))
    (h : (s.lane l).Undisturbed ((F s.clearOutputs).lane l)) (hinv : s.Inv) (hs : (s.lane l).Settled) (j : Index) :
    ((s.event F).lane l).conditionAt j = (s.lane l).conditionAt j := by
  obtain ⟨hmark, hbind, hre⟩ := hs
  have hleaves := event_leaves (e := fun _ => True) (c := fun k => k ≠ l) (b := True) s F (fun _ => .inl trivial) (fun k => by
    by_cases hk : k = l
    · subst hk
      exact .inr (.inl (h.mark.trans hmark))
    · exact .inl hk) (.inl trivial)
  have hp : ((s.event F).lane l).p = (s.lane l).p := (hleaves.p l fun hn => hn rfl).trans h.p
  have hfill : ((s.event F).lane l).f = (s.lane l).f := (hleaves.f l).trans h.f
  have hkept := ((hinv.lane l).1).form
  have hukept := ((((follows_event s F hf).inv hinv).lane l).1).form
  refine conditionAt_same hkept hukept hp ?_ j
  by_cases hpf : (s.lane l).p = (s.lane l).f
  · rw [condsOf_empty hkept hpf, condsOf_empty hukept (by rw [hp, hfill]; exact hpf)]
  · have hrests : Rests l (F s.clearOutputs) (s.clearOutputs.carryOut F) :=
      rests_settle (by rw [h.p, h.f]; exact hpf) _ ⟨rfl, rfl, rfl,
        ⟨h.mark.trans hmark, h.bind.trans hbind, h.reRequest.trans hre⟩, fun _ _ => rfl, rfl⟩ (hf.inv hinv)
    have hlane : (s.event F).lane l = ((s.clearOutputs.carryOut F).lane l).finished := lane_finish ..
    rw [hlane]
    exact hrests.conds.trans h.conds

/-- What follows on a quiet lane whose own event leaves it undisturbed counts nothing (R116, R159, R169). -/
theorem event_counts {s : State} {l : LaneId} {F : State → State} (hq : s.LaneQuiet l)
    (h : (s.lane l).Undisturbed ((F s.clearOutputs).lane l)) :
    ((s.event F).lane l).count = ((F s.clearOutputs).lane l).count := by
  obtain ⟨hmarks, hmark, hbind, hre, hpriming, hunder⟩ := hq
  refine (event_tends (q := fun k => k = l) s F (fun k hk => ?_) l).2 rfl
  subst hk
  refine ⟨⟨⟨by rw [h.state]; exact hpriming, fun _ => h.mark.trans hmark, by rw [h.state]; exact hunder⟩,
    h.bind.trans hbind, h.reRequest.trans hre⟩, h.jammed.trans ?_⟩
  rw [hmarks k]
  rfl

/-! ### A result reported of a FILL run (R63, R87) -/

/-- The scheduling point of a result that ends no attempt: the lane undisturbed, its counts as they were. -/
theorem takeResult_undisturbed (s : State) (l : LaneId) {q : IntakeResult}
    (h : q.ofRun = false ∨ (s.lane l).run.kind = .fill) :
    (s.lane l).Undisturbed ((s.takeResult l q).lane l) ∧ ((s.takeResult l q).lane l).count = (s.lane l).count := by
  have hschedule : ∀ (u : State) (w : Point), ((∃ r, u.lane l = { s.lane l with rsc := r }) →
      (s.lane l).Undisturbed ((u.schedule l w).lane l) ∧ ((u.schedule l w).lane l).count = (s.lane l).count) := by
    rintro u w ⟨r, hr⟩
    have hstays := undisturbed_of_stays (keeps_schedule (.refl l u) l w).lane
    have hcount := ((tends_schedule (.refl (fun _ => True) u) l w).lane l).count trivial
    rw [hr] at hstays hcount
    exact ⟨Lane.Undisturbed.trans (y := { s.lane l with rsc := r }) ⟨rfl, rfl, rfl, rfl, rfl, rfl, rfl, rfl⟩ hstays, hcount⟩
  unfold State.takeResult
  split
  · rename_i hr
    have hkind : (s.lane l).run.kind = .fill := h.resolve_left (by rw [hr]; simp)
    generalize hu : State.updLane s l _ = u
    obtain ⟨o, ho⟩ : ∃ o, u.lane l = { s.lane l with rsc := o } := by
      rw [← hu, State.lane_updLane]
      split <;> exact ⟨_, rfl⟩
    dsimp only
    split
    · rename_i hk _ _
      rw [ho] at hk
      rw [hkind] at hk
      cases hk
    · refine hschedule _ _ ?_
      split
      · rw [State.lane_updLane, ho]
        exact ⟨_, rfl⟩
      · exact ⟨_, ho⟩
  · exact hschedule s _ ⟨_, rfl⟩

/-- What a discarded arrival comes to: a result reported in a state that has the store and an undisturbed lane of the same run kind. -/
structure Discards (l : LaneId) (s z t : State) : Prop where
  before : (s.lane l).Undisturbed (z.lane l)
  kind : (z.lane l).run.kind = (s.lane l).run.kind
  store : z.store = s.store
  reported : ∃ q : IntakeResult, q.ofRun = true ∧ q.segmentFilled = false ∧ t = z.report l q

section
variable {l : LaneId} {s z t : State}

theorem Discards.reports (h : Discards l s z t) : Reports l z t := by
  obtain ⟨q, hr, hf, rfl⟩ := h.reported
  exact report_reports z l hr hf

/-- Of a FILL run it leaves the lane undisturbed and counts nothing more. -/
theorem Discards.fill (h : Discards l s z t) (hk : (s.lane l).run.kind = .fill) :
    (s.lane l).Undisturbed (t.lane l) ∧ (t.lane l).count = (z.lane l).count := by
  obtain ⟨q, hr, hf, rfl⟩ := h.reported
  have hreport : z.report l q = z.takeResult l ((z.lane l).measured q) := by
    unfold State.report
    rw [hf]
    rfl
  rw [hreport]
  have hz := takeResult_undisturbed z l (q := (z.lane l).measured q) (.inr (h.kind.trans hk))
  exact ⟨h.before.trans hz.1, hz.2⟩

end

/-! ### The event of a BLOCK judged on arrival and discarded -/

section
variable {s : State} {l : LaneId} {a : Arrival} {z : State}

/-- f and the store; the lane's counts of arrivals are those before the result. -/
theorem event_discards (hj : s.JudgesOnArrival l) (h : Discards l (s.atBlock l) z ((s.atBlock l).judge l a)) :
    ((s.event (blockEffect l a)).lane l).f = (s.lane l).f ∧
      List.Sublist (s.event (blockEffect l a)).store s.store ∧
      (z.lane l).SameCounts ((s.event (blockEffect l a)).lane l) := by
  have hleaves := event_leaves_any s (blockEffect l a)
  rw [blockEffect_judged hj] at hleaves
  have hrep := h.reports
  have hf := (hleaves.f l).trans (hrep.f.trans h.before.f)
  have hstore := hleaves.store.trans (h.store ▸ hrep.store)
  rw [lane_atBlock] at hf
  rw [store_atBlock] at hstore
  exact ⟨hf, hstore, hrep.counts.trans ⟨hleaves.skips l, hleaves.strays l, hleaves.overruns l, hleaves.noMatches l,
    hleaves.unanchored l, hleaves.slips l⟩⟩

/-- Of a FILL run: the conditions, and on a quiet lane every count. -/
theorem event_discards_fill (hj : s.JudgesOnArrival l) (h : Discards l (s.atBlock l) z ((s.atBlock l).judge l a))
    (hk : (s.lane l).run.kind = .fill) :
    (s.Inv → (s.lane l).Settled →
        ∀ j, ((s.event (blockEffect l a)).lane l).conditionAt j = (s.lane l).conditionAt j) ∧
      (s.LaneQuiet l → ((s.event (blockEffect l a)).lane l).count = (z.lane l).count) := by
  obtain ⟨hund, hcount⟩ := h.fill (by rw [lane_atBlock]; exact hk)
  rw [lane_atBlock, ← blockEffect_judged hj] at hund
  rw [← blockEffect_judged hj] at hcount
  have hfollows : Follows s (blockEffect l a s.clearOutputs) := by
    rw [blockEffect_judged hj]
    exact follows_judge (follows_atBlock s l) l a
  exact ⟨fun hinv hs j => event_conditions hfollows hund hinv hs j, fun hq => (event_counts hq hund).trans hcount⟩

end

/-! ### Too far ahead of f, or refused by the map there (R54) -/

/-- The lane once the run's segment is the one an arrival maps through. -/
def State.mapped (s : State) (l : LaneId) (g : SegRef) : State :=
  s.updLane l fun x => { x with run := { x.run with seg := some g } }

theorem lane_mapped (s : State) (l : LaneId) (g : SegRef) :
    (s.mapped l g).lane l = { s.lane l with run := { (s.lane l).run with seg := some g } } := State.lane_updLane ..

theorem store_mapped (s : State) (l : LaneId) (g : SegRef) : (s.mapped l g).store = s.store := State.store_updLane ..

theorem applied_mapped (s : State) (l : LaneId) (g : SegRef) : (s.mapped l g).applied = s.applied :=
  State.applied_updLane ..

theorem settings_mapped (s : State) (l : LaneId) (g : SegRef) : (s.mapped l g).settings l = s.settings l :=
  settings_of_applied (applied_mapped s l g) l

/-- What makes an arrival ahead of f an I2. -/
def State.tooFar (s : State) (l : LaneId) (g : SegRef) (i : Index) (a : Arrival) : Prop :=
  (s.settings l).keepLimit < ahead i (s.lane l).f ∨ s.share l - 3 < ahead i (s.lane l).p ∨
    ((s.lane l).segmentAt (s.lane l).f).map Segment.base ≠ some g.base ∨
    (s.lane l).aheadHole g i (s.broughtClass l i a) = none

/-- The claim hangs on nothing that a run and a store fault change. -/
theorem aheadHole_none {x y : Lane} {g : SegRef} {i : Index} {c : CopyClass}
    (hs : y.aheadSpans g i c = x.aheadSpans g i c) (h : x.aheadHole g i c = none) : y.aheadHole g i c = none := by
  rw [aheadHole_eq] at h ⊢
  rw [hs]
  split at h
  · rename_i hmany
    exact if_pos hmany
  · cases h

theorem takeAhead_far {s : State} {l : LaneId} {g : SegRef} {i : Index} {a : Arrival} (h : s.tooFar l g i a) :
    ∃ (z : State) (o : IntakeOutcome) (c : Option CopyClass), s.takeAhead l g i a = z.takeFar l g i o c ∧
      (∃ n, z.lane l = { s.lane l with count := { (s.lane l).count with storeFaults := n } }) ∧ z.store = s.store := by
  unfold State.takeAhead
  dsimp only
  split
  · exact ⟨s, _, _, rfl, ⟨_, rfl⟩, rfl⟩
  · rename_i hkeep
    split
    · exact ⟨s, _, _, rfl, ⟨_, rfl⟩, rfl⟩
    · rename_i hwindow
      split
      · exact ⟨s, _, _, rfl, ⟨_, rfl⟩, rfl⟩
      · rename_i hsegment
        have hfull := ((h.resolve_left hkeep).resolve_left hwindow).resolve_left hsegment
        obtain ⟨hmarks, ⟨n, hn⟩, hstore, happ⟩ := deliver_eq s l i a
        have hclass : copyClass ((s.deliver l i a).1.settings l).interpLimit (s.deliver l i a).2.marks =
            s.broughtClass l i a := by
          rw [hmarks, settings_of_applied happ]
          rfl
        have hnone : ((s.deliver l i a).1.lane l).aheadHole g i (s.broughtClass l i a) = none :=
          aheadHole_none (by rw [hn]; rfl) hfull
        unfold State.takeKept
        dsimp only
        rw [hclass, hnone]
        exact ⟨(s.deliver l i a).1, _, _, rfl, ⟨n, hn⟩, hstore⟩

/-- A BLOCK too far ahead: one skip counted. -/
theorem judge_far {s : State} {l : LaneId} {a : Arrival} {g : SegRef} {i : Index}
    (hm : (s.lane l).mapArrival a.label = some (g, i)) (hp : before i (s.lane l).p = false)
    (hf : before (s.lane l).f i = true) (h : s.tooFar l g i a) :
    ∃ z, Discards l s z (s.judge l a) ∧ (z.lane l).count.skips = bump (s.lane l).count.skips ∧
      (s.lane l).SameCounts { z.lane l with count := { (z.lane l).count with skips := (s.lane l).count.skips } } := by
  have hne : i ≠ (s.lane l).f := by
    rintro rfl
    simp [before] at hf
  have hjudge : s.judge l a = (s.mapped l g).takeAhead l g i a := by
    unfold State.judge
    dsimp only
    rw [hm]
    dsimp only
    rw [if_neg (by rw [hp]; simp), if_neg hne, if_pos hf]
    rfl
  have hfar : (s.mapped l g).tooFar l g i a := by
    have hclass : (s.mapped l g).broughtClass l i a = s.broughtClass l i a :=
      broughtClass_of (applied_mapped s l g) (store_mapped s l g) l i a
    unfold State.tooFar State.share at h ⊢
    rw [hclass, settings_mapped, lane_mapped]
    rcases h with hkeep | hwindow | hsegment | hfull
    · exact .inl hkeep
    · exact .inr (.inl hwindow)
    · exact .inr (.inr (.inl hsegment))
    · refine .inr (.inr (.inr (aheadHole_none (x := s.lane l) ?_ hfull)))
      rfl
  obtain ⟨z, o, c, hz, ⟨n, hn⟩, hstore⟩ := takeAhead_far hfar
  rw [lane_mapped] at hn
  have hlane : (z.updLane l fun x => (x.countSkip g).breakRun).lane l = ((z.lane l).countSkip g).breakRun :=
    State.lane_updLane ..
  rw [hn] at hlane
  refine ⟨z.updLane l fun x => (x.countSkip g).breakRun, ⟨?_, ?_, ?_, _, rfl, rfl, hjudge.trans hz⟩, ?_, ?_⟩
  · rw [hlane]
    exact ⟨rfl, rfl, rfl, rfl, rfl, rfl, rfl, rfl⟩
  · rw [hlane]
    rfl
  · rw [State.store_updLane, hstore, store_mapped]
  · rw [hlane]
    rfl
  · rw [hlane]
    exact ⟨rfl, rfl, rfl, rfl, rfl, rfl⟩

/-! ### Outside the segment list, below p, behind the absorb limit, at a full window (R50, R52, R58) -/

/-- A result reported with nothing of the lane changed but its run. -/
theorem discards_run {s z : State} {l : LaneId} {q : IntakeResult} (hr : q.ofRun = true) (hf : q.segmentFilled = false)
    (hz : z.lane l = { s.lane l with run := (z.lane l).run }) (hk : (z.lane l).run.kind = (s.lane l).run.kind)
    (hs : z.store = s.store) : Discards l s z (z.report l q) ∧ (z.lane l).count = (s.lane l).count := by
  refine ⟨⟨?_, hk, hs, q, hr, hf, rfl⟩, by rw [hz]⟩
  rw [hz]
  exact ⟨rfl, rfl, rfl, rfl, rfl, rfl, rfl, rfl⟩

/-- The in-order counter at 0 (R62). -/
def State.broken (s : State) (l : LaneId) : State := s.updLane l Lane.breakRun

theorem discards_broken (s : State) (l : LaneId) {q : IntakeResult} (hr : q.ofRun = true) (hf : q.segmentFilled = false) :
    Discards l s (s.broken l) ((s.broken l).report l q) ∧ ((s.broken l).lane l).count = (s.lane l).count := by
  have hlane : (s.broken l).lane l = (s.lane l).breakRun := State.lane_updLane ..
  exact discards_run hr hf (by rw [hlane]; rfl) (by rw [hlane]; rfl) (State.store_updLane ..)

/-- The run's segment has no part in it. -/
theorem discards_mapped {s z t : State} {l : LaneId} {g : SegRef} (h : Discards l (s.mapped l g) z t) : Discards l s z t := by
  obtain ⟨hbefore, hkind, hstore, hreported⟩ := h
  have hsame : (s.lane l).Undisturbed ((s.mapped l g).lane l) := by
    rw [lane_mapped]
    exact ⟨rfl, rfl, rfl, rfl, rfl, rfl, rfl, rfl⟩
  rw [lane_mapped] at hkind
  exact ⟨hsame.trans hbefore, hkind, hstore.trans (store_mapped s l g), hreported⟩

theorem judge_outside {s : State} {l : LaneId} {a : Arrival} (hm : (s.lane l).mapArrival a.label = none) :
    ∃ z, Discards l s z (s.judge l a) ∧ (z.lane l).count = (s.lane l).count := by
  unfold State.judge
  dsimp only
  rw [hm]
  exact ⟨_, discards_broken s l rfl rfl⟩

/-- An arrival that the map passes by: below p, at a full window, behind the absorb limit of a FILL run and no preroll position. -/
def State.passesBy (s : State) (l : LaneId) (i : Index) : Prop :=
  before i (s.lane l).p = true ∨
    (before i (s.lane l).p = false ∧ i = (s.lane l).f ∧ (s.lane l).bufferedLead = s.share l - 2) ∨
    (before i (s.lane l).p = false ∧ i ≠ (s.lane l).f ∧ before (s.lane l).f i = false ∧
      (s.lane l).run.kind = .fill ∧ (s.settings l).absorbLimit < ahead (s.lane l).f i ∧
      (s.lane l).run.isPreroll i = false)

theorem mapped_discards {s t : State} {l : LaneId} {g : SegRef}
    (h : ∃ z, Discards l (s.mapped l g) z t ∧ (z.lane l).count = ((s.mapped l g).lane l).count) :
    ∃ z, Discards l s z t ∧ (z.lane l).count = (s.lane l).count := by
  obtain ⟨z, hz, hcount⟩ := h
  rw [lane_mapped] at hcount
  exact ⟨z, discards_mapped hz, hcount⟩

theorem judge_passes {s : State} {l : LaneId} {a : Arrival} {g : SegRef} {i : Index}
    (hm : (s.lane l).mapArrival a.label = some (g, i)) (h : s.passesBy l i) :
    ∃ z, Discards l s z (s.judge l a) ∧ (z.lane l).count = (s.lane l).count := by
  unfold State.judge
  dsimp only
  rw [hm]
  dsimp only
  rcases h with hbelow | ⟨hp, hat, hfull⟩ | ⟨hp, hne, hf, hkind, hfar, hpre⟩
  · rw [if_pos hbelow]
    exact mapped_discards ⟨_, discards_broken (s.mapped l g) l rfl rfl⟩
  · rw [if_neg (by rw [hp]; simp), if_pos hat]
    refine mapped_discards (g := g) ?_
    change ∃ z, Discards l (s.mapped l g) z ((s.mapped l g).takeAtFill l g a) ∧ _
    unfold State.takeAtFill
    dsimp only
    rw [if_pos (by rw [State.share, settings_mapped, lane_mapped]; exact hfull)]
    unfold State.atWindow
    split
    · exact ⟨_, discards_broken (s.mapped l g) l rfl rfl⟩
    · exact ⟨_, discards_run rfl rfl rfl rfl rfl⟩
  · have hset : (s.updLane l fun x => { x with run := { x.run with seg := some g } }).settings l = s.settings l :=
      settings_mapped s l g
    rw [if_neg (by rw [hp]; simp), if_neg hne, if_neg (by rw [hf]; simp), hset, if_neg]
    · exact mapped_discards ⟨_, discards_broken (s.mapped l g) l rfl rfl⟩
    · rw [hkind, hpre]
      simp [Nat.not_le.2 hfar]

/-! ### Refused by the map behind f (R26, R27, R57) -/

/-- The map refuses to absorb a copy of a class at a position: BELOW or FULL. -/
def Lane.Refuses (x : Lane) (i : Index) (c : CopyClass) : Prop := (x.absorb i c x.playTaken).1 ≠ .done

/-- The refusal hangs on nothing that a run and a store fault change. -/
theorem refuses_of {x : Lane} {i : Index} {old : Condition} {c : CopyClass} (hold : x.conditionAt i = some old)
    (h : x.Refuses i c) (r : RunContext) (n : Nat) :
    Lane.Refuses { x with run := r, count := { x.count with storeFaults := n } } i c := by
  unfold Lane.Refuses at h ⊢
  rw [absorb_answer c _ hold] at h
  rw [absorb_answer (x := { x with run := r, count := { x.count with storeFaults := n } }) c _ hold]
  exact h

theorem absorbFirst_refused {s : State} {l : LaneId} {i : Index} {d : Delivery} (g : SegRef) (a : Arrival)
    (h : (s.lane l).Refuses i (copyClass (s.settings l).interpLimit d.marks)) : (s.absorbFirst l g i a d).1 = s := by
  unfold Lane.Refuses at h
  unfold State.absorbFirst
  dsimp only
  cases hanswer : ((s.lane l).absorb i (copyClass (s.settings l).interpLimit d.marks) (s.lane l).playTaken).1 with
  | done => exact absurd hanswer h
  | full => rfl
  | below => rfl

theorem absorbMerged_refused {s : State} {l : LaneId} {i : Index} {q : StoreCell} {m : MarkSet} (a : Arrival)
    (hq : s.readCell l i ((s.lane l).addressIn i) = .copy q)
    (h : (s.lane l).Refuses i (copyClass (s.settings l).interpLimit (some (q.marks &&& m)))) :
    (s.absorbMerged l i a m).1 = s := by
  unfold Lane.Refuses at h
  unfold State.absorbMerged
  dsimp only
  rw [hq]
  dsimp only
  cases hanswer : ((s.lane l).absorb i (copyClass (s.settings l).interpLimit (some (q.marks &&& m)))
    (s.lane l).playTaken).1 with
  | done => exact absurd hanswer h
  | full => rfl
  | below => rfl

/-- The store fault count after the absorption of a BLOCK that brings the first copy of a position. -/
def State.faultsAfter (s : State) (l : LaneId) (i : Index) (old : Condition) (marks : MarkReport) : Nat :=
  if marks ≠ .overmarked ∧ old.playable = false ∧ s.canAssign l i = false then bump (s.lane l).count.storeFaults
  else (s.lane l).count.storeFaults

/-- The hypotheses of a refused absorption: the position's condition, and BELOW, or FULL for the class judged. -/
structure State.RefusedAt (s : State) (l : LaneId) (i : Index) (old : Condition) (marks : MarkReport) : Prop where
  condition : (s.lane l).conditionAt i = some old
  answer : (i = (s.lane l).p ∧ old = .lost ∧ (s.lane l).playTaken = true) ∨
    ∃ c, s.absorbedClass l i marks = some c ∧ ((s.lane l).absorb i c (s.lane l).playTaken).1 = .full

theorem State.RefusedAt.refuses {s : State} {l : LaneId} {i : Index} {old : Condition} {marks : MarkReport}
    (h : s.RefusedAt l i old marks) {c : CopyClass} (hc : s.absorbedClass l i marks = some c) : (s.lane l).Refuses i c := by
  unfold Lane.Refuses
  rcases h.answer with hbelow | ⟨d, hd, hfull⟩
  · rw [absorb_answer c _ h.condition, if_pos hbelow]
    simp
  · rw [hc] at hd
    cases hd
    rw [hfull]
    simp

theorem absorbedClass_marked {s : State} {l : LaneId} {i : Index} {old : Condition}
    (h : (s.lane l).conditionAt i = some old) (rs : List (BitVec 10 × BitVec 10)) :
    (old.playable = true → ∀ q, s.readCell l i ((s.lane l).addressIn i) = .copy q →
        s.absorbedClass l i (.runs rs) =
          some (copyClass (s.settings l).interpLimit (some (q.marks &&& marksOfRuns rs)))) ∧
      (old.playable = true → (∀ q, s.readCell l i ((s.lane l).addressIn i) ≠ .copy q) →
        s.absorbedClass l i (.runs rs) = none) ∧
      (old.playable = false → s.absorbedClass l i (.runs rs) =
        some (copyClass (s.settings l).interpLimit (if s.canAssign l i then some (marksOfRuns rs) else none))) := by
  unfold State.absorbedClass MarkReport.marks
  rw [h]
  dsimp only
  refine ⟨fun hplay q hq => ?_, fun hplay hno => ?_, fun hplay => ?_⟩
  · rw [if_pos (by simpa using hplay), hq]
  · rw [if_pos (by simpa using hplay)]
    cases hr : s.readCell l i ((s.lane l).addressIn i) with
    | copy q => exact absurd hr (hno q)
    | storeFault => rfl
    | unassigned => rfl
  · rw [if_neg (by simp [hplay])]

/-- A merge refused: a copy read is there, and nothing changes. -/
theorem absorbMerged_refusedAt {s : State} {l : LaneId} {i : Index} {old : Condition} {a : Arrival}
    {rs : List (BitVec 10 × BitVec 10)} (h : s.RefusedAt l i old (.runs rs)) (hplay : old.playable = true) :
    (s.absorbMerged l i a (marksOfRuns rs)).1 = s := by
  obtain ⟨hcopy, hnocopy, -⟩ := absorbedClass_marked h.condition rs
  by_cases hread : ∃ q, s.readCell l i ((s.lane l).addressIn i) = .copy q
  · obtain ⟨q, hq⟩ := hread
    exact absorbMerged_refused a hq (h.refuses (hcopy hplay q hq))
  · rcases h.answer with ⟨-, hlost, -⟩ | ⟨c, hc, -⟩
    · rw [hlost] at hplay
      cases hplay
    · rw [hnocopy hplay fun q hq => hread ⟨q, hq⟩] at hc
      cases hc

/-- A first copy refused: nothing changes but the count of a copy that the store refuses too. -/
theorem absorbFirst_refusedAt {s : State} {l : LaneId} {i : Index} {old : Condition} {a : Arrival}
    {rs : List (BitVec 10 × BitVec 10)} (g : SegRef) (h : s.RefusedAt l i old (.runs rs)) (hplay : old.playable = false)
    (ha : a.markSet = some (marksOfRuns rs)) :
    ((s.deliver l i a).1.absorbFirst l g i a (s.deliver l i a).2).1 =
      if s.canAssign l i then s else s.countStoreFault l := by
  have hrefuses := h.refuses ((absorbedClass_marked h.condition rs).2.2 hplay)
  unfold State.deliver
  rw [ha]
  dsimp only
  by_cases hcan : s.canAssign l i = true
  · rw [if_pos hcan] at hrefuses ⊢
    rw [if_pos hcan]
    exact absorbFirst_refused g a hrefuses
  · rw [if_neg hcan] at hrefuses ⊢
    rw [if_neg hcan]
    refine absorbFirst_refused g a ?_
    have hlane : (s.countStoreFault l).lane l = { s.lane l with
        run := (s.lane l).run, count := { (s.lane l).count with storeFaults := bump (s.lane l).count.storeFaults } } :=
      State.lane_updLane ..
    have hset : (s.countStoreFault l).settings l = s.settings l := State.settings_updLane ..
    rw [hset, hlane]
    exact refuses_of h.condition hrefuses _ _

/-- A refused absorption changes nothing but the store fault count, where it brings a copy that the store refuses. -/
theorem absorbing_refused {s : State} {l : LaneId} {i : Index} {old : Condition} (g : SegRef) {a : Arrival}
    (h : s.RefusedAt l i old a.marks) :
    (s.absorbing l g i a).1.lane l =
        { s.lane l with count := { (s.lane l).count with storeFaults := s.faultsAfter l i old a.marks } } ∧
      (s.absorbing l g i a).1.store = s.store := by
  have hsame : ∀ {t : State}, t = s → s.faultsAfter l i old a.marks = (s.lane l).count.storeFaults →
      t.lane l = { s.lane l with count := { (s.lane l).count with storeFaults := s.faultsAfter l i old a.marks } } ∧
        t.store = s.store := by
    rintro t rfl hfaults
    rw [hfaults]
    exact ⟨rfl, rfl⟩
  unfold State.absorbing
  cases hm : a.marks with
  | overmarked =>
    have ha : a.markSet = none := by
      unfold Arrival.markSet
      rw [hm]
      rfl
    rw [hm] at h hsame
    rw [ha]
    exact hsame (absorbFirst_refused g a (h.refuses rfl)) (if_neg fun hn => hn.1 rfl)
  | runs rs =>
    have ha : a.markSet = some (marksOfRuns rs) := by
      unfold Arrival.markSet
      rw [hm]
      rfl
    rw [hm] at h hsame
    rw [ha, h.condition]
    dsimp only
    by_cases hplay : old.playable = true
    · rw [if_pos (by simpa using hplay)]
      exact hsame (absorbMerged_refusedAt h hplay) (if_neg fun hn => by rw [hplay] at hn; exact absurd hn.2.1 (by simp))
    · have hplay : old.playable = false := by simpa using hplay
      rw [if_neg (by simp [hplay]), absorbFirst_refusedAt g h hplay ha]
      by_cases hcan : s.canAssign l i = true
      · rw [if_pos hcan]
        exact hsame rfl (if_neg fun hn => by rw [hcan] at hn; exact absurd hn.2.2 (by simp))
      · have hfaults : s.faultsAfter l i old (.runs rs) = bump (s.lane l).count.storeFaults :=
          if_pos ⟨by simp, hplay, by simpa using hcan⟩
        rw [if_neg hcan, hfaults]
        exact ⟨State.lane_updLane .., State.store_updLane ..⟩

/-- The refusal hangs on nothing of a state but the lane's map, the settings and the store. -/
theorem refusedAt_of {s t : State} {l : LaneId} {i : Index} {old : Condition} {marks : MarkReport} {r : RunContext}
    (ha : t.applied = s.applied) (hs : t.store = s.store) (hl : t.lane l = { s.lane l with run := r })
    (h : s.RefusedAt l i old marks) :
    t.RefusedAt l i old marks ∧ t.faultsAfter l i old marks = s.faultsAfter l i old marks := by
  have hread : t.readCell l i ((t.lane l).addressIn i) = s.readCell l i ((s.lane l).addressIn i) := by
    rw [hl]
    exact readCell_of ha hs l i _
  have hcond : (t.lane l).conditionAt i = (s.lane l).conditionAt i := by
    rw [hl]
    rfl
  have hclass : t.absorbedClass l i marks = s.absorbedClass l i marks := by
    unfold State.absorbedClass
    rw [hread, hcond, settings_of_applied ha, canAssign_of ha hs]
  refine ⟨⟨by rw [hl]; exact h.condition, ?_⟩, ?_⟩
  · rw [hclass, hl]
    refine h.answer.imp id ?_
    rintro ⟨c, hc, hfull⟩
    refine ⟨c, hc, ?_⟩
    rw [absorb_answer c _ h.condition] at hfull
    rw [absorb_answer (x := { s.lane l with run := r }) c _ h.condition]
    exact hfull
  · unfold State.faultsAfter
    rw [canAssign_of ha hs, hl]

/-- A BLOCK behind f that the map refuses. -/
theorem judge_refused {s : State} {l : LaneId} {a : Arrival} {g : SegRef} {i : Index} {old : Condition}
    (hm : (s.lane l).mapArrival a.label = some (g, i)) (hp : before i (s.lane l).p = false) (hne : i ≠ (s.lane l).f)
    (hf : before (s.lane l).f i = false)
    (hnear : (s.lane l).run.kind = .repair ∨ ahead (s.lane l).f i ≤ (s.settings l).absorbLimit ∨
      (s.lane l).run.isPreroll i = true) (h : s.RefusedAt l i old a.marks) :
    ∃ z, Discards l s z (s.judge l a) ∧
      (z.lane l).count = { (s.lane l).count with storeFaults := s.faultsAfter l i old a.marks } := by
  obtain ⟨hrefused, hfaults⟩ := refusedAt_of (applied_mapped s l g) (store_mapped s l g) (lane_mapped s l g) h
  obtain ⟨hlane, hstore⟩ := absorbing_refused g hrefused
  rw [hfaults, lane_mapped] at hlane
  rw [store_mapped] at hstore
  have hbroken : (((s.mapped l g).absorbing l g i a).1.broken l).lane l =
      (((s.mapped l g).absorbing l g i a).1.lane l).breakRun := State.lane_updLane ..
  rw [hlane] at hbroken
  rw [judge_behind hm hp hne hf hnear]
  change ∃ z, Discards l s z ((s.mapped l g).takeBehind l g i a _) ∧ _
  rw [takeBehind_eq]
  refine ⟨((s.mapped l g).absorbing l g i a).1.broken l, ⟨?_, ?_, (State.store_updLane ..).trans hstore, _, rfl, rfl, rfl⟩, ?_⟩
  · rw [hbroken]
    exact ⟨rfl, rfl, rfl, rfl, rfl, rfl, rfl, rfl⟩
  · rw [hbroken]
    rfl
  · rw [hbroken]
    rfl

/-! ### The statement (O33) -/

section
variable {s : State} {l : LaneId} {a : Arrival} {z : State}

/-- An arrival that counts nothing. -/
theorem event_discards_same (hj : s.JudgesOnArrival l) (h : Discards l (s.atBlock l) z ((s.atBlock l).judge l a))
    (hc : (z.lane l).count = ((s.atBlock l).lane l).count) :
    let u := s.event (blockEffect l a)
    (u.lane l).f = (s.lane l).f ∧ List.Sublist u.store s.store ∧ (s.lane l).SameCounts (u.lane l) ∧
      (s.LaneQuiet l → (s.lane l).run.kind = .fill → (u.lane l).count = (s.lane l).count) ∧
      (s.Inv → (s.lane l).Settled → (s.lane l).run.kind = .fill →
        ∀ j, (u.lane l).conditionAt j = (s.lane l).conditionAt j) := by
  intro u
  rw [lane_atBlock] at hc
  obtain ⟨hf, hstore, hcounts⟩ := event_discards hj h
  unfold Lane.SameCounts at hcounts
  rw [hc] at hcounts
  exact ⟨hf, hstore, hcounts, fun hq hk => ((event_discards_fill hj h hk).2 hq).trans hc,
    fun hinv hs hk => (event_discards_fill hj h hk).1 hinv hs⟩

/-- A BLOCK that the map refuses behind f leaves the position as it was, but for what the end of an attempt gives up. -/
theorem block_refused {t : TransportId} {label : BitVec 24} {marks : MarkReport} {pairs : List Pair} {g : SegRef}
    {i : Index} {old : Condition} {u : State} (hwf : WellFormed (.block t label marks pairs) = true)
    (hj : s.JudgesOnArrival t.lane) (hm : (s.lane t.lane).mapArrival label = some (g, i))
    (hp : before i (s.lane t.lane).p = false) (hne : i ≠ (s.lane t.lane).f) (hf : before (s.lane t.lane).f i = false)
    (hnear : (s.lane t.lane).run.kind = .repair ∨ ahead (s.lane t.lane).f i ≤ (s.settings t.lane).absorbLimit ∨
      (s.lane t.lane).run.isPreroll i = true) (h : s.RefusedAt t.lane i old marks) (hinv : s.Inv)
    (hs : (s.lane t.lane).Settled) (hu : exec (.block t label marks pairs) s = .next u) :
    (u.lane t.lane).p = (s.lane t.lane).p ∧ s.Conditioned u t.lane i i old ∧
      findCell u.store (s.cellNumber t.lane i) = findCell s.store (s.cellNumber t.lane i) := by
  obtain ⟨v, w, hexec, htakes, habsorbed⟩ := block_absorbedIn hwf hj hm hp hne hf hnear h.condition
  obtain rfl : v = u := by
    rw [hexec] at hu
    cases hu
    rfl
  obtain ⟨hrefused, -⟩ := refusedAt_of htakes.applied htakes.store htakes.lane h
  obtain ⟨hlane, hstore⟩ := absorbing_refused g (a := { label := label, marks := marks, pairs := pairs }) hrefused
  obtain ⟨up, ucells, ucond⟩ := habsorbed.rests hinv hs
  have hform := ((hinv.lane t.lane).1).form
  have hat : (condsOf (s.lane t.lane).spans)[ahead i (s.lane t.lane).p]? = some old := by
    rw [← conditionAt_condsOf hform]
    exact h.condition
  have hshare : s.share t.lane ≠ 0 := by
    intro h0
    have hlt := (List.getElem?_eq_some_iff.1 hat).1
    have hlead := hform.lead
    rw [condsOf_length, hform.total] at hlt
    have : s.window t.lane = s.share t.lane - 2 := rfl
    omega
  refine ⟨up, ucond old ?_, ?_⟩
  · rw [hlane, htakes.lane]
    exact hat
  · rw [ucells _ (numberIn_cellNumber hshare i), hstore, htakes.store]

end

/-- The late arrival at a full window after the end of a run. -/
theorem blockEffect_late {s : State} {l : LaneId} {a : Arrival} {g : SegRef} (hr : (s.lane l).run.state = .ended)
    (hm : (s.lane l).mapArrival a.label = some (g, (s.lane l).f)) (hfull : (s.lane l).bufferedLead = s.share l - 2) :
    blockEffect l a s.clearOutputs = (s.atBlock l).schedule l .plain := by
  have hlate : (s.atBlock l).lateArrival l a.label = true := by
    rw [lateArrival_atBlock]
    unfold State.lateArrival
    dsimp only
    rw [hr, hm, hfull]
    simp
  change (s.atBlock l).arrive l a = _
  unfold State.arrive
  dsimp only
  rw [if_pos (.inl (by rw [lane_atBlock, hr]; simp)), if_pos hlate]
  rfl

/-- Settles O33: each of these arrivals comes to a result reported in a state with the store and an undisturbed lane (`judge_far`,
`judge_outside`, `judge_passes`, `judge_refused`); of a FILL run the result and what follows leave the conditions
(`event_conditions`) and, on a quiet lane, the counts (`event_counts`). -/
theorem blockDiscarded : Obligations.BlockDiscarded := by
  refine ⟨fun t label marks pairs s hwf hj => ?_, fun t label marks pairs g s hr hwf hended hm hfull => ?_⟩
  · set l := t.lane with hl
    set a : Arrival := { label := label, marks := marks, pairs := pairs } with ha
    have hok : blockOk marks pairs = true := by simpa [WellFormed] using hwf
    have hexec := exec_block (t := t) (label := label) hj.1 hok
    have hlane : (s.atBlock l).lane l = s.lane l := lane_atBlock s l l
    have hset : (s.atBlock l).settings l = s.settings l := settings_atBlock s l
    refine ⟨s.event (blockEffect l a), hexec, fun g i hm hp hf hfar => ?_, ?_, fun g i old hm hp hne hf hnear hold hans => ?_⟩
    · have hclass : (s.atBlock l).broughtClass l i a = s.broughtClass l i a :=
        broughtClass_of (applied_atBlock s l) (store_atBlock s l) l i a
      obtain ⟨z, hz, hskips, hcounts⟩ := judge_far (s := s.atBlock l) (l := l) (a := a) (g := g) (i := i)
        (by rw [hlane]; exact hm) (by rw [hlane]; exact hp) (by rw [hlane]; exact hf) (by
          unfold State.tooFar State.share
          rw [hlane, hset, hclass]
          exact hfar)
      rw [hlane] at hskips hcounts
      obtain ⟨uf, ustore, ucounts⟩ := event_discards hj hz
      obtain ⟨c1, c2, c3, c4, c5, c6⟩ := ucounts
      obtain ⟨-, z2, z3, z4, z5, z6⟩ := hcounts
      exact ⟨uf, ustore, c1.trans hskips,
        ⟨rfl, c2.trans z2, c3.trans z3, c4.trans z4, c5.trans z5, c6.trans z6⟩,
        fun hinv hs hk => (event_discards_fill hj hz hk).1 hinv hs⟩
    · rintro (hnone | ⟨g, i, hm, hpass⟩)
      · obtain ⟨z, hz, hcount⟩ := judge_outside (s := s.atBlock l) (l := l) (a := a) (by rw [hlane]; exact hnone)
        exact event_discards_same hj hz hcount
      · obtain ⟨z, hz, hcount⟩ := judge_passes (s := s.atBlock l) (l := l) (a := a) (g := g) (i := i)
          (by rw [hlane]; exact hm) (by
            unfold State.passesBy State.share
            rw [hlane, hset]
            exact hpass)
        exact event_discards_same hj hz hcount
    · have hrefused : s.RefusedAt l i old marks := ⟨hold, hans⟩
      obtain ⟨hat, hfaults⟩ := refusedAt_of (applied_atBlock s l) (store_atBlock s l) (r := (s.lane l).run) hlane hrefused
      obtain ⟨z, hz, hcount⟩ := judge_refused (s := s.atBlock l) (l := l) (a := a) (g := g) (i := i)
        (by rw [hlane]; exact hm) (by rw [hlane]; exact hp) (by rw [hlane]; exact hne) (by rw [hlane]; exact hf)
        (by rw [hlane, hset]; exact hnear) hat
      rw [hlane, hfaults] at hcount
      obtain ⟨uf, ustore, ucounts⟩ := event_discards hj hz
      unfold Lane.SameCounts at ucounts
      rw [hcount] at ucounts
      refine ⟨uf, ustore, ucounts, fun hq hk => ((event_discards_fill hj hz hk).2 hq).trans hcount, fun hinv hs => ?_⟩
      obtain ⟨up, ucond, ucell⟩ := block_refused hwf hj hm hp hne hf hnear hrefused hinv hs hexec
      exact ⟨up, ucond, ucell, fun hk => (event_discards_fill hj hz hk).1 hinv hs⟩
  · set l := t.lane with hl
    set a : Arrival := { label := label, marks := marks, pairs := pairs } with ha
    have hok : blockOk marks pairs = true := by simpa [WellFormed] using hwf
    have hown := blockEffect_late (a := a) hended hm hfull
    have hleaves := event_leaves_any s (blockEffect l a)
    rw [hown] at hleaves
    obtain ⟨hsteady, htlc, hstore⟩ := steady_schedule (s.atBlock l) l .plain l
    rw [lane_atBlock] at hsteady
    rw [store_atBlock] at hstore
    have hund := undisturbed_of_stays (keeps_schedule (.refl l (s.atBlock l)) l .plain).lane
    have hcount := ((tends_schedule (.refl (fun _ => True) (s.atBlock l)) l .plain).lane l).count trivial
    rw [lane_atBlock, ← hown] at hund hcount
    have hfollows : Follows s (blockEffect l a s.clearOutputs) := by
      rw [hown]
      exact follows_schedule (follows_atBlock s l) l .plain
    obtain ⟨c1, c2, c3, c4, c5, c6⟩ := sameCounts_of_steady hsteady
    refine ⟨s.event (blockEffect l a), exec_block hr hok, (hleaves.f l).trans (congrArg LaneSteady.f hsteady),
      hleaves.store.trans hstore, ⟨(hleaves.skips l).trans c1, (hleaves.strays l).trans c2, (hleaves.overruns l).trans c3,
        (hleaves.noMatches l).trans c4, (hleaves.unanchored l).trans c5, (hleaves.slips l).trans c6⟩, ?_,
      fun hq => (event_counts hq hund).trans hcount, fun hinv hs j => event_conditions hfollows hund hinv hs j⟩
    exact (agrees_of_steady ((hleaves.tlc l).trans (htlc.trans (tlc_atBlock_steady s l)))).strays

end Sys2Proof.Machine
end

section
/-! What an operation of one lane leaves of the rest of the part: the other lane with its transport link controller, the loader
controller, and the empty places of the Splice Unit. -/

namespace Sys2Proof.Machine

set_option Elab.async false

/-- The way from `r` to `s` is the work of lane `l` alone: the other lane and the loader controller are as they were, and a
place of the Splice Unit that is empty stays so. -/
structure Apart (l : LaneId) (r s : State) : Prop where
  side : ∀ k, k ≠ l → s.side k = r.side k
  loader : s.loader = r.loader
  place : ∀ k, r.splice.place k = none → s.splice.place k = none

theorem Apart.refl (l : LaneId) (s : State) : Apart l s s := ⟨fun _ _ => rfl, rfl, fun _ => id⟩

section
variable {l : LaneId} {r s : State}

theorem Apart.trans {t : State} (h : Apart l r s) (k : Apart l s t) : Apart l r t :=
  ⟨fun j hj => (k.side j hj).trans (h.side j hj), k.loader.trans h.loader, fun j hj => k.place j (h.place j hj)⟩

/-- A change that leaves the loader controller and the Splice Unit alone. -/
theorem Apart.of_same {t : State} (h : Apart l r s) (side : ∀ k, k ≠ l → t.side k = s.side k)
    (loader : t.loader = s.loader := by rfl) (splice : t.splice = s.splice := by rfl) : Apart l r t :=
  h.trans ⟨side, loader, fun k hk => by rw [splice]; exact hk⟩

/-! ### The state's own operations -/

theorem apart_setLane (h : Apart l r s) (x : Lane) : Apart l r (s.setLane l x) :=
  h.of_same (fun _ hk => side_setLane s hk.symm x) (State.loader_setLane ..) (State.splice_setLane ..)

theorem apart_updLane (h : Apart l r s) (g : Lane → Lane) : Apart l r (s.updLane l g) := apart_setLane h _

theorem apart_due (h : Apart l r s) : Apart l r (s.due l) := apart_updLane h _

theorem apart_updSeq (h : Apart l r s) (g : Sequencer → Sequencer) : Apart l r (s.updSeq l g) := apart_updLane h _

theorem apart_setTlc (h : Apart l r s) (t : Tlc) : Apart l r (s.setTlc l t) :=
  h.of_same (fun _ hk => side_setTlc s hk.symm t) (State.loader_setTlc ..) (State.splice_setTlc ..)

theorem apart_countReads (h : Apart l r s) (n : Nat) : Apart l r (s.countReads n) := h.of_same fun _ _ => side_countReads s n

theorem apart_setWords (h : Apart l r s) (a : Nat) (ws : List Word) : Apart l r (s.setWords a ws) :=
  h.of_same fun _ _ => side_setWords s a ws

theorem apart_setNews (h : Apart l r s) (n : NewsWord) (b : Word) : Apart l r (s.setNews n b) :=
  h.of_same fun _ _ => side_setNews s n b

/-- The cells of the store replaced. -/
theorem apart_store (h : Apart l r s) (c : List StoreCell) : Apart l r { s with store := c } :=
  h.of_same fun k _ => by cases k <;> rfl

theorem apart_noteStoreFault (h : Apart l r s) : Apart l r (s.noteStoreFault l) := apart_setNews (apart_updLane h _) _ _

/-! ### Runs and transport link controllers -/

theorem place_withdrawCheck (s : State) (l : LaneId) {k : LaneId} (h : s.splice.place k = none) :
    (s.withdrawCheck l).splice.place k = none := by
  have hplaces : (s.withdrawCheck l).splice.place k = if k = l then none else s.splice.place k := by
    unfold State.withdrawCheck
    dsimp only
    cases l <;> cases k <;> dsimp only <;> repeat' split
    all_goals first | rfl | contradiction
  rw [hplaces, h, ite_self]

theorem apart_endRun (h : Apart l r s) : Apart l r (s.endRun l) := by
  unfold State.endRun
  split
  · exact (apart_updLane h _).trans ⟨fun _ _ => side_withdrawCheck _ l, rfl, fun _ => place_withdrawCheck _ l⟩
  · exact h

theorem apart_putTlc (h : Apart l r s) (t : Tlc) : Apart l r (s.putTlc l t) := by
  have hset := apart_setTlc h t
  have hend := apart_endRun hset
  unfold State.putTlc
  dsimp only
  repeat' split
  · exact hend
  · exact hset
  · exact apart_due hend
  · exact apart_due hset

theorem apart_changeTlc (h : Apart l r s) (g : Tlc → Tlc) : Apart l r (s.changeTlc l g) := apart_putTlc h _

theorem apart_halt (h : Apart l r s) : Apart l r (s.halt l) := by
  unfold State.halt
  split
  · exact apart_changeTlc (apart_endRun h) _
  · exact h

/-! ### The repair scheduler -/

theorem apart_sendSeek (h : Apart l r s) (k : RunKind) (g : SegRef) (t : Index) (v : Speed) (w : Bool) :
    Apart l r (s.sendSeek l k g t v w) := by
  unfold State.sendSeek
  exact apart_updLane (apart_changeTlc (apart_endRun h) _) _

theorem apart_fillDecision (h : Apart l r s) (w : Bool) : Apart l r (s.fillDecision l w) := by
  unfold State.fillDecision
  dsimp only
  have hrefill := apart_updLane h fun x => x.updateRefill (s.settings l)
  repeat' split
  · exact apart_updLane (apart_halt hrefill) _
  · exact apart_updLane hrefill _
  · exact apart_sendSeek (apart_updLane hrefill _) ..
  · exact apart_updLane hrefill _

theorem apart_startRepair {t : State} (h : Apart l r s) (ht : s.startRepair l = some t) : Apart l r t := by
  unfold State.startRepair at ht
  dsimp only at ht
  repeat' split at ht
  all_goals simp only [reduceCtorEq, Option.map_eq_some_iff] at ht
  obtain ⟨x, -, rfl⟩ := ht
  exact apart_sendSeek (apart_setLane h x) ..

theorem apart_chainRepair {t : State} {c : Option Index} (h : Apart l r s) (ht : s.chainRepair l c = some t) :
    Apart l r t := by
  unfold State.chainRepair at ht
  dsimp only at ht
  repeat' split at ht
  all_goals simp only [reduceCtorEq, Option.map_eq_some_iff] at ht
  obtain ⟨x, -, rfl⟩ := ht
  exact apart_setLane h x

theorem apart_nextWork (h : Apart l r s) (q : Point) : Apart l r (s.nextWork l q) := by
  unfold State.nextWork
  split
  · rename_i t ht
    split at ht
    · exact apart_chainRepair h ht
    · cases ht
  · split
    · rename_i t ht
      split at ht
      · cases ht
      · exact apart_startRepair h ht
    · exact apart_fillDecision h _

theorem apart_workDecision (h : Apart l r s) (q : Point) : Apart l r (s.workDecision l q) := by
  unfold State.workDecision State.reseekRepair
  dsimp only
  repeat' split
  · exact apart_fillDecision (apart_updLane h _) _
  · exact apart_sendSeek h ..
  · exact h
  · exact h
  · exact apart_nextWork h q

theorem apart_standDown (h : Apart l r s) (m : WorkMode) (w : Option RestReason) : Apart l r (s.standDown l m w) :=
  apart_updLane h _

theorem apart_overtake (h : Apart l r s) (q : Point) : Apart l r (s.overtake l q).1 := by
  unfold State.overtake
  dsimp only
  split
  · dsimp only
    exact apart_updLane h _
  · exact h

/-- A scheduling point. -/
theorem apart_schedule (h : Apart l r s) (q : Point) : Apart l r (s.schedule l q) := by
  unfold State.schedule
  dsimp only
  have htaken := apart_overtake (apart_updLane h fun x => { x with marks := { x.marks with schedule := false } }) q
  repeat' split
  all_goals first
    | with_reducible exact apart_halt (apart_standDown htaken _ _)
    | with_reducible exact apart_standDown htaken _ _
    | with_reducible exact apart_workDecision htaken _

theorem apart_takeResult (h : Apart l r s) (q : IntakeResult) : Apart l r (s.takeResult l q) := by
  unfold State.takeResult
  split
  · generalize hu : State.updLane s l _ = u
    have hnoted : Apart l r u := by
      rw [← hu]
      exact apart_updLane h _
    dsimp only
    split
    · split
      · exact apart_schedule hnoted _
      · split
        · exact apart_schedule (apart_updLane hnoted _) _
        · exact apart_schedule hnoted _
    · split
      · exact apart_schedule (apart_updLane hnoted _) _
      · exact apart_schedule hnoted _
  · exact apart_schedule h _

/-! ### Block intake (R45, R49 to R63) -/

theorem apart_retire (h : Apart l r s) (c : TakenCue) (o : CueOutcome) : Apart l r (s.retire l c o) := by
  unfold State.retire State.writeResult
  dsimp only
  have hpass := apart_countReads h 1
  split
  · exact apart_setNews (apart_setWords (apart_setWords (apart_updSeq hpass _) _ _) _ _) _ _
  · exact apart_updSeq hpass _

/-- A prefetch decision takes and retires cues of its lane. -/
theorem apart_prefetch (n : Nat) : ∀ {s : State}, Apart l r s → Apart l r (State.prefetch n s l) := by
  induction n with
  | zero => exact fun h => h
  | succ n ih =>
    intro s h
    have hread : Apart l r ((s.stepRead l).countReads hostFieldWords) := apart_countReads (apart_countReads h _) _
    have hmove : ∀ k w, Apart l r (((s.stepRead l).countReads hostFieldWords).moveWalk l k w) :=
      fun k w => apart_updSeq hread _
    unfold State.prefetch
    dsimp only
    repeat' split
    · exact apart_due (apart_updSeq (hmove _ _) _)
    · exact ih (apart_retire (hmove _ _) _ _)
    · exact hread
    · exact apart_countReads h _

theorem apart_report (h : Apart l r s) (q : IntakeResult) : Apart l r (s.report l q) := by
  unfold State.report State.prefetchAtEnd
  refine apart_takeResult ?_ _
  repeat' split
  · exact apart_prefetch _ h
  · exact h
  · exact h

theorem apart_countInOrder (h : Apart l r s) : Apart l r (s.countInOrder l) := by
  unfold State.countInOrder State.goodEvent
  split
  · exact apart_changeTlc (apart_updLane h _) _
  · exact apart_updLane h _

theorem apart_deliver (h : Apart l r s) (i : Index) (a : Arrival) : Apart l r (s.deliver l i a).1 := by
  unfold State.deliver State.countStoreFault
  repeat' split
  · exact h
  · exact h
  · dsimp only
    exact apart_updLane h _

theorem apart_writeDelivery (h : Apart l r s) (g : SegRef) (i : Index) (a : Arrival) (d : Delivery) :
    Apart l r (s.writeDelivery l g i a d) := by
  unfold State.writeDelivery
  split
  · exact h
  · exact apart_store h _

theorem apart_takeAtFill (h : Apart l r s) (g : SegRef) (a : Arrival) : Apart l r (s.takeAtFill l g a) := by
  unfold State.takeAtFill State.atWindow
  dsimp only
  have hdeliver := apart_deliver h (s.lane l).f a
  split
  · refine apart_report ?_ _
    split
    · exact apart_updLane h _
    · exact h
  · split
    · exact apart_report (apart_updLane hdeliver _) _
    · rename_i x _
      have hwrite := apart_writeDelivery (apart_setLane hdeliver x) g (s.lane l).f a (s.deliver l (s.lane l).f a).2
      refine apart_report ?_ _
      split
      · exact apart_countInOrder hwrite
      · exact apart_updLane hwrite _

theorem apart_takeFar (h : Apart l r s) (g : SegRef) (i : Index) (o : IntakeOutcome) (c : Option CopyClass) :
    Apart l r (s.takeFar l g i o c) :=
  apart_report (apart_updLane h _) _

theorem apart_takeAhead (h : Apart l r s) (g : SegRef) (i : Index) (a : Arrival) : Apart l r (s.takeAhead l g i a) := by
  unfold State.takeAhead State.takeKept
  dsimp only
  have hdeliver := apart_deliver h i a
  repeat' split
  · exact apart_takeFar h g i _ _
  · exact apart_takeFar h g i _ _
  · exact apart_takeFar h g i _ _
  · exact apart_takeFar hdeliver g i _ _
  · exact apart_report (apart_writeDelivery (apart_setLane hdeliver _) g i a _) _

theorem apart_absorbFirst (h : Apart l r s) (g : SegRef) (i : Index) (a : Arrival) (d : Delivery) :
    Apart l r (s.absorbFirst l g i a d).1 := by
  unfold State.absorbFirst
  dsimp only
  split
  · exact apart_writeDelivery (apart_setLane h _) g i a d
  · exact h
  · exact h

theorem apart_absorbMerged (h : Apart l r s) (i : Index) (a : Arrival) (m : MarkSet) :
    Apart l r (s.absorbMerged l i a m).1 := by
  unfold State.absorbMerged
  dsimp only
  split
  · split
    · dsimp only
      split
      · exact apart_setLane h _
      · exact apart_store (apart_setLane h _) _
    · exact h
    · exact h
  · exact apart_noteStoreFault h
  · exact apart_noteStoreFault h

theorem apart_takeBehind (h : Apart l r s) (g : SegRef) (i : Index) (a : Arrival) (b : Bool) :
    Apart l r (s.takeBehind l g i a b) := by
  rw [takeBehind_eq]
  refine apart_report (apart_updLane ?_ _) _
  unfold State.absorbing
  repeat' split
  · exact apart_absorbFirst h g i a _
  · exact apart_absorbMerged h i a _
  · exact apart_absorbFirst (apart_deliver h i a) g i a _

/-- An arrival judged. -/
theorem apart_judge (h : Apart l r s) (a : Arrival) : Apart l r (s.judge l a) := by
  unfold State.judge State.takeOutside State.takePassed
  dsimp only
  split
  · exact apart_report (apart_updLane h _) _
  · rename_i g i _
    have hseg := apart_updLane h fun x => { x with run := { x.run with seg := some g } }
    repeat' split
    · exact apart_report (apart_updLane hseg _) _
    · exact apart_takeAtFill hseg g a
    · exact apart_takeAhead hseg g i a
    · exact apart_takeBehind hseg g i a _
    · exact apart_report (apart_updLane hseg _) _

theorem apart_releaseBlocks (blocks : List Arrival) : ∀ {s : State}, Apart l r s →
    Apart l r (State.releaseBlocks l blocks s) := by
  induction blocks with
  | nil => exact fun h => h
  | cons a rest ih =>
    intro s h
    unfold State.releaseBlocks
    split
    · exact ih (apart_judge h a)
    · exact h

/-- NO_ANCHOR counted and the held blocks released (R71). -/
theorem apart_noAnchor (h : Apart l r s) (q : CheckRequest) : Apart l r (s.noAnchor l q) :=
  apart_releaseBlocks _ (apart_updLane (apart_updLane h _) _)

end

end Sys2Proof.Machine
end

section
/-! The end of a join check that delivers no match, and the request that the free unit takes (O42). -/

namespace Sys2Proof.Machine

set_option Elab.async false

/-! ### NO_MATCH (R72) -/

theorem freeUnit_vacant {s : State} (ha : s.splice.pendingA = none) (hb : s.splice.pendingB = none) :
    s.freeUnit.splice = .vacant := by
  unfold State.freeUnit Splice.vacant
  dsimp only
  rw [ha, hb]

/-- The part with a NO_MATCH counted. -/
def State.countUnmatched (s : State) (l : LaneId) : State :=
  s.updLane l fun x => { x with count := { x.count with noMatches := bump x.count.noMatches } }

/-- The part with it counted, the run abandoned and the bad event taken, before its result is reported. -/
def State.abandoned (s : State) (l : LaneId) : State :=
  ((s.countUnmatched l).endRun l).changeTlc l fun t => (t.bad s.applied.violationLimit).2

theorem noMatch_eq (s : State) (l : LaneId) : s.noMatch l = (s.abandoned l).report l (abandonedResult .noMatch) := by
  have happ : ((s.countUnmatched l).endRun l).applied = s.applied :=
    (State.applied_endRun ..).trans (State.applied_updLane ..)
  unfold State.abandoned
  rw [← happ]
  rfl

theorem lane_abandoned (s : State) (l : LaneId) :
    ((s.abandoned l).lane l).f = (s.lane l).f ∧
      ((s.abandoned l).lane l).count = { (s.lane l).count with noMatches := bump (s.lane l).count.noMatches } := by
  have hnotes := notes_changeTlc (notes_endRun (.refl l (s.countUnmatched l))) fun t =>
    (t.bad s.applied.violationLimit).2
  have hrest : (s.abandoned l).lane l = _ := hnotes.lane.rest
  rw [State.countUnmatched, State.lane_updLane] at hrest
  exact ⟨by rw [hrest], by rw [hrest]⟩

theorem tlc_abandoned (s : State) (l : LaneId) :
    (s.abandoned l).tlc l = ((s.tlc l).bad s.applied.violationLimit).2 := by
  rw [State.abandoned, State.tlc_changeTlc, State.tlc_endRun, State.countUnmatched, State.tlc_updLane]

/-- What NO_MATCH leaves of f, of the counts, of the controller and of a vacant unit. -/
theorem noMatch_leaves (s : State) (l : LaneId) :
    ((s.noMatch l).lane l).f = (s.lane l).f ∧
      ((s.noMatch l).lane l).count.noMatches = bump (s.lane l).count.noMatches ∧
      ((s.noMatch l).tlc l).steady = ((s.tlc l).bad s.applied.violationLimit).2.steady ∧
      (s.splice = .vacant → (s.noMatch l).splice = .vacant) := by
  have hreports := report_reports (s.abandoned l) l (q := abandonedResult .noMatch) rfl rfl
  have hjudges := judges_report (.refl l (s.abandoned l)) (q := abandonedResult .noMatch) rfl
  have hcounted : Tends (fun _ => False) s (s.countUnmatched l) :=
    tends_updLane (.refl _ s) l _ fun _ => ⟨id, False.elim, False.elim⟩
  have htends := tends_changeTlc (tends_endRun hcounted l) l fun t => (t.bad s.applied.violationLimit).2
  obtain ⟨hf, hcount⟩ := lane_abandoned s l
  obtain ⟨-, -, -, hno, -⟩ := hreports.counts
  rw [noMatch_eq, ← tlc_abandoned]
  exact ⟨hreports.f.trans hf, hno.trans (by rw [hcount]), hreports.tlc l, fun h => hjudges.vacant (htends.vacant h)⟩

/-- A controller that has the steady part of one after a bad event has taken it (R141). -/
theorem badEventTaken_of_steady {s t : State} {l : LaneId}
    (h : (t.tlc l).steady = ((s.clearOutputs.tlc l).bad s.applied.violationLimit).2.steady) : s.BadEventTaken t l := by
  have hagree := agrees_of_steady h
  obtain ⟨hbad, -, -, hlimit⟩ := bad_eq (s.clearOutputs.tlc l) s.applied.violationLimit
  unfold State.BadEventTaken
  rw [hagree.badEvents, hagree.violation, hagree.faults, hagree.spindle, hagree.disc, hbad]
  rw [tlc_clearOutputs] at hlimit ⊢
  exact ⟨rfl, hlimit⟩

/-- The completion of a check none of whose readings matches, with no request waiting. -/
theorem completeCheck_noMatch {s : State} {c : RunningCheck} (ha : s.splice.pendingA = none)
    (hb : s.splice.pendingB = none) (hd : c.discarded = false)
    (hno : ∀ r ∈ c.readings, r.matched c.request = false) :
    s.completeCheck c = s.freeUnit.noMatch c.lane ∧ (s.completeCheck c).splice = .vacant := by
  have hdeliver : s.freeUnit.deliverCheck c = s.freeUnit.noMatch c.lane := by
    unfold State.deliverCheck
    rw [hd, List.find?_eq_none.2 fun r hr => by simp [hno r hr]]
    rfl
  obtain ⟨-, -, -, hvacant⟩ := noMatch_leaves s.freeUnit c.lane
  have hfree := hvacant (freeUnit_vacant ha hb)
  have hown : s.completeCheck c = s.freeUnit.noMatch c.lane := by
    change State.nextCheck checkFuel (s.freeUnit.deliverCheck c) = _
    rw [hdeliver, nextCheck_vacant hfree]
  exact ⟨hown, hown ▸ hfree⟩

/-- Its event: the unit free, f as it was, the NO_MATCH counted and a bad event taken. -/
theorem event_noMatch {s : State} {c : RunningCheck} (ha : s.splice.pendingA = none) (hb : s.splice.pendingB = none)
    (hd : c.discarded = false) (hno : ∀ r ∈ c.readings, r.matched c.request = false) :
    let t := s.event fun u => u.completeCheck c
    t.splice.running = none ∧ (t.lane c.lane).f = (s.lane c.lane).f ∧
      (t.lane c.lane).count.noMatches = bump (s.lane c.lane).count.noMatches ∧ s.BadEventTaken t c.lane := by
  intro t
  obtain ⟨hown, hvacant⟩ := completeCheck_noMatch (s := s.clearOutputs) ha hb hd hno
  obtain ⟨hf, hcount, htlc, -⟩ := noMatch_leaves s.clearOutputs.freeUnit c.lane
  have hleaves := event_leaves_any s fun u => u.completeCheck c
  have hlane : s.clearOutputs.freeUnit.lane c.lane = s.lane c.lane := by cases c.lane <;> rfl
  have hfree : s.clearOutputs.freeUnit.tlc c.lane = s.clearOutputs.tlc c.lane := by cases c.lane <;> rfl
  rw [← hown, hlane] at hf hcount
  rw [← hown, hfree] at htlc
  exact ⟨hleaves.free (by rw [hvacant]; rfl), (hleaves.f _).trans hf, (hleaves.noMatches _).trans hcount,
    badEventTaken_of_steady ((hleaves.tlc _).trans htlc)⟩

/-! ### A discarded check (R75) -/

theorem completeCheck_discarded {s : State} {c : RunningCheck} (hd : c.discarded = true) :
    s.completeCheck c = State.nextCheck checkFuel s.freeUnit := by
  change State.nextCheck checkFuel (s.freeUnit.deliverCheck c) = _
  rw [State.deliverCheck, if_pos hd]

/-- Its event with no request waiting: the unit free, f and the counts as they were. -/
theorem event_discarded {s : State} {c : RunningCheck} (ha : s.splice.pendingA = none) (hb : s.splice.pendingB = none)
    (hd : c.discarded = true) (l : LaneId) :
    let t := s.event fun u => u.completeCheck c
    t.splice.running = none ∧ (t.lane l).f = (s.lane l).f ∧ (s.lane l).SameCounts (t.lane l) := by
  intro t
  have hown : s.clearOutputs.completeCheck c = s.clearOutputs.freeUnit := by
    rw [completeCheck_discarded hd, nextCheck_vacant (freeUnit_vacant (s := s.clearOutputs) ha hb)]
  have hleaves := event_leaves_any s fun u => u.completeCheck c
  have hlane : s.clearOutputs.freeUnit.lane l = s.lane l := by cases l <;> rfl
  rw [hown] at hleaves
  rw [← hlane]
  exact ⟨hleaves.free rfl, hleaves.f l, hleaves.skips l, hleaves.strays l, hleaves.overruns l, hleaves.noMatches l,
    hleaves.unanchored l, hleaves.slips l⟩

/-! ### The request that the free unit takes (R67, R74) -/

theorem nextCheck_busy {s : State} {c : RunningCheck} (h : s.splice.running = some c) (n : Nat) :
    State.nextCheck n s = s := by
  cases n with
  | zero => rfl
  | succ n =>
    unfold State.nextCheck
    rw [h]

/-- Lane A's request is the first. -/
theorem nextCheck_takes {s : State} {l : LaneId} {q : CheckRequest} (hfree : s.splice.running = none)
    (hq : s.splice.place l = some q) (hl : l = .a ∨ s.splice.pendingA = none) (n : Nat) :
    State.nextCheck (n + 1) s = State.nextCheck n (s.takeCheck l q) := by
  rw [State.nextCheck, hfree]
  cases l with
  | a =>
    have hA : s.splice.pendingA = some q := hq
    rw [hA]
  | b =>
    have hA : s.splice.pendingA = none := hl.resolve_left (by simp)
    have hB : s.splice.pendingB = some q := hq
    rw [hA, hB]

/-- The part with the unit free and the request of a lane taken from its place. -/
def State.taken (s : State) (l : LaneId) : State :=
  { s with splice := { s.splice.setPlace l none with running := none } }

theorem lane_taken (s : State) (l k : LaneId) : (s.clearOutputs.taken l).lane k = s.lane k := by cases k <;> rfl

theorem taken_vacant {s : State} {l : LaneId} (hl : l = .a ∨ s.splice.pendingA = none)
    (hother : l = .b ∨ s.splice.pendingB = none) : (s.taken l).splice = .vacant := by
  cases l with
  | a =>
    have hB : s.splice.pendingB = none := hother.resolve_left (by simp)
    simp [State.taken, Splice.setPlace, Splice.vacant, hB]
  | b =>
    have hA : s.splice.pendingA = none := hl.resolve_left (by simp)
    simp [State.taken, Splice.setPlace, Splice.vacant, hA]

/-- The completion of a discarded check while requests wait. -/
theorem completeCheck_takes {s : State} {c : RunningCheck} {l : LaneId} {q : CheckRequest} (hd : c.discarded = true)
    (hq : s.splice.place l = some q) (hl : l = .a ∨ s.splice.pendingA = none) :
    s.completeCheck c = State.nextCheck 3 ((s.taken l).fixReadings l q) := by
  have hplace : s.freeUnit.splice.place l = some q := by cases l <;> exact hq
  have htaken : { s.freeUnit with splice := s.freeUnit.splice.setPlace l none } = s.taken l := by cases l <;> rfl
  rw [completeCheck_discarded hd, checkFuel, nextCheck_takes rfl hplace hl, takeCheck_eq, htaken]

/-- The readings that the request finds are those of the state the event began in. -/
theorem readCandidates_taken (s : State) (l : LaneId) (q : CheckRequest) :
    (State.readCandidates l q candidates (s.clearOutputs.taken l)).2 = s.readings l q ∧
      Faulted (s.clearOutputs.taken l) (State.readCandidates l q candidates (s.clearOutputs.taken l)).1 := by
  obtain ⟨hreads, hfault, -⟩ := readCandidates_eq l q candidates (s.clearOutputs.taken l)
  refine ⟨?_, hfault⟩
  have hsame : (s.clearOutputs.taken l).readingAt l q = s.readingAt l q := funext fun e =>
    (readingAt_of (s := s) (t := s.clearOutputs.taken l) (l := l) (q := q) rfl rfl (by rw [lane_taken])
      (by rw [lane_taken]) (by rw [lane_taken]) e).1
  rw [hreads, hsame]
  rfl

section
variable {s : State} {c : RunningCheck} {l : LaneId} {q : CheckRequest}

/-- With comparable readings their check runs, and nothing else follows. -/
theorem event_nextRuns (hd : c.discarded = true) (hrest : s.AtRest) (hq : s.splice.place l = some q)
    (hl : l = .a ∨ s.splice.pendingA = none) {first : Reading} {rest : List Reading}
    (hfirst : s.readings l q = first :: rest) :
    let t := s.event fun u => u.completeCheck c
    t.splice = { s.splice.setPlace l none with
        running := some { lane := l, request := q, readings := first :: rest, reached := first.err,
                          discarded := false } } ∧
      (t.lane l).run = (s.lane l).run ∧ (t.lane l).f = (s.lane l).f ∧ (s.lane l).SameCounts (t.lane l) := by
  intro t
  obtain ⟨hreads, hfault⟩ := readCandidates_taken s l q
  obtain ⟨n, hn⟩ := hfault.lane l
  rw [lane_taken] at hn
  have hown : s.clearOutputs.completeCheck c =
      { (State.readCandidates l q candidates (s.clearOutputs.taken l)).1 with
        splice := { s.splice.setPlace l none with
          running := some { lane := l, request := q, readings := first :: rest, reached := first.err,
                            discarded := false } } } := by
    rw [completeCheck_takes (s := s.clearOutputs) hd hq hl]
    unfold State.fixReadings
    rw [hreads, hfirst]
    exact nextCheck_busy rfl 3
  have hat : (s.clearOutputs.completeCheck c).AtRest := by
    rw [hown]
    exact AtRest_splice (AtRest_faulted (AtRest_splice (AtRest_clearOutputs hrest) _) hfault) _
  have ht : t = (s.clearOutputs.completeCheck c).finish s.clearOutputs := event_settled hat
  rw [ht, hown, (store_finish _ _).2, lane_finish, lane_splice, hn]
  exact ⟨rfl, rfl, rfl, rfl, rfl, rfl, rfl, rfl, rfl⟩

/-- What the taking of another lane's request leaves of a lane that waits for none: its empty place and its NO_ANCHOR count. -/
theorem takeCheck_other {k : LaneId} (hk : k ≠ l) (hp : s.splice.place k = none) :
    (s.takeCheck l q).splice.place k = none ∧
      ((s.takeCheck l q).lane k).count.unanchored = (s.lane k).count.unanchored := by
  set z : State := { s with splice := s.splice.setPlace l none } with hz
  have hplace : z.splice.place k = none := by
    rw [hz]
    cases k <;> cases l <;> first | exact hp | exact absurd rfl hk
  obtain ⟨-, hfault, -⟩ := readCandidates_eq l q candidates z
  set v := (State.readCandidates l q candidates z).1 with hv
  have hcount : (v.lane k).count.unanchored = (s.lane k).count.unanchored := by
    obtain ⟨n, hn⟩ := hfault.lane k
    rw [hn, hz, lane_splice]
  rw [takeCheck_eq, ← hz]
  unfold State.fixReadings
  rw [← hv]
  split
  · have hapart := apart_noAnchor (.refl l v) q
    exact ⟨hapart.place k (by rw [hfault.splice]; exact hplace), by rw [lane_of_side (hapart.side k hk), hcount]⟩
  · exact ⟨by rw [← hplace]; cases k <;> rfl, by rw [lane_splice, hcount]⟩

/-- The unit that finds no request of lane A counts none of its answers. -/
theorem nextCheck_unanchored (n : Nat) : ∀ {s : State}, s.splice.place .a = none →
    ((State.nextCheck n s).lane .a).count.unanchored = (s.lane .a).count.unanchored := by
  induction n with
  | zero => exact fun _ => rfl
  | succ n ih =>
    intro s hp
    have hA : s.splice.pendingA = none := hp
    unfold State.nextCheck
    rw [hA]
    split
    · contradiction
    · rename_i q _ _ _
      obtain ⟨hplace, hcount⟩ := takeCheck_other (s := s) (l := .b) (q := q) (k := .a) (by simp) hp
      rw [ih hplace, hcount]
    · rfl

/-- With none the answer is NO_ANCHOR at once: counted, and the unit is free for the other lane's request. -/
theorem event_nextUnanchored (hd : c.discarded = true) (hq : s.splice.place l = some q)
    (hl : l = .a ∨ s.splice.pendingA = none) (hnone : s.readings l q = []) :
    let t := s.event fun u => u.completeCheck c
    (t.lane l).count.unanchored = bump (s.lane l).count.unanchored ∧
      (l = .b ∨ s.splice.pendingB = none → t.splice.running = none) := by
  intro t
  obtain ⟨hreads, hfault⟩ := readCandidates_taken s l q
  set v := (State.readCandidates l q candidates (s.clearOutputs.taken l)).1 with hv
  obtain ⟨n, hn⟩ := hfault.lane l
  rw [lane_taken] at hn
  have hown := completeCheck_takes (s := s.clearOutputs) hd hq hl
  have hfix : (s.clearOutputs.taken l).fixReadings l q = v.noAnchor l q := by
    unfold State.fixReadings
    rw [hreads, hnone]
  have hjudges := judges_releaseHeld (.refl l (v.countUnanchored l)) q.block 0 .noAnchor
  change Judges l _ (v.noAnchor l q) at hjudges
  obtain ⟨-, -, hun⟩ := hjudges.checks
  rw [State.countUnanchored, State.lane_updLane, hn] at hun
  have hleaves := event_leaves_any s fun u => u.completeCheck c
  rw [hown, hfix] at hleaves
  by_cases hother : l = .b ∨ s.splice.pendingB = none
  · have hvacant : (v.noAnchor l q).splice = .vacant :=
      hjudges.vacant ((State.splice_updLane ..).trans (hfault.splice.trans (taken_vacant (s := s.clearOutputs) hl hother)))
    rw [nextCheck_vacant hvacant] at hleaves
    exact ⟨(hleaves.unanchored l).trans hun, fun _ => hleaves.free (by rw [hvacant]; rfl)⟩
  · refine ⟨?_, fun h => absurd h hother⟩
    cases l with
    | b => exact absurd (.inl rfl) hother
    | a =>
      have hplace : (v.noAnchor .a q).splice.place .a = none :=
        (apart_noAnchor (.refl .a v) q).place .a (by rw [hfault.splice]; rfl)
      exact (hleaves.unanchored .a).trans ((nextCheck_unanchored 3 hplace).trans hun)

end

/-- Settles O42: with no request waiting a discarded check only frees the unit (`event_discarded`) and one without a match is
NO_MATCH and a bad event (`event_noMatch`); a discarded check that ends while requests wait leaves the first of them to the unit,
whose check runs (`event_nextRuns`) or is answered NO_ANCHOR (`event_nextUnanchored`). -/
theorem checkCompletes : Obligations.CheckCompletes := by
  intro c s hr hc
  refine ⟨_, exec_checkCompletion hr hc, fun ha hb => ⟨fun hd => event_discarded ha hb hd c.lane, fun hd hno =>
    event_noMatch ha hb hd hno⟩, fun l q hd hrest hq hl => ⟨fun first rest hfirst => ?_, fun hnone => ?_⟩⟩
  · exact event_nextRuns hd hrest hq hl hfirst
  · exact event_nextUnanchored hd hq hl hnone

end Sys2Proof.Machine
end

section
/-! A scheduling point and those that follow from it in its event: each comes from a change of the transport's state (R80, R127),
and after at most three of them the lane has none due. -/

namespace Sys2Proof.Machine

set_option Elab.async false

/-! ### A SEEK sent (R42, R64, R134) -/

/-- What a SEEK of the repair scheduler is sent for: the plan of its run. -/
structure SeekPlan where
  kind : RunKind
  seg : SegRef
  target : Index
  speed : Speed
  steady : Bool

/-- The position a run begins at (R65). -/
def SeekPlan.start (q : SeekPlan) (anchored : Bool) : Index := if anchored then q.target - 2 else q.target

/-- The seek as it is sent. -/
def SeekPlan.seek (q : SeekPlan) (anchored : Bool) : Seek :=
  { address := q.seg.addressOf (q.start anchored), speed := q.speed, steady := q.steady }

/-- The context of the run it begins. -/
def SeekPlan.run (q : SeekPlan) (anchored : Bool) : RunContext :=
  { state := .seeking, kind := q.kind, target := q.target, targetAddress := q.seg.addressOf q.target,
    seekPosition := q.start anchored, anchored := anchored, seg := some q.seg, targetSeg := some q.seg, err := 0,
    check := if anchored then .waiting else .none, held := [], heldBefore := 0, inOrder := 0 }

/-- The lane with the run begun. -/
def Lane.seeks (x : Lane) (q : SeekPlan) (anchored : Bool) : Lane :=
  { x with run := q.run anchored, rsc := { x.rsc with runSpeed := q.speed, runSteady := q.steady, runPosition := none } }

/-- The part with the SEEK sent and the run begun, before the scheduling point that the SEEK brings. -/
def State.sought (s : State) (l : LaneId) (q : SeekPlan) : State :=
  let anchored := s.anchoredTest l q.seg q.target
  ((s.endRun l).setTlc l ((s.tlc l).takeSeek (q.seek anchored) s.applied.seekLimit)).updLane l fun x => x.seeks q anchored

theorem endRun_over {s : State} {l : LaneId} (h : (s.lane l).run.inProgress = false) : s.endRun l = s := by
  unfold State.endRun
  rw [h]
  rfl

theorem lane_endRun (s : State) (l : LaneId) :
    ∃ r, (s.endRun l).lane l = { s.lane l with run := r } ∧ r.inProgress = false := by
  unfold State.endRun
  split
  · exact ⟨(s.lane l).run.finish, by rw [State.lane_withdrawCheck, State.lane_updLane], rfl⟩
  · rename_i h
    exact ⟨(s.lane l).run, rfl, by simpa using h⟩

theorem lane_sought (s : State) (l : LaneId) (q : SeekPlan) :
    (s.sought l q).lane l = (s.lane l).seeks q (s.anchoredTest l q.seg q.target) := by
  obtain ⟨r, hr, -⟩ := lane_endRun s l
  rw [State.sought, State.lane_updLane, State.lane_setTlc, hr]
  rfl

theorem tlc_sought (s : State) (l : LaneId) (q : SeekPlan) : (s.sought l q).tlc l =
    (s.tlc l).takeSeek (q.seek (s.anchoredTest l q.seg q.target)) s.applied.seekLimit := by
  rw [State.sought, State.tlc_updLane, State.tlc_setTlc]

theorem applied_sought (s : State) (l : LaneId) (q : SeekPlan) : (s.sought l q).applied = s.applied := by
  rw [State.sought, State.applied_updLane, State.applied_setTlc, State.applied_endRun]

theorem takeSeek_state {t : Tlc} (h : t.state.usable = true) (k : Seek) (n : Nat) :
    (t.takeSeek k n).state = .seeking := by
  unfold Tlc.takeSeek
  rw [if_pos h]

theorem keeps_sought (s : State) (l : LaneId) (q : SeekPlan) : Keeps l s (s.sought l q) := by
  unfold State.sought
  exact keeps_updRest (keeps_setTlc (keeps_endRun (.refl l s) l) l _) l _

/-- A SEEK to a usable transport is a scheduling point where it is not SEEKING already (R127). -/
theorem sendSeek_eq {s : State} {l : LaneId} (h : (s.tlc l).state.usable = true) (q : SeekPlan) :
    s.sendSeek l q.kind q.seg q.target q.speed q.steady =
      if (s.tlc l).state = .seeking then s.sought l q else (s.sought l q).due l := by
  set anchored := s.anchoredTest l q.seg q.target with ha
  set u := (s.endRun l).setTlc l ((s.tlc l).takeSeek (q.seek anchored) s.applied.seekLimit) with hu
  have hover : u.endRun l = u := by
    obtain ⟨r, hr, hno⟩ := lane_endRun s l
    refine endRun_over ?_
    rw [hu, State.lane_setTlc, hr]
    exact hno
  have hput : ((s.endRun l).changeTlc l fun t => t.takeSeek (q.seek anchored) s.applied.seekLimit) =
      if (s.tlc l).state = .seeking then u else u.due l := by
    unfold State.changeTlc State.putTlc
    dsimp only
    rw [State.tlc_endRun, takeSeek_state h, ← hu, hover, ite_self]
  have hsend : s.sendSeek l q.kind q.seg q.target q.speed q.steady =
      ((s.endRun l).changeTlc l fun t => t.takeSeek (q.seek anchored) s.applied.seekLimit).updLane l
        fun x => x.seeks q anchored := rfl
  rw [hsend, hput]
  split
  · rfl
  · unfold State.due
    rw [updLane_updLane, State.sought, updLane_updLane]
    rfl

/-! ### The work that a lane does on (R81, R83) -/

/-- A lane whose scheduler may decide on work: enabled, with reading open, no quiet and a usable transport (R79). -/
structure State.Decides (s : State) (l : LaneId) : Prop where
  share : s.share l ≠ 0
  reading : (s.lane l).seq.reading = true
  quiet : (s.lane l).rsc.quiet = false
  usable : (s.tlc l).state.usable = true

/-- A lane whose work goes on, with no rest reason left and no scheduling point due. -/
structure State.Works (s : State) (l : LaneId) : Prop where
  goesOn : s.WorkGoesOn l
  rest : (s.lane l).rsc.rest = none
  calm : (s.lane l).marks.schedule = false
  usable : (s.tlc l).state.usable = true

/-- The part with the scheduling point of a lane taken up. -/
def State.takePoint (s : State) (l : LaneId) : State :=
  s.updLane l fun x => { x with marks := { x.marks with schedule := false } }

theorem takePoint_self {s : State} {l : LaneId} (h : (s.lane l).marks.schedule = false) : s.takePoint l = s :=
  updLane_self (by rw [← h])

theorem takePoint_due {s : State} {l : LaneId} (h : (s.lane l).marks.schedule = false) : (s.due l).takePoint l = s := by
  unfold State.takePoint State.due
  rw [updLane_updLane]
  exact takePoint_self h

theorem lane_takePoint (s : State) (l : LaneId) : (s.takePoint l).lane l =
    { s.lane l with marks := { (s.lane l).marks with schedule := false } } := State.lane_updLane ..

theorem overtake_kept {s : State} {l : LaneId} (h : (s.lane l).rsc.mode = .repair → (s.lane l).activeSpan ≠ none)
    (q : Point) : s.overtake l q = (s, q) := by
  unfold State.overtake
  exact if_neg fun hn => h hn.1 hn.2

/-- What a scheduling point does once an attempt whose span has gone is dropped (R79). -/
def State.atPoint (s : State) (l : LaneId) (q : Point) : State :=
  if !s.enabled l || !(s.lane l).seq.reading then (s.standDown l .none none).halt l
  else
    match (s.tlc l).state with
    | .offline | .starting | .empty | .toc => s.standDown l .none none
    | .mechHeld => s.standDown l .rest (some .mechanism)
    | .ready | .seeking | .reading =>
      if (s.lane l).rsc.quiet then s.standDown l .rest (some .quiet) else s.workDecision l q

theorem schedule_eq (s : State) (l : LaneId) (q : Point) :
    s.schedule l q = ((s.takePoint l).overtake l q).1.atPoint l ((s.takePoint l).overtake l q).2 := rfl

theorem atPoint_decides {s : State} {l : LaneId} (h : s.Decides l) (q : Point) :
    s.atPoint l q = s.workDecision l q := by
  have husable := h.usable
  unfold State.atPoint
  rw [if_neg (by simp [State.enabled, h.share, h.reading]), h.quiet]
  cases hs : (s.tlc l).state <;> simp [TlcState.usable, hs] at husable ⊢

/-- Whether the scheduler may decide on work hangs on its settings, its sequencer, quiet and the transport. -/
theorem State.Decides.of_alike {s t : State} {l : LaneId} (h : s.Decides l) (happ : t.applied = s.applied)
    (hseq : (t.lane l).seq = (s.lane l).seq) (hquiet : (t.lane l).rsc.quiet = (s.lane l).rsc.quiet)
    (htlc : t.tlc l = s.tlc l) : t.Decides l := by
  refine ⟨?_, ?_, hquiet.trans h.quiet, by rw [htlc]; exact h.usable⟩
  · rw [State.share, settings_of_applied happ]
    exact h.share
  · rw [hseq]
    exact h.reading

theorem applied_takePoint (s : State) (l : LaneId) : (s.takePoint l).applied = s.applied := State.applied_updLane ..

theorem tlc_takePoint (s : State) (l : LaneId) : (s.takePoint l).tlc l = s.tlc l := State.tlc_updLane ..

theorem decides_takePoint {s : State} {l : LaneId} : (s.takePoint l).Decides l ↔ s.Decides l :=
  ⟨fun h => h.of_alike (applied_takePoint s l).symm (by rw [lane_takePoint]) (by rw [lane_takePoint])
      (tlc_takePoint s l).symm,
    fun h => h.of_alike (applied_takePoint s l) (by rw [lane_takePoint]) (by rw [lane_takePoint]) (tlc_takePoint s l)⟩

/-- A scheduling point with no attempt overtaken is the work decision. -/
theorem schedule_decides {s : State} {l : LaneId} (h : s.Decides l)
    (hkept : (s.lane l).rsc.mode = .repair → (s.lane l).activeSpan ≠ none) (q : Point) :
    s.schedule l q = (s.takePoint l).workDecision l q := by
  rw [schedule_eq, overtake_kept (by rw [lane_takePoint]; exact hkept), atPoint_decides (decides_takePoint.2 h)]


/-! ### The fill decision (R82, R83, R84) -/

theorem updateRefill_eq (x : Lane) (v : LaneSettings) : x.updateRefill v =
    { x with rsc := { x.rsc with
      refillWait := x.rsc.refillWait && decide (v.share - 2 - v.refillGap < x.bufferedLead) } } := by
  unfold Lane.updateRefill
  split
  · rename_i h
    rw [decide_eq_false (by omega), Bool.and_false]
  · rename_i h
    rw [decide_eq_true (by omega), Bool.and_true]

/-- A lane that fills does not wait for a refill (R84). -/
theorem refillWait_of_fills {x : Lane} {n : Nat} (h : x.fillRest n = none) : x.rsc.refillWait = false := by
  unfold Lane.fillRest at h
  split_ifs at h with hheld hend hfull hwait
  simpa using fun hw => hwait (.inr hw)

/-- The part with the refill wait of a lane brought up to date. -/
def State.refilled (s : State) (l : LaneId) : State := s.updLane l fun x => x.updateRefill (s.settings l)

/-- The part with its scheduler in FILL. -/
def State.filling (s : State) (l : LaneId) : State :=
  (s.refilled l).updLane l fun x => { x with rsc := { x.rsc with mode := .fill, rest := none } }

/-- The part with its scheduler in REST for a reason of R82. -/
def State.resting (s : State) (l : LaneId) (r : RestReason) : State :=
  s.updLane l fun x => { x with rsc := { x.rsc with
    mode := .rest, rest := some r, refillWait := x.rsc.refillWait || r == .windowFull } }

/-- The plan of a fill from a position on. -/
def fillPlan (g : SegRef) (t : Index) (v : Speed) : SeekPlan :=
  { kind := .fill, seg := g, target := t, speed := v, steady := false }

section
variable {s : State} {l : LaneId}

theorem applied_refilled (s : State) (l : LaneId) : (s.refilled l).applied = s.applied := State.applied_updLane ..

theorem tlc_refilled (s : State) (l : LaneId) : (s.refilled l).tlc l = s.tlc l := State.tlc_updLane ..

theorem lane_refilled (s : State) (l : LaneId) : (s.refilled l).lane l = (s.lane l).updateRefill (s.settings l) :=
  State.lane_updLane ..

theorem lane_filling (s : State) (l : LaneId) : (s.filling l).lane l =
    { (s.lane l).updateRefill (s.settings l) with
      rsc := { ((s.lane l).updateRefill (s.settings l)).rsc with mode := .fill, rest := none } } := by
  rw [State.filling, State.lane_updLane, lane_refilled]

theorem tlc_filling (s : State) (l : LaneId) : (s.filling l).tlc l = s.tlc l :=
  (State.tlc_updLane ..).trans (tlc_refilled s l)

theorem applied_filling (s : State) (l : LaneId) : (s.filling l).applied = s.applied :=
  (State.applied_updLane ..).trans (applied_refilled s l)

theorem fillDecision_rests {r : RestReason}
    (h : ((s.lane l).updateRefill (s.settings l)).fillRest (s.share l) = some r) (w : Bool) :
    s.fillDecision l w = ((s.refilled l).halt l).resting l r := by
  have hrest : ((s.refilled l).lane l).fillRest ((s.refilled l).share l) = some r := by
    rw [lane_refilled, State.share, settings_of_applied (applied_refilled s l)]
    exact h
  unfold State.fillDecision
  dsimp only
  change (match ((s.refilled l).lane l).fillRest ((s.refilled l).share l) with
    | some r => _
    | none => _) = _
  rw [hrest]
  rfl

theorem fillDecision_fills (h : ((s.lane l).updateRefill (s.settings l)).fillRest (s.share l) = none) (w : Bool) :
    s.fillDecision l w =
      if (s.refilled l).fillGoesOn l && !w then s.filling l
      else
        match (s.lane l).segmentAt (s.lane l).f with
        | some g => (s.filling l).sendSeek l .fill g.ref (s.lane l).f (speedOf (s.settings l).readSpeed) false
        | none => s.filling l := by
  have hrest : ((s.refilled l).lane l).fillRest ((s.refilled l).share l) = none := by
    rw [lane_refilled, State.share, settings_of_applied (applied_refilled s l)]
    exact h
  have hf : ((s.refilled l).lane l).f = (s.lane l).f := by rw [lane_refilled, updateRefill_eq]
  have hseg : ((s.refilled l).lane l).segmentAt (s.lane l).f = (s.lane l).segmentAt (s.lane l).f := by
    rw [lane_refilled, updateRefill_eq]
    rfl
  rw [← hseg, ← hf, ← settings_of_applied (applied_refilled s l)]
  unfold State.fillDecision
  dsimp only
  change (match ((s.refilled l).lane l).fillRest ((s.refilled l).share l) with
    | some r => _
    | none => _) = _
  rw [hrest]
  rfl

/-- Whether a repair starts does not hang on the lane's run or on what its scheduler is at. -/
theorem startRepair_none_anyWork {t : State} {r : RunContext} {q : Scheduler} (ha : t.applied = s.applied)
    (hl : t.lane l = { s.lane l with run := r, rsc := q }) (h : s.startRepair l = none) : t.startRepair l = none := by
  rw [startRepair_none_iff] at h ⊢
  unfold State.startCondition at h ⊢
  dsimp only at h ⊢
  rw [settings_of_applied ha, hl]
  intro hstart y hfind
  have hnone := h hstart y hfind
  rw [startAttempt_none_iff] at hnone ⊢
  exact hnone

theorem tlc_sought_seeking {q : SeekPlan} (h : (s.tlc l).state.usable = true) :
    ((s.sought l q).tlc l).state = .seeking := by
  rw [tlc_sought]
  exact takeSeek_state h _ _

/-- The fill that a SEEK to f begins goes on at the scheduling point of the SEEK (R83). -/
theorem works_fill (hd : s.Decides l) (hm : (s.lane l).marks.schedule = false) (hstart : s.startRepair l = none)
    (hrest : ((s.lane l).updateRefill (s.settings l)).fillRest (s.share l) = none) {g : Segment}
    (hg : (s.lane l).segmentAt (s.lane l).f = some g) (v : Speed) :
    ((s.filling l).sought l (fillPlan g.ref (s.lane l).f v)).Works l := by
  set q := fillPlan g.ref (s.lane l).f v with hq
  set w := (s.filling l).sought l q with hw
  have happ : w.applied = s.applied := (applied_sought ..).trans (applied_filling s l)
  have hlane := lane_sought (s.filling l) l q
  rw [← hw, lane_filling] at hlane
  have hseek : (w.tlc l).state = .seeking := tlc_sought_seeking (by rw [tlc_filling]; exact hd.usable)
  have hholds : g.ref.holds (s.lane l).f = true :=
    List.find?_some (p := fun h : Segment => h.ref.holds (s.lane l).f) hg
  rw [updateRefill_eq] at hlane hrest
  refine ⟨⟨?_, ?_, ?_, .inr ⟨?_, ?_, ?_, ?_⟩⟩, ?_, ?_, ?_⟩
  · rw [State.share, settings_of_applied happ]
    exact hd.share
  · rw [hlane]
    exact hd.reading
  · rw [hlane]
    exact hd.quiet
  · rw [hlane]
    rfl
  · exact startRepair_none_anyWork happ hlane hstart
  · rw [hlane, State.share, settings_of_applied happ]
    exact hrest
  · unfold State.fillGoesOn
    rw [hlane, hseek]
    simp [Lane.seeks, SeekPlan.run, hq, fillPlan, RunContext.inProgress, TlcState.busy, hholds]
  · rw [hlane]
    rfl
  · rw [hlane]
    exact hm
  · rw [hseek]
    rfl

/-! ### The start of a repair (R90) -/

/-- The lane with an attempt on a span begun (R33, R90, R91). -/
def Lane.attempting (x : Lane) (readSpeed : Nat) (y : Span) : Lane :=
  { x with
    spans := x.spans.map fun z => if z.first = y.first then z.setActive true else z
    madeGood := 0
    rsc := { x.rsc with
      mode := .repair
      rest := none
      target := some { first := y.first, last := y.last, seg := y.seg }
      attempt := some { number := y.attempts + 1, speed := attemptSpeed readSpeed y.attempts,
                        steady := attemptSteady y.attempts } } }

theorem startAttempt_some {x z : Lane} {n : Nat} {y : Span} (h : x.startAttempt n y = some z) :
    x.activeSpan = none ∧ (x.spans.any fun w => w.first == y.first && w.repair.isSome) = true ∧ z = x.attempting n y := by
  unfold Lane.startAttempt Lane.activate at h
  split at h
  · cases h
  · rename_i hactive
    split at h
    · rename_i hany
      cases h
      exact ⟨by simpa using hactive, hany, rfl⟩
    · cases h

theorem attempting_active {x : Lane} {y : Span} (h : (x.spans.any fun w => w.first == y.first && w.repair.isSome) = true)
    (n : Nat) : (x.attempting n y).activeSpan ≠ none := by
  obtain ⟨z, hz, hfirst⟩ := List.any_eq_true.1 h
  simp only [Bool.and_eq_true, beq_iff_eq, Option.isSome_iff_exists] at hfirst
  obtain ⟨hfirst, r, hr⟩ := hfirst
  intro hnone
  have hno := List.find?_eq_none.1 hnone (z.setActive true) (List.mem_map.2 ⟨z, hz, if_pos hfirst⟩)
  simp [Span.active, Span.setActive, hr] at hno

/-- The plan of an attempt on a span (R91). -/
def repairPlan (readSpeed : Nat) (y : Span) : SeekPlan :=
  { kind := .repair, seg := y.seg, target := y.first, speed := attemptSpeed readSpeed y.attempts,
    steady := attemptSteady y.attempts }

theorem startRepair_some {t : State} (h : s.startRepair l = some t) :
    ∃ y, s.startCondition l = true ∧
      (s.lane l).spans.find? ((s.lane l).eligible (s.settings l).repairMargin) = some y ∧
      (s.lane l).activeSpan = none ∧ ((s.lane l).spans.any fun w => w.first == y.first && w.repair.isSome) = true ∧
      t = (s.setLane l ((s.lane l).attempting (s.settings l).readSpeed y)).sendSeek l .repair y.seg y.first
        (attemptSpeed (s.settings l).readSpeed y.attempts) (attemptSteady y.attempts) := by
  unfold State.startRepair at h
  dsimp only at h
  split at h
  · rename_i hstart
    split at h
    · cases h
    · rename_i y hy
      obtain ⟨x, hx, rfl⟩ := Option.map_eq_some_iff.1 h
      obtain ⟨hactive, hany, rfl⟩ := startAttempt_some hx
      exact ⟨y, hstart, hy, hactive, hany, rfl⟩
  · cases h

/-- The attempt that a SEEK begins goes on at the scheduling point of the SEEK (R81). -/
theorem works_repair (hd : s.Decides l) (hm : (s.lane l).marks.schedule = false) (hstart : s.startCondition l = true)
    {y : Span} (hany : ((s.lane l).spans.any fun w => w.first == y.first && w.repair.isSome) = true) (n : Nat)
    (q : SeekPlan) : ((s.setLane l ((s.lane l).attempting n y)).sought l q).Works l := by
  set z := s.setLane l ((s.lane l).attempting n y) with hz
  set w := z.sought l q with hw
  have hzapp : z.applied = s.applied := State.applied_setLane ..
  have happ : w.applied = s.applied := (applied_sought ..).trans hzapp
  have hlane := lane_sought z l q
  rw [← hw, hz, State.lane_setLane, ← hz] at hlane
  have hseek : (w.tlc l).state = .seeking := tlc_sought_seeking (by rw [hz, State.tlc_setLane]; exact hd.usable)
  have hfloor : (s.settings l).fillFloor ≤ (s.lane l).bufferedLead := by
    unfold State.startCondition at hstart
    simp only [Bool.and_eq_true, decide_eq_true_eq] at hstart
    exact hstart.1
  refine ⟨⟨?_, ?_, ?_, .inl ⟨?_, ?_, ?_⟩⟩, ?_, ?_, ?_⟩
  · rw [State.share, settings_of_applied happ]
    exact hd.share
  · rw [hlane]
    exact hd.reading
  · rw [hlane]
    exact hd.quiet
  · rw [hlane]
    rfl
  · rw [hlane]
    exact attempting_active hany n
  · rw [hlane, settings_of_applied happ]
    exact hfloor
  · rw [hlane]
    rfl
  · rw [hlane]
    exact hm
  · rw [hseek]
    rfl

/-- Where the work of a lane goes on a scheduling point changes nothing. -/
theorem schedule_works (h : s.Works l) : s.schedule l .plain = s := by
  obtain ⟨⟨hshare, hread, hquiet, hwork⟩, hrest, hcalm, husable⟩ := h
  have hkept : (s.lane l).rsc.mode = .repair → (s.lane l).activeSpan ≠ none := by
    rcases hwork with ⟨-, hactive, -⟩ | ⟨hmode, -⟩
    · exact fun _ => hactive
    · exact fun hn => absurd (hmode.symm.trans hn) (by simp)
  rw [schedule_decides ⟨hshare, hread, hquiet, husable⟩ hkept, takePoint_self hcalm]
  unfold State.workDecision
  dsimp only
  rcases hwork with ⟨hmode, -, hfloor⟩ | ⟨hmode, hstart, hnone, hfill⟩
  · rw [if_pos hmode, if_neg (by omega), if_neg (by simp [Point.plain])]
  · have hwait : (s.lane l).rsc.refillWait = false := by
      unfold Lane.fillRest at hnone
      split_ifs at hnone with h1 h2 h3 h4
      simpa using fun hw => h4 (.inr hw)
    have hrefill : (s.lane l).updateRefill (s.settings l) = s.lane l := by
      rw [updateRefill_eq, hwait, Bool.false_and, ← hwait]
    have hself : s.refilled l = s := updLane_self hrefill
    rw [if_neg (by simp [hmode])]
    unfold State.nextWork
    simp only [Point.plain, Bool.false_eq_true, if_false, hstart]
    rw [fillDecision_fills (by rw [hrefill]; exact hnone), hself, hfill, if_pos (by simp)]
    unfold State.filling
    rw [hself]
    exact updLane_self (by rw [← hmode, ← hrest])

end

/-! ### How many scheduling points follow from one (R80, R127) -/

/-- What a scheduling point leaves due where the transport was in a state before it: nothing; or what a HALT brings, the
transport READY; or what a SEEK brings, the work going on. -/
def State.Turned (old : TlcState) (l : LaneId) (r : State) : Prop :=
  (r.lane l).marks.schedule = false ∨ (old.busy = true ∧ (r.tlc l).state = .ready) ∨ ∃ w : State, r = w.due l ∧ w.Works l

section
variable {s : State} {l : LaneId}

theorem halt_idle (h : (s.tlc l).state.busy = false) : s.halt l = s := by
  unfold State.halt
  rw [h]
  rfl

theorem halt_busy (h : (s.tlc l).state.busy = true) : ((s.halt l).tlc l).state = .ready := by
  unfold State.halt
  rw [if_pos h, State.tlc_changeTlc, State.tlc_endRun, Tlc.takeHalt, if_pos h]

theorem turned_halt (hm : (s.lane l).marks.schedule = false) : (s.halt l).Turned (s.tlc l).state l := by
  cases hb : (s.tlc l).state.busy with
  | false =>
    rw [halt_idle hb]
    exact .inl hm
  | true => exact .inr (.inl ⟨hb, halt_busy hb⟩)

/-- A rest that a HALT goes before. -/
theorem turned_resting {old : TlcState} (r : RestReason) (h : (s.lane l).marks.schedule = false ∨
    (old.busy = true ∧ (s.tlc l).state = .ready)) : (s.resting l r).Turned old l := by
  rcases h with hm | ⟨hbusy, hready⟩
  · exact .inl (by rw [State.resting, State.lane_updLane]; exact hm)
  · exact .inr (.inl ⟨hbusy, by rw [State.resting, State.tlc_updLane]; exact hready⟩)

/-- A SEEK whose work goes on. -/
theorem turned_sendSeek (hu : (s.tlc l).state.usable = true) {q : SeekPlan} (hw : (s.sought l q).Works l) :
    (s.sendSeek l q.kind q.seg q.target q.speed q.steady).Turned (s.tlc l).state l := by
  rw [sendSeek_eq hu]
  split
  · exact .inl hw.calm
  · exact .inr (.inr ⟨_, rfl, hw⟩)

theorem turned_fillDecision (hd : s.Decides l) (hm : (s.lane l).marks.schedule = false)
    (hstart : s.startRepair l = none) : (s.fillDecision l false).Turned (s.tlc l).state l := by
  have hrefilled : ((s.refilled l).lane l).marks.schedule = false := by
    rw [lane_refilled, updateRefill_eq]
    exact hm
  have hfilling : ((s.filling l).lane l).marks.schedule = false := by
    rw [lane_filling, updateRefill_eq]
    exact hm
  rw [← tlc_refilled s l]
  cases hrest : ((s.lane l).updateRefill (s.settings l)).fillRest (s.share l) with
  | some r =>
    rw [fillDecision_rests hrest]
    refine turned_resting r ?_
    cases hb : ((s.refilled l).tlc l).state.busy with
    | false => exact .inl (by rw [halt_idle hb]; exact hrefilled)
    | true => exact .inr ⟨rfl, halt_busy hb⟩
  | none =>
    rw [fillDecision_fills hrest]
    split
    · exact .inl hfilling
    · split
      · rename_i g hg
        rw [tlc_refilled, ← tlc_filling s l]
        have husable : ((s.filling l).tlc l).state.usable = true := by
          rw [tlc_filling]
          exact hd.usable
        have hworks := works_fill hd hm hstart hrest hg (speedOf (s.settings l).readSpeed)
        have h := turned_sendSeek husable hworks
        simp only [fillPlan] at h
        exact h
      · exact .inl hfilling

theorem turned_startRepair {t : State} (hd : s.Decides l) (hm : (s.lane l).marks.schedule = false)
    (h : s.startRepair l = some t) : t.Turned (s.tlc l).state l := by
  obtain ⟨y, hstart, -, -, hany, rfl⟩ := startRepair_some h
  have hworks := works_repair hd hm hstart hany (s.settings l).readSpeed (repairPlan (s.settings l).readSpeed y)
  have htlc : (s.setLane l ((s.lane l).attempting (s.settings l).readSpeed y)).tlc l = s.tlc l := State.tlc_setLane ..
  have husable := hd.usable
  rw [← htlc] at husable ⊢
  have h := turned_sendSeek husable hworks
  simp only [repairPlan] at h
  exact h

/-- A chained repair marks nothing (R94). -/
theorem marks_chainRepair {t : State} {c : Option Index} (h : s.chainRepair l c = some t) :
    (t.lane l).marks = (s.lane l).marks := by
  unfold State.chainRepair at h
  dsimp only at h
  repeat' split at h
  all_goals simp only [reduceCtorEq, Option.map_eq_some_iff] at h
  obtain ⟨x, hx, rfl⟩ := h
  obtain ⟨-, -, rfl⟩ := startAttempt_some hx
  rw [State.lane_setLane]
  rfl

theorem turned_nextWork (hd : s.Decides l) (hm : (s.lane l).marks.schedule = false) {q : Point}
    (hq : q.noStart = false ∧ q.reseek = false) : (s.nextWork l q).Turned (s.tlc l).state l := by
  unfold State.nextWork
  rw [hq.1, hq.2]
  split
  · rename_i t ht
    split at ht
    · exact .inl (by rw [marks_chainRepair ht]; exact hm)
    · cases ht
  · rw [if_neg Bool.false_ne_true]
    cases hstart : s.startRepair l with
    | some t => exact turned_startRepair hd hm hstart
    | none => exact turned_fillDecision hd hm hstart

theorem abortAttempt_rest (x : Lane) :
    x.abortAttempt.seq = x.seq ∧ x.abortAttempt.marks = x.marks ∧ x.abortAttempt.rsc.quiet = x.rsc.quiet ∧
      x.abortAttempt.bufferedLead = x.bufferedLead := by
  unfold Lane.abortAttempt
  split <;> exact ⟨rfl, rfl, rfl, rfl⟩

/-- The part with an attempt dropped as the buffered lead falls below FillFloor (R95). -/
def State.leadLow (s : State) (l : LaneId) : State :=
  s.updLane l fun x => { x.abortAttempt with rsc := { x.abortAttempt.rsc with refillWait := false } }

theorem lane_leadLow (s : State) (l : LaneId) : (s.leadLow l).lane l = { (s.lane l).abortAttempt with
    rsc := { (s.lane l).abortAttempt.rsc with refillWait := false } } := State.lane_updLane ..

theorem applied_leadLow (s : State) (l : LaneId) : (s.leadLow l).applied = s.applied := State.applied_updLane ..

theorem tlc_leadLow (s : State) (l : LaneId) : (s.leadLow l).tlc l = s.tlc l := State.tlc_updLane ..

/-- Below FillFloor no repair starts (R90). -/
theorem startRepair_leadLow (hlow : (s.lane l).bufferedLead < (s.settings l).fillFloor) :
    (s.leadLow l).startRepair l = none := by
  obtain ⟨-, -, -, hlead⟩ := abortAttempt_rest (s.lane l)
  rw [startRepair_none_iff]
  intro hcond
  unfold State.startCondition at hcond
  simp only [Bool.and_eq_true, decide_eq_true_eq] at hcond
  obtain ⟨hfloor, -⟩ := hcond
  rw [settings_of_applied (applied_leadLow s l), lane_leadLow] at hfloor
  exact absurd (hfloor.trans_eq hlead) (by omega)

theorem decides_leadLow (hd : s.Decides l) : (s.leadLow l).Decides l := by
  obtain ⟨hseq, -, hquiet, -⟩ := abortAttempt_rest (s.lane l)
  exact hd.of_alike (applied_leadLow s l) (by rw [lane_leadLow]; exact hseq) (by rw [lane_leadLow]; exact hquiet)
    (tlc_leadLow s l)

/-- The work decision of a scheduling point that calls for no re-seek. -/
theorem turned_workDecision (hd : s.Decides l) (hm : (s.lane l).marks.schedule = false) {q : Point}
    (hq : q.noStart = false ∧ q.reseek = false) : (s.workDecision l q).Turned (s.tlc l).state l := by
  unfold State.workDecision
  dsimp only
  rw [hq.2]
  split
  · split
    · rename_i hlow
      have hcalm : ((s.leadLow l).lane l).marks.schedule = false := by
        obtain ⟨-, hmarks, -⟩ := abortAttempt_rest (s.lane l)
        rw [lane_leadLow]
        exact (congrArg LaneMarks.schedule hmarks).trans hm
      rw [← tlc_leadLow]
      exact turned_fillDecision (decides_leadLow hd) hcalm (startRepair_leadLow hlow)
    · rw [if_neg (by simp)]
      exact .inl hm
  · exact turned_nextWork hd hm hq

theorem standDown_marks (s : State) (l : LaneId) (m : WorkMode) (w : Option RestReason) :
    ((s.standDown l m w).lane l).marks = (s.lane l).marks := by
  rw [State.standDown, State.lane_updLane]
  exact (abortAttempt_rest (s.lane l)).2.1

/-- A lane that has no work to decide on stands down (R79). -/
theorem atPoint_standsDown (hopen : s.share l ≠ 0 ∧ (s.lane l).seq.reading = true)
    (hwork : ¬((s.tlc l).state.usable = true ∧ (s.lane l).rsc.quiet = false)) (q : Point) :
    ∃ m w, s.atPoint l q = s.standDown l m w := by
  unfold State.atPoint
  rw [if_neg (by simp [State.enabled, hopen])]
  have hquiet : (s.tlc l).state.usable = true → (s.lane l).rsc.quiet = true := by
    intro h
    simpa [h] using hwork
  cases hs : (s.tlc l).state with
  | offline | starting | empty | toc => exact ⟨.none, none, rfl⟩
  | mechHeld => exact ⟨.rest, some .mechanism, rfl⟩
  | ready | seeking | reading =>
    rw [hs] at hquiet
    exact ⟨.rest, some .quiet, if_pos (hquiet rfl)⟩

theorem atPoint_closed (h : ¬(s.share l ≠ 0 ∧ (s.lane l).seq.reading = true)) (q : Point) :
    s.atPoint l q = (s.standDown l .none none).halt l := by
  unfold State.atPoint
  refine if_pos ?_
  by_cases hs : s.share l = 0
  · simp [State.enabled, hs]
  · simpa [State.enabled, hs] using h

theorem turned_atPoint (hm : (s.lane l).marks.schedule = false) {q : Point}
    (hq : q.noStart = false ∧ q.reseek = false) : (s.atPoint l q).Turned (s.tlc l).state l := by
  have hdown : ∀ m w, ((s.standDown l m w).lane l).marks.schedule = false := fun m w => by
    rw [standDown_marks]
    exact hm
  by_cases hopen : s.share l ≠ 0 ∧ (s.lane l).seq.reading = true
  · by_cases hwork : (s.tlc l).state.usable = true ∧ (s.lane l).rsc.quiet = false
    · have hd : s.Decides l := ⟨hopen.1, hopen.2, hwork.2, hwork.1⟩
      rw [atPoint_decides hd]
      exact turned_workDecision hd hm hq
    · obtain ⟨m, w, hdone⟩ := atPoint_standsDown hopen hwork q
      rw [hdone]
      exact .inl (hdown m w)
  · have htlc : (s.standDown l .none none).tlc l = s.tlc l := State.tlc_updLane ..
    rw [atPoint_closed hopen, ← htlc]
    exact turned_halt (hdown .none none)

theorem overtake_rest (s : State) (l : LaneId) :
    ((s.overtake l .plain).1.lane l).marks = (s.lane l).marks ∧ (s.overtake l .plain).1.tlc l = s.tlc l ∧
      (s.overtake l .plain).2.noStart = false ∧ (s.overtake l .plain).2.reseek = false := by
  unfold State.overtake
  extract_lets x
  split
  · exact ⟨by rw [State.lane_updLane], State.tlc_updLane .., rfl, rfl⟩
  · exact ⟨rfl, rfl, rfl, rfl⟩

/-- A scheduling point that brings nothing of its own. -/
theorem turned_schedule (s : State) (l : LaneId) : (s.schedule l .plain).Turned (s.tlc l).state l := by
  obtain ⟨hmarks, htlc, hq⟩ := overtake_rest (s.takePoint l) l
  have hturned := turned_atPoint (s := ((s.takePoint l).overtake l .plain).1) (l := l)
    (by rw [hmarks, lane_takePoint]) hq
  rwa [← schedule_eq, htlc, tlc_takePoint] at hturned

/-- So many scheduling points of a lane follow from a state on, each due in the state before it, and lead to a state with none
due. -/
inductive Scheduled (l : LaneId) : Nat → State → State → Prop
  | done {s : State} : (s.lane l).marks.schedule = false → Scheduled l 0 s s
  | point {n : Nat} {s t : State} : (s.lane l).marks.schedule = true → Scheduled l n (s.schedule l .plain) t →
      Scheduled l (n + 1) s t

theorem due_marks (s : State) (l : LaneId) : ((s.due l).lane l).marks.schedule = true := by
  rw [State.due, State.lane_updLane]
  rfl

/-- The scheduling point of a SEEK whose work goes on. -/
theorem scheduled_works (h : s.Works l) : Scheduled l 1 (s.due l) s :=
  .point (due_marks s l) (by rw [schedule_due, schedule_works h]; exact .done h.calm)

/-- Where the transport neither seeks nor reads at most two follow. -/
theorem exists_scheduled_idle (h : (s.tlc l).state.busy = false) : ∃ k ≤ 2, ∃ t, Scheduled l k s t := by
  cases hm : (s.lane l).marks.schedule with
  | false => exact ⟨0, by omega, s, .done hm⟩
  | true =>
    rcases turned_schedule s l with hover | ⟨hbusy, -⟩ | ⟨w, hw, hworks⟩
    · exact ⟨1, by omega, _, .point hm (.done hover)⟩
    · rw [h] at hbusy
      cases hbusy
    · exact ⟨2, le_rfl, w, .point hm (by rw [hw]; exact scheduled_works hworks)⟩

/-- At most three follow in any state. -/
theorem exists_scheduled (s : State) (l : LaneId) : ∃ k ≤ 3, ∃ t, Scheduled l k s t := by
  cases hm : (s.lane l).marks.schedule with
  | false => exact ⟨0, by omega, s, .done hm⟩
  | true =>
    rcases turned_schedule s l with hover | ⟨-, hready⟩ | ⟨w, hw, hworks⟩
    · exact ⟨1, by omega, _, .point hm (.done hover)⟩
    · obtain ⟨k, hk, t, ht⟩ := exists_scheduled_idle (s := s.schedule l .plain) (l := l) (by rw [hready]; rfl)
      exact ⟨k + 1, by omega, t, .point hm ht⟩
    · exact ⟨2, by omega, w, .point hm (by rw [hw]; exact scheduled_works hworks)⟩

end

end Sys2Proof.Machine
end

section
/-! The work decision as the settle time's end releases quiet (O47): what the event's own effect leaves due, the scheduling
points that follow, and the repair, the fill or the rest that they come to. -/

namespace Sys2Proof.Machine

set_option Elab.async false

/-! ### What follows where only scheduling points do (log 8) -/

/-- Nothing but scheduling points can follow: no BIND is to be handed JAMMED, no lane waits for its play-out cut, primes or is in
UNDERRUN, and the loader controller has nothing to start or to end. -/
structure State.OnlySchedules (s : State) : Prop where
  jammed : ∀ m, (s.lane m).marks.jammed = []
  mark : ∀ m, (s.lane m).seq.mark = none
  state : ∀ m, (s.lane m).seq.state ≠ .priming ∧ (s.lane m).seq.state ≠ .underrun
  recovering : s.loader.state ≠ .recovering
  startable : s.loader.startable = []

section
variable {s t : State} {l : LaneId}

theorem followLane_onlySchedules (h : s.OnlySchedules) (m : LaneId) :
    s.followLane m = if (s.lane m).marks.schedule then some (s.schedule m .plain) else none := by
  obtain ⟨hprime, hunder⟩ := h.state m
  have hcut : (s.lane m).cutDue = false := by simp [Lane.cutDue, h.mark m]
  have hplay : (s.lane m).playDue (s.settings m) = false := by simp [Lane.playDue, hprime, hunder]
  unfold State.followLane State.handJammed
  rw [h.jammed m, hcut, hplay]
  rfl

theorem follow_onlySchedules (h : s.OnlySchedules) :
    s.follow = if (s.lane .a).marks.schedule then some (s.schedule .a .plain)
      else if (s.lane .b).marks.schedule then some (s.schedule .b .plain) else none := by
  have hrecovered : s.recovered = false := by simp [State.recovered, h.recovering]
  have hchoose : s.choose = none := by
    unfold State.choose
    rw [h.startable]
  unfold State.follow
  rw [followLane_onlySchedules h, followLane_onlySchedules h, hrecovered, hchoose]
  cases (s.lane .a).marks.schedule <;> cases (s.lane .b).marks.schedule <;> rfl

/-- A scheduling point brings nothing else. -/
theorem onlySchedules_schedule (h : s.OnlySchedules) (l : LaneId) : (s.schedule l .plain).OnlySchedules := by
  have hstays : ∀ m, (s.lane m).Stays ((s.schedule l .plain).lane m) := fun m => (keeps_schedule (.refl m s) l .plain).lane
  have hloader : (s.schedule l .plain).loader = s.loader := (apart_schedule (.refl l s) .plain).loader
  refine ⟨fun m => ?_, fun m => ?_, fun m => ?_, ?_, ?_⟩
  · rw [(hstays m).jammed]
    exact h.jammed m
  · rw [(hstays m).seq]
    exact h.mark m
  · rw [(hstays m).seq]
    exact h.state m
  · rw [hloader]
    exact h.recovering
  · rw [hloader]
    exact h.startable

/-- What every scheduling point of a lane keeps those that follow from a state on keep. -/
theorem Scheduled.keeps {P : State → Prop} (hP : ∀ u, P u → P (u.schedule l .plain)) {k : Nat} (h : Scheduled l k s t) :
    P s → P t := by
  induction h with
  | done _ => exact id
  | point _ _ ih => exact fun hs => ih (hP _ hs)

theorem Scheduled.calm {k : Nat} (h : Scheduled l k s t) : (t.lane l).marks.schedule = false := by
  induction h with
  | done hm => exact hm
  | point _ _ ih => exact ih

theorem Scheduled.onlySchedules {k : Nat} (h : Scheduled l k s t) : s.OnlySchedules → t.OnlySchedules :=
  h.keeps fun _ hu => onlySchedules_schedule hu l

theorem Scheduled.apart {k : Nat} (h : Scheduled l k s t) : Apart l s t :=
  h.keeps (fun _ hu => apart_schedule hu .plain) (.refl l s)

theorem Scheduled.keeps_lane {k : Nat} (h : Scheduled l k s t) (m : LaneId) : Keeps m s t :=
  h.keeps (fun _ hu => keeps_schedule hu l .plain) (.refl m s)

theorem Scheduled.follows {k : Nat} (h : Scheduled l k s t) : Follows s t :=
  h.keeps (fun _ hu => follows_schedule hu l .plain) (.refl s)

/-- With no scheduling point due nothing follows. -/
theorem settle_calm (h : s.OnlySchedules) (hm : ∀ m, (s.lane m).marks.schedule = false) (n : Nat) : State.settle n s = s := by
  refine settle_atRest ?_ n
  rw [State.AtRest, follow_onlySchedules h, hm, hm]
  rfl

/-- The scheduling points of a lane follow first where it is lane A or none of lane A is due. -/
theorem settle_scheduled {k : Nat} (h : Scheduled l k s t) (n : Nat) :
    s.OnlySchedules → (l = .b → (s.lane .a).marks.schedule = false) → State.settle (n + k) s = State.settle n t := by
  induction h with
  | done _ => exact fun _ _ => rfl
  | @point k s t hm _ ih =>
    intro honly ha
    have hfollow : s.follow = some (s.schedule l .plain) := by
      rw [follow_onlySchedules honly]
      cases l with
      | a => rw [if_pos hm]
      | b => rw [ha rfl, if_neg Bool.false_ne_true, if_pos hm]
    have hnext : State.settle (n + (k + 1)) s = State.settle (n + k) (s.schedule l .plain) := by
      rw [← Nat.add_assoc, State.settle, hfollow]
    rw [hnext]
    refine ih (onlySchedules_schedule honly l) fun hb => ?_
    subst hb
    rw [lane_of_side ((apart_schedule (.refl .b s) .plain).side .a nofun)]
    exact ha rfl

/-- What follows on a lane is its scheduling points, from a state on in which the lane is as it was: those of the other lane leave
it. -/
theorem settle_lane (h : s.OnlySchedules) (l : LaneId) :
    ∃ r : State, r.side l = s.side l ∧ Keeps l s r ∧ Follows s r ∧ ∀ k ≤ 4, ∀ t, Scheduled l k r t →
      (State.settle settleFuel s).side l = t.side l ∧ Keeps l t (State.settle settleFuel s) := by
  cases l with
  | a =>
    refine ⟨s, rfl, .refl .a s, .refl s, fun k hk t ht => ?_⟩
    obtain ⟨j, hj, u, hu⟩ := exists_scheduled t .b
    have hfirst := settle_scheduled ht (400 - j - k + j) h nofun
    have hsecond := settle_scheduled hu (400 - j - k) (ht.onlySchedules h) fun _ => ht.calm
    have hside : u.side .a = t.side .a := hu.apart.side .a nofun
    have hcalm : ∀ m, (u.lane m).marks.schedule = false
      | .a => by rw [lane_of_side hside]; exact ht.calm
      | .b => hu.calm
    have hdone : State.settle settleFuel s = u := by
      rw [← settle_calm (hu.onlySchedules (ht.onlySchedules h)) hcalm (400 - j - k), ← hsecond, ← hfirst]
      congr 1
      unfold settleFuel
      omega
    rw [hdone]
    exact ⟨hside, hu.keeps_lane .a⟩
  | b =>
    obtain ⟨j, hj, r, hr⟩ := exists_scheduled s .a
    refine ⟨r, hr.apart.side .b nofun, hr.keeps_lane .b, hr.follows, fun k hk t ht => ?_⟩
    have hfirst := settle_scheduled hr (400 - j - k + k) h nofun
    have hsecond := settle_scheduled ht (400 - j - k) (hr.onlySchedules h) fun _ => hr.calm
    have hcalm : ∀ m, (t.lane m).marks.schedule = false
      | .a => by rw [lane_of_side (ht.apart.side .a nofun)]; exact hr.calm
      | .b => ht.calm
    have hdone : State.settle settleFuel s = t := by
      rw [← settle_calm (ht.onlySchedules (hr.onlySchedules h)) hcalm (400 - j - k), ← hsecond, ← hfirst]
      congr 1
      unfold settleFuel
      omega
    rw [hdone]
    exact ⟨rfl, .refl .b t⟩

end

/-! ### The end of the settle time (R186, R187, R192) -/

/-- The lane with quiet released where it had it: a scheduling point (R183, R96). -/
def Lane.quietEnded (x : Lane) : Lane := if x.rsc.quiet then ({ x with rsc := { x.rsc with quiet := false } } : Lane).due else x

section
variable {s : State} {l : LaneId}

theorem endQuiet_eq (s : State) (l : LaneId) : s.endQuiet l = s.updLane l Lane.quietEnded := by
  unfold State.endQuiet
  split
  · rename_i h
    unfold State.due
    rw [updLane_updLane]
    exact updLane_congr (if_pos h).symm
  · rename_i h
    exact (updLane_self (if_neg h)).symm

theorem releaseQuiet_eq (s : State) : s.releaseQuiet = (s.updLane .a Lane.quietEnded).updLane .b Lane.quietEnded := by
  rw [State.releaseQuiet, endQuiet_eq, endQuiet_eq]

theorem lane_settled (s : State) (l : LaneId) : s.settled.lane l = (s.lane l).quietEnded := by
  unfold State.settled
  rw [State.lane_updLoader, releaseQuiet_eq]
  cases l with
  | a => rw [lane_updLane_ne _ (by simp), State.lane_updLane, State.lane_updLoader]
  | b => rw [State.lane_updLane, lane_updLane_ne _ (by simp), State.lane_updLoader]

theorem tlc_settled (s : State) (l : LaneId) : s.settled.tlc l = s.tlc l := by
  unfold State.settled
  rw [State.tlc_updLoader, releaseQuiet_eq, State.tlc_updLane, State.tlc_updLane, State.tlc_updLoader]

theorem store_settled (s : State) : s.settled.store = s.store := by
  unfold State.settled
  rw [State.store_updLoader, releaseQuiet_eq, State.store_updLane, State.store_updLane, State.store_updLoader]

theorem quietEnded_seq (x : Lane) : x.quietEnded.seq = x.seq ∧ x.quietEnded.marks.jammed = x.marks.jammed := by
  unfold Lane.quietEnded
  split <;> exact ⟨rfl, rfl⟩

theorem loader_settled (s : State) (h : s.loader.state = .faulted ∨ (s.loader.state = .settling ∧ s.loader.toRecovery = false)) :
    (s.settled.loader.state = .faulted ∨ s.settled.loader.state = .idle) ∧ s.settled.loader.queue = s.loader.queue := by
  unfold State.settled
  rw [State.loader_updLoader, releaseQuiet_eq, State.loader_updLane, State.loader_updLane, State.loader_updLoader]
  rcases h with hstate | ⟨hstate, hto⟩
  · simp [hstate]
  · simp [hstate, hto]

theorem startable_empty {d : Loader} (hs : d.state = .faulted ∨ d.state = .idle) (hq : d.queue = []) : d.startable = [] := by
  unfold Loader.startable
  rcases hs with hs | hs <;> simp [hs, hq]

theorem onlySchedules_settled (hunm : s.Unmarked) (hqueue : s.loader.queue = [])
    (hstate : s.loader.state = .faulted ∨ (s.loader.state = .settling ∧ s.loader.toRecovery = false))
    (hlanes : ∀ m, (s.lane m).Settled ∧ (s.lane m).seq.state ≠ .priming ∧ (s.lane m).seq.state ≠ .underrun) :
    s.settled.OnlySchedules := by
  obtain ⟨hloader, hsame⟩ := loader_settled s hstate
  have hseq : ∀ m, (s.settled.lane m).seq = (s.lane m).seq ∧ (s.settled.lane m).marks.jammed = (s.lane m).marks.jammed :=
    fun m => by rw [lane_settled]; exact quietEnded_seq _
  refine ⟨fun m => ?_, fun m => ?_, fun m => ?_, ?_, startable_empty hloader (hsame.trans hqueue)⟩
  · rw [(hseq m).2, hunm m]
    rfl
  · rw [(hseq m).1]
    exact (hlanes m).1.1
  · rw [(hseq m).1]
    exact (hlanes m).2
  · rcases hloader with h | h <;> rw [h] <;> nofun

end

/-! ### The order of the spans (R18) -/

section
variable {p f : Index} {l : List Span}

/-- Behind the first span of a cover every other lies further from its playout point by that span. -/
theorem ahead_first_tail {y z : Span} (hc : SpansCover p f (y :: l)) (ht : spanTotal (y :: l) < 2 ^ 32)
    (hl : ∀ w ∈ l, 0 < w.count) (hz : z ∈ l) :
    ahead z.first p = y.count + ahead z.first (plus p y.count) := by
  have htotal : spanTotal (y :: l) = y.count + spanTotal l := by simp [spanTotal]
  have hmem := hc.2.mem hz (by omega)
  have hpos := hl z hz
  have hself := ahead_plus_self p (k := y.count) (by omega)
  rw [ahead_plus z.first p (plus p y.count) (by omega), hself]

/-- The spans of a cover stand in the order of their distances from the playout point. -/
theorem spans_order : ∀ {p : Index} {l : List Span}, SpansCover p f l → spanTotal l < 2 ^ 32 → (∀ w ∈ l, 0 < w.count) →
    l.Pairwise fun y z => ahead y.first p < ahead z.first p
  | _, [], _, _, _ => .nil
  | p, y :: l, hc, ht, h0 => by
    have hpos := h0 y (by simp)
    have hl : ∀ w ∈ l, 0 < w.count := fun w hw => h0 w (by simp [hw])
    have htotal : spanTotal (y :: l) = y.count + spanTotal l := by simp [spanTotal]
    have hfar : ∀ z ∈ l, ahead z.first p = y.count + ahead z.first (plus p y.count) := fun z hz =>
      ahead_first_tail hc ht hl hz
    refine List.pairwise_cons.2 ⟨fun z hz => ?_, ?_⟩
    · rw [hfar z hz, hc.1, ahead_self]
      omega
    · refine (spans_order hc.2 (by omega) hl).imp_of_mem fun {z w} hz hw hzw => ?_
      rw [hfar z hz, hfar w hw]
      omega

/-- Of the spans that pass a test the one nearest to the playout point is found first. -/
theorem find_nearest {P : Span → Bool} (h : l.Pairwise fun y z => ahead y.first p < ahead z.first p) {y : Span}
    (hy : y ∈ l) (hP : P y = true) (hmin : ∀ z ∈ l, P z = true → ahead y.first p ≤ ahead z.first p) :
    l.find? P = some y := by
  obtain ⟨z, hz⟩ := Option.isSome_iff_exists.1 (List.find?_isSome.2 ⟨y, hy, hP⟩)
  obtain ⟨hPz, before, behind, rfl, hbefore⟩ := List.find?_eq_some_iff_append.1 hz
  have hle := hmin z (by simp) hPz
  rcases List.mem_append.1 hy with hy | hy
  · have hno := hbefore y hy
    simp [hP] at hno
  · rcases List.mem_cons.1 hy with rfl | hy
    · exact hz
    · have hlt := (List.pairwise_cons.1 (List.pairwise_append.1 h).2.1).1 y hy
      omega

theorem mapFormed_order {n : Nat} (h : MapFormed p f l n) : l.Pairwise fun y z => ahead y.first p < ahead z.first p := by
  refine spans_order h.cover ?_ fun w hw => (h.filled w hw).1
  have hlead := h.lead
  have hwindow := h.window
  rw [spanTotal, h.total]
  simp only [Config.storeCells] at hwindow
  omega

/-- No two spans of a map begin at one position. -/
theorem first_injective {n : Nat} (h : MapFormed p f l n) {y z : Span} (hy : y ∈ l) (hz : z ∈ l)
    (he : z.first = y.first) : z = y := by
  have hnearest : ∀ w ∈ l, w.first = y.first → l.find? (fun v => v.first == y.first) = some w := fun w hw hwy =>
    find_nearest (mapFormed_order h) hw (by simpa using hwy) fun v _ hv => by
      rw [beq_iff_eq] at hv
      rw [hv, hwy]
  exact Option.some.inj ((hnearest z hz he).symm.trans (hnearest y hy rfl))

end

/-! ### The repair that starts (R89, R90, R33) -/

section
variable {x : Lane} {y : Span}

/-- With no attempt in flight the spans that may be repaired are the eligible ones. -/
theorem eligible_iff {z : Span} (hno : x.activeSpan = none) (hz : z ∈ x.spans) (margin : Nat) :
    x.eligible margin z = true ↔ x.MayRepair margin z := by
  have hidle : z.active = false := by simpa using List.find?_eq_none.1 hno z hz
  unfold Lane.eligible Lane.MayRepair
  rw [hidle]
  cases z.cond <;> simp [Condition.wantsRepair]

theorem startCondition_iff {s : State} {l : LaneId} : s.startCondition l = true ↔ (s.lane l).MayStart (s.settings l) := by
  unfold State.startCondition Lane.MayStart
  simp [or_assoc]

/-- Where the lead lets one start, a repair starts on the nearest span that may be repaired. -/
theorem startRepair_isSome {s : State} {l : LaneId} (hstart : (s.lane l).MayStart (s.settings l))
    (hno : (s.lane l).activeSpan = none) (hformed : AllFormed (s.lane l).spans) {y : Span} (hy : y ∈ (s.lane l).spans)
    (hmay : (s.lane l).MayRepair (s.settings l).repairMargin y) : s.startRepair l ≠ none := by
  intro hnone
  have heligible := (eligible_iff hno hy _).2 hmay
  obtain ⟨z, hz⟩ := Option.isSome_iff_exists.1 (List.find?_isSome.2 ⟨y, hy, heligible⟩)
  have hmem := List.mem_of_find?_eq_some hz
  have hnot := (startRepair_none_iff s l).1 hnone (startCondition_iff.2 hstart) z hz
  rw [startAttempt_none_iff, hno] at hnot
  have hwants : z.repair.isSome = true := by
    rw [hformed z hmem]
    have heligible := List.find?_some hz
    simp only [Lane.eligible, Bool.and_eq_true] at heligible
    exact heligible.1.1
  have hany : ((s.lane l).spans.any fun w => w.first == z.first && w.repair.isSome) = true :=
    List.any_eq_true.2 ⟨z, hmem, by simp [hwants]⟩
  rcases hnot with h | h
  · cases h
  · rw [hany] at h
    cases h

/-- The span of the attempt is the active one (R33). -/
theorem activeSpan_attempting {m : Nat} (h : MapFormed x.p x.f x.spans m) (hno : x.activeSpan = none) (hy : y ∈ x.spans)
    {r : RepairPart} (hr : y.repair = some r) (n : Nat) :
    (x.attempting n y).activeSpan = some { y with repair := some { r with active := true } } := by
  set mark := fun z : Span => if z.first = y.first then z.setActive true else z with hmark
  have hactive : ∀ z ∈ x.spans, (mark z).active = true → z = y := fun z hz hact => by
    by_cases hzy : z.first = y.first
    · exact first_injective h hy hz hzy
    · rw [hmark] at hact
      simp only [if_neg hzy] at hact
      exact absurd hact (List.find?_eq_none.1 hno z hz)
  have hself : mark y = { y with repair := some { r with active := true } } := by
    simp [hmark, Span.setActive, hr]
  have hfind : x.spans.find? (Span.active ∘ mark) = some y :=
    find_nearest (mapFormed_order h) hy (by simp [hself, Span.active]) fun z hz hact => by
      rw [hactive z hz hact]
  have hmap : (x.attempting n y).activeSpan = (x.spans.map mark).find? Span.active := rfl
  rw [hmap, List.find?_map, hfind, Option.map_some, hself]

/-- An attempt leaves every position its condition. -/
theorem conditionAt_attempting (x : Lane) (n : Nat) (y : Span) (i : Index) :
    (x.attempting n y).conditionAt i = x.conditionAt i := by
  have hmap : (x.attempting n y).conditionAt i =
      ((x.spans.map fun z => if z.first = y.first then z.setActive true else z).find? fun z => z.contains i).map
        Span.cond := rfl
  rw [hmap, List.find?_map, Option.map_map]
  unfold Lane.conditionAt Lane.spanAt
  congr 1
  · funext z
    simp only [Function.comp_apply]
    split <;> rfl
  · congr 1
    funext z
    simp only [Function.comp_apply]
    split <;> rfl

end

/-! ### The fill decision of a lane that rests (R82, R84) -/

/-- The fill decision of the model is that of R82's table with the refill wait brought up to date. -/
theorem fillRest_updateRefill (x : Lane) (v : LaneSettings) :
    (x.updateRefill v).fillRest v.share = x.restReason v.share v.refillGap := by
  rw [updateRefill_eq]
  unfold Lane.fillRest Lane.restReason
  simp only [Bool.and_eq_true, decide_eq_true_eq]
  rfl

/-! ### What the event comes to -/

section
variable {s t : State} {l : LaneId}

/-- The anchored test hangs on the window, its conditions and the lane's cells. -/
theorem anchoredTest_congr (hshare : s.share l ≠ 0) (happ : t.applied = s.applied) (hp : (t.lane l).p = (s.lane l).p)
    (hcond : ∀ j, (t.lane l).conditionAt j = (s.lane l).conditionAt j)
    (hcells : ∀ n, s.numberIn l n → findCell t.store n = findCell s.store n) (g : SegRef) (i : Index) :
    t.anchoredTest l g i = s.anchoredTest l g i := by
  have hholds : ∀ j, t.holdsCopy l j = s.holdsCopy l j := fun j => by
    unfold State.holdsCopy
    rw [cellNumber_of_applied happ, hcells _ (numberIn_cellNumber hshare j)]
  have husable : ∀ j, t.usablePreroll l j = s.usablePreroll l j := fun j => by
    unfold State.usablePreroll
    dsimp only
    rw [hcond, hp, hholds]
  unfold State.anchoredTest
  rw [husable, husable]

theorem keeps_quietEnded (s : State) (l k : LaneId) : Keeps l s (s.updLane k Lane.quietEnded) := by
  rw [← endQuiet_eq]
  unfold State.endQuiet
  split
  · exact keeps_due (keeps_updRest (.refl l s) k _) k
  · exact .refl l s

theorem keeps_settled (s : State) (l : LaneId) : Keeps l s s.settled := by
  unfold State.settled
  rw [releaseQuiet_eq]
  exact keeps_updLoader (((keeps_updLoader (.refl l s) _).trans (keeps_quietEnded _ l .a)).trans
    (keeps_quietEnded _ l .b)) _

theorem keeps_clearOutputs (s : State) (l : LaneId) : Keeps l s s.clearOutputs :=
  (Keeps.refl l s).of_same (by simp)

/-- The state after the records of an event anchors as the event's start where the lane's map is kept. -/
theorem anchoredTest_finish {v b : State} (hshare : s.share l ≠ 0) (hk : Keeps l s v) (hinv : s.Inv)
    (htinv : (v.finish b).Inv) (g : SegRef) (i : Index) : (v.finish b).anchoredTest l g i = s.anchoredTest l g i := by
  have hlane := lane_finish v b l
  have happ : (v.finish b).applied = v.applied := (follows_finish (.refl v) b).outside.applied
  have hp : ((v.finish b).lane l).p = (s.lane l).p := by
    rw [hlane]
    exact hk.lane.p
  refine anchoredTest_congr hshare (happ.trans hk.applied) hp (fun j => ?_) (fun n hn => ?_) g i
  · refine conditionAt_same (hinv.lane l).1.form (htinv.lane l).1.form hp ?_ j
    rw [hlane]
    exact hk.lane.conds
  · rw [(store_finish v b).1]
    exact hk.cells n hn

/-- The state `z` is `s` with quiet released on the lane, as the work decision finds it. -/
structure State.Unquiet (s z : State) (l : LaneId) : Prop where
  lane : z.lane l = { s.lane l with rsc := { (s.lane l).rsc with quiet := false } }
  tlc : z.tlc l = { s.tlc l with sent := [] }
  applied : z.applied = s.applied
  cells : ∀ n, s.numberIn l n → findCell z.store n = findCell s.store n

/-- What is given out and recorded at the end of an event leaves the lane at `w`. -/
structure State.EndsAs (w t : State) (l : LaneId) : Prop where
  lane : t.lane l = (w.lane l).finished
  tlc : ∃ n, t.tlc l = { w.tlc l with refresh := n }

/-- The work decision leads to `w`: at once, or by a SEEK whose work goes on. -/
def State.DecidedTo (r w : State) (l : LaneId) : Prop :=
  (r = w ∧ (w.lane l).marks.schedule = false) ∨ (r = w.due l ∧ w.Works l)

theorem scheduled_decided {r w : State} (hm : (r.lane l).marks.schedule = true)
    (h : (r.schedule l .plain).DecidedTo w l) : ∃ k ≤ 4, Scheduled l k r w := by
  rcases h with ⟨hdone, hcalm⟩ | ⟨hdue, hworks⟩
  · exact ⟨1, by omega, .point hm (by rw [hdone]; exact .done hcalm)⟩
  · exact ⟨2, by omega, .point hm (by rw [hdue]; exact scheduled_works hworks)⟩

/-- An event that ends in `t` takes the work decision of the lane from `z`: that of `s`, resting for quiet, with quiet released. -/
structure State.DecidedFrom (s z t : State) (l : LaneId) : Prop where
  unquiet : s.Unquiet z l
  rests : s.RestsForQuiet l
  clear : (s.lane l).marks = .clear
  anchored : ∀ g i, t.anchoredTest l g i = s.anchoredTest l g i
  ends : ∀ w, (z.nextWork l .plain).DecidedTo w l → w.EndsAs t l

/-- An event ends with the lane as what follows leaves it. -/
theorem endsAs_event {w : State} {F : State → State}
    (h : (State.settle settleFuel (F s.clearOutputs)).side l = w.side l) : w.EndsAs (s.event F) l := by
  refine ⟨?_, ?_⟩
  · rw [State.event, lane_finish]
    exact congrArg Lane.finished (lane_of_side h)
  · obtain ⟨n, hn⟩ := tlc_finish (State.settle settleFuel (F s.clearOutputs)) s.clearOutputs l
    rw [tlc_of_side h] at hn
    exact ⟨n, hn⟩

/-- With no attempt in flight a scheduling point chains, starts or fills (R81). -/
theorem schedule_nextWork {r : State} (h : r.Decides l) (hmode : (r.lane l).rsc.mode ≠ .repair) :
    r.schedule l .plain = (r.takePoint l).nextWork l .plain := by
  rw [schedule_decides h fun hn => absurd hn hmode]
  unfold State.workDecision
  dsimp only
  exact if_neg (by rw [lane_takePoint]; exact hmode)

/-- The lane that rests for quiet as the own effect of the settle time's end leaves it. -/
theorem lane_quietReleased {r : State} (hquiet : (s.lane l).rsc.quiet = true)
    (hside : r.side l = s.clearOutputs.settled.side l) :
    r.lane l = { s.lane l with
      rsc := { (s.lane l).rsc with quiet := false }, marks := { (s.lane l).marks with schedule := true } } := by
  rw [lane_of_side hside, lane_settled, lane_clearOutputs, Lane.quietEnded, if_pos hquiet]
  rfl

/-- The work decision finds that lane with quiet released. -/
theorem unquiet_takePoint {r : State} (hquiet : (s.lane l).rsc.quiet = true) (hclear : (s.lane l).marks = .clear)
    (hside : r.side l = s.clearOutputs.settled.side l) (hk : Keeps l s r) : s.Unquiet (r.takePoint l) l := by
  refine ⟨?_, ?_, (applied_takePoint r l).trans hk.applied, fun n hn => ?_⟩
  · have hcalm : ({ (s.lane l).marks with schedule := false } : LaneMarks) = (s.lane l).marks := by
      rw [hclear]
      rfl
    rw [lane_takePoint, lane_quietReleased hquiet hside]
    dsimp only
    rw [hcalm]
  · rw [tlc_takePoint, tlc_of_side hside, tlc_settled, tlc_clearOutputs]
  · rw [State.takePoint, State.store_updLane]
    exact hk.cells n hn

theorem State.Unquiet.decides {z : State} (h : s.Unquiet z l) (hrests : s.RestsForQuiet l) : z.Decides l := by
  obtain ⟨hshare, hread, hready, -⟩ := hrests
  refine ⟨?_, by rw [h.lane]; exact hread, by rw [h.lane], by rw [h.tlc, hready]; rfl⟩
  rw [State.share, settings_of_applied h.applied]
  exact hshare

/-- The settle time's end on a lane that rests for quiet: the work decision with quiet released. -/
theorem settleTimerExpiry_decides (hr : s.released = true) (htimer : s.loader.settleTimer.isSome = true)
    (hqueue : s.loader.queue = [])
    (hstate : s.loader.state = .faulted ∨ (s.loader.state = .settling ∧ s.loader.toRecovery = false))
    (hlanes : ∀ m, (s.lane m).Settled ∧ (s.lane m).seq.state ≠ .priming ∧ (s.lane m).seq.state ≠ .underrun)
    (hinv : s.Inv) (hunm : s.Unmarked) (hrests : s.RestsForQuiet l) :
    ∃ z t, exec .settleTimerExpiry s = .next t ∧ s.DecidedFrom z t l := by
  obtain ⟨-, -, -, hquiet, hmode, -⟩ := id hrests
  have honly : s.clearOutputs.settled.OnlySchedules :=
    onlySchedules_settled (fun m => by rw [lane_clearOutputs]; exact hunm m) hqueue hstate
      fun m => by rw [lane_clearOutputs]; exact hlanes m
  obtain ⟨r, hside, hkr, -, hdone⟩ := settle_lane honly l
  have hk : Keeps l s r := ((keeps_clearOutputs s l).trans (keeps_settled _ l)).trans hkr
  have hlane := lane_quietReleased hquiet hside
  have hunquiet := unquiet_takePoint hquiet (hunm l) hside hk
  have hdecides : r.Decides l := decides_takePoint.1 (hunquiet.decides hrests)
  have hpoint := schedule_nextWork hdecides (by rw [hlane, hmode]; nofun)
  have hexec : exec .settleTimerExpiry s = .next (s.event State.settled) :=
    congrArg Host.Outcome.next (onEvent_of hr htimer _)
  have hfollows : Follows s (s.event State.settled) :=
    follows_event s _ (follows_settled (follows_clearOutputs (.refl s)))
  refine ⟨r.takePoint l, s.event State.settled, hexec, hunquiet, hrests, hunm l, fun g i => ?_, fun w hw => ?_⟩
  · obtain ⟨k, hle, w, hw⟩ := exists_scheduled r l
    have hkv := (hk.trans (hw.keeps_lane l)).trans (hdone k (by omega) w hw).2
    exact anchoredTest_finish hrests.1 hkv hinv (hfollows.inv hinv) g i
  · obtain ⟨k, hle, hw⟩ := scheduled_decided (by rw [hlane]) (hpoint.symm ▸ hw)
    exact endsAs_event (hdone k hle w hw).1

/-- The SEEK that a decision has sent. -/
theorem seekSent_sought {z : State} {q : SeekPlan} (htlc : z.tlc l = { s.tlc l with sent := [] })
    (hready : (s.tlc l).state = .ready) (hend : (z.sought l q).EndsAs t l)
    (hanchor : z.anchoredTest l q.seg q.target = t.anchoredTest l q.seg q.target) :
    s.SeekSent t l q.kind q.seg q.target q.speed q.steady := by
  obtain ⟨hlane, n, hn⟩ := hend
  rw [tlc_sought, htlc, Tlc.takeSeek, if_pos (by rw [hready]; rfl)] at hn
  have hrun : (t.lane l).run = q.run (z.anchoredTest l q.seg q.target) := by
    rw [hlane, lane_sought]
    rfl
  refine ⟨by rw [hn], ?_, ?_, ?_, ?_, ?_, fun k hk => ?_, by rw [hn]⟩
  · rw [hrun]
    exact ⟨rfl, rfl, rfl, rfl, rfl, rfl⟩
  · rw [hrun]
    rfl
  · rw [hrun]
    rfl
  · rw [hrun]
    exact hanchor
  · rw [hn, hrun]
    rfl
  · rw [hn] at hk ⊢
    obtain rfl := Option.some.inj hk
    simp [Tlc.send]

end

/-! ### The repair and the fill decided (R82 to R84, R90, R91) -/

section
variable {s z t : State} {l : LaneId}

theorem State.Unquiet.settings (h : s.Unquiet z l) : z.settings l = s.settings l := settings_of_applied h.applied l

theorem State.DecidedFrom.calm (h : s.DecidedFrom z t l) : (z.lane l).marks.schedule = false := by
  rw [h.unquiet.lane]
  exact congrArg LaneMarks.schedule h.clear

theorem State.DecidedFrom.ready (h : s.DecidedFrom z t l) : (s.tlc l).state = .ready ∧ (z.tlc l).state = .ready := by
  obtain ⟨-, -, hready, -⟩ := h.rests
  rw [h.unquiet.tlc]
  exact ⟨hready, hready⟩

theorem State.DecidedFrom.decides (h : s.DecidedFrom z t l) : z.Decides l := h.unquiet.decides h.rests

/-- A SEEK from READY is a scheduling point of the work it begins. -/
theorem decidedTo_sendSeek {q : SeekPlan} (hready : (z.tlc l).state = .ready) (hworks : (z.sought l q).Works l) :
    (z.sendSeek l q.kind q.seg q.target q.speed q.steady).DecidedTo (z.sought l q) l := by
  rw [sendSeek_eq (by rw [hready]; rfl), if_neg (by rw [hready]; nofun)]
  exact .inr ⟨rfl, hworks⟩

/-- A change of the lane before its SEEK that leaves its map's conditions leaves what is anchored. -/
theorem State.DecidedFrom.anchors (h : s.DecidedFrom z t l) {u : State} (happ : u.applied = z.applied)
    (hstore : u.store = z.store) (hp : (u.lane l).p = (z.lane l).p)
    (hcond : ∀ j, (u.lane l).conditionAt j = (z.lane l).conditionAt j) (g : SegRef) (i : Index) :
    u.anchoredTest l g i = t.anchoredTest l g i := by
  obtain ⟨hshare, -⟩ := h.rests
  rw [h.anchored]
  refine anchoredTest_congr hshare (happ.trans h.unquiet.applied) ?_ (fun j => ?_) (fun n hn => ?_) g i
  · rw [hp, h.unquiet.lane]
  · rw [hcond, h.unquiet.lane]
    rfl
  · rw [hstore]
    exact h.unquiet.cells n hn

theorem nextWork_repair {u : State} (h : z.startRepair l = some u) : z.nextWork l .plain = u := by
  simp only [State.nextWork, Point.plain, Bool.false_eq_true, if_false, h]

theorem nextWork_fill (h : z.startRepair l = none) : z.nextWork l .plain = z.fillDecision l false := by
  simp only [State.nextWork, Point.plain, Bool.false_eq_true, if_false, h]

/-- A repair that starts: the attempt on the nearest eligible span, with its SEEK (R90, R91). -/
theorem repair_decided (h : s.DecidedFrom z t l) {u : State} (hu : z.startRepair l = some u) :
    ∃ y b, (s.lane l).spans.find? ((s.lane l).eligible (s.settings l).repairMargin) = some y ∧
      t.lane l = (((z.lane l).attempting (s.settings l).readSpeed y).seeks (repairPlan (s.settings l).readSpeed y) b).finished ∧
      s.SeekSent t l .repair y.seg y.first (attemptSpeed (s.settings l).readSpeed y.attempts) (attemptSteady y.attempts) := by
  obtain ⟨y, hstart, hfind, -, hany, rfl⟩ := startRepair_some hu
  rw [h.unquiet.settings] at hfind hu
  set n := (s.settings l).readSpeed
  set v := z.setLane l ((z.lane l).attempting n y)
  set q := repairPlan n y
  have hvlane : v.lane l = (z.lane l).attempting n y := State.lane_setLane ..
  have hvtlc : v.tlc l = z.tlc l := State.tlc_setLane ..
  have hdecided := decidedTo_sendSeek (by rw [hvtlc]; exact h.ready.2) (works_repair h.decides h.calm hstart hany n q)
  have hends := h.ends (v.sought l q) (by rw [nextWork_repair hu]; exact hdecided)
  have hsame : v.anchoredTest l q.seg q.target = t.anchoredTest l q.seg q.target := by
    refine h.anchors (State.applied_setLane ..) (State.store_setLane ..) ?_ (fun j => ?_) ..
    · rw [hvlane]
      rfl
    · rw [hvlane]
      exact conditionAt_attempting ..
  refine ⟨y, v.anchoredTest l q.seg q.target, ?_, ?_, ?_⟩
  · rw [h.unquiet.lane] at hfind
    exact hfind
  · rw [hends.lane, lane_sought, hvlane]
  · exact seekSent_sought (hvtlc.trans h.unquiet.tlc) h.ready.1 hends hsame

/-- The test of the fill decision is that of R82's table. -/
theorem State.DecidedFrom.fillRest (h : s.DecidedFrom z t l) :
    ((z.lane l).updateRefill (z.settings l)).fillRest (z.share l) =
      (s.lane l).restReason (s.settings l).share (s.settings l).refillGap := by
  rw [State.share, h.unquiet.settings, fillRest_updateRefill, h.unquiet.lane]
  rfl

/-- A rest that is decided: its reason and the refill wait as the reason has it, nothing sent (R82, R84). -/
theorem rest_decided (h : s.DecidedFrom z t l) (hno : z.startRepair l = none) {r : RestReason}
    (hr : (s.lane l).restReason (s.settings l).share (s.settings l).refillGap = some r) :
    (t.lane l).rsc = { (s.lane l).rsc with
        quiet := false, mode := .rest, rest := some r,
        refillWait := ((s.lane l).rsc.refillWait && decide ((s.settings l).share - 2 - (s.settings l).refillGap <
          (s.lane l).bufferedLead)) || r == .windowFull } ∧
      (t.lane l).spans = (s.lane l).spans ∧ (t.tlc l).state = .ready ∧ (t.tlc l).count.seeks = (s.tlc l).count.seeks := by
  have hhalt : (z.refilled l).halt l = z.refilled l := halt_idle (by rw [tlc_refilled, h.ready.2]; rfl)
  have hdone : z.nextWork l .plain = (z.refilled l).resting l r := by
    rw [nextWork_fill hno, fillDecision_rests (h.fillRest.trans hr), hhalt]
  have hlane : ((z.refilled l).resting l r).lane l = _ := State.lane_updLane ..
  rw [lane_refilled, updateRefill_eq, h.unquiet.lane, h.unquiet.settings] at hlane
  have htlc : ((z.refilled l).resting l r).tlc l = z.tlc l := (State.tlc_updLane ..).trans (tlc_refilled z l)
  have hcalm : (((z.refilled l).resting l r).lane l).marks.schedule = false := by
    rw [hlane]
    exact congrArg LaneMarks.schedule h.clear
  obtain ⟨hend, n, hn⟩ := h.ends _ (.inl ⟨hdone, hcalm⟩)
  rw [hend, hn, hlane, htlc]
  refine ⟨rfl, rfl, h.ready.2, ?_⟩
  rw [h.unquiet.tlc]

/-- A fill that is decided: a SEEK to f (R83). -/
theorem fill_decided (h : s.DecidedFrom z t l) (hno : z.startRepair l = none)
    (hr : (s.lane l).restReason (s.settings l).share (s.settings l).refillGap = none) :
    (t.lane l).rsc.quiet = false ∧ (t.lane l).spans = (s.lane l).spans ∧
      ∀ g, (s.lane l).segmentAt (s.lane l).f = some g → (t.lane l).rsc.mode = .fill ∧ (t.lane l).rsc.rest = none ∧
        (t.lane l).rsc.refillWait = false ∧
        s.SeekSent t l .fill g.ref (s.lane l).f (speedOf (s.settings l).readSpeed) false := by
  have hrest := h.fillRest.trans hr
  have hwait := refillWait_of_fills hrest
  have hf : (z.lane l).f = (s.lane l).f := by rw [h.unquiet.lane]
  have hsegment : (z.lane l).segmentAt (z.lane l).f = (s.lane l).segmentAt (s.lane l).f := by
    rw [h.unquiet.lane]
    rfl
  have hlane := lane_filling z l
  have hidle : (z.refilled l).fillGoesOn l = false := by
    obtain ⟨-, -, -, -, hmode, -⟩ := h.rests
    unfold State.fillGoesOn
    rw [lane_refilled, updateRefill_eq, h.unquiet.lane]
    simp [hmode]
  have hfills := fillDecision_fills hrest false
  rw [← nextWork_fill hno, hidle, if_neg (by simp), hsegment, hf, h.unquiet.settings] at hfills
  rw [updateRefill_eq] at hlane hwait
  dsimp only at hwait
  rw [hwait, h.unquiet.lane] at hlane
  have hcalm : ((z.filling l).lane l).marks.schedule = false := by
    rw [hlane]
    exact congrArg LaneMarks.schedule h.clear
  cases hg : (s.lane l).segmentAt (s.lane l).f with
  | none =>
    rw [hg] at hfills
    obtain ⟨hend, -⟩ := h.ends (z.filling l) (.inl ⟨hfills, hcalm⟩)
    rw [hend, hlane]
    exact ⟨rfl, rfl, nofun⟩
  | some g =>
    rw [hg] at hfills
    set q := fillPlan g.ref (s.lane l).f (speedOf (s.settings l).readSpeed) with hq
    have hworks : ((z.filling l).sought l q).Works l := by
      have hworks := works_fill h.decides h.calm hno hrest (hsegment.trans hg) (speedOf (s.settings l).readSpeed)
      rwa [hf] at hworks
    have hdecided := decidedTo_sendSeek (by rw [tlc_filling]; exact h.ready.2) hworks
    have hends := h.ends ((z.filling l).sought l q) (by rw [hfills]; exact hdecided)
    have hsame : (z.filling l).anchoredTest l q.seg q.target = t.anchoredTest l q.seg q.target := by
      refine h.anchors (applied_filling z l) ?_ ?_ (fun j => ?_) ..
      · exact (State.store_updLane ..).trans (State.store_updLane ..)
      · rw [hlane, h.unquiet.lane]
      · rw [hlane, h.unquiet.lane]
        rfl
    have hsent := seekSent_sought ((tlc_filling z l).trans h.unquiet.tlc) h.ready.1 hends hsame
    rw [hends.lane, lane_sought, hlane]
    refine ⟨rfl, rfl, fun k hk => ?_⟩
    obtain rfl := Option.some.inj hk
    exact ⟨rfl, rfl, rfl, hsent⟩

/-- The fill decision of a lane that rests with no repair to start. -/
theorem fillDecided_rests (h : s.DecidedFrom z t l) (hno : z.startRepair l = none) :
    s.FillDecided t l ∧ (t.lane l).spans = (s.lane l).spans ∧ (t.lane l).rsc.quiet = false := by
  cases hr : (s.lane l).restReason (s.settings l).share (s.settings l).refillGap with
  | some r =>
    obtain ⟨hrsc, hspans, hready, hseeks⟩ := rest_decided h hno hr
    refine ⟨⟨fun k hk => ?_, fun g hk => ?_⟩, hspans, by rw [hrsc]⟩
    · obtain rfl := Option.some.inj (hr.symm.trans hk)
      rw [hrsc]
      refine ⟨rfl, rfl, hready, hseeks, ?_⟩
      simp [or_comm]
    · rw [hr] at hk
      cases hk
  | none =>
    obtain ⟨hquiet, hspans, hfill⟩ := fill_decided h hno hr
    refine ⟨⟨fun k hk => ?_, fun g _ hg => hfill g hg⟩, hspans, hquiet⟩
    rw [hr] at hk
    cases hk

/-- With a repair to start, it is that of the nearest span that may be repaired (R89, R90, R91). -/
theorem repair_nearest (h : s.DecidedFrom z t l) (hinv : s.Inv) {u : State} (hu : z.startRepair l = some u) {y : Span}
    {r : RepairPart} (hy : y ∈ (s.lane l).spans) (hmay : (s.lane l).MayRepair (s.settings l).repairMargin y)
    (hr : y.repair = some r)
    (hmin : ∀ v ∈ (s.lane l).spans, (s.lane l).MayRepair (s.settings l).repairMargin v →
      ahead y.first (s.lane l).p ≤ ahead v.first (s.lane l).p) :
    (t.lane l).rsc.mode = .repair ∧ (t.lane l).rsc.rest = none ∧
      (t.lane l).rsc.target = some { first := y.first, last := plus y.first (y.count - 1), seg := y.seg } ∧
      (t.lane l).rsc.attempt = some
        { number := r.attempts + 1, speed := attemptSpeed (s.settings l).readSpeed r.attempts,
          steady := attemptSteady r.attempts } ∧
      (t.lane l).activeSpan = some { y with repair := some { r with active := true } } ∧ (t.lane l).madeGood = 0 ∧
      s.SeekSent t l .repair y.seg y.first (attemptSpeed (s.settings l).readSpeed r.attempts)
        (attemptSteady r.attempts) := by
  obtain ⟨-, -, -, -, -, -, hidle, -⟩ := h.rests
  have hform := (hinv.lane l).1.form
  obtain ⟨v, b, hfind, hlane, hsent⟩ := repair_decided h hu
  have hfirst := find_nearest (mapFormed_order hform) hy ((eligible_iff hidle hy _).2 hmay)
    fun w hw hel => hmin w hw ((eligible_iff hidle hw _).1 hel)
  obtain rfl := Option.some.inj (hfirst.symm.trans hfind)
  have hattempts : y.attempts = r.attempts := by
    unfold Span.attempts
    rw [hr]
  have hactive : (t.lane l).activeSpan = ((z.lane l).attempting (s.settings l).readSpeed y).activeSpan := by
    rw [hlane]
    rfl
  rw [hattempts] at hsent
  refine ⟨?_, ?_, ?_, ?_, ?_, ?_, hsent⟩
  · rw [hlane]
    rfl
  · rw [hlane]
    rfl
  · rw [hlane]
    rfl
  · rw [← hattempts, hlane]
    rfl
  · rw [hactive, h.unquiet.lane]
    exact activeSpan_attempting hform hidle hy hr (s.settings l).readSpeed
  · rw [hlane]
    rfl

/-- A repair starts on no lane whose lead does not let one start, and with no span that may be repaired. -/
theorem no_startRepair (h : s.DecidedFrom z t l)
    (hno : ¬(s.lane l).MayStart (s.settings l) ∨
      ∀ y ∈ (s.lane l).spans, ¬(s.lane l).MayRepair (s.settings l).repairMargin y) : z.startRepair l = none := by
  cases hu : z.startRepair l with
  | none => rfl
  | some u =>
    obtain ⟨-, -, -, -, -, -, hidle, -⟩ := h.rests
    obtain ⟨y, hstart, hfind, -⟩ := startRepair_some hu
    have hmay := startCondition_iff.1 hstart
    rw [h.unquiet.lane, h.unquiet.settings] at hmay hfind
    rcases hno with hno | hno
    · exact absurd hmay hno
    · have hmem := List.mem_of_find?_eq_some hfind
      exact absurd ((eligible_iff hidle hmem _).1 (List.find?_some hfind)) (hno y hmem)

theorem startRepair_starts (h : s.DecidedFrom z t l) (hinv : s.Inv) (hstart : (s.lane l).MayStart (s.settings l))
    {y : Span} (hy : y ∈ (s.lane l).spans) (hmay : (s.lane l).MayRepair (s.settings l).repairMargin y) :
    z.startRepair l ≠ none := by
  obtain ⟨-, -, -, -, -, -, hidle, -⟩ := h.rests
  have hformed : AllFormed (s.lane l).spans := (hinv.lane l).1.form.allFormed
  refine startRepair_isSome (y := y) ?_ ?_ ?_ ?_ ?_
  all_goals rw [h.unquiet.lane]
  · rw [h.unquiet.settings]
    exact hstart
  · exact hidle
  · exact hformed
  · exact hy
  · rw [h.unquiet.settings]
    exact hmay

end

/-- Settles O47: only scheduling points follow on the end of the settle time, at most three of a lane, so that the lane's work
decision is the one of the model, carried out once. -/
theorem workDecided : Obligations.WorkDecided := by
  unfold Obligations.WorkDecided
  intro l s hr htimer hqueue hstate hlanes hinv hunm hrests
  obtain ⟨z, t, hexec, h⟩ := settleTimerExpiry_decides hr htimer hqueue hstate hlanes hinv hunm hrests
  have hfill := fun hno => fillDecided_rests h (no_startRepair h hno)
  refine ⟨t, hexec, ?_, ?_, fun hno => ⟨(hfill hno).1, (hfill hno).2.1⟩⟩
  · cases hu : z.startRepair l with
    | none => exact (fillDecided_rests h hu).2.2
    | some u =>
      obtain ⟨y, b, -, hlane, -⟩ := repair_decided h hu
      rw [hlane, h.unquiet.lane]
      rfl
  · intro y r speed hstart hy hmay hrepair hmin hspeed
    obtain ⟨u, hu⟩ := Option.ne_none_iff_exists'.1 (startRepair_starts h hinv hstart hy hmay)
    rw [hspeed]
    exact repair_nearest h hinv hu hy hmay hrepair hmin

end Sys2Proof.Machine
end

section
/-! A frame of the audio port (O44). -/

namespace Sys2Proof.Machine

set_option Elab.async false

/-! ### The pair a block sends (R108 to R111) -/

section
variable {b : PlayBlock} {k : Nat}

theorem pairAt_silentForm (h : b.form ≠ .copy) (level : Nat) : b.pairAt k level = .silent := by
  unfold PlayBlock.pairAt
  split
  · rfl
  · rfl
  · rename_i hcopy
    exact absurd hcopy h

theorem pairAt_unmarked (hcopy : b.form = .copy) (hrun : runAt b.plan k = none) (level : Nat) :
    b.pairAt k level = scalePair (pairAt b.pairs k) level := by
  simp only [PlayBlock.pairAt, hcopy, hrun]

theorem pairAt_gapMuted {q : ConcealedRun} (hcopy : b.form = .copy) (hrun : runAt b.plan k = some q)
    (hhow : q.how = .mute) (level : Nat) : b.pairAt k level = .silent := by
  simp only [PlayBlock.pairAt, hcopy, hrun, hhow]

theorem pairAt_interpolated {q : ConcealedRun} {x y : Option Pair} (hcopy : b.form = .copy)
    (hrun : runAt b.plan k = some q) (hhow : q.how = .interpolate x y) (level : Nat) :
    b.pairAt k level = scalePair (interpolatePair x y (k - q.first + 1) (q.length + 1)) level := by
  simp only [PlayBlock.pairAt, hcopy, hrun, hhow]

end

/-! ### The gain of one pair (R111, R112) -/

section
variable {u : Playout} {b : PlayBlock}

theorem beginPlanned_begins (hplan : b.plannedFall = true) (hnext : b.next = 460)
    (hgain : u.gain = .full ∨ u.gain = .rising) :
    u.beginPlanned b = { u with gain := .falling, fall := .step } := if_pos ⟨hnext, hplan, hgain⟩

theorem beginPlanned_unplanned (h : ¬(b.plannedFall = true ∧ b.next = 460)) : u.beginPlanned b = u :=
  if_neg fun ⟨hnext, hplan, _⟩ => h ⟨hplan, hnext⟩

/-- A unit that is SILENT or falls already begins no planned fall. -/
theorem beginPlanned_lowered (h : u.gain = .silent ∨ u.gain = .falling) : u.beginPlanned b = u := by
  refine if_neg fun ⟨_, _, hgain⟩ => ?_
  rcases h with h | h <;> rw [h] at hgain <;> rcases hgain with hgain | hgain <;> cases hgain

/-- The pair at which a planned fall begins is sent at the level reached. -/
theorem sendLevel_beginPlanned (u : Playout) (b : PlayBlock) : (u.beginPlanned b).sendLevel = u.sendLevel := by
  unfold Playout.beginPlanned
  split
  · rename_i h
    obtain ⟨-, -, hgain | hgain⟩ := h <;> simp only [Playout.sendLevel, hgain]
  · rfl

theorem ramp_full (h : u.gain = .full) : u.ramp = u := by simp only [Playout.ramp, h]

theorem ramp_silent (h : u.gain = .silent) : u.ramp = u := by simp only [Playout.ramp, h]

theorem ramp_rising (h : u.gain = .rising) : u.ramp =
    if 127 ≤ u.level then { u with gain := .full, level := 128 } else { u with level := u.level + 1 } := by
  simp only [Playout.ramp, h, Config.fullGain, Nat.reduceLeDiff]

theorem ramp_step (h : u.gain = .falling) (hfall : u.fall = .step) :
    u.ramp = if u.level ≤ 1 then u.silence else { u with level := u.level - 1 } := by
  simp only [Playout.ramp, h, hfall]

theorem ramp_short {g r j : Nat} (h : u.gain = .falling) (hfall : u.fall = .short g r j) : u.ramp =
    if r ≤ j + 1 then u.silence else { u with level := g * (r - (j + 1)) / r, fall := .short g r (j + 1) } := by
  simp only [Playout.ramp, h, hfall]

/-- A pair sent in a fall of one step a pair: a planned one from where it begins, or one that is running. -/
theorem ramp_stepDown {v : Playout} (h : v.gain = .falling) (hfall : v.fall = .step) :
    if v.level ≤ 1 then v.ramp.gain = .silent ∧ v.ramp.level = 0
    else v.ramp.gain = .falling ∧ v.ramp.fall = .step ∧ v.ramp.level = v.level - 1 := by
  rw [ramp_step h hfall]
  split
  · exact ⟨rfl, rfl⟩
  · exact ⟨h, hfall, rfl⟩

theorem sendPair_block (u : Playout) (b : PlayBlock) : (u.sendPair b).block = some { b with next := b.next + 1 } := rfl

theorem sendPair_out (u : Playout) (b : PlayBlock) : (u.sendPair b).out = b.pairAt b.next u.sendLevel :=
  congrArg (b.pairAt b.next) (sendLevel_beginPlanned u b)

/-- The gain, its level and its fall after a pair are those of the ramp. -/
theorem sendPair_ramp {v : Playout} (h : u.beginPlanned b = v) :
    (u.sendPair b).gain = v.ramp.gain ∧ (u.sendPair b).level = v.ramp.level ∧ (u.sendPair b).fall = v.ramp.fall := by
  subst h
  exact ⟨rfl, rfl, rfl⟩

theorem sendPair_planned (hplan : b.plannedFall = true) (hnext : b.next = 460)
    (hgain : u.gain = .full ∨ u.gain = .rising) :
    if u.level ≤ 1 then (u.sendPair b).gain = .silent ∧ (u.sendPair b).level = 0
    else (u.sendPair b).gain = .falling ∧ (u.sendPair b).fall = .step ∧ (u.sendPair b).level = u.level - 1 := by
  obtain ⟨hg, hl, hf⟩ := sendPair_ramp (beginPlanned_begins hplan hnext hgain)
  rw [hg, hl, hf]
  exact ramp_stepDown (v := { u with gain := .falling, fall := .step }) rfl rfl

/-- Without a planned fall that begins, FULL stays and a rise steps up. -/
theorem sendPair_unplanned (h : ¬(b.plannedFall = true ∧ b.next = 460)) :
    (u.gain = .full → (u.sendPair b).gain = .full ∧ (u.sendPair b).level = u.level) ∧
      (u.gain = .rising → u.level < 127 → (u.sendPair b).gain = .rising ∧ (u.sendPair b).level = u.level + 1) ∧
      (u.gain = .rising → 127 ≤ u.level → (u.sendPair b).gain = .full ∧ (u.sendPair b).level = 128) := by
  obtain ⟨hg, hl, -⟩ := sendPair_ramp (beginPlanned_unplanned (u := u) h)
  rw [hg, hl]
  refine ⟨fun hfull => ?_, fun hrise hlow => ?_, fun hrise hhigh => ?_⟩
  · rw [ramp_full hfull]
    exact ⟨hfull, rfl⟩
  · rw [ramp_rising hrise, if_neg (by omega)]
    exact ⟨hrise, rfl⟩
  · rw [ramp_rising hrise, if_pos hhigh]
    exact ⟨rfl, rfl⟩

theorem sendPair_silent (h : u.gain = .silent) : (u.sendPair b).gain = .silent ∧ (u.sendPair b).level = u.level := by
  obtain ⟨hg, hl, -⟩ := sendPair_ramp (beginPlanned_lowered (b := b) (.inl h))
  rw [hg, hl, ramp_silent h]
  exact ⟨h, rfl⟩

theorem sendPair_step (h : u.gain = .falling) (hfall : u.fall = .step) :
    if u.level ≤ 1 then (u.sendPair b).gain = .silent ∧ (u.sendPair b).level = 0
    else (u.sendPair b).gain = .falling ∧ (u.sendPair b).fall = .step ∧ (u.sendPair b).level = u.level - 1 := by
  obtain ⟨hg, hl, hf⟩ := sendPair_ramp (beginPlanned_lowered (b := b) (.inr h))
  rw [hg, hl, hf]
  exact ramp_stepDown h hfall

theorem sendPair_short {g r j : Nat} (h : u.gain = .falling) (hfall : u.fall = .short g r j) :
    if r ≤ j + 1 then (u.sendPair b).gain = .silent ∧ (u.sendPair b).level = 0
    else (u.sendPair b).gain = .falling ∧ (u.sendPair b).fall = .short g r (j + 1) ∧
      (u.sendPair b).level = g * (r - (j + 1)) / r := by
  obtain ⟨hg, hl, hf⟩ := sendPair_ramp (beginPlanned_lowered (b := b) (.inr h))
  rw [hg, hl, hf, ramp_short h hfall]
  split
  · exact ⟨rfl, rfl⟩
  · exact ⟨h, rfl, rfl⟩

end

/-! ### One frame of the port (R103, R113) -/

section
variable {x : Lane} {b : PlayBlock}

/-- A frame changes of a lane its playout unit alone. -/
theorem frame_eq (x : Lane) : x.frame = { x with plu := x.frame.plu } := by
  unfold Lane.frame
  repeat' split
  all_goals rfl

theorem frame_noBlock (hb : x.plu.block = none) : x.frame.plu = { x.plu with out := .silent } := by
  simp only [Lane.frame, hb]

theorem frame_waits (hb : x.plu.block = some b) (hs : x.seq.state ≠ .playing)
    (h : x.plu.gain ≠ .falling ∨ 588 ≤ b.next) :
    x.frame.plu = { x.plu with out := .silent } := by
  have hno : ¬(x.plu.gain = .falling ∧ b.next < Config.pairsPerBlock) := fun ⟨hgain, hnext⟩ =>
    h.elim (· hgain) fun hend => absurd hnext (Nat.not_lt.2 hend)
  simp only [Lane.frame, hb, if_neg hs, if_neg hno]

theorem frame_atEnd (hb : x.plu.block = some b) (hs : x.seq.state = .playing) (h : 588 ≤ b.next) :
    x.frame.plu = x.plu := by
  have hno : ¬ b.next < Config.pairsPerBlock := Nat.not_lt.2 h
  simp only [Lane.frame, hb, if_pos hs, if_neg hno]

theorem frame_sends (hb : x.plu.block = some b) (hnext : b.next < 588)
    (h : x.seq.state = .playing ∨ x.plu.gain = .falling) :
    x.frame.plu = x.plu.sendPair b := by
  have hlt : b.next < Config.pairsPerBlock := hnext
  by_cases hs : x.seq.state = .playing
  · simp only [Lane.frame, hb, if_pos hs, if_pos hlt]
  · simp only [Lane.frame, hb, if_neg hs, if_pos (And.intro (h.resolve_left hs) hlt)]

end

/-- Settles O44: which of its four courses a frame takes (`frame_noBlock`, `frame_waits`, `frame_atEnd`, `frame_sends`), and
for a pair that is sent what the block sends (`pairAt_*`) and how the gain goes on (`sendPair_*`). -/
theorem audioFrameSent : Obligations.AudioFrameSent := by
  intro l s u hr hu
  subst hu
  refine ⟨fun q k => rfl, s.clearOutputs.updLane l Lane.frame, (s.lane l).frame.plu, ?_, ?_, ?_, frame_noBlock,
    fun b => frame_waits, fun b => frame_atEnd, fun b level hb hnext hs hlevel => ?_⟩
  · exact congrArg Host.Outcome.next (if_pos hr)
  · rw [State.lane_updLane, lane_clearOutputs]
  · rw [← frame_eq, State.updLane, lane_clearOutputs]
  · obtain rfl : level = (s.lane l).plu.sendLevel := hlevel
    rw [frame_sends hb hnext hs, sendPair_out]
    exact ⟨sendPair_block _ b, fun hform => pairAt_silentForm hform _, fun hcopy hrun => pairAt_unmarked hcopy hrun _,
      fun q hcopy hrun hhow => pairAt_gapMuted hcopy hrun hhow _,
      fun q x y hcopy hrun hhow => pairAt_interpolated hcopy hrun hhow _, sendPair_planned, sendPair_unplanned,
      sendPair_silent, sendPair_step, fun g r j => sendPair_short⟩

end Sys2Proof.Machine
end

section
/-! PAUSE and GO taken (O21, O22). -/

namespace Sys2Proof.Machine

set_option Elab.async false

/-! ### A lane whose playout the end of an event leaves -/

/-- The lane `y` has the state, the playout unit, p and f of `x`. -/
structure Lane.SamePlay (x y : Lane) : Prop where
  state : y.seq.state = x.seq.state
  plu : y.plu = x.plu
  p : y.p = x.p
  f : y.f = x.f

theorem Leaves.samePlay {l : LaneId} {u t : State} (h : Leaves (· ≠ l) (· ≠ l) True u t) :
    (u.lane l).SamePlay (t.lane l) := by
  obtain ⟨n, hseq⟩ := h.seq l (by simp)
  exact ⟨by rw [hseq], h.plu l (by simp), h.p l (by simp), h.f l⟩

/-- What follows on a taken command, its answer and the records leave the playout of a lane at ease. -/
theorem samePlay_attend {s : State} {l : LaneId} {F : State → State} (h : ((F s).lane l).AtEase) (c : CellId) (k : Nat) :
    ((F s).lane l).SamePlay ((s.attend c k (.taken F)).lane l) :=
  Leaves.samePlay (attend_leaves s c k F (fun m => if hm : m = l then .inr (hm ▸ h) else .inl hm)
    (fun m => if hm : m = l then .inr (.inr fun hne => hne hm) else .inl hm) (.inl trivial))

/-- What follows on an event and the records leave the playout of a lane at ease. -/
theorem samePlay_event {s : State} {l : LaneId} {F : State → State} (h : ((F s.clearOutputs).lane l).AtEase) :
    ((F s.clearOutputs).lane l).SamePlay ((s.event F).lane l) :=
  Leaves.samePlay (event_leaves s F (fun m => if hm : m = l then .inr (hm ▸ h) else .inl hm)
    (fun m => if hm : m = l then .inr (.inr fun hne => hne hm) else .inl hm) (.inl trivial))

/-- A command that the lane's state admits is taken with its effect, and answered with the state that it leads to. -/
theorem laneCommand_taken {s : State} {l : LaneId} {k : Nat} {p : LaneState → Bool} {F : State → State}
    (ha : s.attends (laneCell l) k = true) (hn : s.share l ≠ 0) (hp : p (s.lane l).seq.state = true)
    (hF : ∀ {r u : State}, Follows r u → Follows r (F u)) :
    s.onCommand (laneCell l) k (fun u => u.judgeByState l p F) =
        (s.taking (laneCell l)).attend (laneCell l) k (.taken F) ∧
      s.Answered ((s.taking (laneCell l)).attend (laneCell l) k (.taken F)) (laneCell l)
        (answerWord k 1 (((s.taking (laneCell l)).attend (laneCell l) k (.taken F)).lane l).seq.state.code) := by
  refine ⟨(onCommand_of ha _).trans (by rw [judgeByState_admits hn hp]), ?_⟩
  rw [← detail_laneCell]
  exact attend_taken s _ _ _ (hF (follows_clearOutputs (Follows.refl s) (some (laneCell l)))).ownEffect

/-! ### PAUSE (R113, R166) -/

/-- The unit that leaves PLAYING: its block stays but for the mark of a fall, and it falls where a copy still sounds. -/
theorem beginFall_block {u : Playout} {b : PlayBlock} (hb : u.block = some b) :
    (∃ d, u.beginFall.block = some { b with fell := d }) ∧
      u.beginFall.gain = if b.form = .copy ∧ 0 < u.level ∧ b.next < 588 then .falling else .silent := by
  unfold Playout.beginFall
  rw [hb]
  dsimp only
  by_cases hsounds : b.form = .copy ∧ 0 < u.level ∧ b.next < 588
  · have hfall : b.form = .copy ∧ 0 < u.level ∧ b.next < Config.pairsPerBlock := hsounds
    rw [if_pos hfall, if_pos hsounds]
    split
    · rename_i hgain
      exact ⟨⟨true, rfl⟩, hgain⟩
    · exact ⟨⟨true, rfl⟩, rfl⟩
  · have hfall : ¬(b.form = .copy ∧ 0 < u.level ∧ b.next < Config.pairsPerBlock) := hsounds
    rw [if_neg hfall, if_neg hsounds]
    exact ⟨⟨b.fell, hb⟩, rfl⟩

theorem beginFall_episode (u : Playout) : u.beginFall.episode = u.episode := by
  unfold Playout.beginFall
  dsimp only
  repeat' split
  all_goals rfl

/-- The effect of a PAUSE: PAUSED at p, the episode ended, no underrun cause, the fall of R113 begun. -/
theorem lane_pauseLane (s : State) (l : LaneId) :
    ((s.pauseLane l).lane l).seq = { (s.lane l).seq with state := .paused } ∧
      ((s.pauseLane l).lane l).p = (s.lane l).p ∧ ((s.pauseLane l).lane l).f = (s.lane l).f ∧
      ∃ n, ((s.pauseLane l).lane l).plu =
        { ({ (s.lane l).plu with episode := none, note := n } : Playout).beginFall with cause := none } := by
  obtain ⟨eseq, ep, ef, -, eplu⟩ := lane_endEpisode s l
  obtain ⟨sseq, splu, sp, sf, -⟩ := lane_setLaneState (s.endEpisode l) l .paused
  unfold State.pauseLane
  rw [State.lane_updLane]
  refine ⟨sseq.trans (by rw [eseq]), sp.trans ep, sf.trans ef, ((s.endEpisode l).lane l).plu.note, ?_⟩
  dsimp only
  rw [splu, ← eplu]

/-- Settles O21: the effect is that of `lane_pauseLane`, and a PAUSED lane whose sequencer waits for no BIND is at ease for
the rest of the event. -/
theorem pauseTaken : Obligations.PauseTaken := by
  intro l s ha hn hadmits
  set u := s.taking (laneCell l) with hu
  have hlane : u.lane l = s.lane l := lane_clearOutputs s _ l
  obtain ⟨hexec, hanswered⟩ := laneCommand_taken (p := LaneState.admitsPause) (F := fun u => u.pauseLane l) ha hn
    (by rcases hadmits with h | h <;> rw [h] <;> rfl) fun h => follows_pauseLane h l
  obtain ⟨hseq, hp, hf, note, hplu⟩ := lane_pauseLane u l
  rw [hlane] at hseq hp hf hplu
  have hany := attend_leaves_any u (laneCell l) codePause fun u => u.pauseLane l
  refine ⟨_, congrArg Host.Outcome.next hexec, hanswered, (hany.f l).trans hf, fun hbind hre => ?_⟩
  have hease : ((u.pauseLane l).lane l).AtEase := by
    unfold Lane.AtEase
    rw [hseq]
    exact ⟨⟨nofun, nofun, nofun⟩, hbind, hre⟩
  obtain ⟨tstate, tplu, tp, -⟩ := samePlay_attend (F := fun u => u.pauseLane l) hease (laneCell l) codePause
  rw [tstate, tp, tplu, hseq, hp, hplu]
  refine ⟨rfl, rfl, beginFall_episode _, rfl, fun b hb => ?_⟩
  obtain ⟨⟨d, hblock⟩, hgain⟩ := beginFall_block (u := { (s.lane l).plu with episode := none, note := note }) hb
  exact ⟨⟨_, hblock, rfl, rfl, rfl⟩, hgain⟩

/-! ### GO (R114, R166) -/

/-- The unit with its kept block resumed at a pair, and a fall planned in it or none (R114). -/
def Playout.resumeAt (u : Playout) (b : PlayBlock) (planned : Bool) (k : Nat) : Playout :=
  { u.resumeGain b.form planned k with block := some { b with next := k, plannedFall := planned } }

/-- What is calm leaves f. -/
theorem Calm.f {e c : LaneId → Prop} {b : Prop} {r s : State} (h : Calm e c b r s) (l : LaneId) :
    (s.lane l).f = (r.lane l).f := congrArg LaneSteady.f (h.lane l)

section
variable (s : State) (l : LaneId)

theorem f_startPlay : ((s.startPlay l).lane l).f = (s.lane l).f :=
  (calm_startPlay (Calm.refl (fun _ => True) (fun _ => True) True s) l trivial).f l

theorem f_dropAndStart : ((s.dropAndStart l).lane l).f = (s.lane l).f := by
  unfold State.dropAndStart
  rw [f_startPlay, State.lane_updLane]

theorem f_walkOn : ((s.walkOn l).lane l).f = (s.lane l).f :=
  (calm_walkOn (Calm.refl (fun _ => True) (fun _ => True) True s) l trivial).f l

theorem f_prefetchAtEnd : ((s.prefetchAtEnd l).lane l).f = (s.lane l).f :=
  (calm_prefetchAtEnd (Calm.refl (fun _ => True) (fun _ => True) True s) l trivial).f l

theorem f_advance : ((s.advance l).lane l).f = (s.lane l).f := by
  have hclaim : ((s.claimAdvance l).lane l).f = (s.lane l).f := by
    by_cases h : (s.lane l).p = (s.lane l).f
    · have hr : ∀ u : State, (u.releasePassed l).lane l = u.lane l := fun u => by cases l <;> rfl
      unfold State.claimAdvance Lane.advanceMap
      dsimp only
      rw [hr, State.lane_updLane, if_pos h]
      rfl
    · exact (lane_claimAdvance h).2.1
  exact ((calm_advance (e := fun _ => True) (c := fun _ => True) (b := True) s l trivial).f l).trans hclaim

/-- The lane PLAYING with its unit changed. -/
theorem lane_playingWith (g : Playout → Playout) :
    let t := (s.setLaneState l .playing).updLane l fun x => { x with plu := g x.plu }
    (t.lane l).seq = { (s.lane l).seq with state := .playing } ∧ (t.lane l).plu = g (s.lane l).plu ∧
      (t.lane l).p = (s.lane l).p ∧ (t.lane l).f = (s.lane l).f := by
  obtain ⟨hseq, hplu, hp, hf, -⟩ := lane_setLaneState s l .playing
  intro t
  rw [State.lane_updLane]
  exact ⟨hseq, congrArg g hplu, hp, hf⟩

/-- A GO in PAUSED leaves f, in each of the courses of R114. -/
theorem f_resume : ((s.resume l).lane l).f = (s.lane l).f := by
  have hplays := fun g => (lane_playingWith s l g).2.2.2
  unfold State.resume
  dsimp only
  split
  · exact f_startPlay s l
  · rename_i b _
    split
    · split
      · exact f_dropAndStart s l
      · exact hplays fun u => { u.silence with block := some { b with next := _, plannedFall := false } }
    · split
      · exact (f_advance _ l).trans (hplays fun u => { u.silence with block := some { b with next := _ } })
      · exact hplays fun u => u.resumeAt b _ _

theorem f_goLane : ((s.goLane l).lane l).f = (s.lane l).f := by
  have hseq : ((s.updSeq l fun q => { q with unplayed := 0 }).lane l).f = (s.lane l).f := by
    rw [State.updSeq, State.lane_updLane]
  unfold State.goLane
  dsimp only
  rw [f_prefetchAtEnd]
  split
  · exact (f_resume _ l).trans hseq
  · split
    · rw [f_startPlay, State.lane_updLane, hseq]
    · rw [f_walkOn, State.lane_updLane, hseq]
  · exact (f_walkOn _ l).trans hseq
  all_goals exact hseq

end

/-- The unit of a lane that goes on with its kept block: the pairs of the fall passed over, the look-ahead of a copy made
afresh (R114). -/
def Lane.resumed (x : Lane) (b : PlayBlock) : Playout :=
  x.plu.resumeAt b (b.form == .copy && x.plansFall) (b.next + x.plu.fallLeft)

/-- A GO on a block kept at p of which pairs are left, the fall passed over. -/
theorem resume_kept {s : State} {l : LaneId} {b : PlayBlock} (hb : (s.lane l).plu.block = some b)
    (hpos : b.position = (s.lane l).p) (hleft : b.next + (s.lane l).plu.fallLeft < 588) :
    s.resume l = (s.setLaneState l .playing).updLane l fun x => { x with
      plu := x.plu.resumeAt b (b.form == .copy && (s.lane l).plansFall) (b.next + (s.lane l).plu.fallLeft) } := by
  have hmin : min Config.pairsPerBlock (b.next + (s.lane l).plu.fallLeft) = b.next + (s.lane l).plu.fallLeft :=
    Nat.min_eq_right (Nat.le_of_lt hleft)
  have hnot : ¬ b.next + (s.lane l).plu.fallLeft = Config.pairsPerBlock := Nat.ne_of_lt hleft
  unfold State.resume
  dsimp only
  simp only [hb, hmin, if_neg (not_not.2 hpos), if_neg hnot]
  rfl

/-- The effect of a GO on such a block: PLAYING at p with the block resumed; the sequencer still waits for nothing. -/
theorem lane_goLane_kept {s : State} {l : LaneId} {b : PlayBlock} (hs : (s.lane l).seq.state = .paused)
    (hsettled : (s.lane l).Settled) (hb : (s.lane l).plu.block = some b) (hpos : b.position = (s.lane l).p)
    (hleft : b.next + (s.lane l).plu.fallLeft < 588) :
    ((s.goLane l).lane l).Settled ∧ ((s.goLane l).lane l).seq.state = .playing ∧
      ((s.goLane l).lane l).plu = (s.lane l).resumed b ∧ ((s.goLane l).lane l).p = (s.lane l).p := by
  set u := s.updSeq l fun q => { q with unplayed := 0 } with hu
  have hul : u.lane l = { s.lane l with seq := { (s.lane l).seq with unplayed := 0 } } := State.lane_updLane ..
  have hgo : s.goLane l = (u.resume l).prefetchAtEnd l := by
    unfold State.goLane
    dsimp only
    rw [← hu, hul]
    simp only [hs]
  have hplays := lane_playingWith u l fun v =>
    v.resumeAt b (b.form == .copy && (u.lane l).plansFall) (b.next + (u.lane l).plu.fallLeft)
  dsimp only at hplays
  rw [← resume_kept (by rw [hul]; exact hb) (by rw [hul]; exact hpos) (by rw [hul]; exact hleft), hul] at hplays
  obtain ⟨rseq, rplu, rp, -⟩ := hplays
  have hnotes := (notes_prefetchAtEnd (.refl l (u.resume l))).lane
  have hstate := (goes_prefetchAtEnd (.refl l (u.resume l))).state
  obtain ⟨hmark, hbind, hre⟩ := hsettled
  rw [hgo]
  refine ⟨⟨?_, ?_, ?_⟩, hstate.trans (by rw [rseq]), ?_, ?_⟩
  · rw [hnotes.mark, rseq, hmark]
  · rw [hnotes.bind, rseq, hbind]
  · rw [hnotes.reRequest, rseq, hre]
  · rw [hnotes.rest]
    exact rplu
  · rw [hnotes.rest]
    exact rp

theorem resumeGain_eq (u : Playout) (form : BlockForm) (planned : Bool) (k : Nat) :
    (u.resumeGain form planned k).level = 0 ∧ (u.resumeGain form planned k).gain =
      if form = .copy ∧ ¬(planned = true ∧ 460 ≤ k) then .rising else .silent := by
  unfold Playout.resumeGain
  split
  · rename_i h
    exact ⟨rfl, (if_pos h).symm⟩
  · rename_i h
    exact ⟨rfl, (if_neg h).symm⟩

/-- A resumed unit rises from 0, unless its block is silent or its planned fall has begun. -/
theorem resumed_gain (x : Lane) (b : PlayBlock) :
    (x.resumed b).level = 0 ∧ (x.resumed b).gain =
      if b.form = .copy ∧ ¬(x.plansFall = true ∧ 460 ≤ b.next + x.plu.fallLeft) then .rising else .silent := by
  obtain ⟨hlevel, hgain⟩ :=
    resumeGain_eq x.plu b.form (b.form == .copy && x.plansFall) (b.next + x.plu.fallLeft)
  refine ⟨hlevel, hgain.trans (if_congr (and_congr_right fun hcopy => ?_) rfl rfl)⟩
  simp [hcopy]

/-- Settles O22: f stays (`f_goLane`); a kept block goes on as `lane_goLane_kept` says, and a PLAYING lane whose
sequencer waits for nothing is at ease for the rest of the event. -/
theorem goTaken : Obligations.GoTaken := by
  intro l s ha hn hadmits
  set u := s.taking (laneCell l) with hu
  have hlane : u.lane l = s.lane l := lane_clearOutputs s _ l
  obtain ⟨hexec, hanswered⟩ := laneCommand_taken (p := LaneState.admitsGo) (F := fun u => u.goLane l) ha hn
    (by rcases hadmits with h | h | h <;> rw [h] <;> rfl) fun h => follows_goLane h l
  have hany := attend_leaves_any u (laneCell l) codeGo fun u => u.goLane l
  refine ⟨_, congrArg Host.Outcome.next hexec, hanswered, (hany.f l).trans ((f_goLane u l).trans (by rw [hlane])), ?_⟩
  intro hs hsettled b hb hpos hleft
  rw [← hlane] at hs hsettled hb hpos hleft ⊢
  obtain ⟨⟨gmark, gbind, gre⟩, gstate, gplu, gp⟩ := lane_goLane_kept hs hsettled hb hpos hleft
  have hease : ((u.goLane l).lane l).AtEase :=
    ⟨⟨by rw [gstate]; nofun, fun _ => gmark, by rw [gstate]; nofun⟩, gbind, gre⟩
  obtain ⟨tstate, tplu, tp, -⟩ := samePlay_attend (F := fun u => u.goLane l) hease (laneCell l) codeGo
  obtain ⟨hlevel, hgain⟩ := resumed_gain (u.lane l) b
  rw [tstate, tp, tplu, gplu]
  exact ⟨gstate, gp, hlevel, rfl, hgain⟩

end Sys2Proof.Machine
end

section
/-! A block at its end with no advance to take, and the end of a fall (O46). -/

namespace Sys2Proof.Machine

set_option Elab.async false

/-! ### A position taken up by a SILENT unit (R107, R110, R112) -/

/-- What a unit plays: its block, its gain and level, and the underrun cause it shows. -/
def Playout.sound (u : Playout) : Option PlayBlock × GainState × Nat × Option UnderrunCause :=
  (u.block, u.gain, u.level, u.cause)

section
variable (s : State) (l : LaneId)

theorem plu_readForPlay : ((s.readForPlay l).1.lane l).plu = (s.lane l).plu :=
  ((calm_readForPlay (Calm.refl (fun _ => False) (fun _ => False) False s) l).quiet l id).2

theorem plu_readNext : ((s.readNext l).1.lane l).plu = (s.lane l).plu :=
  ((calm_readNext (Calm.refl (fun _ => False) (fun _ => False) False s) l).quiet l id).2

theorem plu_retireNormal (cs : List TakenCue) : ∀ s : State, ((s.retireNormal l cs).lane l).plu = (s.lane l).plu := by
  induction cs with
  | nil => exact fun _ => rfl
  | cons c cs ih =>
    intro s
    obtain ⟨ps, n, h⟩ := lane_retire s l c (normalOutcome c) l
    exact (ih _).trans (by rw [h])

theorem sound_crossing (g : Segment) (w : Bool) : ((s.crossing l g w).lane l).plu.sound = (s.lane l).plu.sound := by
  unfold State.crossing
  rw [State.lane_updLane, ← plu_retireNormal l _ s]
  rfl

theorem sound_countLoss (a m : Nat) (q : LossCause) : ((s.countLoss l a m q).lane l).plu.sound = (s.lane l).plu.sound := by
  unfold State.countLoss
  split
  · obtain ⟨-, -, -, -, hplu⟩ := lane_endEpisode s l
    rw [hplu]
    rfl
  · rw [State.lane_updLane]
    rfl

end

/-- A SILENT unit rises into a copy and stays SILENT through a block without one. -/
theorem sound_playBlock {x : Lane} (h : x.plu.gain = .silent) (h0 : x.plu.level = 0) (q : PlayBlock) :
    ∃ d, (x.playBlock q).plu.sound =
      (some { q with plannedFall := d }, if q.form = .copy then .rising else .silent, 0, x.plu.cause) := by
  unfold Lane.playBlock
  split
  · rename_i hcopy
    dsimp only
    rw [if_pos (.inl h), if_pos hcopy, ← h0]
    exact ⟨_, rfl⟩
  · rename_i hlost
    rw [if_neg (by rw [hlost]; nofun)]
    exact ⟨q.plannedFall, rfl⟩
  · rename_i hfault
    rw [if_neg (by rw [hfault]; nofun)]
    exact ⟨q.plannedFall, rfl⟩

/-- The end of a take-up by a SILENT unit, once the copy is read and a crossing reported. -/
theorem sound_putInPlay {l : LaneId} {r z : State} (h : (z.lane l).plu.sound = (r.lane l).plu.sound)
    (hgain : (r.lane l).plu.gain = .silent) (hlevel : (r.lane l).plu.level = 0) (q : TakenCopy) (plan : List ConcealedRun)
    (address muted lastAddress : Nat) (cause : LossCause) :
    let t := (z.updLane l fun x =>
      let x := x.playBlock { position := x.p, form := q.form, pairs := q.pairs, marks := q.marks, plan := plan, next := 0,
                             plannedFall := false, fell := false }
      let x := x.countBlock ((x.segmentAt x.p).map Segment.base) muted (interpolatedPairs plan)
      { x with seq := { x.seq with unplayed := 0, lastAddress := lastAddress } }).countLoss l address muted cause
    ∃ b, (t.lane l).plu.sound = (some b, if b.form = .copy then .rising else .silent, 0, (r.lane l).plu.cause) := by
  intro t
  simp only [Playout.sound, Prod.mk.injEq] at h
  obtain ⟨-, zgain, zlevel, zcause⟩ := h
  obtain ⟨d, hd⟩ := sound_playBlock (zgain.trans hgain) (zlevel.trans hlevel)
    { position := (z.lane l).p, form := q.form, pairs := q.pairs, marks := q.marks, plan := plan, next := 0,
      plannedFall := false, fell := false }
  rw [zcause] at hd
  refine ⟨_, (sound_countLoss _ l address muted cause).trans (Eq.trans ?_ hd)⟩
  rw [State.lane_updLane]
  exact congrArg Playout.sound (countBlock_block _ _ _ _).1

/-- A position taken up by a SILENT unit plays from level 0. -/
theorem sound_takeUp {s : State} {l : LaneId} (h : (s.lane l).plu.gain = .silent) (h0 : (s.lane l).plu.level = 0)
    (w : Bool) : ∃ b, ((s.takeUp l w).lane l).plu.sound =
      (some b, if b.form = .copy then .rising else .silent, 0, (s.lane l).plu.cause) := by
  have h1 := plu_readForPlay s l
  unfold State.takeUp
  dsimp only
  generalize s.readForPlay l = v at h1 ⊢
  obtain ⟨u, q⟩ := v
  dsimp only at h1 ⊢
  generalize hv : (if q.form = .copy ∧ needsNext (s.settings l).interpLimit q.marks then u.readNext l
    else (u, none)) = v
  have h2 : (v.1.lane l).plu = (s.lane l).plu := by
    rw [← hv, ← h1]
    split
    · exact plu_readNext u l
    · rfl
  refine sound_putInPlay ?_ h h0 q _ _ _ _ _
  rw [← h2]
  split
  · exact sound_crossing v.1 l _ _
  · rfl

/-! ### The start at the end of a block that a SKIP has cut (R106, R113, R115) -/

/-- The lane `y` waits for what `x` waits for. -/
theorem Lane.Plays.settled {x y : Lane} (h : x.Plays y) (hx : x.Settled) : y.Settled := by
  obtain ⟨hmark, hbind, hre⟩ := hx
  exact ⟨h.mark.trans hmark, h.bind.trans hbind, h.reRequest.trans hre⟩

/-- The block dropped and a start of p before f: the block of p is in play from its first pair at level 0. -/
theorem lane_dropAndStart {s : State} {l : LaneId} (hp : (s.lane l).p ≠ (s.lane l).f) :
    (s.lane l).Plays ((s.dropAndStart l).lane l) ∧ ((s.dropAndStart l).lane l).seq.state = .playing ∧
      ((s.dropAndStart l).lane l).plu.cause = none ∧
      ∃ q, ((s.dropAndStart l).lane l).plu.block = some q ∧ q.position = (s.lane l).p ∧ q.next = 0 ∧
        ((s.dropAndStart l).lane l).plu.level = 0 ∧
        ((s.dropAndStart l).lane l).plu.gain = if q.form = .copy then .rising else .silent := by
  set u := s.updLane l fun x => { x with plu := x.plu.drop } with hu
  have hul : u.lane l = { s.lane l with plu := (s.lane l).plu.drop } := State.lane_updLane ..
  have hup : (u.lane l).p ≠ (u.lane l).f := by rwa [hul]
  obtain ⟨vseq, vplu, vp, vf⟩ := lane_playingWith u l fun x => { x with cause := none }
  set v := (u.setLaneState l .playing).updLane l fun x => { x with plu := { x.plu with cause := none } } with hv
  have hstart : s.dropAndStart l = v.takeUp l false := by
    unfold State.dropAndStart State.startPlay
    dsimp only
    rw [← hu, ← hv, if_neg (by rw [vp, vf]; exact hup)]
  have hplays : (s.lane l).Plays ((s.dropAndStart l).lane l) := by
    have hdrop : PlaysOn l s u := playsOn_updLane (.refl l s) _
    exact (playsOn_startPlay hdrop hup).lane
  rw [hul] at vplu vp
  obtain ⟨q, hq⟩ := sound_takeUp (s := v) (l := l) (by rw [vplu]; rfl) (by rw [vplu]; rfl) false
  obtain ⟨tstate, q', hblock, hpos, hnext⟩ := lane_takeUp v l false
  simp only [Playout.sound, Prod.mk.injEq] at hq
  obtain ⟨tblock, tgain, tlevel, tcause⟩ := hq
  obtain rfl := Option.some.inj (hblock.symm.trans tblock)
  refine ⟨hplays, ?_⟩
  rw [hstart]
  exact ⟨tstate.trans (by rw [vseq]), tcause.trans (by rw [vplu]), q', tblock, hpos.trans vp, hnext, tlevel, tgain⟩

/-- UNDERRUN entered where the fill does not stand at the end of the stream (R115). -/
theorem lane_enterUnderrun {s : State} {l : LaneId} (h : (s.lane l).fillAtEnd = false) :
    ((s.enterUnderrun l).lane l).seq = { (s.lane l).seq with state := .underrun } ∧
      ((s.enterUnderrun l).lane l).p = (s.lane l).p ∧ ((s.enterUnderrun l).lane l).f = (s.lane l).f ∧
      ∃ n, ((s.enterUnderrun l).lane l).plu = { (s.lane l).plu.drop with
        episode := none, note := n, cause := some (underrunCause (s.tlc l).state) } := by
  obtain ⟨eseq, ep, ef, -, eplu⟩ := lane_endEpisode s l
  obtain ⟨useq, uplu, up, uf, -⟩ := lane_setLaneState (s.endEpisode l) l .underrun
  set u := (s.endEpisode l).setLaneState l .underrun
  have utlc : u.tlc l = s.tlc l := by
    unfold u State.setLaneState State.endEpisode
    rw [State.tlc_updLane]
    split
    · rfl
    · rw [State.tlc_updLane, State.tlc_countReads]
  have hend : (u.lane l).fillAtEnd = false := by
    rw [← h]
    unfold Lane.fillAtEnd Lane.lastSegment
    rw [useq, eseq, uf, ef]
  have hlane : (s.enterUnderrun l).lane l =
      { u.lane l with plu := { (u.lane l).plu.drop with cause := some (underrunCause (u.tlc l).state) } } := by
    unfold State.enterUnderrun
    dsimp only
    rw [if_neg, State.lane_updLane]
    rw [State.lane_updLane]
    exact fun hn => absurd (hend.symm.trans hn.1) nofun
  rw [hlane]
  refine ⟨useq.trans (by rw [eseq]), up.trans ep, uf.trans ef, ((s.endEpisode l).lane l).plu.note, ?_⟩
  dsimp only
  rw [uplu, eplu, utlc]
  rfl

/-- The block dropped and a start of p at f: UNDERRUN. -/
theorem lane_dropAndStart_empty {s : State} {l : LaneId} (hp : (s.lane l).p = (s.lane l).f)
    (h : (s.lane l).fillAtEnd = false) :
    ((s.dropAndStart l).lane l).seq = { (s.lane l).seq with state := .underrun } ∧
      ((s.dropAndStart l).lane l).p = (s.lane l).p ∧ ((s.dropAndStart l).lane l).f = (s.lane l).f ∧
      ∃ n, ((s.dropAndStart l).lane l).plu = { (s.lane l).plu.drop with
        episode := none, note := n, cause := some (underrunCause (s.tlc l).state) } := by
  set u := s.updLane l fun x => { x with plu := x.plu.drop } with hu
  have hul : u.lane l = { s.lane l with plu := (s.lane l).plu.drop } := State.lane_updLane ..
  obtain ⟨vseq, vplu, vp, vf⟩ := lane_playingWith u l fun x => { x with cause := none }
  rw [hul] at vseq vplu vp vf
  set v := (u.setLaneState l .playing).updLane l fun x => { x with plu := { x.plu with cause := none } } with hv
  have vtlc : v.tlc l = s.tlc l := by simp [hv, hu, State.setLaneState]
  have hstart : s.dropAndStart l = v.enterUnderrun l := by
    unfold State.dropAndStart State.startPlay
    dsimp only
    rw [← hu, ← hv, if_pos (by rw [vp, vf]; exact hp)]
  have hend : (v.lane l).fillAtEnd = false := by
    rw [← h]
    unfold Lane.fillAtEnd Lane.lastSegment
    rw [vseq, vf]
  obtain ⟨tseq, tp, tf, n, tplu⟩ := lane_enterUnderrun hend
  rw [hstart]
  refine ⟨tseq.trans (by rw [vseq]), tp.trans vp, tf.trans vf, n, tplu.trans ?_⟩
  rw [vplu, vtlc]
  rfl

theorem fillAtEnd_false {x : Lane} (h : ∀ g, x.lastSegment = some g → x.f ≠ g.ref.endIndex) :
    x.fillAtEnd = false := by
  unfold Lane.fillAtEnd
  cases hg : x.lastSegment with
  | none => rfl
  | some g => exact beq_eq_false_iff_ne.2 (h g hg)

theorem underrunCause_eq (t : TlcState) : underrunCause t =
    if t = .offline ∨ t = .starting then .transport else if t = .mechHeld then .mechanism else .read := by
  cases t <;> rfl

/-! ### What follows on a lane in UNDERRUN with nothing to play -/

/-- The sequencer, the playout unit, p and f of the lane `y` are those of `x`. -/
structure Lane.Unmoved (x y : Lane) : Prop where
  seq : y.seq = x.seq
  plu : y.plu = x.plu
  p : y.p = x.p
  f : y.f = x.f

theorem Lane.Unmoved.refl (x : Lane) : x.Unmoved x := ⟨rfl, rfl, rfl, rfl⟩

theorem Lane.Stays.unmoved {x y : Lane} (h : x.Stays y) : x.Unmoved y := ⟨h.seq, h.plu, h.p, h.f⟩

theorem Lane.Unmoved.settled {x y : Lane} (h : x.Unmoved y) (hx : x.Settled) : y.Settled := by
  unfold Lane.Settled
  rw [h.seq]
  exact hx

theorem Lane.Unmoved.trans {x y z : Lane} (h : x.Unmoved y) (k : y.Unmoved z) : x.Unmoved z :=
  ⟨k.seq.trans h.seq, k.plu.trans h.plu, k.p.trans h.p, k.f.trans h.f⟩

section
variable {s t : State} {l : LaneId}

/-- On a settled lane with nothing to play only a BIND is handed back, which it does not wait for, or its scheduling point
comes. -/
theorem unmoved_followLane (hi : s.Inv) (hn : s.share l ≠ 0) (hs : (s.lane l).Settled) (hp : (s.lane l).p = (s.lane l).f)
    (k : LaneId) (ht : s.followLane k = some t) : (s.lane l).Unmoved (t.lane l) := by
  by_cases hk : k = l
  · subst hk
    obtain ⟨hmark, hbind, -⟩ := hs
    have hcut : (s.lane k).cutDue = false := by simp [Lane.cutDue, hmark]
    unfold State.followLane at ht
    rw [hcut, playDue_of_empty hi hn hp] at ht
    split at ht
    · rename_i u hu
      cases ht
      unfold State.handJammed at hu
      split at hu
      · cases hu
      · cases hu
        rw [lane_of_side (side_endOutcome _ .jammed (.inr (by rw [State.lane_updLane]; exact hbind))), State.lane_updLane]
        exact ⟨rfl, rfl, rfl, rfl⟩
    · rw [if_neg Bool.false_ne_true, if_neg Bool.false_ne_true] at ht
      split at ht
      · cases ht
        exact (keeps_schedule (.refl k s) k _).lane.unmoved
      · cases ht
  · rw [lane_of_side (side_followLane hk ht)]
    exact .refl _

theorem unmoved_follow (hi : s.Inv) (hn : s.share l ≠ 0) (hs : (s.lane l).Settled) (hp : (s.lane l).p = (s.lane l).f)
    (ht : s.follow = some t) : (s.lane l).Unmoved (t.lane l) := by
  unfold State.follow at ht
  split at ht
  · rename_i u hu
    cases ht
    exact unmoved_followLane hi hn hs hp .a hu
  · split at ht
    · rename_i u hu
      cases ht
      exact unmoved_followLane hi hn hs hp .b hu
    · obtain ⟨-, hbind, hre⟩ := hs
      split at ht
      · cases ht
        exact (keeps_endRecovery (.refl l s) hre).lane.unmoved
      · split at ht
        · cases ht
          exact (keeps_arbitrate (.refl l s) _ hbind hi).lane.unmoved
        · cases ht

/-- What follows in an event leaves such a lane as it is. -/
theorem unmoved_settle (l : LaneId) (n : Nat) : ∀ {s : State}, s.Inv → s.share l ≠ 0 → (s.lane l).Settled →
    (s.lane l).p = (s.lane l).f → (s.lane l).Unmoved ((State.settle n s).lane l) := by
  induction n with
  | zero => exact fun _ _ _ _ => .refl _
  | succ n ih =>
    intro s hi hn hs hp
    unfold State.settle
    split
    · exact .refl _
    · rename_i t ht
      have h := unmoved_follow hi hn hs hp ht
      have hf := follows_follow (Follows.refl s) ht
      refine h.trans (ih (hf.inv hi) ?_ (h.settled hs) (by rw [h.p, h.f, hp]))
      rwa [State.share, settings_of_applied hf.outside.applied]

end

/-- So does an event, the refresh count of its record and the marks apart. -/
theorem samePlay_event_empty {s : State} {l : LaneId} {F : State → State} (hi : (F s.clearOutputs).Inv)
    (hn : (F s.clearOutputs).share l ≠ 0) (hs : ((F s.clearOutputs).lane l).Settled)
    (hp : ((F s.clearOutputs).lane l).p = ((F s.clearOutputs).lane l).f) :
    ((F s.clearOutputs).lane l).SamePlay ((s.event F).lane l) := by
  obtain ⟨hseq, hplu, hp, hf⟩ := unmoved_settle l settleFuel hi hn hs hp
  rw [State.event, lane_finish]
  exact ⟨(congrArg Sequencer.state hseq :), hplu, hp, hf⟩

/-! ### The events (R105, R113, R165) -/

section
variable {s : State} {l : LaneId}

/-- A settled lane in a state in which it does not wait to play is at ease. -/
theorem Lane.Settled.atEase {x : Lane} (h : x.Settled) (hprime : x.seq.state ≠ .priming)
    (hunder : x.seq.state ≠ .underrun) : x.AtEase := by
  obtain ⟨hmark, hbind, hre⟩ := h
  exact ⟨⟨hprime, fun _ => hmark, hunder⟩, hbind, hre⟩

theorem exec_blockEnd {b : PlayBlock} (hr : s.released = true) (hb : (s.lane l).plu.block = some b)
    (hnext : b.next = 588) (h : ¬((s.lane l).seq.state = .playing ∧ b.position = (s.lane l).p)) :
    exec (.blockEndNotPlaying l) s = .next (s.event fun u => u.endBlock l) := by
  refine congrArg Host.Outcome.next (onEvent_of hr ?_ _)
  simpa [Lane.atOtherEnd, hb, hnext, Config.pairsPerBlock, imp_iff_not_or] using h

theorem exec_fallEnd (hr : s.released = true) (hs : (s.lane l).seq.state = .stopping) (hb : (s.lane l).plu.block.isSome)
    (hgain : (s.lane l).plu.gain = .silent) : exec (.fallEnd l) s = .next (s.event fun u => u.endFall l) := by
  refine congrArg Host.Outcome.next (onEvent_of hr ?_ _)
  simp [Lane.atFallEnd, hs, hb, hgain]

theorem lane_endFall (s : State) (l : LaneId) :
    ((s.endFall l).lane l).seq = { (s.lane l).seq with state := .idle } ∧
      ((s.endFall l).lane l).plu = (s.lane l).plu.drop ∧ ((s.endFall l).lane l).p = (s.lane l).p ∧
      ((s.endFall l).lane l).f = (s.lane l).f := by
  obtain ⟨hseq, hplu, hp, hf, -⟩ := lane_setLaneState (s.updLane l fun x => { x with plu := x.plu.drop }) l .idle
  rw [State.lane_updLane] at hseq hplu hp hf
  exact ⟨hseq, hplu, hp, hf⟩

/-- The end of a fall in STOPPING, as the event leaves the lane. -/
theorem event_endFall (hs : (s.lane l).Settled) {F : State → State} (hF : F s.clearOutputs = s.clearOutputs.endFall l) :
    ((s.event F).lane l).seq.state = .idle ∧ ((s.event F).lane l).plu = (s.lane l).plu.drop ∧
      ((s.event F).lane l).p = (s.lane l).p ∧ ((s.event F).lane l).f = (s.lane l).f := by
  obtain ⟨eseq, eplu, ep, ef⟩ := lane_endFall s.clearOutputs l
  rw [← hF, lane_clearOutputs] at eseq eplu ep ef
  have hsettled : ((F s.clearOutputs).lane l).Settled := by
    unfold Lane.Settled
    rw [eseq]
    exact hs
  obtain ⟨tstate, tplu, tp, tf⟩ :=
    samePlay_event (F := F) (hsettled.atEase (by rw [eseq]; nofun) (by rw [eseq]; nofun))
  exact ⟨tstate.trans (by rw [eseq]), tplu.trans eplu, tp.trans ep, tf.trans ef⟩

/-- A block at its end in PAUSED: kept (log 14). -/
theorem event_endBlock_paused (hs : (s.lane l).Settled) (hstate : (s.lane l).seq.state = .paused) :
    (s.lane l).SamePlay ((s.event fun u => u.endBlock l).lane l) := by
  have hkeep : s.clearOutputs.endBlock l = s.clearOutputs := by
    unfold State.endBlock
    rw [lane_clearOutputs, hstate]
  have hlane : (s.clearOutputs.endBlock l).lane l = s.lane l := by rw [hkeep, lane_clearOutputs]
  rw [← hlane]
  exact samePlay_event (F := fun u => u.endBlock l)
    (by rw [hlane]; exact hs.atEase (by rw [hstate]; nofun) (by rw [hstate]; nofun))

/-- A block at its end in IDLE, HELD or STARVED: dropped. -/
theorem event_endBlock_rests (hs : (s.lane l).Settled)
    (hstate : (s.lane l).seq.state = .idle ∨ (s.lane l).seq.state = .held ∨ (s.lane l).seq.state = .starved) :
    Lane.SamePlay { s.lane l with plu := (s.lane l).plu.drop } ((s.event fun u => u.endBlock l).lane l) := by
  have hdrop : s.clearOutputs.endBlock l = s.clearOutputs.updLane l fun x => { x with plu := x.plu.drop } := by
    unfold State.endBlock
    rw [lane_clearOutputs]
    rcases hstate with h | h | h <;> rw [h]
  have hlane : (s.clearOutputs.endBlock l).lane l = { s.lane l with plu := (s.lane l).plu.drop } := by
    rw [hdrop, State.lane_updLane, lane_clearOutputs]
  have hease : (s.lane l).AtEase :=
    hs.atEase (by rcases hstate with h | h | h <;> rw [h] <;> nofun) (by rcases hstate with h | h | h <;> rw [h] <;> nofun)
  rw [← hlane]
  exact samePlay_event (F := fun u => u.endBlock l) (by rw [hlane]; exact hease)

theorem endBlock_playing (hstate : (s.lane l).seq.state = .playing) :
    s.clearOutputs.endBlock l = s.clearOutputs.dropAndStart l := by
  unfold State.endBlock
  rw [lane_clearOutputs, hstate]

/-- The end of a block that a SKIP has cut, p before f: p is in play. -/
theorem event_endBlock_starts (hs : (s.lane l).Settled) (hstate : (s.lane l).seq.state = .playing)
    (hp : (s.lane l).p ≠ (s.lane l).f) :
    ((s.event fun u => u.endBlock l).lane l).seq.state = .playing ∧
      ((s.event fun u => u.endBlock l).lane l).p = (s.lane l).p ∧
      ((s.event fun u => u.endBlock l).lane l).plu.cause = none ∧
      ∃ q, ((s.event fun u => u.endBlock l).lane l).plu.block = some q ∧ q.position = (s.lane l).p ∧ q.next = 0 ∧
        ((s.event fun u => u.endBlock l).lane l).plu.level = 0 ∧
        ((s.event fun u => u.endBlock l).lane l).plu.gain = if q.form = .copy then .rising else .silent := by
  obtain ⟨hplays, hplaying, hcause, q, hblock⟩ := lane_dropAndStart (s := s.clearOutputs) (l := l)
    (by rwa [lane_clearOutputs])
  rw [← endBlock_playing hstate] at hplays hplaying hcause hblock
  rw [lane_clearOutputs] at hplays hblock
  obtain ⟨tstate, tplu, tp, -⟩ := samePlay_event (F := fun u => u.endBlock l)
    ((hplays.settled hs).atEase (by rw [hplaying]; nofun) (by rw [hplaying]; nofun))
  rw [tplu]
  exact ⟨tstate.trans hplaying, tp.trans hplays.p, hcause, q, hblock⟩

/-- The end of a block that a SKIP has cut, p at f and not at the end of the stream: UNDERRUN. -/
theorem event_endBlock_underrun (hs : (s.lane l).Settled) (hstate : (s.lane l).seq.state = .playing)
    (hp : (s.lane l).p = (s.lane l).f) (hi : s.Inv) (hn : s.share l ≠ 0) (hend : (s.lane l).fillAtEnd = false) :
    ((s.event fun u => u.endBlock l).lane l).seq.state = .underrun ∧
      ((s.event fun u => u.endBlock l).lane l).p = (s.lane l).p ∧
      ∃ n, ((s.event fun u => u.endBlock l).lane l).plu = { (s.lane l).plu.drop with
        episode := none, note := n, cause := some (underrunCause (s.tlc l).state) } := by
  obtain ⟨eseq, ep, ef, n, eplu⟩ := lane_dropAndStart_empty (s := s.clearOutputs) (l := l)
    (by rwa [lane_clearOutputs]) (by rwa [lane_clearOutputs])
  rw [← endBlock_playing hstate, lane_clearOutputs] at eseq ep ef eplu
  rw [tlc_clearOutputs] at eplu
  have hfollows : Follows s (s.clearOutputs.endBlock l) := follows_endBlock (follows_clearOutputs (Follows.refl s)) l
  have hshare : (s.clearOutputs.endBlock l).share l ≠ 0 := by
    rwa [State.share, settings_of_applied hfollows.outside.applied]
  have hsettled : ((s.clearOutputs.endBlock l).lane l).Settled := by
    unfold Lane.Settled
    rw [eseq]
    exact hs
  obtain ⟨tstate, tplu, tp, -⟩ := samePlay_event_empty (F := fun u => u.endBlock l) (hfollows.inv hi) hshare hsettled
    (by rw [ep, ef, hp])
  exact ⟨tstate.trans (by rw [eseq]), tp.trans ep, n, tplu.trans eplu⟩

theorem f_endBlock (s : State) (l : LaneId) : ((s.endBlock l).lane l).f = (s.lane l).f := by
  unfold State.endBlock
  split
  · exact f_dropAndStart s l
  · exact (lane_endFall s l).2.2.2
  · rfl
  all_goals rw [State.lane_updLane]

end

/-- Settles O46, the end of a block by the lane's state, and the end of a fall. -/
theorem blockAndFallEnd : Obligations.BlockAndFallEnd := by
  intro l b s hr hb hs
  refine ⟨fun hnext hstate => ?_, fun hnext hstate => ?_, fun hnext hstate => ?_, fun hnext hstate hpos => ?_,
    fun hstate hgain => ?_⟩
  · have hfall : s.clearOutputs.endBlock l = s.clearOutputs.endFall l := by
      unfold State.endBlock
      rw [lane_clearOutputs, hstate]
    obtain ⟨tstate, tplu, tp, tf⟩ := event_endFall hs (F := fun u => u.endBlock l) hfall
    refine ⟨_, exec_blockEnd hr hb hnext (by rw [hstate]; nofun), tstate, ?_, ?_, tp, tf⟩ <;> rw [tplu] <;> rfl
  · obtain ⟨tstate, tplu, tp, tf⟩ := event_endBlock_paused hs hstate
    exact ⟨_, exec_blockEnd hr hb hnext (by rw [hstate]; nofun), tstate.trans hstate, tplu, tp, tf⟩
  · obtain ⟨tstate, tplu, tp, tf⟩ := event_endBlock_rests hs hstate
    refine ⟨_, exec_blockEnd hr hb hnext (by rcases hstate with h | h | h <;> rw [h] <;> nofun), tstate, ?_, ?_, ?_, tp,
      tf⟩ <;> rw [tplu] <;> rfl
  · refine ⟨_, exec_blockEnd hr hb hnext fun h => hpos h.2, ?_, event_endBlock_starts hs hstate, ?_⟩
    · exact ((event_leaves_any s fun u => u.endBlock l).f l).trans ((f_endBlock _ l).trans (by rw [lane_clearOutputs]))
    · intro hp hi hn hend
      obtain ⟨tstate, tp, n, tplu⟩ := event_endBlock_underrun hs hstate hp hi hn (fillAtEnd_false hend)
      rw [tplu, ← underrunCause_eq]
      exact ⟨tstate, tp, rfl, rfl, rfl, rfl, rfl⟩
  · obtain ⟨tstate, tplu, tp, tf⟩ := event_endFall hs (F := fun u => u.endFall l) rfl
    refine ⟨_, exec_fallEnd hr hstate (by rw [hb]; rfl) hgain, tstate, ?_, tp, tf⟩
    rw [tplu]
    rfl

end Sys2Proof.Machine
end

section
/-! Up-frames as bytes and back (O57). -/

namespace Sys2Proof.Machine

set_option Elab.async false

/-! ### The fields of a payload (R210) -/

theorem join24_bytes24 (v : BitVec 24) : join24 (v.extractLsb' 0 8) (v.extractLsb' 8 8) (v.extractLsb' 16 8) = v := by
  unfold join24
  ext i hi
  simp only [BitVec.getElem_append, BitVec.getElem_extractLsb']
  split_ifs <;> simp <;> grind

/-- Two bytes put together again. -/
theorem append_halfBytes (v : BitVec 16) : v.extractLsb' 8 8 ++ v.extractLsb' 0 8 = v := by
  ext i hi
  simp only [BitVec.getElem_append, BitVec.getElem_extractLsb']
  split_ifs <;> simp <;> grind

/-- A run field's upper 6 bits are sent 0, and cut off when it is received. -/
theorem setWidth_runField (v : BitVec 10) : (v.setWidth 16).setWidth 10 = v :=
  BitVec.setWidth_setWidth_of_le v (by omega)

theorem pairsOfBytes_pairBytes : ∀ l : List Pair, pairsOfBytes (l.flatMap pairBytes) = l
  | [] => rfl
  | q :: l => by
    change { left := _, right := _ } :: pairsOfBytes (l.flatMap pairBytes) = q :: l
    rw [pairsOfBytes_pairBytes l, append_halfBytes, append_halfBytes]

theorem length_flatMap_pairBytes (l : List Pair) : (l.flatMap pairBytes).length = 4 * l.length := by
  induction l with
  | nil => rfl
  | cons q l ih =>
    rw [List.flatMap_cons, List.length_append, ih, List.length_cons]
    simp only [pairBytes, halfBytes, List.length_append, List.length_cons, List.length_nil]
    omega

/-- The bytes of a run list, with what follows it, are read as that list. -/
theorem runsOfBytes_runFields (rest : List Byte) : ∀ l : List (BitVec 10 × BitVec 10),
    runsOfBytes l.length (l.flatMap (fun r => runField r.1 ++ runField r.2) ++ rest) = (l, rest)
  | [] => by simp [runsOfBytes]
  | r :: l => by
    have hrun : runsOfBytes (r :: l).length ((r :: l).flatMap (fun r => runField r.1 ++ runField r.2) ++ rest) =
        (let t := runsOfBytes l.length (l.flatMap (fun r => runField r.1 ++ runField r.2) ++ rest)
         ((_, _) :: t.1, t.2)) := rfl
    rw [hrun, runsOfBytes_runFields rest l, append_halfBytes, append_halfBytes, setWidth_runField, setWidth_runField]

/-! ### Whole frames (R123) -/

/-- A frame sent whole passes its check byte: what is read is its payload. -/
theorem parseFrame_bytes (u : UpFrame) : parseFrame u.bytes = parsePayload u.kind u.payload := by
  have hbytes : u.bytes = u.kind :: (u.payload ++ [frameCheck (u.kind :: u.payload)]) := rfl
  rw [hbytes]
  unfold parseFrame
  simp

/-- The payload of a BLOCK that the link's layout admits (R210). -/
theorem parsePayload_block (label : BitVec 24) (marks : MarkReport) (pairs : List Pair) (h : blockOk marks pairs = true) :
    parsePayload (UpFrame.block label marks pairs).kind (UpFrame.block label marks pairs).payload =
      some (.block label marks pairs) := by
  obtain ⟨hruns, hpairs⟩ := Bool.and_eq_true_iff.1 h
  have hlen : (pairs.flatMap pairBytes).length = 4 * Config.pairsPerBlock := by
    rw [length_flatMap_pairBytes, eq_of_beq hpairs]
  cases marks with
  | overmarked =>
    change (if (pairs.flatMap pairBytes).length = _ then
      some (UpFrame.block (join24 _ _ _) _ (pairsOfBytes (pairs.flatMap pairBytes))) else none) = _
    rw [if_pos hlen, join24_bytes24, pairsOfBytes_pairBytes]
  | runs l =>
    have hcount : l.length ≤ 8 := by simpa using hruns
    have hbyte : (BitVec.ofNat 8 l.length).toNat = l.length := by
      rw [BitVec.toNat_ofNat]
      omega
    have hnot : BitVec.ofNat 8 l.length ≠ 0xFF := fun he => by
      have hv : (BitVec.ofNat 8 l.length).toNat = 255 := by rw [he]; rfl
      omega
    have hread := runsOfBytes_runFields (pairs.flatMap pairBytes) l
    have hpayload : (UpFrame.block label (.runs l) pairs).payload =
        label.extractLsb' 0 8 :: label.extractLsb' 8 8 :: label.extractLsb' 16 8 :: BitVec.ofNat 8 l.length ::
          (l.flatMap (fun r => runField r.1 ++ runField r.2) ++ pairs.flatMap pairBytes) := by
      simp [UpFrame.payload, bytes24, markPayload]
    have hkind : (UpFrame.block label (.runs l) pairs).kind = 0x01 := rfl
    rw [hpayload, hkind]
    unfold parsePayload
    rw [if_pos rfl]
    dsimp only
    rw [if_neg hnot, hbyte, if_pos hcount, hread, if_pos ⟨rfl, hlen⟩, join24_bytes24, pairsOfBytes_pairBytes]

/-- Settles O57: the check byte is that of the bytes before it (`parseFrame_bytes`), and each kind's payload is read field by
field. -/
theorem upFramesReadBack : Obligations.UpFramesReadBack := by
  intro u h
  rw [parseFrame_bytes]
  cases u with
  | block label marks pairs => exact parsePayload_block label marks pairs h
  | seekDone address => exact congrArg (fun v => some (UpFrame.seekDone v)) (join24_bytes24 address)
  | seekFail reason => cases reason <;> rfl
  | status spinning present => cases spinning <;> cases present <;> rfl
  | tocEntry track address => exact congrArg (fun v => some (UpFrame.tocEntry track v)) (join24_bytes24 address)
  | tocEnd count leadOut => exact congrArg (fun v => some (UpFrame.tocEnd count v)) (join24_bytes24 leadOut)

end Sys2Proof.Machine
end

section
/-! TOC_ENTRY, dropped frames and the timeouts of the transport link (O37, O39, O40). -/

namespace Sys2Proof.Machine

set_option Elab.async false

/-! ### The controller after an event whose loader controller starts nothing -/

/-- While the loader controller is busy, what follows in an event leaves a transport out of use as the event's own effect does. -/
theorem tlc_event_busy (s : State) (l : LaneId) (f : State → State) (hb : (f s.clearOutputs).loader.Busy)
    (hu : ((f s.clearOutputs).tlc l).state.usable = false) :
    ∃ n, (s.event f).tlc l = { (f s.clearOutputs).tlc l with refresh := n } :=
  (event_leaves (b := False) s f (fun _ => .inl trivial) (fun _ => .inl trivial) (.inr hb)).still not_false l hu

/-- So also where nothing waits, when the own effect changes nothing but that controller and not its state. -/
theorem tlc_event_updTlc {s : State} {l : LaneId} {f : State → State} {g : Tlc → Tlc}
    (hf : f s.clearOutputs = s.clearOutputs.updTlc l g)
    (hg : (g (s.clearOutputs.tlc l)).state = (s.clearOutputs.tlc l).state) (hu : (s.tlc l).state.usable = false)
    (h : s.AtRest ∨ s.LoaderBusy) : ∃ n, (s.event f).tlc l = { g { s.tlc l with sent := [] } with refresh := n } := by
  have hown : (f s.clearOutputs).tlc l = g { s.tlc l with sent := [] } := by
    rw [hf, State.tlc_updTlc, tlc_clearOutputs]
  rcases h with hrest | hbusy
  · obtain ⟨n, hn⟩ := tlc_finish (f s.clearOutputs) s.clearOutputs l
    refine ⟨n, ?_⟩
    unfold State.event State.carryOut
    dsimp only
    rw [hf, settle_atRest (AtRest_updTlc (AtRest_clearOutputs hrest) l g hg), ← hf, hn, hown]
  · rw [← hown]
    refine tlc_event_busy s l f ?_ ?_
    · rw [hf, State.loader_updTlc, loader_clearOutputs]
      exact hbusy
    · rw [hf, State.tlc_updTlc, hg, tlc_clearOutputs]
      exact hu

/-- The own effect of an event on one controller alone reads of the state only that controller. -/
theorem updTlc_congr {s : State} {l : LaneId} {g h : Tlc → Tlc} (hg : g (s.tlc l) = h (s.tlc l)) :
    s.updTlc l g = s.updTlc l h := by
  rw [State.updTlc, State.updTlc, hg]

/-! ### TOC_ENTRY (R131) -/

theorem lookup_putEntry (track start : Nat) : ∀ l : List (Nat × Nat), (putEntry track start l).lookup track = some start
  | [] => by simp [putEntry]
  | (k, v) :: rest => by
    unfold putEntry
    split
    · simp
    · split
      · simp
      · rename_i hne
        rw [List.lookup_cons, beq_false_of_ne hne]
        exact lookup_putEntry track start rest

/-- The own effect of a TOC_ENTRY on its controller. -/
def Tlc.takeEntry (track : Byte) (address : BitVec 24) (t : Tlc) : Tlc :=
  if t.state = .toc then { t with assembly := t.assembly.take track.toNat address.toNat } else t.stray

theorem exec_tocEntry {s : State} (hr : s.released = true) (t : TransportId) (track : Byte) (address : BitVec 24) :
    exec (.tocEntry t track address) s = .next (s.event fun s => s.updTlc t.lane (Tlc.takeEntry track address)) := by
  change Host.Outcome.next (s.onEvent true _) = _
  rw [onEvent_of hr rfl]
  rfl

theorem takeEntry_toc {t : Tlc} (h : t.state = .toc) (track : Byte) (address : BitVec 24) :
    t.takeEntry track address = { t with assembly := t.assembly.take track.toNat address.toNat } := if_pos h

/-- Settles O37: in TOC the entry's own effect changes the assembly alone, and the controller, not in use, stays so in the event
(`tlc_event_updTlc`); elsewhere it is a stray (`event_tlcStray`). -/
theorem tocEntryTaken : Obligations.TocEntryTaken := by
  intro t track address s hr
  set l := t.lane
  refine ⟨_, exec_tocEntry hr t track address, fun hs hwait => ?_, fun hs => ?_, fun hs => ?_⟩
  · have htake := takeEntry_toc (t := { s.tlc l with sent := [] }) hs track address
    obtain ⟨n, hn⟩ := tlc_event_updTlc (s := s) (l := l) (f := fun s => s.updTlc l (Tlc.takeEntry track address)) rfl
      (by rw [tlc_clearOutputs, htake]) (by rw [hs]; rfl) hwait
    rw [hn, htake]
    refine ⟨hs, fun hlow hhigh => ?_, fun hout => ?_⟩
    · dsimp only
      rw [Assembly.take, if_pos ⟨hlow, hhigh⟩]
      exact ⟨lookup_putEntry _ _ _, rfl⟩
    · dsimp only
      rw [Assembly.take, if_neg (by omega)]
  · have hleaves := (event_leaves_any s fun s => s.updTlc l (Tlc.takeEntry track address)).tlc l
    rw [State.tlc_updTlc, tlc_clearOutputs, takeEntry_toc (by exact hs)] at hleaves
    exact (agrees_of_steady hleaves).strays
  · exact (event_tlcStray (updTlc_congr (if_neg (by rw [tlc_clearOutputs]; exact hs)))).1

/-! ### Dropped frames (R123, R210) -/

theorem leftInFrame_of {r : Receiver} {bytes got : List Byte} (h : r.feedAll bytes = (.inFrame got, .nothing)) :
    r.leftInFrame bytes = true := by
  unfold Receiver.leftInFrame
  rw [h]

/-- Each of the three events of a dropped frame has the same effect. -/
theorem exec_droppedFrame {t : TransportId} {bytes : List Byte} {c : Instr} {s : State} (hr : s.released = true)
    (h : (c = .frameCheckError t bytes ∧ ((s.tlc t.lane).receiver.feedAll bytes).2 = .frame none) ∨
      (c = .frameKindInvalid t bytes ∧ ((s.tlc t.lane).receiver.feedAll bytes).2 = .badKind) ∨
      (c = .linkIdleInFrame t bytes ∧ ∃ got, (s.tlc t.lane).receiver.feedAll bytes = (.inFrame got, .nothing))) :
    exec c s = .next (s.event fun s => s.updTlc t.lane Tlc.dropFrame) := by
  rcases h with ⟨rfl, h⟩ | ⟨rfl, h⟩ | ⟨rfl, got, h⟩
  · change Host.Outcome.next (s.onEvent _ _) = _
    rw [onEvent_of hr (by rw [h]; rfl)]
  · change Host.Outcome.next (s.onEvent _ _) = _
    rw [onEvent_of hr (by rw [h]; rfl)]
  · change Host.Outcome.next (s.onEvent _ _) = _
    rw [onEvent_of hr (leftInFrame_of h)]

theorem dropFrame_clearOutputs (s : State) (l : LaneId) :
    s.clearOutputs.updTlc l Tlc.dropFrame = (s.updTlc l Tlc.dropFrame).clearOutputs := by
  cases l <;> rfl

/-- The counts of two controllers with the same steady part differ in the frames sent alone. -/
theorem count_of_steady {t u : Tlc} (h : u.steady = t.steady) :
    u.count = { t.count with seeks := u.count.seeks, halts := u.count.halts } := by
  have hcount : u.steady.count = t.steady.count := congrArg Tlc.count h
  calc u.count = { u.steady.count with seeks := u.count.seeks, halts := u.count.halts } := rfl
    _ = { t.steady.count with seeks := u.count.seeks, halts := u.count.halts } := by rw [hcount]
    _ = { t.count with seeks := u.count.seeks, halts := u.count.halts } := rfl

/-- Settles O39: the receiver, the counts but SEEKs and HALTs and what STATUS recorded stay in the event (`Tlc.steady`), and where
nothing waits the event ends with its own effect. -/
theorem droppedFramesCounted : Obligations.DroppedFramesCounted := by
  intro t bytes c s hr hc
  set l := t.lane
  have hleaves := (event_leaves_any s fun s => s.updTlc l Tlc.dropFrame).tlc l
  rw [State.tlc_updTlc, tlc_clearOutputs] at hleaves
  have hagree := agrees_of_steady hleaves
  refine ⟨_, exec_droppedFrame hr hc, congrArg Tlc.receiver hleaves, count_of_steady hleaves, hagree.violation, hagree.spindle,
    hagree.disc, fun hrest => ?_⟩
  exact event_atRest (dropFrame_clearOutputs s l) (AtRest_updTlc hrest l _)

/-! ### Timeouts (R133, R135, R138, R141) -/

/-- A bad event whose own action, where it stands, leaves the controller as the bad event does but for what a scheduling point
changes. -/
theorem badThen_steady_of {s : State} {l : LaneId} {f : State → State}
    (hf : ((s.tlc l).bad s.applied.violationLimit).1 = false →
      ((f (s.badEvent l).2).tlc l).steady = ((s.badEvent l).2.tlc l).steady) :
    ((s.badThen l f).tlc l).steady = ((s.tlc l).bad s.applied.violationLimit).2.steady := by
  have hbad : ((s.badEvent l).2).tlc l = ((s.tlc l).bad s.applied.violationLimit).2 := State.tlc_putTlc ..
  unfold State.badThen
  dsimp only
  split
  · rw [hbad]
  · rename_i hno
    rw [hf (Bool.eq_false_iff.2 hno), hbad]

/-- A bad event counts no timeout and no stall. -/
theorem bad_timeouts (t : Tlc) (limit : Nat) :
    (t.bad limit).2.count.tocTimeouts = t.count.tocTimeouts ∧ (t.bad limit).2.count.seekTimeouts = t.count.seekTimeouts ∧
      (t.bad limit).2.count.stalls = t.count.stalls := by
  unfold Tlc.bad Tlc.haltIfBusy
  dsimp only
  repeat' split
  all_goals exact ⟨rfl, rfl, rfl⟩

/-- A bad event that the transport bears leaves the controller's state. -/
theorem bad_bears {t : Tlc} {limit : Nat} (h : (t.bad limit).1 = false) : (t.bad limit).2.state = t.state := by
  unfold Tlc.bad at h ⊢
  dsimp only at h ⊢
  split at h
  · cases h
  · rename_i hno
    rw [if_neg hno]

/-- The own effect of a timeout's event: `g` on the controller, then a bad event with the action `act`. -/
def timeoutEffect (l : LaneId) (g : Tlc → Tlc) (act : State → State) (s : State) : State := (s.updTlc l g).badThen l act

/-- What `g` counts stands beside the bad event, for a `g` that leaves what the bad event changes. -/
theorem timeout_taken (s : State) (l : LaneId) (g : Tlc → Tlc) (act : State → State)
    (hg : ∀ t : Tlc, (g t).violation = t.violation ∧ (g t).count.badEvents = t.count.badEvents ∧
      (g t).count.faults = t.count.faults)
    (hact : (((s.clearOutputs.updTlc l g).tlc l).bad s.applied.violationLimit).1 = false →
      ((act ((s.clearOutputs.updTlc l g).badEvent l).2).tlc l).steady =
        (((s.clearOutputs.updTlc l g).badEvent l).2.tlc l).steady) :
    s.BadEventTaken (s.event (timeoutEffect l g act)) l ∧
      ((s.event (timeoutEffect l g act)).tlc l).count.tocTimeouts = (g { s.tlc l with sent := [] }).count.tocTimeouts ∧
      ((s.event (timeoutEffect l g act)).tlc l).count.seekTimeouts = (g { s.tlc l with sent := [] }).count.seekTimeouts ∧
      ((s.event (timeoutEffect l g act)).tlc l).count.stalls = (g { s.tlc l with sent := [] }).count.stalls := by
  have hleaves := (event_leaves_any s (timeoutEffect l g act)).tlc l
  rw [timeoutEffect, badThen_steady_of (by simpa using hact), State.tlc_updTlc, tlc_clearOutputs, State.applied_updTlc,
    applied_clearOutputs] at hleaves
  have h := agrees_of_steady hleaves
  have hcount := congrArg Tlc.count hleaves
  obtain ⟨htoc, hseek, hstall⟩ := bad_timeouts (g { s.tlc l with sent := [] }) s.applied.violationLimit
  obtain ⟨hbad, -, -, hlimit⟩ := bad_eq (g { s.tlc l with sent := [] }) s.applied.violationLimit
  obtain ⟨hviolation, hbads, hfaults⟩ := hg { s.tlc l with sent := [] }
  rw [hviolation, hfaults] at hlimit
  rw [hbads] at hbad
  refine ⟨⟨h.badEvents.trans hbad, ?_⟩, (congrArg TlcCounters.tocTimeouts hcount).trans htoc,
    (congrArg TlcCounters.seekTimeouts hcount).trans hseek, (congrArg TlcCounters.stalls hcount).trans hstall⟩
  rw [h.violation, h.faults, h.spindle, h.disc]
  exact hlimit

/-- READ_TOC sent again in TOC. -/
theorem enterToc_steady {t : Tlc} (h : t.state = .toc) : t.enterToc.steady = t.steady := by
  unfold Tlc.enterToc Tlc.steady Tlc.send
  rw [h]

theorem resend_steady (t : Tlc) (limit : Nat) : (t.resend limit).steady = t.steady := by
  unfold Tlc.resend
  split
  · rfl
  · exact takeSeek_steady t _ _

/-- Settles O40: each expiry is a bad event whose own action, READ_TOC, the SEEK again or a scheduling point, leaves the counts
(`timeout_taken`). -/
theorem timeoutsAreBadEvents : Obligations.TimeoutsAreBadEvents := by
  intro t s hr
  refine ⟨fun hs ht => ?_, fun hs ht => ?_, fun hs ht => ?_⟩
  · obtain ⟨hbad, hcount, -⟩ := timeout_taken s t.lane
      (fun u => { u with count := { u.count with tocTimeouts := bump u.count.tocTimeouts } })
      (fun s => s.changeTlc t.lane Tlc.enterToc) (fun _ => ⟨rfl, rfl, rfl⟩) fun hbears => by
        rw [State.tlc_changeTlc]
        refine enterToc_steady ?_
        rw [State.badEvent, State.tlc_putTlc]
        refine (bad_bears (by simpa using hbears)).trans ?_
        rw [State.tlc_updTlc, tlc_clearOutputs]
        exact hs
    exact ⟨_, congrArg Host.Outcome.next (onEvent_of hr (by simp [hs, ht]) _), hbad, fun _ => hcount⟩
  · obtain ⟨hbad, -, hcount, -⟩ := timeout_taken s t.lane
      (fun u => { u with count := { u.count with seekTimeouts := bump u.count.seekTimeouts } })
      (fun s => s.changeTlc t.lane fun u => u.resend s.applied.seekLimit) (fun _ => ⟨rfl, rfl, rfl⟩) fun _ => by
        rw [State.tlc_changeTlc]
        exact resend_steady _ _
    exact ⟨_, congrArg Host.Outcome.next (onEvent_of hr (by simp [hs, ht]) _), hbad, fun _ => hcount⟩
  · obtain ⟨hbad, -, -, hcount⟩ := timeout_taken s t.lane Tlc.stalled (fun s => s.seekAgain t.lane)
      (fun _ => ⟨rfl, rfl, rfl⟩) fun _ => (steady_schedule _ _ _ _).2.1
    exact ⟨_, congrArg Host.Outcome.next (onEvent_of hr (by simp [hs, ht]) _), hbad, hcount⟩

end Sys2Proof.Machine
end

section
/-! The startup window and the spindle stop limit (O41). -/

namespace Sys2Proof.Machine

set_option Elab.async false

/-! ### What the end of a request leaves of the loader controller (R186, R187) -/

theorem loader_steady_endOutcome (s : State) (q : LoaderRequest) (o : LoaderOutcome) :
    (s.endOutcome q o).loader.steady = s.loader.steady :=
  (calm_endOutcome (Calm.refl (fun _ => True) (fun _ => True) True s) q o fun _ => .inl trivial).loader

theorem loader_steady_endOutcomes (o : LoaderOutcome) : ∀ (qs : List LoaderRequest) (s : State),
    (State.endOutcomes o qs s).loader.steady = s.loader.steady
  | [], _ => rfl
  | q :: qs, s => (loader_steady_endOutcomes o qs _).trans (loader_steady_endOutcome s q o)

theorem loader_steady_answerWaiting : ∀ (n : Nat) (s : State), (State.answerWaiting n s).loader.steady = s.loader.steady
  | 0, _ => rfl
  | n + 1, s => by
    unfold State.answerWaiting
    split
    · rfl
    · rw [loader_steady_answerWaiting n, loader_steady_endOutcome]
      rfl

theorem loader_steady_spinUpHeld (s : State) (l : LaneId) : (s.spinUpHeld l).loader.steady = s.loader.steady := by
  unfold State.spinUpHeld
  dsimp only
  rw [State.loader_updLoader, setStopped_steady]
  split
  · rw [State.loader_changeTlc]
  · rfl

/-! ### A jam (R187, R192) -/

/-- A homing that ends counts no jam and sets the fault mark unless it is done. -/
theorem jams_endHoming (s : State) (k : HomingKind) (o : LoaderOutcome) :
    (s.endHoming k o).loader.count.jams = s.loader.count.jams ∧ (s.endHoming k o).loader.faultMark = (o != .done) := by
  unfold State.endHoming
  dsimp only
  rw [State.loader_updLoader]
  dsimp only
  set v := s.updLoader fun d => { d with
    count := { d.count with homings := bump d.count.homings }, faultMark := o != .done, homing := none, stage := none,
    moveLimit := none }
  set q := (((v.spinUpHeld .a).spinUpHeld .b).updLoader fun d => { d with
    queue := if k = .atReturn then d.queue.filter (fun w => !w.served) else d.queue })
  have hends : ∀ qs : List LoaderRequest, (State.endOutcomes o qs q).loader.steady = v.loader.steady := fun qs =>
    (loader_steady_endOutcomes o qs q).trans ((loader_steady_spinUpHeld _ .b).trans (loader_steady_spinUpHeld _ .a))
  have hjams := fun qs => congrArg LoaderSteady.jams (hends qs)
  have hmark := fun qs => congrArg LoaderSteady.faultMark (hends qs)
  split
  · rw [State.loader_changeTlc, State.loader_changeTlc]
    exact ⟨hjams _, hmark _⟩
  · exact ⟨hjams _, hmark _⟩

theorem jams_forget : ∀ (ns : List Loc) (s : State), (s.forget ns).loader.count.jams = s.loader.count.jams
  | [], _ => rfl
  | n :: ns, s => (jams_forget ns _).trans (congrArg LoaderSteady.jams (calm_setSlot s n .unknown).loader)

theorem jams_haltStage (s : State) : s.haltStage.loader.count.jams = s.loader.count.jams := by
  unfold State.haltStage
  split <;> rfl

/-- A jam is counted once and sets the fault mark, also when it ends a homing. -/
theorem jams_jam (s : State) : s.jam.loader.count.jams = bump s.loader.count.jams ∧ s.jam.loader.faultMark = true := by
  have hforget := (jams_forget s.loader.stageLocations s.haltStage).trans (jams_haltStage s)
  unfold State.jam
  dsimp only
  set v := s.haltStage.forget s.loader.stageLocations
  have hwaiting : ∀ z : State, z.loader.steady = v.loader.steady →
      (State.answerWaiting answerFuel z).loader.count.jams = s.loader.count.jams := fun z hz =>
    (congrArg LoaderSteady.jams ((loader_steady_answerWaiting answerFuel z).trans hz)).trans hforget
  split
  · rename_i h _
    obtain ⟨hjams, hmark⟩ := jams_endHoming _ h.kind .jammed
    refine ⟨hjams.trans (congrArg bump (hwaiting _ ?_)), hmark⟩
    split
    · exact loader_steady_endOutcome v _ _
    · rfl
  · refine ⟨congrArg bump (hwaiting _ ?_), rfl⟩
    split
    · exact loader_steady_endOutcome v _ _
    · rfl

/-! ### The expiries (R129, R142, R184) -/

/-- What follows in an event sets no news bit back. -/
theorem follows_own_event (s : State) (f : State → State) : Follows (f s.clearOutputs) (s.event f) :=
  follows_finish (follows_carryOut (Follows.refl _)) _

theorem or_absorbs_bit {x y b : Word} (h : x ||| (y ||| b) = x) : x &&& b = b := by
  rw [← h]
  exact or_or_and_same x y b

/-- A news bit that the own effect of an event sets is set as it ends. -/
theorem news_event {s : State} {f g : State → State} {w : NewsWord} {b : Word}
    (hf : f s.clearOutputs = (g s.clearOutputs).setNews w b) : (s.event f).news w &&& b = b := by
  have h := (follows_own_event s f).news w
  rw [hf, news_setNews, if_pos rfl] at h
  exact or_absorbs_bit h

theorem offline_of_steady {t u : Tlc} (h : u.steady = t.steady) (ht : t.state = .offline) : u.state = .offline := by
  have hs : u.steady.state = t.steady.state := congrArg Tlc.state h
  unfold Tlc.steady at hs
  dsimp only at hs
  rw [ht] at hs
  cases hu : u.state <;> rw [hu] at hs <;> cases hs

/-- The own effect of the expiry of the startup window. -/
def startupEffect (l : LaneId) (s : State) : State := (s.changeTlc l Tlc.toOffline).setNews .mech transportDownBit

/-- The own effect of the expiry of the spindle stop limit. -/
def spindleLimitEffect (l : LaneId) (s : State) : State :=
  (s.changeTlc l fun u => { u with stopPending := false, timers := .none }).spindleAnswered .failed

/-- The answer FAILED is a jam where the loader controller waits for it. -/
theorem spindleLimitEffect_jam {s : State} (l : LaneId) (hm : s.loader.state = .moving) (hs : s.loader.stage = none) :
    (spindleLimitEffect l s).loader.count.jams = bump s.loader.count.jams ∧
      (spindleLimitEffect l s).loader.faultMark = true := by
  unfold spindleLimitEffect State.spindleAnswered
  rw [if_pos (by rw [State.loader_changeTlc]; exact ⟨hm, hs⟩)]
  obtain ⟨hjams, hmark⟩ := jams_jam (s.changeTlc l fun u => { u with stopPending := false, timers := .none })
  rw [State.loader_changeTlc] at hjams
  exact ⟨hjams, hmark⟩

/-- While a stage is in progress the answer is passed over (log 47). -/
theorem spindleLimitEffect_passed {s : State} (l : LaneId) (hs : s.loader.stage ≠ none) :
    (spindleLimitEffect l s).loader = s.loader := by
  unfold spindleLimitEffect State.spindleAnswered
  rw [if_neg (by rw [State.loader_changeTlc]; exact fun h => hs h.2), State.loader_changeTlc]

/-- Settles O41: OFFLINE and the offline counter, and the jam's count and the fault mark, are of those parts of the controllers
that the rest of the event leaves (`Tlc.steady`, `Loader.steady`). -/
theorem startupAndSpindleLimitsExpire : Obligations.StartupAndSpindleLimitsExpire := by
  intro t s hr
  refine ⟨fun hs ht => ?_, fun hp ht => ?_⟩
  · have hleaves := (event_leaves_any s (startupEffect t.lane)).tlc t.lane
    rw [startupEffect, State.tlc_setNews, State.tlc_changeTlc, tlc_clearOutputs] at hleaves
    exact ⟨s.event (startupEffect t.lane), congrArg Host.Outcome.next (onEvent_of hr (by simp [hs, ht]) _),
      offline_of_steady hleaves rfl, congrArg (fun u => u.count.offlines) hleaves,
      news_event (g := fun u => u.changeTlc t.lane Tlc.toOffline) rfl⟩
  · have hloader := (event_leaves_any s (spindleLimitEffect t.lane)).loader
    have hjams := congrArg LoaderSteady.jams hloader
    have hmark := congrArg LoaderSteady.faultMark hloader
    refine ⟨s.event (spindleLimitEffect t.lane), congrArg Host.Outcome.next (onEvent_of hr (by simp [hp, ht]) _),
      fun hm hs => ?_, fun _ hs => ?_⟩
    · obtain ⟨hcount, hset⟩ := spindleLimitEffect_jam (s := s.clearOutputs) t.lane hm hs
      exact ⟨hjams.trans hcount, hmark.trans hset⟩
    · have hpassed := spindleLimitEffect_passed (s := s.clearOutputs) t.lane hs
      rw [hpassed] at hjams hmark
      exact ⟨hjams, hmark⟩

end Sys2Proof.Machine
end

section
/-! STATUS and TOC_END (O36, O38). -/

namespace Sys2Proof.Machine

set_option Elab.async false

/-! ### A slot table entry replaced (R175) -/

theorem slot_setSlot (s : State) (n m : Loc) (x : SlotEntry) :
    (s.setSlot n x).slot m = if m = n then x else s.slot m := by
  rw [← slot_withSlot]
  exact slot_of_loader (congrArg LoaderSteady.slots (calm_setSlot s n x).loader) m

theorem tlc_steady_setSlot (s : State) (n : Loc) (x : SlotEntry) (l : LaneId) :
    ((s.setSlot n x).tlc l).steady = (s.tlc l).steady := by
  rw [(calm_setSlot s n x).tlc l]
  rfl

/-- The walk that a tray's change may begin sends nothing to a transport out of use. -/
theorem tlc_setSlot (s : State) (n : Loc) (x : SlotEntry) (l : LaneId) (h : (s.tlc l).state.usable = false) :
    (s.setSlot n x).tlc l = s.tlc l :=
  (calm_setSlot s n x).still not_false l h

/-- A loader controller that starts nothing keeps its state. -/
theorem Calm.loader_state {e c : LaneId → Prop} {r s : State} (h : Calm e c False r s) : s.loader.state = r.loader.state := by
  have hworks : s.loader.works.state = r.loader.works.state := congrArg Loader.state (h.works not_false).1
  exact hworks

theorem loader_state_setSlot (s : State) (n : Loc) (x : SlotEntry) : (s.setSlot n x).loader.state = s.loader.state :=
  (calm_setSlot s n x).loader_state

/-! ### A disc identity failure (R168) -/

section
variable {e c : LaneId → Prop} {b : Prop} {r s : State}

theorem calm_primeOrRetire (h : Calm e c b r s) (l : LaneId) (he : e l) : Calm e c b r (s.primeOrRetire l) := by
  unfold State.primeOrRetire
  dsimp only
  split
  · exact calm_retirePending (calm_prime h l he) l _ he
  · exact calm_prime h l he

theorem calm_identityFailure (h : Calm e c b r s) (l : LaneId) (m : PlayOutMark) (he : e l) (hc : c l) :
    Calm e c b r (s.identityFailure l m) := by
  unfold State.identityFailure
  refine calm_closeReading ?_ l he
  exact calm_setLane (calm_setNews h _ _) l _ rfl (.inl he) (.inl hc)

theorem calm_discAbsent (h : Calm e c b r s) (l : LaneId) (he : e l) (hc : c l) : Calm e c b r (s.discAbsent l) := by
  unfold State.discAbsent
  dsimp only
  split
  · exact h
  · exact calm_identityFailure h l _ he hc

theorem calm_takeToc (h : Calm e c b r s) (l : LaneId) (t : Toc) (he : e l) (hc : c l) : Calm e c b r (s.takeToc l t) := by
  unfold State.takeToc
  dsimp only
  repeat' split
  · exact h
  · exact calm_primeOrRetire (calm_establish h l he) l he
  · exact h
  · exact h
  · exact calm_identityFailure h l _ he hc

end

/-! ### A disc found absent (R128, R131, R140) -/

/-- The state of a disc gone before its tray is emptied. -/
def State.lostDisc (s : State) (l : LaneId) : State := (s.changeTlc l Tlc.toEmpty).discAbsent l

theorem discGone_eq (s : State) (l : LaneId) : s.discGone l = (s.lostDisc l).setSlot (trayOf l) .absent := rfl

theorem calm_lostDisc (s : State) (l : LaneId) :
    Calm (fun _ => True) (fun _ => True) False (s.changeTlc l Tlc.toEmpty) (s.lostDisc l) :=
  calm_discAbsent (Calm.refl _ _ _ _) l trivial trivial

theorem slot_discGone (s : State) (l : LaneId) : (s.discGone l).slot (trayOf l) = .absent := by
  rw [discGone_eq, slot_setSlot, if_pos rfl]

theorem tlc_discGone (s : State) (l : LaneId) : (s.discGone l).tlc l = (s.tlc l).toEmpty := by
  have hlost : (s.lostDisc l).tlc l = (s.tlc l).toEmpty := by
    rw [(calm_lostDisc s l).still not_false l (by rw [State.tlc_changeTlc]; rfl), State.tlc_changeTlc]
  rw [discGone_eq, tlc_setSlot _ _ _ _ (by rw [hlost]; rfl), hlost]

theorem loader_state_discGone (s : State) (l : LaneId) : (s.discGone l).loader.state = s.loader.state := by
  rw [discGone_eq, loader_state_setSlot, (calm_lostDisc s l).loader_state, State.loader_changeTlc]

/-! ### STATUS (R128, R140) -/

/-- Two controllers with the same recorded spindle and disc. -/
def Tlc.SameStatus (t u : Tlc) : Prop := u.spindle = t.spindle ∧ u.disc = t.disc

theorem sameStatus_of_steady {t u v : Tlc} (h : v.steady = u.steady) (hu : t.SameStatus u) : t.SameStatus v := by
  obtain ⟨hspindle, hdisc⟩ := hu
  exact ⟨(agrees_of_steady h).spindle.trans hspindle, (agrees_of_steady h).disc.trans hdisc⟩

theorem sameStatus_respin (t : Tlc) : t.SameStatus t.respin := by
  unfold Tlc.respin Tlc.haltIfBusy
  split <;> exact ⟨rfl, rfl⟩

theorem sameStatus_changeTlc {s : State} {l : LaneId} {g : Tlc → Tlc} (hg : (s.tlc l).SameStatus (g (s.tlc l))) :
    (s.tlc l).SameStatus ((s.changeTlc l g).tlc l) := by
  rw [State.tlc_changeTlc]
  exact hg

/-- The answer DONE to a spindle stop begins at most a stage. -/
theorem tlc_steady_spindleDone (s : State) (l : LaneId) : ((s.spindleAnswered .done).tlc l).steady = (s.tlc l).steady := by
  unfold State.spindleAnswered
  dsimp only
  split
  · split
    · exact (calm_beginTake (Calm.refl (fun _ => True) (fun _ => True) True s) trivial).tlc l
    · rfl
  · rfl

theorem sameStatus_statusInEmpty (s : State) (l : LaneId) (spinning present : Bool) :
    (s.tlc l).SameStatus ((s.statusInEmpty l spinning present).tlc l) := by
  unfold State.statusInEmpty
  dsimp only
  split
  · exact sameStatus_of_steady (tlc_steady_spindleDone _ l) (sameStatus_changeTlc ⟨rfl, rfl⟩)
  · split
    · exact sameStatus_changeTlc ⟨rfl, rfl⟩
    · exact ⟨rfl, rfl⟩

/-- What a STATUS has done leaves the spindle and the disc as recorded. -/
theorem sameStatus_takeStatus (s : State) (l : LaneId) (spinning present : Bool) :
    (s.tlc l).SameStatus ((s.takeStatus l spinning present).tlc l) := by
  have hgone : (s.tlc l).SameStatus ((s.discGone l).tlc l) := by
    rw [tlc_discGone]
    exact ⟨rfl, rfl⟩
  have hsame : (s.tlc l).SameStatus (s.tlc l) := ⟨rfl, rfl⟩
  have hspin := sameStatus_changeTlc (s := s) (l := l) (g := fun t => t.send (.spin true)) ⟨rfl, rfl⟩
  have hrespin := sameStatus_changeTlc (sameStatus_respin (s.tlc l))
  unfold State.takeStatus
  split
  · split_ifs
    · exact hgone
    · exact sameStatus_changeTlc ⟨rfl, rfl⟩
    · exact hspin
  · split_ifs
    · exact hgone
    · exact hsame
    · exact hspin
  · exact sameStatus_statusInEmpty s l spinning present
  iterate 3
    · split_ifs
      · exact hgone
      · exact hsame
      · exact hrespin
  · exact hsame
  · exact hsame

/-- A disc found absent where the transport has or looks for one. -/
theorem takeStatus_absent {s : State} {l : LaneId} (h : (s.tlc l).state ∈ [.starting, .toc, .ready, .seeking, .reading])
    (spinning : Bool) : s.takeStatus l spinning false = s.discGone l := by
  unfold State.takeStatus
  cases hs : (s.tlc l).state <;> rw [hs] at h
  case offline | empty | mechHeld => cases (by decide : ¬ _) h
  all_goals rfl

/-- A spinning disc found in STARTING. -/
theorem takeStatus_starting {s : State} {l : LaneId} (h : (s.tlc l).state = .starting) :
    s.takeStatus l true true = s.changeTlc l Tlc.enterToc := by
  unfold State.takeStatus
  rw [h]
  rfl

/-- The own effect of a STATUS. -/
def statusEffect (l : LaneId) (spinning present : Bool) (s : State) : State :=
  (s.updTlc l fun u => u.record spinning present).takeStatus l spinning present

theorem exec_status {s : State} (hr : s.released = true) (t : TransportId) (spinning present : Bool) :
    exec (.status t spinning present) s = .next (s.event (statusEffect t.lane spinning present)) := by
  change Host.Outcome.next (s.onEvent true (statusEffect t.lane spinning present)) = _
  rw [onEvent_of hr rfl]

/-- Settles O36: what STATUS records stays in the event (`sameStatus_takeStatus`), an absent disc empties the tray
(`slot_discGone`), and while the loader controller is busy EMPTY and TOC, out of use, stay as they were entered. -/
theorem statusRecorded : Obligations.StatusRecorded := by
  intro t spinning present s hr
  set l := t.lane
  set r := s.clearOutputs.updTlc l fun u => u.record spinning present with hrec
  have htlc : r.tlc l = ({ s.tlc l with sent := [] } : Tlc).record spinning present := by
    rw [hrec, State.tlc_updTlc, tlc_clearOutputs]
  have hloader : r.loader.state = s.loader.state := by rw [hrec, State.loader_updTlc, loader_clearOutputs]
  have hown : statusEffect l spinning present s.clearOutputs = r.takeStatus l spinning present := rfl
  have hleaves := event_leaves_any s (statusEffect l spinning present)
  rw [hown] at hleaves
  obtain ⟨hspindle, hdisc⟩ := sameStatus_of_steady (hleaves.tlc l) (sameStatus_takeStatus r l spinning present)
  rw [htlc] at hspindle hdisc
  refine ⟨_, exec_status hr t spinning present, hspindle, hdisc, fun hs hp => ?_, fun hs hp hsp hbusy => ?_⟩
  · subst hp
    have hgone : statusEffect l spinning false s.clearOutputs = r.discGone l :=
      takeStatus_absent (by rw [htlc]; exact hs) spinning
    refine ⟨?_, fun hbusy => ?_⟩
    · rw [slot_of_loader (congrArg LoaderSteady.slots hleaves.loader), ← hown, hgone, slot_discGone]
    · obtain ⟨n, hn⟩ := tlc_event_busy s l (statusEffect l spinning false)
        (by rw [hgone, Loader.Busy, loader_state_discGone, hloader]; exact hbusy) (by rw [hgone, tlc_discGone]; rfl)
      rw [hn, hgone, tlc_discGone]
      rfl
  · subst hp hsp
    have htoc : statusEffect l true true s.clearOutputs = r.changeTlc l Tlc.enterToc :=
      takeStatus_starting (by rw [htlc]; exact hs)
    obtain ⟨n, hn⟩ := tlc_event_busy s l (statusEffect l true true)
      (by rw [htoc, State.loader_changeTlc, Loader.Busy, hloader]; exact hbusy)
      (by rw [htoc, State.tlc_changeTlc]; rfl)
    rw [hn, htoc, State.tlc_changeTlc, htlc]
    exact ⟨rfl, rfl, rfl, rfl⟩

/-! ### A table of contents judged (R132) -/

theorem judge_some {a : Assembly} {count leadOut : Nat} {c : Toc} (h : a.judge count leadOut = some c) :
    c.leadOut = leadOut ∧ c.starts.length = count ∧ c.fingerprint = fingerprintOf c.starts c.leadOut := by
  unfold Assembly.judge at h
  dsimp only at h
  split at h
  · rename_i hvalid
    simp only [Bool.and_eq_true] at hvalid
    obtain ⟨⟨⟨⟨-, htracks⟩, -⟩, -⟩, -⟩ := hvalid
    have hlength := congrArg List.length (eq_of_beq htracks)
    simp only [List.length_map, List.length_range] at hlength
    cases h
    exact ⟨rfl, by simpa using hlength, rfl⟩
  · cases h

/-- A valid table: the tray's entry, and what the identity check leaves of the rest. -/
theorem calm_completeToc (s : State) (l : LaneId) (c : Toc) :
    Calm (fun _ => True) (fun _ => True) False ((s.trayToc l c).changeTlc l fun t => t.tocDone c) (s.completeToc l c) :=
  calm_due (calm_takeToc (Calm.refl _ _ _ _) l c trivial trivial) l

theorem slot_completeToc (s : State) (l : LaneId) (c : Toc) (n : Loc) :
    (s.completeToc l c).slot n =
      if n = trayOf l then { occupancy := .yes, toc := some c, home := (s.slot (trayOf l)).home } else s.slot n := by
  rw [slot_of_loader (congrArg LoaderSteady.slots (calm_completeToc s l c).loader),
    slot_of_loader (congrArg Loader.slots (State.loader_changeTlc ..))]
  exact slot_setSlot ..

theorem fingerprint_completeToc (s : State) (l : LaneId) (c : Toc) :
    ((s.completeToc l c).tlc l).fingerprint = c.fingerprint := by
  have h := (calm_completeToc s l c).tlc l
  rw [State.tlc_changeTlc] at h
  exact congrArg Tlc.fingerprint h

/-! ### READY in an IDLE lane (R79, R80, R132) -/

theorem trayChanged_idle {s : State} {l : LaneId} (h : (s.lane l).seq.state = .idle) : s.trayChanged l = s := by
  unfold State.trayChanged
  dsimp only
  rw [h]

/-- In an IDLE lane a change of its tray's entry is written and no more. -/
theorem setSlot_idle {s : State} {l : LaneId} (h : (s.lane l).seq.state = .idle) (x : SlotEntry) :
    s.setSlot (trayOf l) x = s.writeToc (trayOf l) x ∨ s.setSlot (trayOf l) x = s.writeSlot (trayOf l) x := by
  have hwrite : ((s.writeSlot (trayOf l) x).lane l).seq.state = .idle := by
    rw [← h]
    simp [State.writeSlot, State.writeToc]
  unfold State.setSlot
  split
  · exact .inl rfl
  · refine .inr ?_
    cases l
    · exact trayChanged_idle hwrite
    · exact trayChanged_idle hwrite

/-- The lanes, the controllers and the settings of two states are the same, and the state of the loader controller. -/
structure State.SameParts (s t : State) : Prop where
  lane : ∀ k, t.lane k = s.lane k
  tlc : ∀ k, t.tlc k = s.tlc k
  applied : t.applied = s.applied
  loader : t.loader.state = s.loader.state

theorem trayToc_idle {s : State} {l : LaneId} (h : (s.lane l).seq.state = .idle) (c : Toc) : s.SameParts (s.trayToc l c) := by
  unfold State.trayToc
  dsimp only
  rcases setSlot_idle h { occupancy := .yes, toc := some c, home := (s.slot (trayOf l)).home } with hset | hset
  · rw [hset]
    exact ⟨fun k => by simp [State.writeToc], fun k => by simp [State.writeToc], rfl, rfl⟩
  · rw [hset]
    exact ⟨fun k => by simp [State.writeSlot, State.writeToc], fun k => by simp [State.writeSlot, State.writeToc], rfl, rfl⟩

/-- In an IDLE lane the identity check fails or does nothing. -/
theorem takeToc_idle {s : State} {l : LaneId} (h : (s.lane l).seq.state = .idle) (c : Toc) :
    s.takeToc l c = s ∨ s.takeToc l c = s.identityFailure l .discChanged := by
  unfold State.takeToc
  dsimp only
  split
  · exact .inl rfl
  · split
    · exact .inl (if_neg (by rw [h]; simp))
    · split
      · exact .inl rfl
      · exact .inr rfl

/-- Nothing follows on an IDLE lane without a mark. -/
theorem followLane_idle {s : State} {l : LaneId} (h : (s.lane l).seq.state = .idle) (hj : (s.lane l).marks.jammed = [])
    (hm : (s.lane l).marks.schedule = false) : s.followLane l = none := by
  refine (followLane_none_iff s l).2 ⟨hj, ?_, hm, ?_⟩
  · simp [Lane.cutDue, h]
  · simp [Lane.playDue, h]

/-- A loader controller that starts nothing gives nothing to follow. -/
theorem choose_busy {s : State} (h : s.loader.Busy) : s.choose = none ∧ s.recovered = false := by
  obtain ⟨hidle, hfaulted, hrecovering⟩ := h
  constructor
  · unfold State.choose Loader.startable
    cases hs : s.loader.state <;> first | exact absurd hs hidle | exact absurd hs hfaulted | rfl
  · simp [State.recovered, hrecovering]

/-- What a table taken in an IDLE lane leaves, the scheduling point apart: READY, and reading closed as before. -/
structure State.TocReady (s y : State) (l : LaneId) (c : Toc) : Prop where
  tlc : y.tlc l = (s.tlc l).tocDone c
  other : y.lane (LaneId.other l) = s.lane (LaneId.other l)
  idle : (y.lane l).seq.state = .idle
  reading : (y.lane l).seq.reading = false
  rsc : (y.lane l).rsc = (s.lane l).rsc
  marks : (y.lane l).marks = (s.lane l).marks
  applied : y.applied = s.applied
  loader : y.loader.state = s.loader.state

/-- From TOC to READY no run ends. -/
theorem changeTlc_tocDone {s : State} {l : LaneId} (h : (s.tlc l).state = .toc) (c : Toc) :
    (s.changeTlc l fun t => t.tocDone c) = (s.setTlc l ((s.tlc l).tocDone c)).due l := by
  unfold State.changeTlc State.putTlc
  dsimp only
  rw [h]
  rfl

theorem due_due (s : State) (l : LaneId) : (s.due l).due l = s.due l := by cases l <;> rfl

/-- An identity failure before the scheduling point is one after it. -/
theorem identityFailure_due (s : State) (l : LaneId) (m : PlayOutMark) :
    (s.due l).identityFailure l m = s.identityFailure l m := by
  cases l <;> rfl

/-- The own effect of a valid table in an IDLE lane is a scheduling point due. -/
theorem completeToc_idle {s : State} {l : LaneId} (hs : (s.tlc l).state = .toc) (hidle : (s.lane l).seq.state = .idle)
    (hread : (s.lane l).seq.reading = false) (c : Toc) : ∃ y, s.completeToc l c = y.due l ∧ s.TocReady y l c := by
  obtain ⟨hlane, htlc, happ, hloader⟩ := trayToc_idle hidle c
  set z := s.trayToc l c
  have hidle' : (((z.setTlc l ((z.tlc l).tocDone c)).due l).lane l).seq.state = .idle := by
    rw [State.seq_due, State.lane_setTlc, hlane]
    exact hidle
  have hother : LaneId.other l ≠ l := by cases l <;> simp [LaneId.other]
  have hdone : s.completeToc l c = (((z.setTlc l ((z.tlc l).tocDone c)).due l).takeToc l c).due l := by
    rw [← changeTlc_tocDone (by rw [htlc]; exact hs)]
    rfl
  rcases takeToc_idle hidle' c with htake | htake
  · refine ⟨z.setTlc l ((z.tlc l).tocDone c), by rw [hdone, htake, due_due], ?_⟩
    constructor <;> simp [hlane, htlc, happ, hloader, hidle, hread]
  · refine ⟨(((z.setTlc l ((z.tlc l).tocDone c)).setNews (newsOf l) discBit).updSeq l fun q => { q with
      mark := match q.mark with
        | none => some .discChanged
        | some k => some k
      identity := none }).updSeq l fun q => { q with reading := false }, ?_, ?_⟩
    · rw [hdone, htake, identityFailure_due]
      exact due_due _ l
    · constructor <;> simp [State.updSeq, lane_updLane_ne _ hother, hlane, htlc, happ, hloader, hidle]

theorem State.TocReady.atRest {s y : State} {l : LaneId} {c : Toc} (h : s.TocReady y l c) (hrest : s.AtRest)
    (hbusy : s.LoaderBusy) : y.AtRest := by
  obtain ⟨hchoose, hrecovered⟩ := choose_busy (s := y) (by unfold Loader.Busy; rw [h.loader]; exact hbusy)
  have hall := ((follow_none_iff s).1 hrest).1
  obtain ⟨hjammed, -, hschedule, -⟩ := (followLane_none_iff s l).1 (hall l)
  have hself : y.followLane l = none :=
    followLane_idle h.idle (by rw [h.marks]; exact hjammed) (by rw [h.marks]; exact hschedule)
  have hother : y.followLane (LaneId.other l) = none :=
    followLane_none_of (hall _) (by rw [h.other]; exact .refl _) h.applied
  refine (follow_none_iff y).2 ⟨fun k => ?_, hrecovered, hchoose⟩
  cases l <;> cases k <;> assumption

theorem State.TocReady.closed {s y : State} {l : LaneId} {c : Toc} (h : s.TocReady y l c) (hclosed : s.ReadingClosed l) :
    y.ReadingClosed l := by
  obtain ⟨-, hmode, hreason, -⟩ := hclosed
  unfold State.ReadingClosed
  rw [h.tlc, h.rsc]
  exact ⟨h.reading, hmode, hreason, by simp [Tlc.tocDone], by simp [Tlc.tocDone]⟩

/-- The scheduling point of a table taken in an IDLE lane at rest changes nothing. -/
theorem carryOut_completeToc {s : State} {l : LaneId} {c : Toc} {f : State → State} (hf : f s = s.completeToc l c)
    (hs : (s.tlc l).state = .toc) (hidle : (s.lane l).seq.state = .idle) (hclosed : s.ReadingClosed l) (hrest : s.AtRest)
    (hbusy : s.LoaderBusy) : (s.carryOut f).tlc l = (s.tlc l).tocDone c := by
  obtain ⟨y, hy, hready⟩ := completeToc_idle hs hidle hclosed.1 c
  have hat := hready.atRest hrest hbusy
  have hmark : (y.lane l).marks.schedule = false := by
    rw [hready.marks]
    exact ((followLane_none_iff s l).1 (((follow_none_iff s).1 hrest).1 l)).2.2.1
  unfold State.carryOut settleFuel
  rw [hf, hy, State.settle, follow_due hat, schedule_closed (hready.closed hclosed) hmark]
  dsimp only
  rw [settle_atRest hat, hready.tlc]

/-! ### TOC_END (R132) -/

/-- The own effect of a TOC_END. -/
def tocEndEffect (l : LaneId) (count : Byte) (leadOut : BitVec 24) (s : State) : State :=
  if (s.tlc l).state = .toc then
    match (s.tlc l).assembly.judge count.toNat leadOut.toNat with
    | some c => s.completeToc l c
    | none => s.updTlc l Tlc.invalidToc
  else s.updTlc l Tlc.stray

theorem exec_tocEnd {s : State} (hr : s.released = true) (t : TransportId) (count : Byte) (leadOut : BitVec 24) :
    exec (.tocEnd t count leadOut) s = .next (s.event (tocEndEffect t.lane count leadOut)) := by
  change Host.Outcome.next (s.onEvent true (tocEndEffect t.lane count leadOut)) = _
  rw [onEvent_of hr rfl]

section
variable {s : State} {l : LaneId} {count : Byte} {leadOut : BitVec 24}

theorem tocEndEffect_valid {c : Toc} (hs : (s.tlc l).state = .toc)
    (hj : (s.tlc l).assembly.judge count.toNat leadOut.toNat = some c) :
    tocEndEffect l count leadOut s.clearOutputs = s.clearOutputs.completeToc l c := by
  have hj' : (s.clearOutputs.tlc l).assembly.judge count.toNat leadOut.toNat = some c := by rw [tlc_clearOutputs]; exact hj
  unfold tocEndEffect
  rw [if_pos (by rw [tlc_clearOutputs]; exact hs), hj']

theorem tocEndEffect_invalid (hs : (s.tlc l).state = .toc)
    (hj : (s.tlc l).assembly.judge count.toNat leadOut.toNat = none) :
    tocEndEffect l count leadOut s.clearOutputs = s.clearOutputs.updTlc l Tlc.invalidToc := by
  have hj' : (s.clearOutputs.tlc l).assembly.judge count.toNat leadOut.toNat = none := by rw [tlc_clearOutputs]; exact hj
  unfold tocEndEffect
  rw [if_pos (by rw [tlc_clearOutputs]; exact hs), hj']

theorem tocEndEffect_stray (hs : (s.tlc l).state ≠ .toc) :
    tocEndEffect l count leadOut s.clearOutputs = s.clearOutputs.updTlc l Tlc.stray :=
  if_neg (by rw [tlc_clearOutputs]; exact hs)

end

/-- An event whose own effect is on a controller alone leaves the slot table. -/
theorem sameSlots_event {s : State} {l : LaneId} {f : State → State} {g : Tlc → Tlc}
    (hf : f s.clearOutputs = s.clearOutputs.updTlc l g) : s.SameSlotsBut (s.event f) [] := fun n _ => by
  have h := (event_leaves_any s f).loader
  rw [hf, State.loader_updTlc] at h
  exact slot_of_loader (congrArg LoaderSteady.slots h) n

/-- Settles O38: the fingerprint and the slot table stay in the event as a valid table has left them (`slot_completeToc`), an IDLE
lane's scheduling point does nothing (`carryOut_completeToc`), and an invalid table or a stray is of the controller alone. -/
theorem tocEndJudged : Obligations.TocEndJudged := by
  intro t count leadOut s hr
  set l := t.lane
  have hleaves := event_leaves_any s (tocEndEffect l count leadOut)
  refine ⟨_, exec_tocEnd hr t count leadOut, fun c hs hj => ?_, fun hs hj => ?_, fun hs => ?_⟩
  · have hown := tocEndEffect_valid hs hj
    rw [hown] at hleaves
    obtain ⟨hlead, hcount, hprint⟩ := judge_some hj
    have hslot : ∀ n, (s.event (tocEndEffect l count leadOut)).slot n =
        if n = trayOf l then { occupancy := .yes, toc := some c, home := (s.slot (trayOf l)).home } else s.slot n := fun n =>
      (slot_of_loader (congrArg LoaderSteady.slots hleaves.loader) n).trans (slot_completeToc ..)
    refine ⟨hlead, hcount, hprint, (congrArg Tlc.fingerprint (hleaves.tlc l)).trans (fingerprint_completeToc ..),
      (hslot _).trans (if_pos rfl), fun n hn => (hslot n).trans (if_neg (by simpa using hn)),
      fun hrest hbusy hclosed hidle => ?_⟩
    have hcarry := carryOut_completeToc hown (by rw [tlc_clearOutputs]; exact hs) (by rw [lane_clearOutputs]; exact hidle)
      (by unfold State.ReadingClosed; rw [lane_clearOutputs, tlc_clearOutputs]; exact hclosed) (AtRest_clearOutputs hrest)
      hbusy
    obtain ⟨n, hn⟩ := tlc_finish (s.clearOutputs.carryOut (tocEndEffect l count leadOut)) s.clearOutputs l
    have hevent : (s.event (tocEndEffect l count leadOut)).tlc l = _ := hn
    rw [hevent, hcarry]
    exact ⟨rfl, rfl⟩
  · have hown := tocEndEffect_invalid hs hj
    have htlc := hleaves.tlc l
    rw [hown, State.tlc_updTlc, tlc_clearOutputs] at htlc
    have hprint := congrArg Tlc.fingerprint htlc
    refine ⟨congrArg (fun u => u.count.invalidTocs) htlc, hprint, sameSlots_event hown,
      fun hwait => ?_⟩
    obtain ⟨n, hn⟩ := tlc_event_updTlc hown rfl (by rw [hs]; rfl) hwait
    rw [hn]
    exact ⟨hs, rfl⟩
  · have hown := tocEndEffect_stray (count := count) (leadOut := leadOut) hs
    exact ⟨(event_tlcStray hown).1, sameSlots_event hown⟩

end Sys2Proof.Machine
end

section
/-! REVIVE and APPLY (O26, O27). -/

namespace Sys2Proof.Machine

set_option Elab.async false

/-! ### REVIVE (R130) -/

/-- The judgement of REVIVE reads its argument and its controller alone. -/
theorem exec_revive {s : State} (h : s.attends .mech codeRevive = true) :
    exec .revive s =
      .next ((s.taking .mech).attend .mech codeRevive ((s.taking .mech).judgeRevive (s.cellArg1 .mech))) :=
  congrArg Host.Outcome.next (onCommand_of h _)

theorem revive_refused {s : State} {r : ResultCode} (h : s.attends .mech codeRevive = true)
    (hj : (s.taking .mech).judgeRevive (s.cellArg1 .mech) = .refused r none 0) :
    s.MechRefused .revive codeRevive r.code := by
  refine ⟨_, exec_revive h, ?_⟩
  rw [hj]
  exact attend_refused s .mech codeRevive r none 0

theorem judgeRevive_argument (s : State) {n : Nat} (h : 1 < n) : s.judgeRevive n = .refused .refusedArgument none 0 := by
  unfold State.judgeRevive transportOf
  rw [if_neg (by omega), if_neg (by omega)]

theorem judgeRevive_transport {s : State} {n : Nat} {l : LaneId} (h : transportOf n = some l) :
    s.judgeRevive n =
      if (s.tlc l).state = .offline then .taken fun s => s.changeTlc l Tlc.revive else .refused .refusedState none 0 := by
  unfold State.judgeRevive
  rw [h]

theorem revive_released {t : Tlc} (hm : t.mechStopped = false) : t.revive = t.sendReset := by
  simp [Tlc.revive, hm]

/-- A controller that is OFFLINE sends no HALT before RESET. -/
theorem sendReset_offline {t : Tlc} (hs : t.state = .offline) :
    t.sendReset = { t.send .reset with
      state := .starting, spindle := .unknown, disc := .unknown, seek := none, loaderHold := false, stopPending := false,
      assembly := .empty, timers := { TlcTimers.none with startup := some Config.startupWindow }, violation := 0 } := by
  simp [Tlc.sendReset, Tlc.haltIfBusy, TlcState.busy, hs]

theorem held_of_steady {t u : Tlc} (h : u.steady = t.steady) (ht : t.state = .mechHeld) : u.state = .mechHeld := by
  have hs : u.steady.state = t.steady.state := congrArg Tlc.state h
  unfold Tlc.steady at hs
  dsimp only at hs
  rw [ht] at hs
  cases hu : u.state <;> rw [hu] at hs <;> cases hs

/-- The counts of a revived controller. -/
theorem count_revive {t : Tlc} (hs : t.state = .offline) : t.revive.count = t.count := by
  unfold Tlc.revive
  split
  · rfl
  · rw [sendReset_offline hs]
    rfl

/-- Settles O26: a taken REVIVE changes its controller alone, and what follows leaves its counts and MECH_HELD (`Tlc.steady`) and,
while the loader controller is busy, STARTING. -/
theorem reviveTakenAndRefused : Obligations.ReviveTakenAndRefused := by
  intro s ha
  have htlc : ∀ l, (s.taking .mech).tlc l = { s.tlc l with sent := [] } := tlc_clearOutputs s _
  refine ⟨fun harg => revive_refused (r := .refusedArgument) ha (judgeRevive_argument _ harg), fun l harg => ?_⟩
  have hof : transportOf (s.cellArg1 .mech) = some l := by rw [harg]; cases l <;> rfl
  have hjudge := judgeRevive_transport (s := s.taking .mech) hof
  refine ⟨fun hs => revive_refused (r := .refusedState) ha (hjudge.trans (if_neg (by rw [htlc]; exact hs))), fun hs => ?_⟩
  rw [if_pos (by rw [htlc]; exact hs)] at hjudge
  have hown : OwnEffect s ((s.taking .mech).changeTlc l Tlc.revive) :=
    (follows_changeTlc (follows_clearOutputs (Follows.refl s) (some .mech)) l _).ownEffect
  have hleaves := (attend_leaves_any (s.taking .mech) .mech codeRevive fun s => s.changeTlc l Tlc.revive).tlc l
  rw [State.tlc_changeTlc, htlc] at hleaves
  have hoff : ({ s.tlc l with sent := [] } : Tlc).state = .offline := hs
  have hagree := agrees_of_steady hleaves
  have hofflines : (((s.taking .mech).attend .mech codeRevive (.taken fun s => s.changeTlc l Tlc.revive)).tlc l).count.offlines =
      ({ s.tlc l with sent := [] } : Tlc).revive.count.offlines := congrArg (fun u => u.count.offlines) hleaves
  refine ⟨_, exec_revive ha, ?_⟩
  rw [hjudge]
  refine ⟨attend_taken s .mech codeRevive _ hown,
    hagree.faults.trans (congrArg TlcCounters.faults (count_revive hoff)),
    hofflines.trans (congrArg TlcCounters.offlines (count_revive hoff)),
    fun hm => held_of_steady hleaves ?_, fun hm => ?_⟩
  · rw [Tlc.revive, if_pos (by exact hm)]
  · have hreset := (revive_released (t := { s.tlc l with sent := [] }) hm).trans (sendReset_offline hoff)
    rw [hreset] at hagree
    refine ⟨hagree.spindle, hagree.disc, hagree.violation, fun hbusy => ?_⟩
    obtain ⟨n, hn⟩ := (attend_leaves (b := False) (s.taking .mech) .mech codeRevive (fun s => s.changeTlc l Tlc.revive)
      (fun _ => .inl trivial) (fun _ => .inl trivial) (.inr (by rw [State.loader_changeTlc]; exact hbusy))).still
      not_false l (by rw [State.tlc_changeTlc, htlc, hreset]; rfl)
    rw [hn, State.tlc_changeTlc, htlc, hreset]
    exact ⟨rfl, rfl, rfl⟩

/-! ### APPLY (R141, R208, R209) -/

theorem firstFailing_none {c : Settings} (h : ∀ i, 1 ≤ i → i ≤ 31 → fieldOk c i = true) : firstFailing c = none := by
  unfold firstFailing
  refine List.find?_eq_none.2 fun i hi => ?_
  obtain ⟨j, hj, rfl⟩ := List.mem_map.1 hi
  have hlt := List.mem_range.1 hj
  simp [h (j + 1) (by omega) (by omega)]

/-- A block whose fields pass is taken where no share changes or both lanes are IDLE (R208). -/
theorem judgeApply_admits {s : State} {c : Settings} (hc : c = .ofList s.settingsBlock)
    (hok : ∀ i, 1 ≤ i → i ≤ 31 → fieldOk c i = true)
    (hshare : (c.laneA.share = s.share .a ∧ c.laneB.share = s.share .b) ∨
      ((s.lane .a).seq.state = .idle ∧ (s.lane .b).seq.state = .idle)) :
    s.judgeApply = .taken fun s => (s.countReads settingCount).applySettings c := by
  unfold State.judgeApply
  dsimp only
  rw [← hc, firstFailing_none hok]
  dsimp only
  refine if_neg ?_
  rcases hshare with ⟨ha, hb⟩ | ⟨ha, hb⟩
  · simp [ha, hb]
  · simp [ha, hb]

/-- A lane at an APPLY keeps f unless its share changes while its map is not empty. -/
theorem f_applied {x : Lane} {old new : LaneSettings} (h : new.share = old.share ∨ x.f = x.p) :
    (x.applied old new).f = x.f := by
  have hclear : (if new.share = old.share then x else x.clearMap).f = x.f := by
    split
    · rfl
    · rename_i hne
      exact (h.resolve_left hne).symm
  unfold Lane.applied
  dsimp only
  generalize (if new.share = old.share then x else x.clearMap) = y at hclear ⊢
  have hlimit : (if (decide (new.maxAttempts < old.maxAttempts) && new.share != 0) = true then
      y.limitAttempts new.maxAttempts else y).f = x.f := by
    split
    · exact (congrArg LaneSteady.f (withSpans_alike y _).1).trans hclear
    · exact hclear
  generalize (if (decide (new.maxAttempts < old.maxAttempts) && new.share != 0) = true then
      y.limitAttempts new.maxAttempts else y) = z at hlimit ⊢
  split
  · exact hlimit
  · exact hlimit

/-- The state of a taken APPLY before the controllers see the lowered ViolationLimit. -/
def State.withSettings (s : State) (c : Settings) : State :=
  (State.updLane { s with applied := c, generation := s.generation + 1 } .a fun x =>
    x.applied s.applied.laneA c.laneA).updLane .b fun x => x.applied s.applied.laneB c.laneB

theorem applySettings_eq (s : State) (c : Settings) : s.applySettings c =
    ((s.withSettings c).changeTlc .a fun t => t.limitViolation c.violationLimit).changeTlc .b
      fun t => t.limitViolation c.violationLimit := rfl

theorem follows_applySettings (s : State) (c : Settings) : Follows (s.withSettings c) (s.applySettings c) :=
  follows_changeTlc (follows_changeTlc (Follows.refl _) .a _) .b _

theorem f_applySettings {s : State} {c : Settings} {l : LaneId}
    (h : (match l with
      | .a => c.laneA.share
      | .b => c.laneB.share) = s.share l ∨ (s.lane l).f = (s.lane l).p) :
    ((s.applySettings c).lane l).f = (s.lane l).f := by
  have hsteady : ((s.applySettings c).lane l).steady = ((s.withSettings c).lane l).steady := by
    rw [applySettings_eq, State.steady_changeTlc, State.steady_changeTlc]
  refine (congrArg LaneSteady.f hsteady).trans ?_
  cases l
  · exact f_applied h
  · exact f_applied h

theorem violation_limitViolation (t : Tlc) (limit : Nat) :
    (t.limitViolation limit).violation = if limit ≤ t.violation then limit - 1 else t.violation := by
  unfold Tlc.limitViolation
  split <;> rfl

theorem violation_applySettings (s : State) (c : Settings) (l : LaneId) :
    ((s.applySettings c).tlc l).violation =
      if c.violationLimit ≤ (s.tlc l).violation then c.violationLimit - 1 else (s.tlc l).violation := by
  have htlc : ((s.applySettings c).tlc l) = ((s.withSettings c).tlc l).limitViolation c.violationLimit := by
    rw [applySettings_eq]
    cases l <;> simp
  rw [htlc, violation_limitViolation]
  cases l <;> rfl

theorem ownEffect_applySettings (s : State) (c : Settings) : OwnEffect s (s.applySettings c) := by
  obtain ⟨hhost, hpins, hattention, hpending, hbytes⟩ := (follows_applySettings s c).ownEffect
  exact ⟨hhost, hpins, hattention, hpending, hbytes⟩

/-- What follows a taken command leaves the settings and their generation. -/
theorem settings_attend (s : State) (w : CellId) (k : Nat) (f : State → State) :
    (s.attend w k (.taken f)).applied = (f s).applied ∧ (s.attend w k (.taken f)).generation = (f s).generation := by
  unfold State.attend
  dsimp only
  have hsettle := (follows_carryOut (s := s) (f := f) (Follows.refl (f s))).outside
  generalize s.carryOut f = v at hsettle ⊢
  have hanswer := answer_rest v w k .taken (v.detail w)
  generalize v.answer w k .taken (v.detail w) = u at hanswer ⊢
  have hfinish := (follows_finish (Follows.refl u) s).outside
  refine ⟨hfinish.applied.trans (Eq.trans ?_ hsettle.applied), hfinish.generation.trans (Eq.trans ?_ hsettle.generation)⟩
  · rw [hanswer]
  · rw [hanswer]

/-- Settles O27: the settings and their generation are of what no event changes (`settings_attend`), f and the violation counters
of what the rest of this one leaves. -/
theorem applyTaken : Obligations.ApplyTaken := by
  intro c s ha hc hok hshare
  set r := s.taking .settings
  set z := r.countReads settingCount
  set t := r.attend .settings codeApply (.taken fun s => (s.countReads settingCount).applySettings c) with ht
  have hlane : ∀ l, z.lane l = s.lane l := fun l => by rw [State.lane_countReads]; exact lane_clearOutputs s _ l
  have htlc : ∀ l, (z.tlc l).violation = (s.tlc l).violation := fun l => by
    rw [State.tlc_countReads, show r = s.clearOutputs (some .settings) from rfl, tlc_clearOutputs]
  have hjudge : r.judgeApply = .taken fun s => (s.countReads settingCount).applySettings c :=
    judgeApply_admits hc hok hshare
  have hexec : exec .apply s = .next t := by
    refine congrArg Host.Outcome.next ((onCommand_of ha _).trans ?_)
    rw [hjudge]
  obtain ⟨hhost, hpins, hattention, hpending, hbytes⟩ := ownEffect_applySettings z c
  have hleaves := attend_leaves_any r .settings codeApply fun s => (s.countReads settingCount).applySettings c
  obtain ⟨happlied, hgeneration⟩ := settings_attend r .settings codeApply fun s => (s.countReads settingCount).applySettings c
  have hown := (follows_applySettings z c).outside
  have hnew : t.applied = c := happlied.trans hown.applied
  refine ⟨t, hexec, attend_taken s .settings codeApply _ ⟨hhost, hpins, hattention, hpending, hbytes⟩, hnew,
    hgeneration.trans hown.generation, fun l => ⟨fun hf => ?_, ?_⟩⟩
  · refine (hleaves.f l).trans ((f_applySettings ?_).trans (by rw [hlane]))
    rw [hlane]
    refine hf.imp_left fun hsame => ?_
    unfold State.share State.settings at hsame
    rw [hnew] at hsame
    cases l
    · exact hsame
    · exact hsame
  · rw [(agrees_of_steady (hleaves.tlc l)).violation, violation_applySettings, htlc]

end Sys2Proof.Machine
end

section
/-! Mechanism stops and the end of the initialisation (O55, O15). -/

namespace Sys2Proof.Machine

set_option Elab.async false

/-! ### The request or homing that a stop ends (R189) -/

theorem queue_endOutcome (s : State) (q : LoaderRequest) (o : LoaderOutcome) :
    s.loader.queue <+: (s.endOutcome q o).loader.queue :=
  ((calm_endOutcome (Calm.refl (fun _ => True) (fun _ => True) False s) q o fun _ => .inl trivial).works not_false).2

theorem queue_forget : ∀ (ns : List Loc) (s : State), s.loader.queue <+: (s.forget ns).loader.queue
  | [], _ => List.prefix_refl _
  | n :: ns, s => ((calm_setSlot s n .unknown).works not_false).2.trans (queue_forget ns _)

theorem tlc_steady_endOutcome (s : State) (q : LoaderRequest) (o : LoaderOutcome) (l : LaneId) :
    ((s.endOutcome q o).tlc l).steady = (s.tlc l).steady :=
  (calm_endOutcome (Calm.refl (fun _ => True) (fun _ => True) False s) q o fun _ => .inl trivial).tlc l

theorem tlc_steady_forget (l : LaneId) : ∀ (ns : List Loc) (s : State), ((s.forget ns).tlc l).steady = (s.tlc l).steady
  | [], _ => rfl
  | n :: ns, s => (tlc_steady_forget l ns _).trans (tlc_steady_setSlot s n .unknown l)

theorem haltStage_rest (s : State) : (∀ l, s.haltStage.tlc l = s.tlc l) ∧ s.haltStage.loader.queue = s.loader.queue := by
  unfold State.haltStage
  split
  · exact ⟨fun l => State.tlc_updLoader .., rfl⟩
  · exact ⟨fun _ => rfl, rfl⟩

/-- The waiting requests keep their places, and the controllers what is not of a lane's work. -/
theorem interrupt_keeps (s : State) :
    s.loader.queue <+: s.interrupt.loader.queue ∧ ∀ l, (s.interrupt.tlc l).steady = (s.tlc l).steady := by
  obtain ⟨htlc, hqueue⟩ := haltStage_rest s
  unfold State.interrupt
  dsimp only
  split
  · split
    · rename_i c _
      refine ⟨?_, fun l => ?_⟩
      · rw [← hqueue]
        refine (queue_endOutcome s.haltStage c.request .interrupted).trans ?_
        generalize s.haltStage.endOutcome c.request .interrupted = v
        exact queue_forget s.loader.stageLocations (v.updLoader fun d => { d with
          count := { d.count with interruptions := bump d.count.interruptions } })
      · rw [tlc_steady_forget, State.tlc_updLoader, tlc_steady_endOutcome, htlc]
    · exact ⟨hqueue ▸ queue_forget _ _, fun l => by rw [tlc_steady_forget, htlc]⟩
  · exact ⟨List.prefix_refl _, fun _ => rfl⟩

/-! ### A mechanism stop (R145, R189) -/

/-- A stopped loader controller: no request, stage, homing or timer. -/
structure Loader.Halted (d : Loader) : Prop where
  state : d.state = .stopped
  mechStopped : d.mechStopped = true
  current : d.current = none
  stage : d.stage = none
  homing : d.homing = none
  moveLimit : d.moveLimit = none
  settleTimer : d.settleTimer = none
  recoveryTimer : d.recoveryTimer = none

theorem Loader.Halted.busy {d : Loader} (h : d.Halted) : d.Busy := by
  unfold Loader.Busy
  rw [h.state]
  exact ⟨nofun, nofun, nofun⟩

theorem Loader.Halted.of_works {d e : Loader} (h : d.Halted) (he : e.works = d.works) : e.Halted := by
  have hv : ∀ {α : Type} (g : Loader → α), g e.works = g d.works := fun g => congrArg g he
  exact ⟨(hv Loader.state).trans h.state, (hv Loader.mechStopped).trans h.mechStopped, (hv Loader.current).trans h.current,
    (hv Loader.stage).trans h.stage, (hv Loader.homing).trans h.homing, (hv Loader.moveLimit).trans h.moveLimit,
    (hv Loader.settleTimer).trans h.settleTimer, (hv Loader.recoveryTimer).trans h.recoveryTimer⟩

/-- The state of a mechanism stop after the request it ends. -/
def State.idleLoader (s : State) : State :=
  s.interrupt.updLoader fun d => { d with
    current := none, stage := none, homing := none, moveLimit := none, settleTimer := none, recoveryTimer := none,
    toRecovery := false }

theorem stopMechanism_eq (s : State) : s.stopMechanism =
    (((s.idleLoader.changeTlc .a Tlc.mechanismStop).changeTlc .b Tlc.mechanismStop).updLoader fun d => { d with
      stopped0 := false, stopped1 := false, mechStopped := true, state := .stopped }).setNews .mech mechStoppedBit := rfl

theorem halted_stopMechanism (s : State) : s.stopMechanism.loader.Halted := by
  rw [stopMechanism_eq, State.loader_setNews, State.loader_updLoader, State.loader_changeTlc, State.loader_changeTlc]
  exact ⟨rfl, rfl, rfl, rfl, rfl, rfl, rfl, rfl⟩

theorem queue_stopMechanism (s : State) : s.loader.queue <+: s.stopMechanism.loader.queue := by
  rw [stopMechanism_eq, State.loader_setNews, State.loader_updLoader, State.loader_changeTlc, State.loader_changeTlc]
  exact (interrupt_keeps s).1

theorem tlc_stopMechanism (s : State) (l : LaneId) : s.stopMechanism.tlc l = (s.interrupt.tlc l).mechanismStop := by
  have hidle : ∀ k, s.idleLoader.tlc k = s.interrupt.tlc k := fun k => State.tlc_updLoader ..
  rw [stopMechanism_eq, State.tlc_setNews, State.tlc_updLoader, ← hidle]
  cases l
  · rw [State.tlc_changeTlc_ba, State.tlc_changeTlc]
  · rw [State.tlc_changeTlc, State.tlc_changeTlc_ab]

theorem offline_iff_of_steady {t u : Tlc} (h : u.steady = t.steady) : u.state = .offline ↔ t.state = .offline :=
  ⟨offline_of_steady h.symm, offline_of_steady h⟩

/-- A controller that a mechanism stop finds: held, or OFFLINE as before. -/
theorem mechanismStop_state (t : Tlc) :
    t.mechanismStop.mechStopped = true ∧ t.mechanismStop.state = if t.state = .offline then .offline else .mechHeld := by
  unfold Tlc.mechanismStop Tlc.haltIfBusy
  cases hs : t.state <;> exact ⟨rfl, rfl⟩

/-- A controller after the event of a mechanism stop. -/
theorem stopped_of_steady {t u v : Tlc} (hu : u.steady = t.steady) (hv : v.steady = u.mechanismStop.steady) :
    v.mechStopped = true ∧ v.state = if t.state = .offline then .offline else .mechHeld := by
  obtain ⟨hstop, hstate⟩ := mechanismStop_state u
  have hmech : v.steady.mechStopped = u.mechanismStop.steady.mechStopped := by rw [hv]
  simp only [offline_iff_of_steady hu] at hstate
  refine ⟨hmech.trans hstop, ?_⟩
  split
  · rename_i hoff
    exact offline_of_steady hv (hstate.trans (if_pos hoff))
  · rename_i hoff
    exact held_of_steady hv (hstate.trans (if_neg hoff))

/-- An event whose own effect stops the mechanism. -/
theorem stopMechanism_event {s r : State} {f : State → State} (hf : f s.clearOutputs = r.stopMechanism) :
    (s.event f).loader.Halted ∧ r.loader.queue <+: (s.event f).loader.queue ∧
      (s.event f).news .mech &&& mechStoppedBit = mechStoppedBit ∧
      ∀ l, ((s.event f).tlc l).mechStopped = true ∧
        ((s.event f).tlc l).state = if (r.tlc l).state = .offline then .offline else .mechHeld := by
  have hhalted := halted_stopMechanism r
  have hleaves := event_leaves (e := fun _ => True) (c := fun _ => True) (b := False) s f (fun _ => .inl trivial)
    (fun _ => .inl trivial) (.inr (by rw [hf]; exact hhalted.busy))
  rw [hf] at hleaves
  obtain ⟨hworks, hqueue⟩ := hleaves.works not_false
  refine ⟨hhalted.of_works hworks, (queue_stopMechanism r).trans hqueue, ?_, fun l => ?_⟩
  · have h := (follows_own_event s f).news .mech
    rw [hf, stopMechanism_eq, news_setNews, if_pos rfl] at h
    exact or_absorbs_bit h
  · refine stopped_of_steady ((interrupt_keeps r).2 l) ?_
    rw [hleaves.tlc l, tlc_stopMechanism]

/-- Settles O55: the loader controller, STOPPED, starts nothing in the rest of the event, so that what the stop has ended stays so
(`Loader.Halted.of_works`), the requests behind it keep their places and the controllers stay held (`Tlc.steady`). -/
theorem mechanismStops : Obligations.MechanismStops := by
  intro flap power s hr hm hlines
  set f : State → State := fun s => (s.setLines flap power).stopMechanism with hf
  have hexec : exec (.mechanismStop flap power) s = .next (s.event f) :=
    congrArg Host.Outcome.next (onEvent_of hr (by rw [hm, hlines]; rfl) f)
  obtain ⟨h, hqueue, hnews, htlc⟩ := stopMechanism_event (s := s) (f := f) rfl
  have hpins := ((follows_own_event s f).outside.pins).trans
    (follows_stopMechanism (Follows.refl (s.clearOutputs.setLines flap power))).outside.pins
  refine ⟨s.event f, hexec, hpins, h.state, h.mechStopped, h.current, h.stage, h.homing, h.moveLimit, h.settleTimer,
    h.recoveryTimer, hnews, hqueue, fun l => ?_⟩
  have hstate : ((s.clearOutputs.setLines flap power).tlc l).state = (s.tlc l).state := by cases l <;> rfl
  rw [← hstate]
  exact htlc l

/-! ### Exchange Memory as the initialisation writes it (R202) -/

/-- The four runs of words that the initialisation writes. -/
theorem xm_writeXm (s : State) : s.writeXm.xm =
    Memory.write (Memory.write (Memory.write (Memory.write [] 0xC00
      ((Config.defaultSettings.map wordOf).flatMap wordBytes)) 0x100 (s.tlc0.recordWords.flatMap wordBytes))
      0x140 (s.tlc1.recordWords.flatMap wordBytes)) 0x180 (s.loaderWords.flatMap wordBytes) := rfl

theorem word_writeXm (s : State) {i : Nat} (hi : i < 31) :
    s.writeXm.word (0xC00 + 4 * i) = BitVec.ofNat 32 (Config.defaultSettings.getD i 0) := by
  have hlen : (Config.defaultSettings.map wordOf).length = 31 := rfl
  have hfield : (Config.defaultSettings.map wordOf).getD i 0 = wordOf (Config.defaultSettings.getD i 0) := by
    rw [show (0 : Word) = wordOf 0 from rfl, List.getD_map]
  unfold State.word
  rw [xm_writeXm, Memory.word_write_out, Memory.word_write_out, Memory.word_write_out,
    Memory.word_write_in _ _ _ _ (by omega), hfield, wordOf]
  all_goals
    rw [Memory.flatMap_wordBytes_length]
    simp only [recordWords_length, loaderWords_length]
    omega

/-- Outside the settings block it writes no byte that only the host writes. -/
theorem byte_writeXm (s : State) {a : Nat} (ha : HostOnly a) (hout : a < 0xC00 ∨ 0xC00 + 4 * 31 ≤ a) :
    Memory.byte s.writeXm.xm a = 0 := by
  have hlen : (Config.defaultSettings.map wordOf).length = 31 := rfl
  unfold HostOnly at ha
  rw [xm_writeXm, Memory.byte_write_out, Memory.byte_write_out, Memory.byte_write_out, Memory.byte_write_out,
    Memory.byte_nil]
  all_goals
    rw [Memory.flatMap_wordBytes_length]
    simp only [recordWords_length, loaderWords_length, hlen]
    omega

/-! ### The loader controller's homing after reset (R191, R195) -/

/-- Quiet begun on a lane whose transport neither seeks nor reads sends nothing. -/
theorem beginQuiet_idle {s : State} {l : LaneId} (h : (s.tlc l).state.busy = false) :
    s.beginQuiet l = (s.updLane l fun x => { x with rsc := { x.rsc with quiet := true } }).due l := by
  unfold State.beginQuiet
  rw [halt_idle (by rw [State.tlc_due, State.tlc_updLane]; exact h)]

theorem beginQuiet_rest {s : State} {l : LaneId} (h : (s.tlc l).state.busy = false) :
    (∀ k, (s.beginQuiet l).tlc k = s.tlc k) ∧ (s.beginQuiet l).loader = s.loader := by
  rw [beginQuiet_idle h]
  exact ⟨fun k => by rw [State.tlc_due, State.tlc_updLane], by rw [State.loader_due, State.loader_updLane]⟩

theorem beginHoming_idle {s : State} (h : ∀ l, (s.tlc l).state.busy = false) (k : HomingKind) :
    (∀ l, (s.beginHoming k).tlc l = s.tlc l) ∧ (s.beginHoming k).loader.state = .homing ∧
      (s.beginHoming k).loader.stage = some .sense ∧
      (s.beginHoming k).loader.homing = some { kind := k, sensing := 0, putAway := none } := by
  unfold State.beginHoming State.beginStage State.command
  dsimp only
  set r := s.updLoader fun d => { d with
    state := .homing, homing := some { kind := k, sensing := 0, putAway := none },
    queue := if k = .atReturn then serveRescans d.queue else d.queue } with hr
  have htlc : ∀ l, r.tlc l = s.tlc l := fun l => State.tlc_updLoader ..
  obtain ⟨htlca, hloadera⟩ := beginQuiet_rest (s := r) (l := .a) (by rw [htlc]; exact h .a)
  obtain ⟨htlcb, hloaderb⟩ := beginQuiet_rest (s := r.beginQuiet .a) (l := .b) (by rw [htlca, htlc]; exact h .b)
  have hloader : ((r.beginQuiet .a).beginQuiet .b).loader = r.loader := hloaderb.trans hloadera
  refine ⟨fun l => by rw [State.tlc_updLoader, State.tlc_updLoader, htlcb, htlca, htlc], ?_, rfl, ?_⟩
  · rw [State.loader_updLoader, State.loader_updLoader, hloader]
    rfl
  · rw [State.loader_updLoader, State.loader_updLoader, hloader]
    rfl

/-! ### The release of reset (R128, R195, R201) -/

/-- The part as the initialisation has written it, with XM_READY. -/
def State.initialised (s : State) : State := State.writeXm { s with pins := { s.pins with xmReady := true } }

/-- The part with the RESETs sent. -/
def State.resetSent (s : State) : State := (s.changeTlc .a Tlc.sendReset).changeTlc .b Tlc.sendReset

theorem tlc_resetSent (s : State) (l : LaneId) : s.resetSent.tlc l = (s.tlc l).sendReset := by
  unfold State.resetSent
  cases l <;> simp

theorem release0_eq (s : State) : s.release0 =
    if s.resetSent.linesGood then s.resetSent.beginHoming .afterReset else s.resetSent.stopMechanism := rfl

theorem linesGood_resetSent (s : State) : s.resetSent.linesGood = s.linesGood := by
  have hpins := (follows_changeTlc (follows_changeTlc (Follows.refl s) .a Tlc.sendReset) .b Tlc.sendReset).outside.pins
  unfold State.linesGood
  rw [State.resetSent, hpins]

theorem tlc_enterReset (u : State) (b : Bool) (l : LaneId) :
    ((u.enterReset b).initialised.clearOutputs.tlc l) = { State.reset.tlc l with sent := [] } := by
  cases l <;> rfl

/-- The RESET that the release of reset sends. -/
theorem sendReset_enterReset (u : State) (b : Bool) (l : LaneId) :
    let t := ((u.enterReset b).initialised.clearOutputs.tlc l).sendReset
    t.state = .starting ∧ t.sent = [.reset] ∧ t.timers.startup = some Config.startupWindow := by
  rw [tlc_enterReset]
  cases l <;> exact ⟨rfl, rfl, rfl⟩

/-- With a homing begun the loader controller is busy, and STARTING stays. -/
theorem release0_homing (u : State) (hlines : u.linesGood = true) :
    let t := (u.enterReset false).initialised.event State.release0
    t.loader.state = .homing ∧ t.loader.stage = some .sense ∧
      t.loader.homing = some { kind := .afterReset, sensing := 0, putAway := none } ∧
      ∀ l, (t.tlc l).state = .starting ∧ (t.tlc l).sent = [.reset] ∧
        (t.tlc l).timers.startup = some Config.startupWindow := by
  intro t
  set w := (u.enterReset false).initialised
  have hreset := sendReset_enterReset u false
  have hown : State.release0 w.clearOutputs = w.clearOutputs.resetSent.beginHoming .afterReset := by
    rw [release0_eq, linesGood_resetSent]
    exact if_pos hlines
  have hstate : ∀ l, (w.clearOutputs.resetSent.tlc l).state = .starting := fun l => by
    rw [tlc_resetSent]
    exact (hreset l).1
  obtain ⟨htlc, hhoming, hstage, hkind⟩ := beginHoming_idle (s := w.clearOutputs.resetSent)
    (fun l => by rw [hstate]; rfl) .afterReset
  have hbusy : (State.release0 w.clearOutputs).loader.Busy := by
    unfold Loader.Busy
    rw [hown, hhoming]
    exact ⟨nofun, nofun, nofun⟩
  have hleaves := event_leaves (e := fun _ => True) (c := fun _ => True) (b := False) w State.release0
    (fun _ => .inl trivial) (fun _ => .inl trivial) (.inr hbusy)
  rw [hown] at hleaves
  have hworks := (hleaves.works not_false).1
  have hv : ∀ {α : Type} (g : Loader → α), g t.loader.works =
      g (w.clearOutputs.resetSent.beginHoming .afterReset).loader.works := fun g => congrArg g hworks
  refine ⟨(hv Loader.state).trans hhoming, (hv Loader.stage).trans hstage, (hv Loader.homing).trans hkind, fun l => ?_⟩
  obtain ⟨n, hn⟩ := hleaves.still not_false l (by rw [htlc, hstate]; rfl)
  rw [hn, htlc, tlc_resetSent]
  exact hreset l

/-- Settles O15: no event changes the pins and what only the host writes, so both stand as written (`word_writeXm`,
`byte_writeXm`); the loader controller, homing or STOPPED, starts nothing in the event, so that what the release of reset has
made of it and of the transports stays (`release0_homing`, `stopMechanism_event`). -/
theorem initialisationEnds : Obligations.InitialisationEnds := by
  rintro u s rfl
  set w := (u.enterReset false).initialised with hw
  have hout := (follows_event w State.release0 (follows_release0 (follows_clearOutputs (Follows.refl w)))).outside
  have hhost : ∀ i k, i < 31 → k < 4 → HostOnly (0xC00 + 4 * i + k) := fun i k _ _ => .inr (.inr (.inl (by omega)))
  refine ⟨w.event State.release0, rfl, hout.pins, fun i hi => ?_, fun a ha hrest => ?_, fun hlines => release0_homing u hlines,
    fun hlines => ?_⟩
  · rw [word_of_bytes fun k hk => hout.bytes _ (hhost i k hi hk)]
    exact word_writeXm _ hi
  · rw [hout.bytes a ha]
    exact byte_writeXm _ ha hrest
  · have hown : State.release0 w.clearOutputs = w.clearOutputs.resetSent.stopMechanism := by
      rw [release0_eq, linesGood_resetSent]
      exact if_neg (by rw [show w.clearOutputs.linesGood = (u.enterReset false).linesGood from rfl, hlines]; simp)
    obtain ⟨h, -, hnews, htlc⟩ := stopMechanism_event hown
    refine ⟨h.state, h.mechStopped, hnews, fun l => (htlc l).2.trans (if_neg ?_)⟩
    rw [tlc_resetSent, (sendReset_enterReset u false l).1]
    simp

end Sys2Proof.Machine
end

section
/-! What an event tells of the state of its lanes: a lane that goes to another state is marked for its status record. What an
operation leaves of a lane's state, its refresh count and the two marks of its record (O6). -/

namespace Sys2Proof.Machine

set_option Elab.async false

/-! ### The state of a lane and the marks of its record (R171) -/

/-- The part of a lane that says when its status record is refreshed, with the state whose change does so. -/
structure Told where
  state : LaneState
  refresh : BitVec 16
  due : Bool
  changed : Bool

/-- That part of a lane. -/
def Lane.told (x : Lane) : Told :=
  { state := x.seq.state, refresh := x.seq.refresh, due := x.marks.refresh, changed := x.marks.stateChanged }

/-- That part of each lane. -/
def State.told (s : State) (l : LaneId) : Told := (s.lane l).told

theorem told_of_lanes {s t : State} (h : ∀ k, t.lane k = s.lane k) : t.told = s.told :=
  funext fun k => congrArg Lane.told (h k)

theorem told_setLane (s : State) (l : LaneId) {x : Lane} (h : x.told = (s.lane l).told) : (s.setLane l x).told = s.told := by
  funext k
  unfold State.told
  by_cases hk : k = l
  · subst hk
    rw [State.lane_setLane, h]
  · rw [lane_setLane_ne s hk]

theorem told_updLane (s : State) (l : LaneId) (g : Lane → Lane) (h : ∀ x : Lane, (g x).told = x.told := by exact fun _ => rfl) :
    (s.updLane l g).told = s.told :=
  told_setLane s l (h _)

theorem told_updSeq (s : State) (l : LaneId) (g : Sequencer → Sequencer)
    (h : ∀ q : Sequencer, (g q).state = q.state ∧ (g q).refresh = q.refresh := by exact fun _ => ⟨rfl, rfl⟩) :
    (s.updSeq l g).told = s.told :=
  told_updLane s l _ fun x => by
    obtain ⟨hstate, hrefresh⟩ := h x.seq
    unfold Lane.told
    rw [hstate, hrefresh]

section
variable (s : State) (l : LaneId)

@[simp] theorem told_setTlc (t : Tlc) : (s.setTlc l t).told = s.told := told_of_lanes fun _ => State.lane_setTlc ..
@[simp] theorem told_updTlc (g : Tlc → Tlc) : (s.updTlc l g).told = s.told := told_of_lanes fun _ => State.lane_updTlc ..
@[simp] theorem told_updLoader (g : Loader → Loader) : (s.updLoader g).told = s.told :=
  told_of_lanes fun _ => State.lane_updLoader ..
@[simp] theorem told_setWords (a : Nat) (ws : List Word) : (s.setWords a ws).told = s.told :=
  told_of_lanes fun _ => State.lane_setWords ..
@[simp] theorem told_setWord (a : Nat) (w : Word) : (s.setWord a w).told = s.told := told_of_lanes fun _ => State.lane_setWord ..
@[simp] theorem told_setNews (n : NewsWord) (b : Word) : (s.setNews n b).told = s.told :=
  told_of_lanes fun _ => State.lane_setNews ..
@[simp] theorem told_countReads (n : Nat) : (s.countReads n).told = s.told := told_of_lanes fun _ => State.lane_countReads ..
@[simp] theorem told_setAttention (c : CellId) (on : Bool) : (s.setAttention c on).told = s.told :=
  told_of_lanes fun _ => State.lane_setAttention ..
@[simp] theorem told_splice (u : Splice) : State.told { s with splice := u } = s.told := told_of_lanes fun k => by cases k <;> rfl
@[simp] theorem told_store (c : List StoreCell) : State.told { s with store := c } = s.told :=
  told_of_lanes fun k => by cases k <;> rfl
@[simp] theorem told_clearOutputs (own : Option CellId) : (s.clearOutputs own).told = s.told :=
  told_of_lanes fun _ => lane_clearOutputs ..
@[simp] theorem told_release (p : StoreCell → Bool) : (s.release l p).told = s.told := told_store s _
@[simp] theorem told_releaseAll : (s.releaseAll l).told = s.told := told_release s l _
@[simp] theorem told_releaseBelow (i : Index) : (s.releaseBelow l i).told = s.told := told_release s l _
@[simp] theorem told_releasePassed : (s.releasePassed l).told = s.told := told_release s l _
@[simp] theorem told_firstWrite (i : Index) (a : Nat) (m : MarkSet) (p : List Pair) : (s.firstWrite l i a m p).told = s.told :=
  told_store s _
@[simp] theorem told_rewrite (c : StoreCell) (m : MarkSet) (p : List Pair) : (s.rewrite c m p).told = s.told := told_store s _
@[simp] theorem told_countStoreFault : (s.countStoreFault l).told = s.told := told_updLane s l _
@[simp] theorem told_noteStoreFault : (s.noteStoreFault l).told = s.told := by simp [State.noteStoreFault]
@[simp] theorem told_due : (s.due l).told = s.told := told_updLane s l _

/-! ### Runs and transport link controllers -/

@[simp] theorem told_withdrawCheck : (s.withdrawCheck l).told = s.told := told_splice s _

@[simp] theorem told_endRun : (s.endRun l).told = s.told := by
  unfold State.endRun
  split
  · rw [told_withdrawCheck]
    exact told_updLane s l _
  · rfl

@[simp] theorem told_putTlc (t : Tlc) : (s.putTlc l t).told = s.told := by
  unfold State.putTlc
  dsimp only
  repeat' split
  all_goals simp

@[simp] theorem told_changeTlc (g : Tlc → Tlc) : (s.changeTlc l g).told = s.told := told_putTlc s l _
@[simp] theorem told_badEvent : (s.badEvent l).2.told = s.told := told_putTlc s l _
@[simp] theorem told_goodEvent : (s.goodEvent l).told = s.told := told_changeTlc s l _

@[simp] theorem told_halt : (s.halt l).told = s.told := by
  unfold State.halt
  split
  · simp
  · rfl

end

/-! ### The map and the repair scheduler (R23 to R39, R79 to R102) -/

section
variable (x : Lane)

theorem withSpans_told (l : List Span) : (x.withSpans l).told = x.told := by
  unfold Lane.withSpans
  dsimp only
  split <;> rfl

theorem abortAttempt_told : x.abortAttempt.told = x.told := by
  unfold Lane.abortAttempt
  split <;> rfl

theorem endAttempt_told (n : Nat) : (x.endAttempt n).told = x.told := by
  unfold Lane.endAttempt
  split <;> rfl

theorem updateRefill_told (v : LaneSettings) : (x.updateRefill v).told = x.told := by
  unfold Lane.updateRefill
  split <;> rfl

theorem startAttempt_told {y : Lane} {n : Nat} {q : Span} (h : x.startAttempt n q = some y) : y.told = x.told := by
  unfold Lane.startAttempt at h
  obtain ⟨z, hz, rfl⟩ := Option.map_eq_some_iff.1 h
  unfold Lane.activate at hz
  split_ifs at hz
  cases hz
  rfl

theorem append_told {y : Lane} {g : SegRef} {c : CopyClass} (h : x.append g c = some y) : y.told = x.told := by
  unfold Lane.append at h
  dsimp only at h
  split_ifs at h
  cases h
  exact withSpans_told x _

theorem aheadHole_told {y : Lane} {g : SegRef} {i : Index} {c : CopyClass} (h : x.aheadHole g i c = some y) :
    y.told = x.told := by
  unfold Lane.aheadHole at h
  dsimp only at h
  split_ifs at h
  cases h
  exact withSpans_told x _

theorem absorb_told (i : Index) (c : CopyClass) (w : Bool) : (x.absorb i c w).2.told = x.told := by
  unfold Lane.absorb
  split
  · rfl
  · dsimp only
    split_ifs <;> first | exact withSpans_told x _ | rfl

theorem moveOn_told (k guard : Nat) : (x.moveOn k guard).told = x.told := by
  unfold Lane.moveOn Lane.convertGuard
  dsimp only
  split
  · exact withSpans_told _ _
  · exact withSpans_told _ _

theorem advanceMap_told (guard : Nat) : (x.advanceMap guard).told = x.told := by
  unfold Lane.advanceMap
  split
  · rfl
  · exact moveOn_told x _ _

theorem cutTo_told (b : Index) (guard : Nat) : (x.cutTo b guard).told = x.told := by
  unfold Lane.cutTo
  split
  · exact moveOn_told x _ _
  · rfl

end

section
variable (s : State) (l : LaneId)

@[simp] theorem told_sendSeek (k : RunKind) (g : SegRef) (t : Index) (v : Speed) (w : Bool) :
    (s.sendSeek l k g t v w).told = s.told := by
  unfold State.sendSeek
  refine (told_updLane _ l _).trans ?_
  rw [told_changeTlc, told_endRun]

@[simp] theorem told_fillDecision (w : Bool) : (s.fillDecision l w).told = s.told := by
  unfold State.fillDecision
  have hrefill := told_updLane s l (fun x => x.updateRefill (s.settings l)) fun x => updateRefill_told x _
  dsimp only
  generalize s.updLane l (fun x => x.updateRefill (s.settings l)) = u at hrefill ⊢
  rw [← hrefill]
  split
  · exact (told_updLane _ l _).trans (told_halt u l)
  · split
    · exact told_updLane u l _
    · split
      · rw [told_sendSeek]
        exact told_updLane u l _
      · exact told_updLane u l _

theorem told_startRepair {t : State} (h : s.startRepair l = some t) : t.told = s.told := by
  unfold State.startRepair at h
  dsimp only at h
  split at h
  · split at h
    · cases h
    · obtain ⟨x, hx, rfl⟩ := Option.map_eq_some_iff.1 h
      rw [told_sendSeek, told_setLane s l (startAttempt_told _ hx)]
  · cases h

theorem told_chainRepair {t : State} {c : Option Index} (h : s.chainRepair l c = some t) : t.told = s.told := by
  unfold State.chainRepair at h
  dsimp only at h
  split at h
  · cases h
  · split at h
    · split at h
      · cases h
      · obtain ⟨x, hx, rfl⟩ := Option.map_eq_some_iff.1 h
        exact told_setLane s l (startAttempt_told _ hx)
    · cases h

@[simp] theorem told_reseekRepair : (s.reseekRepair l).told = s.told := by
  unfold State.reseekRepair
  dsimp only
  split <;> simp

@[simp] theorem told_nextWork (q : Point) : (s.nextWork l q).told = s.told := by
  unfold State.nextWork
  split
  · rename_i t h
    split at h
    · exact told_chainRepair s l h
    · cases h
  · split
    · rename_i t h
      split at h
      · cases h
      · exact told_startRepair s l h
    · exact told_fillDecision s l _

@[simp] theorem told_workDecision (q : Point) : (s.workDecision l q).told = s.told := by
  unfold State.workDecision
  dsimp only
  split_ifs
  · rw [told_fillDecision]
    exact told_updLane s l _ fun x => abortAttempt_told x
  · exact told_reseekRepair s l
  · rfl
  · exact told_nextWork s l q

@[simp] theorem told_standDown (m : WorkMode) (r : Option RestReason) : (s.standDown l m r).told = s.told :=
  told_updLane s l _ fun x => abortAttempt_told x

@[simp] theorem told_overtake (q : Point) : (s.overtake l q).1.told = s.told := by
  unfold State.overtake
  dsimp only
  split
  · exact told_updLane s l _
  · rfl

@[simp] theorem told_schedule (q : Point) : (s.schedule l q).told = s.told := by
  unfold State.schedule
  have hmark := told_updLane s l fun x => { x with marks := { x.marks with schedule := false } }
  dsimp only
  generalize s.updLane l (fun x => { x with marks := { x.marks with schedule := false } }) = u at hmark ⊢
  have hover := told_overtake u l q
  generalize u.overtake l q = v at hover ⊢
  rw [← hmark, ← hover]
  repeat' split
  all_goals simp

@[simp] theorem told_takeResult (r : IntakeResult) : (s.takeResult l r).told = s.told := by
  unfold State.takeResult
  have hposition := told_updLane s l (fun x =>
      match r.position with
      | some i => { x with rsc := { x.rsc with runPosition := some i } }
      | none => x) fun x => by dsimp only; split <;> rfl
  dsimp only
  split
  · generalize s.updLane l _ = u at hposition ⊢
    rw [← hposition]
    split
    · split_ifs
      · exact told_schedule u l _
      · rw [told_schedule, told_updLane u l _ fun x => endAttempt_told x _]
      · exact told_schedule u l _
    · rw [told_schedule]
      split
      · exact told_updLane u l _
      · rfl
  · exact told_schedule s l _

end

/-! ### Retires, reading and the walk's small steps (R149 to R158) -/

section
variable (x : Lane)

theorem updCue_told (b : Index) (g : CueCounts → CueCounts) : (x.updCue b g).told = x.told := rfl

theorem playBlock_told (b : PlayBlock) : (x.playBlock b).told = x.told := by
  unfold Lane.playBlock
  split <;> rfl

theorem countBlock_told (b : Option Index) (m i : Nat) : (x.countBlock b m i).told = x.told := by
  unfold Lane.countBlock
  dsimp only
  split <;> rfl

theorem clearHold_told : x.clearHold.told = x.told := by
  unfold Lane.clearHold
  split <;> rfl

theorem skipPlayout_told : x.skipPlayout.told = x.told := by
  unfold Lane.skipPlayout
  split <;> rfl

theorem openRun_told : x.openRun.told = x.told := by
  unfold Lane.openRun
  split <;> rfl

theorem applied_told (old new : LaneSettings) : (x.applied old new).told = x.told := by
  have hclear : (if new.share = old.share then x else x.clearMap).told = x.told := by split <;> rfl
  unfold Lane.applied
  dsimp only
  generalize (if new.share = old.share then x else x.clearMap) = y at hclear ⊢
  have hlimit : (if (decide (new.maxAttempts < old.maxAttempts) && new.share != 0) = true then
      y.limitAttempts new.maxAttempts else y).told = x.told := by
    split
    · exact (withSpans_told y _).trans hclear
    · exact hclear
  generalize (if (decide (new.maxAttempts < old.maxAttempts) && new.share != 0) = true then
      y.limitAttempts new.maxAttempts else y) = z at hlimit ⊢
  split
  · exact hlimit
  · exact hlimit

end

section
variable (s : State) (l : LaneId)

@[simp] theorem told_closeReading : (s.closeReading l).told = s.told := (told_due _ l).trans (told_updSeq s l _)
@[simp] theorem told_openReading : (s.openReading l).told = s.told := (told_due _ l).trans (told_updSeq s l _)

@[simp] theorem told_retire (c : TakenCue) (o : CueOutcome) : (s.retire l c o).told = s.told := by
  unfold State.retire
  have hpass := fun g hg => (told_updSeq (s.countReads 1) l g hg).trans (told_countReads s 1)
  dsimp only
  split
  · rw [told_setNews, State.writeResult, told_setWord, told_setWords]
    exact hpass _ fun _ => ⟨rfl, rfl⟩
  · exact hpass _ fun _ => ⟨rfl, rfl⟩

@[simp] theorem told_retireAll (o : CueOutcome) (cs : List TakenCue) : (s.retireAll l o cs).told = s.told := by
  induction cs generalizing s with
  | nil => rfl
  | cons c cs ih => exact (ih _).trans (told_retire s l c o)

@[simp] theorem told_retireNormal (cs : List TakenCue) : (s.retireNormal l cs).told = s.told := by
  induction cs generalizing s with
  | nil => rfl
  | cons c cs ih => exact (ih _).trans (told_retire s l c _)

@[simp] theorem told_establish : (s.establish l).told = s.told := by
  unfold State.establish
  split
  · rfl
  · exact told_updSeq s l _

@[simp] theorem told_prime : (s.prime l).1.told = s.told := by
  unfold State.prime
  dsimp only
  repeat' split
  · rfl
  · exact (told_openReading _ l).trans (told_updSeq s l _)
  · rfl

@[simp] theorem told_writeLoader : s.writeLoader.told = s.told := (told_setWords _ _ _).trans (told_updLoader s _)

@[simp] theorem told_recordOutcome (r : LoaderRequest) (o : LoaderOutcome) : (s.recordOutcome r o).told = s.told := by
  simp [State.recordOutcome]

@[simp] theorem told_enqueue (r : LoaderRequest) : (s.enqueue r).told = s.told := told_updLoader s _

@[simp] theorem told_postBind (k : Nat) (tag : Byte) : (s.postBind l k tag).told = s.told := by
  unfold State.postBind
  split_ifs
  · exact told_updLane s l _
  · exact told_enqueue s _
  · rfl

@[simp] theorem told_withdrawBind (tag : Byte) : (s.withdrawBind l tag).told = s.told := by
  unfold State.withdrawBind
  split <;> simp

@[simp] theorem told_sendBind (k : Nat) : (s.sendBind l k).told = s.told :=
  (told_postBind _ l k _).trans (told_updSeq s l _)

@[simp] theorem told_moveWalk (k : Nat) (w : Bool) : (s.moveWalk l k w).told = s.told := told_updSeq s l _

@[simp] theorem told_stepRead : (s.stepRead l).told = s.told := told_countReads s _

@[simp] theorem told_walkClose : (s.walkClose l).told = s.told := (told_updSeq _ l _).trans (told_closeReading s l)

@[simp] theorem told_endEpisode : (s.endEpisode l).told = s.told := by
  unfold State.endEpisode
  split
  · rfl
  · exact (told_updLane _ l _).trans (told_countReads s 1)

@[simp] theorem told_stopPlayout : (s.stopPlayout l).told = s.told := (told_updLane _ l _).trans (told_endEpisode s l)

@[simp] theorem told_prefetch (n : Nat) : (State.prefetch n s l).told = s.told := by
  induction n generalizing s with
  | zero => rfl
  | succ n ih =>
    unfold State.prefetch
    dsimp only
    split
    · split
      · split
        · refine (told_due _ l).trans ((told_updSeq _ l _).trans ?_)
          rw [told_moveWalk, told_countReads, told_stepRead]
        · rw [ih, told_retire, told_moveWalk, told_countReads, told_stepRead]
      · rw [told_countReads, told_stepRead]
    · exact told_stepRead s l

@[simp] theorem told_prefetchAtEnd : (s.prefetchAtEnd l).told = s.told := by
  unfold State.prefetchAtEnd
  split
  · exact told_prefetch s l _
  · rfl

@[simp] theorem told_crossing (g : Segment) (w : Bool) : (s.crossing l g w).told = s.told :=
  (told_updLane _ l _).trans (told_retireNormal s l _)

@[simp] theorem told_retireCurrent : (s.retireCurrent l).told = s.told := by
  unfold State.retireCurrent
  split
  · rfl
  · refine (told_updSeq _ l _ fun q => ?_).trans (told_retire s l _ _)
    unfold Sequencer.dropCurrent
    split <;> exact ⟨rfl, rfl⟩

@[simp] theorem told_cutStream : (s.cutStream l).told = s.told := (told_releaseAll _ l).trans (told_updLane s l _)

@[simp] theorem told_identityFailure (m : PlayOutMark) : (s.identityFailure l m).told = s.told :=
  (told_closeReading _ l).trans ((told_updSeq _ l _).trans (told_setNews s _ _))

@[simp] theorem told_discAbsent : (s.discAbsent l).told = s.told := by
  unfold State.discAbsent
  dsimp only
  split
  · rfl
  · exact told_identityFailure s l _

@[simp] theorem told_recoveryEnded : (s.recoveryEnded l).told = s.told := by
  unfold State.recoveryEnded
  dsimp only
  split
  · split
    · rw [told_sendBind]
      exact told_updSeq s l _
    · exact told_updSeq s l _
  · rfl

/-! ### Take-ups (R107 to R120) -/

@[simp] theorem told_readForPlay : (s.readForPlay l).1.told = s.told := by
  unfold State.readForPlay
  dsimp only
  repeat' split
  all_goals simp

@[simp] theorem told_readNext : (s.readNext l).1.told = s.told := by
  unfold State.readNext
  dsimp only
  repeat' split
  all_goals simp

@[simp] theorem told_countLoss (a m : Nat) (c : LossCause) : (s.countLoss l a m c).told = s.told := by
  unfold State.countLoss
  split
  · exact told_endEpisode s l
  · exact told_updLane s l _

@[simp] theorem told_takeUp (w : Bool) : (s.takeUp l w).told = s.told := by
  unfold State.takeUp
  dsimp only
  have hread := told_readForPlay s l
  generalize s.readForPlay l = v at hread ⊢
  obtain ⟨u, q⟩ := v
  dsimp only at hread ⊢
  have hnext : (if q.form = .copy ∧ needsNext (s.settings l).interpLimit q.marks then u.readNext l else (u, none)).1.told =
      s.told := by
    split
    · exact (told_readNext u l).trans hread
    · exact hread
  generalize (if q.form = .copy ∧ needsNext (s.settings l).interpLimit q.marks then u.readNext l else (u, none)) = v at hnext ⊢
  obtain ⟨z, next⟩ := v
  dsimp only at hnext ⊢
  rw [told_countLoss, ← hnext]
  refine (told_updLane _ l _ fun x => ?_).trans ?_
  · exact (countBlock_told _ _ _ _).trans (playBlock_told x _)
  split
  · exact told_crossing z l _ _
  · rfl

/-! ### Block intake and the Splice Unit (R45 to R75) -/

@[simp] theorem told_countInOrder : (s.countInOrder l).told = s.told := by
  unfold State.countInOrder
  split
  · exact (told_goodEvent _ l).trans (told_updLane s l _)
  · exact told_updLane s l _

@[simp] theorem told_report (r : IntakeResult) : (s.report l r).told = s.told := by
  unfold State.report
  split <;> simp

@[simp] theorem told_breakRun : (s.updLane l Lane.breakRun).told = s.told := told_updLane s l _

@[simp] theorem told_deliver (i : Index) (a : Arrival) : (s.deliver l i a).1.told = s.told := by
  unfold State.deliver
  split
  · rfl
  · split <;> simp

@[simp] theorem told_writeDelivery (g : SegRef) (i : Index) (a : Arrival) (d : Delivery) :
    (s.writeDelivery l g i a d).told = s.told := by
  unfold State.writeDelivery
  split <;> simp

@[simp] theorem told_atWindow (a : Arrival) : (s.atWindow l a).told = s.told := by
  unfold State.atWindow
  split <;> simp

@[simp] theorem told_takeAtFill (g : SegRef) (a : Arrival) : (s.takeAtFill l g a).told = s.told := by
  unfold State.takeAtFill
  dsimp only
  split
  · simp
  · have hdeliver := told_deliver s l (s.lane l).f a
    generalize s.deliver l (s.lane l).f a = v at hdeliver ⊢
    obtain ⟨u, d⟩ := v
    dsimp only at hdeliver ⊢
    rw [← hdeliver]
    split
    · simp
    · rename_i x hx
      rw [told_report]
      have hput := told_setLane u l (append_told _ hx)
      split <;> simp [hput]

@[simp] theorem told_takeFar (g : SegRef) (i : Index) (o : IntakeOutcome) (c : Option CopyClass) :
    (s.takeFar l g i o c).told = s.told :=
  (told_report _ l _).trans (told_updLane s l _)

@[simp] theorem told_takeKept (g : SegRef) (i : Index) (a : Arrival) : (s.takeKept l g i a).told = s.told := by
  unfold State.takeKept
  have hdeliver := told_deliver s l i a
  generalize s.deliver l i a = v at hdeliver ⊢
  obtain ⟨u, d⟩ := v
  dsimp only at hdeliver ⊢
  rw [← hdeliver]
  split
  · simp
  · rename_i x hx
    have htold := aheadHole_told _ hx
    rw [told_report, told_writeDelivery]
    exact told_setLane u l (x := (x.countSkip g).breakRun) htold

@[simp] theorem told_takeAhead (g : SegRef) (i : Index) (a : Arrival) : (s.takeAhead l g i a).told = s.told := by
  unfold State.takeAhead
  dsimp only
  split_ifs <;> simp

theorem told_absorbMerged (i : Index) (a : Arrival) (m : MarkSet) : (s.absorbMerged l i a m).1.told = s.told := by
  unfold State.absorbMerged
  dsimp only
  split
  · rename_i q _
    have hput := told_setLane s l (absorb_told (s.lane l) i
      (copyClass (s.settings l).interpLimit (some (q.marks &&& m))) (s.lane l).playTaken)
    split
    · dsimp only
      split
      · exact hput
      · exact (told_rewrite _ _ _ _).trans hput
    · rfl
    · rfl
  · exact told_noteStoreFault s l
  · exact told_noteStoreFault s l

theorem told_absorbFirst (g : SegRef) (i : Index) (a : Arrival) (d : Delivery) :
    (s.absorbFirst l g i a d).1.told = s.told := by
  unfold State.absorbFirst
  dsimp only
  split
  · exact (told_writeDelivery _ l g i a d).trans (told_setLane s l (absorb_told _ _ _ _))
  · rfl
  · rfl

@[simp] theorem told_takeBehind (g : SegRef) (i : Index) (a : Arrival) (w : Bool) : (s.takeBehind l g i a w).told = s.told := by
  unfold State.takeBehind
  dsimp only
  rw [told_report, told_breakRun]
  split
  · exact told_absorbFirst s l g i a _
  · rename_i m _
    have hfirst := fun d => (told_absorbFirst _ l g i a d).trans (told_deliver s l i a)
    repeat' split
    all_goals first
      | exact told_absorbMerged s l i a m
      | exact hfirst _

@[simp] theorem told_takePassed (i : Index) (d : PassedSide) (w : Bool) : (s.takePassed l i d w).told = s.told := by
  simp [State.takePassed]

@[simp] theorem told_takeOutside (label : BitVec 24) : (s.takeOutside l label).told = s.told := by
  simp [State.takeOutside]

@[simp] theorem told_judge (a : Arrival) : (s.judge l a).told = s.told := by
  unfold State.judge
  dsimp only
  split
  · exact told_takeOutside s l _
  · rename_i g _ _
    have hrun := told_updLane s l fun x => { x with run := { x.run with seg := some g } }
    split_ifs
    all_goals simp [hrun]

@[simp] theorem told_releaseBlocks (as : List Arrival) : (State.releaseBlocks l as s).told = s.told := by
  induction as generalizing s with
  | nil => rfl
  | cons a as ih =>
    unfold State.releaseBlocks
    split
    · exact (ih _).trans (told_judge s l a)
    · rfl

@[simp] theorem told_releaseHeld (a : Arrival) (e : Int) (c : CheckState) : (s.releaseHeld l a e c).told = s.told :=
  (told_releaseBlocks _ l _).trans (told_updLane s l _)

@[simp] theorem told_overrun : (s.overrun l).told = s.told :=
  (told_report _ l _).trans ((told_endRun _ l).trans (told_updLane s l _))

@[simp] theorem told_takeStray : (s.takeStray l).told = s.told :=
  (told_report _ l _).trans ((told_updTlc _ l _).trans (told_updLane s l _))

@[simp] theorem told_readCandidate (q : CheckRequest) (e : Int) : (s.readCandidate l q e).1.told = s.told := by
  unfold State.readCandidate
  dsimp only
  repeat' split
  all_goals simp

@[simp] theorem told_readCandidates (q : CheckRequest) (es : List Int) : (State.readCandidates l q es s).1.told = s.told := by
  induction es generalizing s with
  | nil => rfl
  | cons e es ih => exact (ih _).trans (told_readCandidate s l q e)

@[simp] theorem told_noAnchor (q : CheckRequest) : (s.noAnchor l q).told = s.told :=
  (told_releaseHeld _ l _ _ _).trans (told_updLane s l _)

@[simp] theorem told_matchFound (q : CheckRequest) (e : Int) : (s.matchFound l q e).told = s.told :=
  (told_releaseHeld _ l _ _ _).trans (told_updLane s l _ fun x => by dsimp only; split <;> rfl)

@[simp] theorem told_noMatch : (s.noMatch l).told = s.told :=
  (told_report _ l _).trans ((told_badEvent _ l).trans ((told_endRun _ l).trans (told_updLane s l _)))

@[simp] theorem told_deliverCheck (c : RunningCheck) : (s.deliverCheck c).told = s.told := by
  unfold State.deliverCheck
  repeat' split
  all_goals simp

@[simp] theorem told_takeCheck (q : CheckRequest) : (s.takeCheck l q).told = s.told := by
  unfold State.takeCheck
  dsimp only
  have hread := told_readCandidates { s with splice := s.splice.setPlace l none } l q candidates
  generalize State.readCandidates l q candidates { s with splice := s.splice.setPlace l none } = v at hread ⊢
  obtain ⟨u, rs⟩ := v
  dsimp only at hread ⊢
  rw [told_splice] at hread
  split
  · exact (told_noAnchor u l q).trans hread
  · exact (told_splice u _).trans hread

@[simp] theorem told_nextCheck (n : Nat) : (State.nextCheck n s).told = s.told := by
  induction n generalizing s with
  | zero => rfl
  | succ n ih =>
    unfold State.nextCheck
    split
    · exact (ih _).trans (told_takeCheck s _ _)
    · exact (ih _).trans (told_takeCheck s _ _)
    · rfl

@[simp] theorem told_requestCheck (q : CheckRequest) : (s.requestCheck l q).told = s.told :=
  (told_nextCheck _ _).trans (told_splice s _)

@[simp] theorem told_completeCheck (c : RunningCheck) : (s.completeCheck c).told = s.told :=
  (told_nextCheck _ _).trans ((told_deliverCheck _ c).trans (told_splice s _))

@[simp] theorem told_hold (a : Arrival) : (s.hold l a).told = s.told := by
  unfold State.hold
  dsimp only
  split
  · exact told_overrun s l
  · split
    · exact (told_requestCheck _ l _).trans (told_updLane s l _)
    · exact told_updLane s l _

@[simp] theorem told_arrive (a : Arrival) : (s.arrive l a).told = s.told := by
  unfold State.arrive
  dsimp only
  repeat' split
  all_goals simp

end

end Sys2Proof.Machine
end

section
/-! A lane that goes to another state in an event is marked for its status record (O6). -/

namespace Sys2Proof.Machine

set_option Elab.async false

/-! ### What follows a state of the lanes (R80, R171) -/

/-- The refresh count stays, the marks stay where they are set, and a change of state has set its mark. -/
structure Told.Leads (x y : Told) : Prop where
  refresh : y.refresh = x.refresh
  due : x.due = true → y.due = true
  changed : x.changed = true → y.changed = true
  state : y.state = x.state ∨ y.changed = true

theorem Told.Leads.refl (x : Told) : x.Leads x := ⟨rfl, id, id, .inl rfl⟩

theorem Told.Leads.trans {x y z : Told} (h : x.Leads y) (k : y.Leads z) : x.Leads z where
  refresh := k.refresh.trans h.refresh
  due hx := k.due (h.due hx)
  changed hx := k.changed (h.changed hx)
  state := k.state.elim (fun hz => h.state.elim (fun hy => .inl (hz.trans hy)) fun hy => .inr (k.changed hy)) .inr

/-- So for each lane of a state. -/
def Tells (a b : LaneId → Told) : Prop := ∀ l, (a l).Leads (b l)

theorem Tells.refl (a : LaneId → Told) : Tells a a := fun l => .refl (a l)

theorem Tells.of_eq {a b c : LaneId → Told} (h : Tells a b) (hc : c = b) : Tells a c := hc ▸ h

section
variable {a : LaneId → Told} {s : State}

theorem tells_updLane (h : Tells a s.told) (l : LaneId) (g : Lane → Lane) (hg : (s.lane l).told.Leads (g (s.lane l)).told) :
    Tells a (s.updLane l g).told := by
  intro k
  refine (h k).trans ?_
  unfold State.told
  by_cases hk : k = l
  · subst hk
    rw [State.lane_updLane]
    exact hg
  · rw [lane_updLane_ne s hk]
    exact .refl _

theorem tells_setLaneState (h : Tells a s.told) (l : LaneId) (t : LaneState) : Tells a (s.setLaneState l t).told := by
  refine tells_updLane h l _ ?_
  dsimp only
  split
  · exact .refl _
  · exact ⟨rfl, id, fun _ => rfl, .inr rfl⟩

/-! ### The walk (R152 to R156) -/

theorem tells_enterPriming (h : Tells a s.told) (l : LaneId) : Tells a (s.enterPriming l).1.told := by
  unfold State.enterPriming
  dsimp only
  refine (tells_setLaneState h l .priming).of_eq ?_
  rw [told_prime]
  split
  · exact told_establish _ l
  · rfl

theorem tells_findDisc (h : Tells a s.told) (l : LaneId) (c : TakenCue) : Tells a (s.findDisc l c).1.told := by
  unfold State.findDisc
  dsimp only
  split
  · split
    · exact tells_enterPriming h l
    · exact tells_setLaneState h l _
    · exact h
  · split
    · exact tells_enterPriming (h.of_eq (told_updSeq s l _)) l
    · exact (tells_setLaneState h l _).of_eq (told_sendBind _ l _)

theorem tells_takePending (h : Tells a s.told) (l : LaneId) (c : TakenCue) : Tells a (s.takePending l c).1.told := by
  unfold State.takePending
  split
  · exact tells_findDisc (h.of_eq (told_updSeq s l _)) l c
  · exact h

theorem tells_endOfWalk (h : Tells a s.told) (l : LaneId) (n : Nat) : Tells a (State.walk n .endOfWalk s l).told := by
  unfold State.walk
  exact (tells_setLaneState h l .idle).of_eq ((told_updSeq _ l _).trans (told_releaseAll _ l))

theorem tells_walk (l : LaneId) (n : Nat) :
    ∀ (w : WalkStep) {s : State}, Tells a s.told → Tells a (State.walk n w s l).told := by
  induction n with
  | zero =>
    intro w s h
    cases w with
    | endOfWalk => exact tells_endOfWalk h l 0
    | starved => exact tells_setLaneState h l _
    | entry k w => exact h
  | succ n ih =>
    intro w s h
    cases w with
    | endOfWalk => exact tells_endOfWalk h l (n + 1)
    | starved => exact tells_setLaneState h l _
    | entry k w =>
      have htake := tells_takePending (s := (s.countReads hostFieldWords).moveWalk l k w)
        (h.of_eq ((told_moveWalk _ l k w).trans (told_countReads s _))) l (s.readCue l k)
      unfold State.walk
      dsimp only
      split
      · exact ih _ (htake.of_eq (by rw [told_stepRead, told_walkClose, told_retire]))
      · exact htake

theorem tells_walkOn (h : Tells a s.told) (l : LaneId) : Tells a (s.walkOn l).told :=
  tells_walk l _ _ (h.of_eq (by rw [told_stepRead, told_stopPlayout, told_walkClose]))

theorem tells_retirePending (h : Tells a s.told) (l : LaneId) (o : CueOutcome) : Tells a (s.retirePending l o).told := by
  unfold State.retirePending
  split
  · exact h
  · exact tells_walkOn (h.of_eq (told_retire s l _ o)) l

theorem tells_primeOrRetire (h : Tells a s.told) (l : LaneId) : Tells a (s.primeOrRetire l).told := by
  have hprime := h.of_eq (told_prime s l)
  unfold State.primeOrRetire
  dsimp only
  split
  · exact tells_retirePending hprime l _
  · exact hprime

theorem tells_primingOrRetire (h : Tells a s.told) (l : LaneId) : Tells a (s.primingOrRetire l).told := by
  have hprime := tells_enterPriming h l
  unfold State.primingOrRetire
  dsimp only
  split
  · exact tells_retirePending hprime l _
  · exact hprime

/-! ### Hold point, stream end, cut, disc identity, reports of the loader (R153 to R169) -/

theorem tells_holdReached (h : Tells a s.told) (l : LaneId) : Tells a (s.holdReached l).told := by
  unfold State.holdReached
  dsimp only
  have hheld := (tells_setLaneState h l .held).of_eq (((told_updLane _ l fun x => { x with
    plu := { x.plu with holdPoint := none } }).trans (told_retireCurrent _ l)))
  split
  · exact hheld.of_eq (told_closeReading _ l)
  · exact hheld

theorem tells_streamEnd (h : Tells a s.told) (l : LaneId) : Tells a (s.streamEnd l).told :=
  tells_walkOn (h.of_eq ((told_updSeq _ l _).trans (told_retireNormal s l _))) l

theorem tells_playOutCut (h : Tells a s.told) (l : LaneId) : Tells a (s.playOutCut l).told := by
  unfold State.playOutCut
  split
  · exact h
  · exact tells_walkOn (h.of_eq ((told_cutStream _ l).trans (told_retireAll s l _ _))) l

theorem tells_takeToc (h : Tells a s.told) (l : LaneId) (t : Toc) : Tells a (s.takeToc l t).told := by
  unfold State.takeToc
  dsimp only
  repeat' split
  · exact h
  · exact tells_primeOrRetire (h.of_eq (told_establish s l)) l
  · exact h
  · exact h
  · exact h.of_eq (told_identityFailure s l _)

theorem tells_trayChanged (h : Tells a s.told) (l : LaneId) : Tells a (s.trayChanged l).told := by
  unfold State.trayChanged
  dsimp only
  repeat' split
  · exact tells_primingOrRetire h l
  · exact tells_retirePending h l _
  all_goals exact h

theorem tells_setSlot (h : Tells a s.told) (n : Loc) (e : SlotEntry) : Tells a (s.setSlot n e).told := by
  have hwrite : Tells a (s.writeSlot n e).told := h.of_eq (by simp [State.writeSlot, State.writeToc])
  unfold State.setSlot
  dsimp only
  repeat' split
  · exact h.of_eq (told_setWords s _ _)
  · exact tells_trayChanged hwrite .a
  · exact tells_trayChanged hwrite .b
  · exact hwrite

theorem tells_bindOutcome (h : Tells a s.told) (l : LaneId) (tag : Byte) (o : LoaderOutcome) :
    Tells a (s.bindOutcome l tag o).told := by
  have hseq := fun g hg => h.of_eq (told_updSeq s l g hg)
  unfold State.bindOutcome
  split
  · exact h
  · split
    · exact h
    · have hnone := hseq (fun q => { q with bind := none }) fun _ => ⟨rfl, rfl⟩
      cases o with
      | done => exact tells_primingOrRetire (hnone.of_eq (told_updSeq _ l _)) l
      | interrupted => exact hnone.of_eq (told_updSeq _ l _)
      | withdrawn => exact hnone
      | noDisc => exact tells_retirePending hnone l _
      | noRoom => exact tells_retirePending hnone l _
      | discBusy => exact tells_retirePending hnone l _
      | jammed => exact tells_retirePending hnone l _

/-! ### Playout (R105 to R115) -/

theorem tells_enterUnderrun (h : Tells a s.told) (l : LaneId) : Tells a (s.enterUnderrun l).told := by
  unfold State.enterUnderrun
  dsimp only
  have hstate := tells_setLaneState (h.of_eq (told_endEpisode s l)) l .underrun
  generalize (s.endEpisode l).setLaneState l .underrun = u at hstate ⊢
  have hcause := hstate.of_eq (told_updLane u l fun x => { x with
    plu := { x.plu.drop with cause := some (underrunCause (u.tlc l).state) } })
  split
  · exact tells_streamEnd hcause l
  · exact hcause

theorem tells_startPlay (h : Tells a s.told) (l : LaneId) : Tells a (s.startPlay l).told := by
  unfold State.startPlay
  dsimp only
  have hcause := (tells_setLaneState h l .playing).of_eq (told_updLane _ l fun x => { x with
    plu := { x.plu with cause := none } })
  split
  · exact tells_enterUnderrun hcause l
  · exact hcause.of_eq (told_takeUp _ l _)

theorem tells_dropAndStart (h : Tells a s.told) (l : LaneId) : Tells a (s.dropAndStart l).told :=
  tells_startPlay (h.of_eq (told_updLane s l _)) l

theorem tells_claimAdvance (h : Tells a s.told) (l : LaneId) : Tells a (s.claimAdvance l).told := by
  refine Tells.of_eq ?_ (told_releasePassed _ l)
  refine tells_updLane h l _ ?_
  rw [← advanceMap_told (s.lane l) (s.settings l).guard]
  exact ⟨rfl, fun _ => rfl, id, .inl rfl⟩

theorem tells_afterClaim (l : LaneId) (h : Tells a (s.claimAdvance l).told) : Tells a (s.advance l).told := by
  unfold State.advance
  dsimp only
  generalize s.claimAdvance l = u at h ⊢
  refine Tells.of_eq ?_ (told_prefetchAtEnd _ l)
  have hdrop := h.of_eq (told_updLane u l fun x => { x with plu := x.plu.drop })
  split
  · split
    · exact hdrop
    · exact tells_holdReached (hdrop.of_eq (told_endEpisode _ l)) l
  · split
    · exact tells_enterUnderrun h l
    · exact h.of_eq (told_takeUp u l true)

theorem tells_advance (h : Tells a s.told) (l : LaneId) : Tells a (s.advance l).told :=
  tells_afterClaim l (tells_claimAdvance h l)

theorem tells_endFall (h : Tells a s.told) (l : LaneId) : Tells a (s.endFall l).told :=
  tells_setLaneState (h.of_eq (told_updLane s l _)) l _

theorem tells_endBlock (h : Tells a s.told) (l : LaneId) : Tells a (s.endBlock l).told := by
  unfold State.endBlock
  split
  · exact tells_dropAndStart h l
  · exact tells_endFall h l
  · exact h
  all_goals exact h.of_eq (told_updLane s l _)

theorem tells_resume (h : Tells a s.told) (l : LaneId) : Tells a (s.resume l).told := by
  have hplay := tells_setLaneState h l .playing
  unfold State.resume
  dsimp only
  split
  · exact tells_startPlay h l
  · split
    · split
      · exact tells_dropAndStart h l
      · exact hplay.of_eq (told_updLane _ l _)
    · split
      · exact tells_advance (hplay.of_eq (told_updLane _ l _)) l
      · exact hplay.of_eq (told_updLane _ l _)

end

end Sys2Proof.Machine
end

section
/-! A lane that goes to another state in an event is marked for its status record: the loader controller, and what follows
within an event (O6). -/

namespace Sys2Proof.Machine

set_option Elab.async false

section
variable {a : LaneId → Told} {s : State}

/-! ### Operations that leave what `Told` reads -/

@[simp] theorem told_command (s : State) (c : StageCommand) : (s.command c).told = s.told := told_updLoader s _

@[simp] theorem told_beginQuiet (s : State) (l : LaneId) : (s.beginQuiet l).told = s.told :=
  (told_halt _ l).trans ((told_due _ l).trans (told_updLane s l _))

@[simp] theorem told_endQuiet (s : State) (l : LaneId) : (s.endQuiet l).told = s.told := by
  unfold State.endQuiet
  split
  · exact (told_due _ l).trans (told_updLane s l _)
  · rfl

@[simp] theorem told_releaseQuiet (s : State) : s.releaseQuiet.told = s.told :=
  (told_endQuiet _ .b).trans (told_endQuiet s .a)

@[simp] theorem told_beginStage (s : State) (g : Stage) (c : StageCommand) (w : Bool) : (s.beginStage g c w).told = s.told :=
  (told_command _ c).trans (told_updLoader s _)

@[simp] theorem told_spinUpStopped (s : State) (l : LaneId) : (s.spinUpStopped l).told = s.told := by
  unfold State.spinUpStopped
  split <;> simp

@[simp] theorem told_beginTake (s : State) : s.beginTake.told = s.told := by
  unfold State.beginTake
  split <;> simp

@[simp] theorem told_beginHoming (s : State) (k : HomingKind) : (s.beginHoming k).told = s.told := by
  simp [State.beginHoming]

@[simp] theorem told_spinUpHeld (s : State) (l : LaneId) : (s.spinUpHeld l).told = s.told := by
  unfold State.spinUpHeld
  dsimp only
  rw [told_updLoader]
  split <;> simp

@[simp] theorem told_haltStage (s : State) : s.haltStage.told = s.told := by
  unfold State.haltStage
  split <;> simp

@[simp] theorem told_prepareLane (s : State) (r : LoaderRequest) (legs : List Leg) (l : LaneId) :
    (s.prepareLane r legs l).told = s.told := by
  unfold State.prepareLane
  dsimp only
  repeat' split
  all_goals simp

@[simp] theorem told_bindBegun (s : State) (r : LoaderRequest) : (s.bindBegun r).told = s.told := by
  cases r with
  | bind l k t => exact told_updSeq s l _
  | eject n => rfl
  | insert k => rfl
  | rescan => rfl

@[simp] theorem told_startLegs (s : State) (r : LoaderRequest) (legs : List Leg) : (s.startLegs r legs).told = s.told := by
  unfold State.startLegs
  dsimp only
  split <;> simp

@[simp] theorem told_settled (s : State) : s.settled.told = s.told := by simp [State.settled]

@[simp] theorem told_endRecovery (s : State) : s.endRecovery.told = s.told := by simp [State.endRecovery]

@[simp] theorem told_returnMechanism (s : State) : s.returnMechanism.told = s.told := by simp [State.returnMechanism]

/-! ### Ends of requests, stages and homings (R186, R191, R192) -/

theorem tells_endOutcome (h : Tells a s.told) (r : LoaderRequest) (o : LoaderOutcome) : Tells a (s.endOutcome r o).told := by
  unfold State.endOutcome
  refine Tells.of_eq ?_ (told_recordOutcome _ r o)
  cases r with
  | bind l k tag => exact tells_bindOutcome h l tag o
  | eject n => exact h
  | insert k => exact h
  | rescan => exact h

theorem tells_endOutcomes (o : LoaderOutcome) (rs : List LoaderRequest) :
    ∀ {s : State}, Tells a s.told → Tells a (State.endOutcomes o rs s).told := by
  induction rs with
  | nil => exact id
  | cons r rs ih => exact fun h => ih (tells_endOutcome h r o)

theorem tells_endRequest (h : Tells a s.told) (o : LoaderOutcome) : Tells a (s.endRequest o).told := by
  unfold State.endRequest
  split
  · exact h
  · refine Tells.of_eq (tells_endOutcome (h.of_eq ?_) _ o) (told_updLoader _ _)
    exact (told_spinUpStopped _ .b).trans (told_spinUpStopped s .a)

theorem tells_moveToArm (h : Tells a s.told) (n : Loc) : Tells a (s.moveToArm n).told :=
  tells_setSlot (tells_setSlot h _ _) _ _

theorem tells_moveFromArm (h : Tells a s.told) (n : Loc) : Tells a (s.moveFromArm n).told :=
  tells_setSlot (tells_setSlot h _ _) _ _

theorem tells_nextLeg (h : Tells a s.told) : Tells a s.nextLeg.told := by
  unfold State.nextLeg
  split
  · exact h.of_eq (by rw [told_beginTake, told_updLoader])
  · exact tells_endRequest h _

theorem tells_endHoming (h : Tells a s.told) (k : HomingKind) (o : LoaderOutcome) : Tells a (s.endHoming k o).told := by
  unfold State.endHoming
  dsimp only
  refine Tells.of_eq ?_ (told_updLoader _ _)
  generalize Loader.rescansEnded _ k = ended
  generalize hu : State.updLoader _ _ = u
  have hended : Tells a (State.endOutcomes o ended u).told := by
    refine tells_endOutcomes o ended (h.of_eq ?_)
    rw [← hu, told_updLoader, told_spinUpHeld, told_spinUpHeld, told_updLoader]
  split
  · exact hended.of_eq ((told_changeTlc _ .b _).trans (told_changeTlc _ .a _))
  · exact hended

theorem tells_afterSenses (h : Tells a s.told) (m : Homing) : Tells a (s.afterSenses m).told := by
  unfold State.afterSenses
  dsimp only
  split
  · split
    · exact h.of_eq ((told_beginStage _ _ _ _).trans (told_updLoader s _))
    · exact tells_endHoming h _ _
  · exact tells_endHoming h _ _

theorem tells_senseEnd (h : Tells a s.told) (m : Homing) (w : Bool) : Tells a (s.senseEnd m w).told := by
  have hwritten : Tells a (s.writeSensed m.sensing w).told := by
    unfold State.writeSensed
    dsimp only
    split
    · exact h
    · exact tells_setSlot h _ _
  unfold State.senseEnd
  dsimp only
  split
  · exact hwritten.of_eq ((told_beginStage _ _ _ _).trans (told_updLoader _ _))
  · exact tells_afterSenses hwritten m

/-! ### Jams, starts, stops (R180 to R190) -/

theorem tells_forget (ns : List Loc) : ∀ {s : State}, Tells a s.told → Tells a (s.forget ns).told := by
  induction ns with
  | nil => exact id
  | cons n ns ih => exact fun h => ih (tells_setSlot h n _)

theorem tells_answerWaiting (n : Nat) : ∀ {s : State}, Tells a s.told → Tells a (State.answerWaiting n s).told := by
  induction n with
  | zero => exact id
  | succ n ih =>
    intro s h
    unfold State.answerWaiting
    split
    · exact h
    · exact ih (tells_endOutcome (h.of_eq (told_updLoader s _)) _ _)

theorem tells_jam (h : Tells a s.told) : Tells a s.jam.told := by
  have hforgot := tells_forget s.loader.stageLocations (h.of_eq (told_haltStage s))
  have hanswered : ∀ {u : State} (g : Loader → Loader), Tells a u.told →
      Tells a (State.answerWaiting answerFuel (u.updLoader g)).told :=
    fun g hu => tells_answerWaiting _ (hu.of_eq (told_updLoader _ g))
  unfold State.jam
  dsimp only
  split
  · refine tells_endHoming (Tells.of_eq (hanswered _ ?_) (told_updLoader _ _)) _ _
    split
    · exact tells_endOutcome hforgot _ _
    · exact hforgot
  · refine Tells.of_eq (hanswered _ ?_) (told_updLoader _ _)
    split
    · exact tells_endOutcome hforgot _ _
    · exact hforgot

theorem tells_startRequest (h : Tells a s.told) (w : Waiting) : Tells a (s.startRequest w).told := by
  have hforced : Tells a (if w.due && !s.gateOpen w.request then
      s.updLoader fun d => { d with count := { d.count with forced := bump d.count.forced } } else s).told := by
    split
    · exact h.of_eq (told_updLoader s _)
    · exact h
  unfold State.startRequest
  dsimp only
  split
  · exact tells_endOutcome hforced _ _
  · exact hforced.of_eq (told_startLegs _ _ _)
  · exact hforced.of_eq ((told_beginHoming _ _).trans (told_updLoader _ _))

theorem tells_arbitrate (h : Tells a s.told) (w : Waiting) : Tells a (s.arbitrate w).told :=
  tells_startRequest (h.of_eq (told_updLoader s _)) w

theorem tells_spindleAnswered (h : Tells a s.told) (o : SpindleOutcome) : Tells a (s.spindleAnswered o).told := by
  unfold State.spindleAnswered
  split
  · cases o with
    | done =>
      dsimp only
      split
      · exact h.of_eq (told_beginTake s)
      · exact h
    | failed => exact tells_jam h
    | noTransport => exact tells_endRequest h _
    | held => exact h
  · exact h

theorem tells_interrupt (h : Tells a s.told) : Tells a s.interrupt.told := by
  have hhalted := h.of_eq (told_haltStage s)
  unfold State.interrupt
  dsimp only
  split
  · refine tells_forget _ ?_
    split
    · exact (tells_endOutcome hhalted _ _).of_eq (told_updLoader _ _)
    · exact hhalted
  · exact h

theorem tells_stopMechanism (h : Tells a s.told) : Tells a s.stopMechanism.told := by
  unfold State.stopMechanism
  exact (tells_interrupt h).of_eq (by simp)

/-! ### What follows within an event (log 8) -/

theorem tells_handJammed (h : Tells a s.told) (l : LaneId) {t : State} (ht : s.handJammed l = some t) : Tells a t.told := by
  unfold State.handJammed at ht
  split at ht
  · cases ht
  · cases ht
    exact tells_endOutcome (h.of_eq (told_updLane s l _)) _ _

theorem tells_followLane (h : Tells a s.told) (l : LaneId) {t : State} (ht : s.followLane l = some t) : Tells a t.told := by
  unfold State.followLane at ht
  split at ht
  · rename_i u hu
    cases ht
    exact tells_handJammed h l hu
  · split_ifs at ht <;> cases ht
    · exact tells_playOutCut h l
    · exact h.of_eq (told_schedule s l _)
    · exact tells_startPlay h l

theorem tells_follow (h : Tells a s.told) {t : State} (ht : s.follow = some t) : Tells a t.told := by
  unfold State.follow at ht
  split at ht
  · rename_i u hu
    cases ht
    exact tells_followLane h .a hu
  · split at ht
    · rename_i u hu
      cases ht
      exact tells_followLane h .b hu
    · split at ht
      · cases ht
        exact h.of_eq (told_endRecovery s)
      · split at ht <;> cases ht
        exact tells_arbitrate h _

theorem tells_settle (n : Nat) : ∀ {s : State}, Tells a s.told → Tells a (State.settle n s).told := by
  induction n with
  | zero => exact id
  | succ n ih =>
    intro s h
    unfold State.settle
    split
    · exact h
    · rename_i t ht
      exact ih (tells_follow h ht)

theorem tells_carryOut {f : State → State} (h : Tells a (f s).told) : Tells a (s.carryOut f).told := tells_settle _ h

end

end Sys2Proof.Machine
end

section
/-! The records that an event rewrites: the own effects of the commands and of the events mark each lane they lead to another
state, and the records at the event's end hold what they changed (O6). -/

namespace Sys2Proof.Machine

set_option Elab.async false

/-! ### Lane commands (R163 to R167) -/

section
variable {a : LaneId → Told} {s : State}

theorem tells_startLane (h : Tells a s.told) (l : LaneId) (k m : Nat) : Tells a (s.startLane l k m).told := by
  unfold State.startLane
  exact tells_walk l _ _ (h.of_eq ((told_updLane _ l _).trans (told_releaseAll s l)))

theorem told_stopReading (s : State) (l : LaneId) : (s.stopReading l).told = s.told := by
  unfold State.stopReading
  dsimp only
  refine (told_updLane _ l _).trans ((told_endRun _ l).trans ((told_halt _ l).trans (told_updLane s l _ fun x => ?_)))
  exact abortAttempt_told x

theorem told_dropBind (s : State) (l : LaneId) : (s.dropBind l).told = s.told := by
  unfold State.dropBind
  dsimp only
  refine (told_updSeq _ l _).trans ?_
  split
  · split
    · rfl
    · exact told_withdrawBind s l _
  · rfl

theorem tells_enterStopping (h : Tells a s.told) (l : LaneId) : Tells a (s.enterStopping l).told := by
  have hfall := (tells_setLaneState (h.of_eq (told_endEpisode s l)) l .stopping).of_eq
    (told_updLane _ l fun x => { x with plu := { x.plu.beginFall with cause := none } })
  unfold State.enterStopping
  dsimp only
  split
  · exact tells_endFall hfall l
  · exact hfall

theorem tells_stopLane (h : Tells a s.told) (l : LaneId) : Tells a (s.stopLane l).told := by
  unfold State.stopLane
  split
  · exact h
  · refine tells_enterStopping (h.of_eq ?_) l
    rw [told_releaseAll, told_closeReading]
    exact (told_updLane _ l _).trans ((told_retireAll _ l _ _).trans ((told_dropBind _ l).trans (told_stopReading s l)))

theorem tells_pauseLane (h : Tells a s.told) (l : LaneId) : Tells a (s.pauseLane l).told :=
  (tells_setLaneState (h.of_eq (told_endEpisode s l)) l _).of_eq (told_updLane _ l _)

theorem tells_goLane (h : Tells a s.told) (l : LaneId) : Tells a (s.goLane l).told := by
  have hpasses := h.of_eq (told_updSeq s l fun q => { q with unplayed := 0 })
  unfold State.goLane
  dsimp only
  refine Tells.of_eq ?_ (told_prefetchAtEnd _ l)
  generalize s.updSeq l (fun q => { q with unplayed := 0 }) = u at hpasses ⊢
  have hhold := hpasses.of_eq (told_updLane u l fun x => { x with plu := { x.plu with holdPoint := none } })
  split
  · exact tells_resume hpasses l
  · split
    · exact tells_startPlay hhold l
    · exact tells_walkOn hhold l
  · exact tells_walkOn hpasses l
  all_goals exact hpasses

theorem told_skipEnds (s : State) (l : LaneId) : (s.skipEnds l).told = s.told :=
  (told_updLane _ l _).trans ((told_endEpisode _ l).trans ((told_endRun _ l).trans
    (told_updLane s l _ fun x => abortAttempt_told x)))

theorem told_skipTo (s : State) (l : LaneId) (cut next : Segment) : (s.skipTo l cut next).told = s.told := by
  unfold State.skipTo
  rw [told_releaseBelow]
  refine (told_updLane _ l _ fun x => ?_).trans (told_retire s l _ _)
  exact (skipPlayout_told _).trans (cutTo_told x _ _)

theorem tells_skipToFill (h : Tells a s.told) (l : LaneId) (cut : Option Segment) : Tells a (s.skipToFill l cut).told := by
  unfold State.skipToFill
  refine tells_walkOn (Tells.of_eq ?_ (told_cutStream _ l)) l
  split
  · exact h.of_eq (told_retire s l _ _)
  · exact h

theorem tells_skipLane (h : Tells a s.told) (l : LaneId) : Tells a (s.skipLane l).told := by
  have hends := h.of_eq (told_skipEnds s l)
  unfold State.skipLane
  dsimp only
  refine tells_updLane ?_ l _ ?_
  · split
    · exact tells_skipToFill hends l none
    · split
      · exact hends.of_eq (told_skipTo _ l _ _)
      · exact tells_skipToFill hends l _
  · generalize State.lane _ l = x
    rw [← clearHold_told x]
    exact ⟨rfl, fun _ => rfl, id, .inl rfl⟩

theorem told_applySettings (s : State) (c : Settings) : (s.applySettings c).told = s.told := by
  unfold State.applySettings
  dsimp only
  rw [told_changeTlc, told_changeTlc]
  refine (told_updLane _ .b _ fun x => applied_told x _ _).trans ((told_updLane _ .a _ fun x => applied_told x _ _).trans ?_)
  exact told_of_lanes fun k => by cases k <;> rfl

/-! ### Link events, stage ends, mechanism lines (R128 to R142, R185, R189) -/

theorem told_badThen (s : State) (l : LaneId) {f : State → State} (hf : ∀ u : State, (f u).told = u.told) :
    (s.badThen l f).told = s.told := by
  unfold State.badThen
  dsimp only
  split
  · exact told_badEvent s l
  · exact (hf _).trans (told_badEvent s l)

theorem tells_discGone (h : Tells a s.told) (l : LaneId) : Tells a (s.discGone l).told :=
  tells_setSlot (h.of_eq ((told_discAbsent _ l).trans (told_changeTlc s l _))) _ _

theorem tells_statusInEmpty (h : Tells a s.told) (l : LaneId) (x y : Bool) : Tells a (s.statusInEmpty l x y).told := by
  unfold State.statusInEmpty
  dsimp only
  split
  · exact tells_spindleAnswered (h.of_eq (told_changeTlc s l _)) _
  · split
    · exact h.of_eq (told_changeTlc s l _)
    · exact h

theorem tells_takeStatus (h : Tells a s.told) (l : LaneId) (x y : Bool) : Tells a (s.takeStatus l x y).told := by
  have hgone := tells_discGone h l
  have hsent := fun g => h.of_eq (told_changeTlc s l g)
  have hdisc : ∀ {u v : State}, Tells a u.told → Tells a v.told →
      Tells a (if !y then s.discGone l else if x then u else v).told := by
    intro u v hu hv
    split
    · exact hgone
    · split
      · exact hu
      · exact hv
  unfold State.takeStatus
  split
  · exact hdisc (hsent _) (hsent _)
  · exact hdisc h (hsent _)
  · exact tells_statusInEmpty h l x y
  · exact hdisc h (hsent _)
  · exact hdisc h (hsent _)
  · exact hdisc h (hsent _)
  · exact h
  · exact h

theorem tells_completeToc (h : Tells a s.told) (l : LaneId) (c : Toc) : Tells a (s.completeToc l c).told :=
  (tells_takeToc ((tells_setSlot h _ _).of_eq (told_changeTlc _ l _)) l c).of_eq (told_due _ l)

theorem tells_takeEnd (h : Tells a s.told) (w : Bool) : Tells a (s.takeEnd w).told := by
  unfold State.takeEnd
  split
  · split
    · exact (tells_moveToArm h _).of_eq (told_beginStage _ _ _ _)
    · exact tells_endRequest (tells_setSlot h _ _) _
  · exact h

theorem told_carryEnd (s : State) : s.carryEnd.told = s.told := by
  unfold State.carryEnd
  split
  · rfl
  · exact told_beginStage s _ _ _

theorem tells_placeEnd (h : Tells a s.told) : Tells a s.placeEnd.told := by
  unfold State.placeEnd
  split
  · exact h
  · rename_i n _
    have hplaced := (tells_moveFromArm h n).of_eq (told_updLoader _ Loader.legDone)
    dsimp only
    split
    · exact tells_endHoming hplaced _ _
    · exact tells_nextLeg hplaced

theorem told_setLines (s : State) (x y : Bool) : (s.setLines x y).told = s.told :=
  told_of_lanes fun k => by cases k <;> rfl

theorem tells_release0 (h : Tells a s.told) : Tells a s.release0.told := by
  have hreset := h.of_eq ((told_changeTlc _ .b Tlc.sendReset).trans (told_changeTlc s .a Tlc.sendReset))
  unfold State.release0
  dsimp only
  split
  · exact hreset.of_eq (told_beginHoming _ _)
  · exact tells_stopMechanism hreset

end

/-! ### The records at the end of an event (R147, R171, R194, R207) -/

/-- The records hold what an event has changed of their fields, and a lane's refresh count is raised with its state. -/
structure State.Rewrites (s t : State) : Prop where
  transport : ∀ l, (t.tlc l).fieldWords ≠ (s.tlc l).fieldWords → t.HoldsWords (transportOffset l) (t.tlc l).recordWords
  loader : t.loaderFields ≠ s.loaderFields → t.HoldsWords loaderOffset t.loaderWords
  status : ∀ l, (t.lane l).seq.refresh ≠ (s.lane l).seq.refresh → t.HoldsWords (statusOffset l) (t.lane l).statusWords
  refreshed : ∀ l, (t.lane l).seq.state ≠ (s.lane l).seq.state →
    (t.lane l).seq.refresh = (s.lane l).seq.refresh + 1

/-- Another state has the fields of the transport records and of the loader record. -/
structure State.SameFields (s b : State) : Prop where
  transport : ∀ l, (b.tlc l).fieldWords = (s.tlc l).fieldWords
  loader : b.loaderFields = s.loaderFields

theorem sameFields_clearOutputs (s : State) (own : Option CellId) : s.SameFields (s.clearOutputs own) :=
  ⟨fun l => by cases l <;> rfl, rfl⟩

/-- Where neither the records' fields nor what refreshes a status record has changed, there is nothing to rewrite. -/
theorem State.SameFields.rewrites {s t : State} (h : s.SameFields t) (ht : t.told = s.told) : s.Rewrites t where
  transport l hl := absurd (h.transport l) hl
  loader hl := absurd h.loader hl
  status l hl := absurd (congrArg Told.refresh (congrFun ht l)) hl
  refreshed l hl := absurd (congrArg Told.state (congrFun ht l)) hl

theorem State.Rewrites.refl (s : State) : s.Rewrites s := State.SameFields.rewrites ⟨fun _ => rfl, rfl⟩ rfl

theorem loaderFields_finish (v b : State) : (v.finish b).loaderFields = v.loaderFields := by
  obtain ⟨n, hn⟩ := loader_finish v b
  have hpins : (v.finish b).pins = v.pins := by
    unfold State.finish
    have hlast : ∀ u : State, (u.finishLoader b).pins = u.pins := fun u => by
      unfold State.finishLoader
      split <;> rfl
    rw [hlast, pins_finishTransport, pins_finishTransport, pins_finishLane, pins_finishLane]
  unfold State.loaderFields
  rw [hn, hpins]

/-- A lane whose mark is set at the end of its event has its refresh count raised there (R171). -/
theorem refresh_finish {s v : State} (h : Tells s.told v.told) (b : State) (l : LaneId)
    (hmark : ((v.lane l).marks.refresh || (v.lane l).marks.stateChanged) = true) :
    ((v.finish b).lane l).seq.refresh = (s.lane l).seq.refresh + 1 := by
  have hkept : (v.lane l).seq.refresh = (s.lane l).seq.refresh := (h l).refresh
  rw [lane_finish]
  unfold Lane.finished
  rw [if_pos hmark, hkept]

theorem rewrites_finish {s b v : State} (hb : s.SameFields b) (h : Tells s.told v.told) : s.Rewrites (v.finish b) := by
  obtain ⟨htransport, hloader⟩ := records_finish (s := v) b
  constructor
  case transport =>
    intro l hl
    obtain ⟨n, hn⟩ := tlc_finish v b l
    refine htransport l fun hsame => hl ?_
    rw [hn, ← hb.transport, ← hsame]
    rfl
  case loader =>
    intro hl
    exact hloader fun hsame => hl (by rw [loaderFields_finish, ← hb.loader, hsame])
  case status =>
    intro l hl
    by_cases hmark : ((v.lane l).marks.refresh || (v.lane l).marks.stateChanged) = true
    · exact status_finish b hmark
    · refine absurd ?_ hl
      rw [lane_finish]
      unfold Lane.finished
      rw [if_neg hmark]
      exact (h l).refresh
  case refreshed =>
    intro l hl
    rw [lane_finish] at hl
    have hmark : (v.lane l).marks.stateChanged = true := (h l).state.resolve_left hl
    exact refresh_finish h b l (by rw [hmark, Bool.or_true])

theorem tells_clearOutputs (s : State) (own : Option CellId) : Tells s.told (s.clearOutputs own).told :=
  (Tells.refl _).of_eq (told_clearOutputs s own)

/-- An own effect that marks each lane it leads to another state. -/
def TellsAlways (f : State → State) : Prop := ∀ (a : LaneId → Told) (s : State), Tells a s.told → Tells a (f s).told

theorem tellsAlways_of_told {f : State → State} (hf : ∀ s : State, (f s).told = s.told) : TellsAlways f :=
  fun _ s h => h.of_eq (hf s)

theorem rewrites_event {f : State → State} (hf : TellsAlways f) (s : State) : s.Rewrites (s.event f) :=
  rewrites_finish (sameFields_clearOutputs s _) (tells_carryOut (hf _ _ (tells_clearOutputs s _)))

theorem rewrites_onEvent {f : State → State} (hf : TellsAlways f) (s : State) (w : Bool) : s.Rewrites (s.onEvent w f) := by
  unfold State.onEvent
  split
  · exact rewrites_event hf s
  · exact .refl s

@[simp] theorem told_answer (s : State) (c : CellId) (k : Nat) (r : ResultCode) (d : Nat) : (s.answer c k r d).told = s.told :=
  told_of_lanes fun l => lane_answer s c k r d l

theorem sameFields_answer (s : State) (c : CellId) (k : Nat) (r : ResultCode) (d : Nat) :
    s.SameFields (s.answer c k r d) :=
  ⟨fun l => by cases l <;> cases c <;> rfl, by cases c <;> rfl⟩

theorem rewrites_attend {s : State} (c : CellId) (k : Nat) {v : Verdict} (hv : ∀ f, v = .taken f → TellsAlways f) :
    s.Rewrites ((s.taking c).attend c k v) := by
  cases v with
  | refused r d n =>
    refine State.SameFields.rewrites ?_ ((told_answer _ c k r _).trans ((told_countReads _ n).trans (told_clearOutputs s _)))
    have hanswer := sameFields_answer ((s.taking c).countReads n) c k r (d.getD ((s.taking c).detail c))
    have htaking := sameFields_clearOutputs s (some c)
    exact ⟨fun l => (hanswer.transport l).trans (Eq.trans (by cases l <;> rfl) (htaking.transport l)),
      hanswer.loader.trans htaking.loader⟩
  | taken f =>
    refine rewrites_finish (sameFields_clearOutputs s _) (Tells.of_eq ?_ (told_answer _ _ _ _ _))
    exact tells_carryOut (hv f rfl _ _ (tells_clearOutputs s _))

theorem rewrites_onCommand (s : State) (c : CellId) (k : Nat) {j : State → Verdict}
    (hj : ∀ (u : State) (f : State → State), j u = .taken f → TellsAlways f) : s.Rewrites (s.onCommand c k j) := by
  unfold State.onCommand
  split
  · exact rewrites_attend c k fun f hf => hj _ f hf
  · exact .refl s

theorem rewrites_byState (s : State) (l : LaneId) (k : Nat) (p : LaneState → Bool) {g : State → State} (hg : TellsAlways g) :
    s.Rewrites (s.onCommand (laneCell l) k fun u => u.judgeByState l p g) :=
  rewrites_onCommand s _ k fun _ _ hf => judgeByState_taken hf ▸ hg

theorem tells_judgePlace {s : State} {q : LoaderRequest} {f : State → State} (h : s.judgePlace q = .taken f) :
    TellsAlways f := by
  obtain ⟨-, rfl⟩ := judgePlace_taken h
  exact tellsAlways_of_told fun s => told_enqueue s q

/-! ### Every event -/

/-- The own effects of the events of the part (R123 to R142, R177 to R193). -/
theorem partEvent_rewrites (c : Instr) (s : State) (hc : partEvent c = true) : ∃ t, exec c s = .next t ∧ s.Rewrites t := by
  cases c <;> cases hc <;> refine ⟨_, rfl, ?_⟩
  case block t label marks pairs =>
    refine rewrites_onEvent (tellsAlways_of_told fun u => ?_) s _
    split
    · exact (told_arrive _ _ _).trans (told_updTlc u _ _)
    · exact told_updTlc u _ _
  case seekDone t address =>
    refine rewrites_onEvent (tellsAlways_of_told fun u => ?_) s _
    split
    · exact (told_due _ _).trans ((told_updLane _ _ _ fun x => openRun_told x).trans (told_changeTlc u _ _))
    · exact told_updTlc u _ _
  case seekFail t reason =>
    refine rewrites_onEvent (tellsAlways_of_told fun u => ?_) s _
    split
    · exact (told_badThen _ _ fun v => told_schedule v _ _).trans (told_changeTlc u _ _)
    · exact told_updTlc u _ _
  case status t x y => exact rewrites_onEvent (fun _ u h => tells_takeStatus (h.of_eq (told_updTlc u _ _)) _ _ _) s _
  case tocEntry | frameCheckError | frameKindInvalid | linkIdleInFrame =>
    exact rewrites_onEvent (tellsAlways_of_told fun u => told_updTlc u _ _) s _
  case tocEnd t n leadOut =>
    refine rewrites_onEvent (fun _ u h => ?_) s _
    dsimp only
    split
    · split
      · exact tells_completeToc h _ _
      · exact h.of_eq (told_updTlc u _ _)
    · exact h.of_eq (told_updTlc u _ _)
  case startupWindowExpiry t =>
    exact rewrites_onEvent (tellsAlways_of_told fun u => (told_setNews _ _ _).trans (told_changeTlc u _ _)) s _
  case tocLimitExpiry | seekTimerExpiry =>
    exact rewrites_onEvent (tellsAlways_of_told fun u =>
      (told_badThen _ _ fun v => told_changeTlc v _ _).trans (told_updTlc u _ _)) s _
  case stall t =>
    exact rewrites_onEvent (tellsAlways_of_told fun u =>
      (told_badThen _ _ fun v => told_schedule v _ _).trans (told_updTlc u _ _)) s _
  case spindleStopLimitExpiry t =>
    exact rewrites_onEvent (fun _ u h => tells_spindleAnswered (h.of_eq (told_changeTlc u _ _)) _) s _
  case checkCompletion =>
    split
    · exact .refl s
    · exact rewrites_onEvent (tellsAlways_of_told fun u => told_completeCheck u _) s _
  case playoutAdvance l => exact rewrites_onEvent (fun _ u h => tells_advance h l) s _
  case blockEndNotPlaying l => exact rewrites_onEvent (fun _ u h => tells_endBlock h l) s _
  case fallEnd l => exact rewrites_onEvent (fun _ u h => tells_endFall h l) s _
  case waitTimerExpiry place => exact rewrites_onEvent (tellsAlways_of_told fun u => told_updLoader u _) s _
  case stageEndTake w => exact rewrites_onEvent (fun _ u h => tells_takeEnd h w) s _
  case stageEndCarry => exact rewrites_onEvent (tellsAlways_of_told told_carryEnd) s _
  case stageEndPlace => exact rewrites_onEvent (fun _ u h => tells_placeEnd h) s _
  case stageEndSense w =>
    split
    · exact .refl s
    · exact rewrites_onEvent (fun _ u h => tells_senseEnd h _ w) s _
  case moveLimitExpiry => exact rewrites_onEvent (fun _ u h => tells_jam h) s _
  case settleTimerExpiry => exact rewrites_onEvent (tellsAlways_of_told told_settled) s _
  case recoveryTimerExpiry => exact rewrites_onEvent (tellsAlways_of_told told_endRecovery) s _
  case audioPortFrame l =>
    split
    · refine State.SameFields.rewrites ?_ ((told_updLane _ l _ fun x => ?_).trans (told_clearOutputs s _))
      · have hcleared := sameFields_clearOutputs s none
        exact ⟨fun k => (by rw [State.tlc_updLane]; exact hcleared.transport k), by cases l <;> rfl⟩
      · unfold Lane.frame
        repeat' split
        all_goals rfl
    · exact .refl s

/-- Exchange Memory written at the end of the initialisation, with the records as they stand (R202). -/
theorem sameFields_writeXm (s : State) : s.SameFields { s with pins := { s.pins with xmReady := true } }.writeXm where
  transport l := by
    rw [State.writeXm, State.tlc_setWords, State.tlc_setWords, State.tlc_setWords, State.tlc_setWords]
    cases l <;> rfl
  loader := by
    unfold State.loaderFields
    rw [State.writeXm, State.loader_setWords, State.loader_setWords, State.loader_setWords, State.loader_setWords]
    rfl

theorem recordEvent_rewrites (c : Instr) (s : State) (hc : recordEvent c = true)
    (hs : s.released = true ∨ c = .xmInitialisationDone) : ∃ t, exec c s = .next t ∧ s.Rewrites t := by
  by_cases hpart : partEvent c = true
  · exact partEvent_rewrites c s hpart
  cases c <;> first | exact absurd rfl hpart | exact absurd hc Bool.false_ne_true | refine ⟨_, rfl, ?_⟩
  case start l =>
    refine rewrites_onCommand s _ _ fun u f hf => ?_
    obtain ⟨-, rfl⟩ := judgeStart_taken hf
    exact fun _ v h => tells_startLane (h.of_eq (told_countReads v 1)) l _ _
  case stop l => exact rewrites_byState s l _ _ fun _ u h => tells_stopLane h l
  case pause l => exact rewrites_byState s l _ _ fun _ u h => tells_pauseLane h l
  case go l => exact rewrites_byState s l _ _ fun _ u h => tells_goLane h l
  case skip l => exact rewrites_byState s l _ _ fun _ u h => tells_skipLane h l
  case eject => exact rewrites_onCommand s _ _ fun _ f hf => tells_judgePlace (judgeEject_taken hf)
  case insert => exact rewrites_onCommand s _ _ fun _ f hf => tells_judgePlace (judgeInsert_taken hf)
  case rescan => exact rewrites_onCommand s _ _ fun _ f hf => tells_judgePlace hf
  case revive =>
    refine rewrites_onCommand s _ _ fun u f hf => ?_
    obtain ⟨l, rfl⟩ := judgeRevive_taken hf
    exact tellsAlways_of_told fun v => told_changeTlc v l _
  case apply =>
    refine rewrites_onCommand s _ _ fun u f hf => ?_
    obtain ⟨k, -, rfl⟩ := judgeApply_taken hf
    exact tellsAlways_of_told fun v => (told_applySettings _ k).trans (told_countReads v _)
  case attentionEmpty c =>
    split
    · have htaking := sameFields_clearOutputs s (some c)
      refine State.SameFields.rewrites ?_ ((told_setAttention _ _ _).trans (told_clearOutputs s _))
      exact ⟨fun l => Eq.trans (by cases l <;> cases c <;> rfl) (htaking.transport l),
        Eq.trans (by cases c <;> rfl) htaking.loader⟩
    · exact .refl s
  case unknownCommand c =>
    split
    · exact rewrites_attend c _ fun f hf => by cases hf
    · exact .refl s
  case mechanismStop x y => exact rewrites_onEvent (fun _ u h => tells_stopMechanism (h.of_eq (told_setLines u x y))) s _
  case mechanismReturn =>
    exact rewrites_onEvent (tellsAlways_of_told fun u => (told_returnMechanism _).trans (told_setLines u _ _)) s _
  case mechanismLineChange x y =>
    split
    · exact rewrites_onEvent (tellsAlways_of_told fun u => told_setLines u x y) s _
    · rename_i hnot
      exact absurd (hs.resolve_right (by simp)) hnot
  case xmInitialisationDone =>
    have hfields := sameFields_writeXm s
    split
    · generalize hu : State.writeXm _ = u at hfields ⊢
      have htold : u.told = s.told := by
        rw [← hu, State.writeXm, told_setWords, told_setWords, told_setWords, told_setWords]
        exact told_of_lanes fun k => by cases k <;> rfl
      have hrest := sameFields_clearOutputs u none
      refine rewrites_finish ⟨fun l => (hrest.transport l).trans (hfields.transport l), hrest.loader.trans hfields.loader⟩ ?_
      exact tells_carryOut (tells_release0 ((Tells.refl _).of_eq ((told_clearOutputs u _).trans htold)))
    · exact .refl s

/-! ### The refresh at a playout advance and at a SKIP (R171) -/

theorem advance_marks (s : State) (l : LaneId) : ((s.advance l).lane l).marks.refresh = true := by
  have hclaim : ((s.claimAdvance l).told l).due = true := by
    unfold State.claimAdvance
    rw [told_releasePassed, State.told, State.lane_updLane]
    rfl
  exact (tells_afterClaim l (Tells.refl _) l).due hclaim

theorem skipLane_marks (s : State) (l : LaneId) : ((s.skipLane l).lane l).marks.refresh = true := by
  unfold State.skipLane
  dsimp only
  rw [State.lane_updLane]
  rfl

theorem carryOut_marks {s : State} {f : State → State} {l : LaneId} (h : ((f s).lane l).marks.refresh = true) :
    ((s.carryOut f).lane l).marks.refresh = true :=
  (tells_carryOut (f := f) (s := s) (Tells.refl _) l).due h

/-- An advance that is due raises the lane's refresh count (R105, R171). -/
theorem refresh_of_advanceDue {s t : State} {l : LaneId} (h : s.AdvanceDue l) (ht : exec (.playoutAdvance l) s = .next t) :
    (t.lane l).seq.refresh = (s.lane l).seq.refresh + 1 := by
  obtain ⟨hreleased, hplaying, -, b, hblock, hnext, hposition⟩ := h
  have hdue : (s.lane l).atAdvance = true := by
    unfold Lane.atAdvance
    simp [hplaying, hblock, hnext, hposition, Config.pairsPerBlock]
  have hevent : exec (.playoutAdvance l) s = .next (s.event fun s => s.advance l) := by
    show Host.Outcome.next (s.onEvent _ _) = _
    rw [State.onEvent, hreleased, hdue]
    rfl
  cases hevent.symm.trans ht
  have htells := tells_carryOut (f := fun s => s.advance l) (tells_advance (tells_clearOutputs s none) l)
  have hmark := carryOut_marks (f := fun s => s.advance l) (advance_marks s.clearOutputs l)
  exact refresh_finish htells _ l (by rw [hmark, Bool.true_or])

/-- A SKIP that is taken raises the lane's refresh count (R167, R171). -/
theorem refresh_of_skipAdmitted {s t : State} {l : LaneId} (h : s.SkipAdmitted l) (ht : exec (.skip l) s = .next t) :
    (t.lane l).seq.refresh = (s.lane l).seq.refresh + 1 := by
  obtain ⟨hattends, hshare, hstate⟩ := h
  have hjudged : (s.taking (laneCell l)).judgeByState l LaneState.admitsSkip (fun s => s.skipLane l) =
      .taken fun s => s.skipLane l := by
    refine judgeByState_admits (by exact hshare) ?_
    rcases hstate with hs | hs | hs | hs <;> rw [hs] <;> rfl
  have hattend : exec (.skip l) s =
      .next ((s.taking (laneCell l)).attend (laneCell l) codeSkip (.taken fun s => s.skipLane l)) := by
    show Host.Outcome.next (s.onCommand _ _ _) = _
    rw [State.onCommand, if_pos hattends, hjudged]
  cases hattend.symm.trans ht
  have htells := tells_carryOut (f := fun s => s.skipLane l) (tells_skipLane (tells_clearOutputs s (laneCell l)) l)
  have hmark := carryOut_marks (f := fun s => s.skipLane l) (skipLane_marks (s.clearOutputs (laneCell l)) l)
  exact refresh_finish (htells.of_eq (told_answer _ _ _ _ _)) _ l (by rw [lane_answer, hmark, Bool.true_or])

/-- Settles O6: an event marks each lane that it leads to another state (`Tells`), and its end writes the records that it has
changed or marked (`rewrites_finish`). -/
theorem recordsRewritten : Obligations.RecordsRewritten := by
  intro c s hc hs
  obtain ⟨t, ht, hrewrites⟩ := recordEvent_rewrites c s hc hs
  refine ⟨t, ht, hrewrites.transport, hrewrites.loader, fun l => ⟨hrewrites.status l, ?_⟩⟩
  rintro (hstate | ⟨rfl, hdue⟩ | ⟨rfl, hskip⟩)
  · exact hrewrites.refreshed l hstate
  · exact refresh_of_advanceDue hdue ht
  · exact refresh_of_skipAdmitted hskip ht

end Sys2Proof.Machine
end
